-- ==== Sys2Proof/Word.lean ====
section
/-! DEFINITION. The words of the Birivo and the finite maps its state is made of. -/

namespace Sys2Proof

/-- One byte of memory. -/
abbrev Byte := BitVec 8
/-- One 32-bit register (R15). -/
abbrev Word := BitVec 32
/-- One 64-bit value: an even-aligned pair of registers (R25). -/
abbrev DWord := BitVec 64
/-- A program counter (R61). -/
abbrev Pc := BitVec 56

/-- A finite map from numbers: keys strictly rising, an absent key reading as the map's default. -/
abbrev FMap (α : Type) := List (Nat × α)

/-- Bits [31:0] of a pair (R25). -/
def DWord.lo (x : DWord) : Word := x.setWidth 32
/-- Bits [63:32] of a pair (R25). -/
def DWord.hi (x : DWord) : Word := (x >>> 32).setWidth 32
/-- The pair whose even register is `lo` and whose odd register is `hi` (R25). -/
def DWord.ofPair (lo hi : Word) : DWord := hi ++ lo

end Sys2Proof
end

