-- ==== Sys2Proof/Config.lean ====
section
/-! DEFINITION. What the spec leaves to the part or to chance (free values, with no body), the functions of cryptography
that the spec names without spelling out, and the sizes of the part. -/

namespace Sys2Proof.Config

/-! ### Free values: nothing in Lean can evaluate them (log entry 4: DESIGN CHOICE) -/

/-- Draw number `n`: which of several values that the spec permits is taken. -/
opaque choice (n : Nat) : Nat
/-- Where the host places BAR 2 of function 1 of a port in its addresses (R370, log entry 97). -/
opaque bar2At (port : Nat) : Nat
/-- Draw number `n`: whether a versioned write finds its slice's set without a free version way (R306, log entry 24: DESIGN CHOICE). -/
opaque versionFull (n : Nat) : Bool

/-- Draw number `n`: whether an EVT finds its die's trace staging full (R394, log entry 24: DESIGN CHOICE). -/
opaque stagingFull (n : Nat) : Bool

/-- Draw number `n`: whether a dependence is one too many to hold by sector (R306, log entry 24: DESIGN CHOICE). -/
opaque depCoarse (n : Nat) : Bool

/-! ### The part's own layout, which the spec does not give (log entry 65: DESIGN CHOICE) -/

/-- The HBM row, and the pseudo-channel, of a physical address (R397). -/
opaque rowOf (pa : Nat) : Nat
opaque channelOf (pa : Nat) : Nat
/-- The set of its home slice in which a sector's versions stand (R302, R306). -/
opaque versionSet (sector : Nat) : Nat

/-! ### Cryptography, named by R8, R378, R399 and R403 (log entry 12: DESIGN CHOICE) -/

/-- The SHA-512 digest of a byte string. -/
opaque sha512 (bytes : List Byte) : BitVec 512
/-- The Ed25519 signature of a digest under the part's identity key, and the key's public half. -/
opaque signIdentity (digest : BitVec 512) : BitVec 512
opaque identityPublic : BitVec 256
/-- Whether an Ed25519 signature of a digest holds under a public key. -/
opaque verifies (key : BitVec 256) (signature digest : BitVec 512) : Bool
/-- The fused SHA-512 digest of the Woward public key (R398). -/
opaque wowardDigest : BitVec 512

/-- What the debug port delivers of a confidential part in place of its state: ciphertext under the dump's own key (R391). -/
opaque dumpCipher (dumpNo part : Nat) : Nat

/-- Encryption of data units of some bits, with the decryption that undoes it. -/
structure Cipher (n : Nat) where
  enc : BitVec n → BitVec n := id
  dec : BitVec n → BitVec n := id
  undo : ∀ x, dec (enc x) = x := by exact fun _ => rfl
  deriving Inhabited

/-- AES-256-XTS under key number `k` with a tweak: of a 128-byte line, and of a colour tag (R378). -/
opaque xtsLine (k tweak : Nat) : Cipher 1024
opaque xtsTag (k tweak : Nat) : Cipher 12

/-! ### Sizes (R1, R4, R5, R7, R332, R371) -/

/-- Cores of the package. -/
def cores : Nat := 192
/-- Bytes of this part's HBM: physical addresses 0 to 0x5F_FFFF_FFFF (R371). -/
def hbmBytes : Nat := 0x6000000000
/-- Bytes of a core's scratchpad (R152). -/
def scratchBytes : Nat := 768 * 1024
/-- Bytes of a core's lane-private slices (R151). -/
def laneBytes : Nat := 256 * 1024
/-- Bytes of the chip scratchpad (R154). -/
def chipBytes : Nat := 128 * 1024 * 1024
/-- Lines of a core's L1 (256 KiB) and of its read-only cache (64 KiB); bundles of its instruction cache (128 KiB) and of
each quarter's fetch buffer (1 KiB) (R4, R157–R159). -/
def l1Lines : Nat := 2048
/-- Whether a host or peer refuses an access (R345, log entry 79: DESIGN CHOICE). -/
opaque extRefuses (n : Nat) : Bool
/-- What the Headstock sets a core's STATP to at the end of a tick, if it sets it (R32, R365; log entry 65: DESIGN CHOICE: the
spec does not say when, or to what). -/
opaque statpSet (core tick : Nat) : Option (BitVec 32)
def roLines : Nat := 512
def icacheBundles : Nat := 16384
def fetchBundles : Nat := 128
/-- TLB entries per core, cluster and die (R332). -/
def tlbCore : Nat := 256
def tlbCluster : Nat := 2048
def tlbDie : Nat := 16384
/-- Fault records per die (R337). -/
def faultRecords : Nat := 1024

/-! ### How far searches run: bounds of recursion, larger than any run of the part needs -/

/-- Fuel of searches over the part's own lists. -/
def fuel : Nat := 4096

end Sys2Proof.Config
end

