-- ==== Sys2Proof/Syntax.lean ====
section
/-! DEFINITION. The steps of the part, one constructor for each row of the opcode table: the bundles that a split
issues (R61 to R75), and the events by which the rest of the part moves. -/

namespace Sys2Proof

/-! ### Operands of bundles -/

/-- A 6-bit register specifier: `v n` is 0x00–0x1F, `k n` is 0x20–0x3F, and k31 is kz (R64). -/
inductive Reg where
  | v (n : BitVec 5)
  | k (n : BitVec 5)
  deriving DecidableEq, Repr

/-- The guard of an F-form bundle: predicate GP, negated when GN is 1 (R63). -/
structure Guard where
  neg : Bool
  p : BitVec 3
  deriving DecidableEq, Repr

/-- A source specifier with its EA, EB or EC bit: `trap` raises EMPTYREAD on an empty register (R27). -/
structure Src where
  reg : Reg
  trap : Bool
  deriving DecidableEq, Repr

/-- A float source: its flags take the absolute value first and negate after (R68). -/
structure FSrc where
  src : Src
  neg : Bool
  abs : Bool
  deriving DecidableEq, Repr

/-- A v register source with its EA bit, for the entries that take no k register. -/
structure VSrc where
  n : BitVec 5
  trap : Bool
  deriving DecidableEq, Repr

/-- The second operand chosen by MOD[3]: a register or IMM19 (R66). -/
inductive Opd where
  | reg (s : Src)
  | imm (i : BitVec 19)
  deriving DecidableEq, Repr

/-- The second operand of IADD64 (R86). -/
inductive Opd64 where
  | pair (s : Src)
  | zx (s : Src)
  | sx (s : Src)
  | imm (i : BitVec 19)
  deriving DecidableEq, Repr

/-- The field position and length of BFX and BFI (R91). -/
inductive FieldSel where
  | reg (s : Src)
  | imm (pos : BitVec 5) (len : BitVec 6)
  deriving DecidableEq, Repr

/-- The selector of BSEL (R93). -/
inductive SelOpd where
  | reg (s : Src)
  | imm (i : BitVec 16)
  deriving DecidableEq, Repr

/-- The lane operand of SHFL (R99). -/
inductive LaneOpd where
  | reg (s : Src)
  | imm (n : BitVec 5)
  deriving DecidableEq, Repr

/-- The operand of BARI: a register, or a member mask and an engine count (R219). -/
inductive BariOpd where
  | reg (s : Src)
  | imm (mask : BitVec 16) (engines : BitVec 3)
  deriving DecidableEq, Repr

/-- Conditions of ISET (R94). -/
inductive ICond where
  | eq | ne | lt | le | gt | ge
  deriving DecidableEq, Repr

/-- Conditions of FSET (R114). -/
inductive FCond where
  | eq | ne | lt | le | gt | ge | num | nan | equ | ltu | leu | gtu | geu
  deriving DecidableEq, Repr

/-- Operations of PSET (R95). -/
inductive POp where
  | and | or | xor
  deriving DecidableEq, Repr

/-- The two forms of PMOV (R95). -/
inductive PMov where
  | get (d : Reg)
  | put (a : Src) (mask : BitVec 7)
  deriving DecidableEq, Repr

/-- Modes of SHFL (R99). -/
inductive ShMode where
  | idx | up | down | xor
  deriving DecidableEq, Repr

/-- The three forms of VOTE with their destinations (R100). -/
inductive VoteDst where
  | all (p : BitVec 3)
  | any (p : BitVec 3)
  | ballot (d : Reg)
  deriving DecidableEq, Repr

/-- Operations of REDUX (R100). -/
inductive RedOp where
  | add | min | max | minu | maxu | and | or | xor
  deriving DecidableEq, Repr

/-- Rounding modes; the codes are the same in every field of the part (R37). -/
inductive RMode where
  | rn | rz | ru | rd
  deriving DecidableEq, Repr

/-- The rounding a bundle names: static, or by FRM (R68). -/
inductive Rnd where
  | st (m : RMode)
  | dyn
  deriving DecidableEq, Repr

/-- Access widths (R69). -/
inductive Width where
  | u8 | s8 | u16 | s16 | b32 | b64 | b128
  deriving DecidableEq, Repr

/-- Address spaces (R69). -/
inductive Space where
  | g | c | x | h | l
  deriving DecidableEq, Repr

/-- Operations of ATOM and RED (R205). -/
inductive AOp where
  | add | min | max | minu | maxu | and | or | xor | exch | cas | fadd
  deriving DecidableEq, Repr

/-- Scopes (R179, R205). -/
inductive Scope where
  | wave | block | cluster | device | system
  deriving DecidableEq, Repr

/-- Ordering of an atomic (R205). -/
inductive AOrd where
  | rlx | acq | rel | acqrel
  deriving DecidableEq, Repr

/-- Kinds of FENCE (R208). -/
inductive FenceKind where
  | acq | rel | full
  deriving DecidableEq, Repr

/-- Page sizes of ALLOC (R213). -/
inductive PageSize where
  | k64 | m2 | m64
  deriving DecidableEq, Repr

/-- The field identifiers of SHSET and SHGET (R234). -/
inductive ShField where
  | base
  | ext (k : BitVec 2)
  | str (k : BitVec 2)
  | box (k : BitVec 2)
  | ring | slotb | slots | rank | fslot | oob | alg
  deriving DecidableEq, Repr

/-- Subclasses of ILLEGAL (R145). -/
inductive IllSub where
  | reserved | future | field | pair | operand
  deriving DecidableEq, Repr

/-! ### Halves of a pair bundle (R70 to R72) -/

/-- Halves that read d and a. -/
inductive HRR where
  | iadd | isub | imul | and | or | xor | mov | imin | imax | fadd | fsub | fmul | fmin | fmax
  deriving DecidableEq, Repr

/-- Halves that shift d by an immediate. -/
inductive HSh where
  | shl | shr | sar
  deriving DecidableEq, Repr

/-- Halves that take the 13-bit immediate. -/
inductive HRI where
  | iadd | movi | and | or | xor
  deriving DecidableEq, Repr

/-- One half (R72). -/
inductive Half where
  | nop
  | rr (op : HRR) (d a : Reg)
  | sh (op : HSh) (d : Reg) (n : BitVec 5)
  | ri (op : HRI) (d : Reg) (x : BitVec 13)
  | shfl (d : Reg) (a : BitVec 5) (n : BitVec 5)
  deriving DecidableEq, Repr

/-! ### Data that events bring from outside the cores -/

/-- A leaf that system software asks the Headstock to write (R331): with V 0 it ends a mapping. `level` is 2 (64 MiB), 3 (2 MiB)
or 4 (64 KiB). -/
structure LeafReq where
  v : Bool
  level : Nat
  va : BitVec 56
  kind : BitVec 2
  link : BitVec 4
  pa : BitVec 52
  x : Bool
  w : Bool
  r : Bool
  deriving DecidableEq, Repr

/-- What the Vorzil root finds in the flash at power-on (R398, R403): the bytes of the image and the public key beside it; and what
the firmware says of the tick root (R373) and of the access tables (R374), in a form that the spec does not give. -/
structure BootImage where
  bytes : List Byte
  key : BitVec 256
  tickRoot : Bool
  access : List (Nat × BitVec 16)
  deriving DecidableEq, Repr

/-- A request of a host function or link peer to this part's HBM (R371, R372). -/
inductive ExtReq where
  | read (addr : BitVec 64) (n : Nat)
  | write (addr : BitVec 64) (data : List Byte)
  | atomic (op : AOp) (b64 : Bool) (addr : BitVec 64) (v cmp : BitVec 64)
  | futres (addr : BitVec 64) (faulted : Bool) (v : BitVec 64)
  | futget (addr : BitVec 64)
  | futnew (addr : BitVec 64)
  /-- a 128-bit CAS, which no port supports (R370) -/
  | cas128 (addr : BitVec 64)
  deriving DecidableEq, Repr

/-- How an external access ends: with data or an acknowledgement, with Unsupported Request or Completer Abort of a host port,
or with a link's error response (R207, R345, R353, R370, R371, R376). -/
inductive ExtResp where
  | data (bytes : List Byte)
  | ack
  | ur | ca | linkError
  deriving DecidableEq, Repr

/-- A context's doorbell, in BAR 2 of function 1 of a host port (R319, R320). -/
structure Doorbell where
  port : Bool
  ctx : BitVec 6
  deriving DecidableEq, Repr

/-- The engines that move data after issue (R240). -/
inductive EngineId where
  | transfer
  | channel (n : BitVec 2)
  | mcast
  | bld
  | mdrain
  deriving DecidableEq, Repr

/-- The structures of R395, by their codes, with the place of the error. -/
inductive ErrPlace where
  | hbm (pa : BitVec 52)
  | tag (pa : BitVec 52)
  | slice (pa : BitVec 52)
  | vreg (core slot lane n : Nat)
  | kreg (core slot n : Nat)
  | hreg (core slot lane n : Nat)
  | scratch (bid off : Nat)
  | cluster (lid lc off : Nat)
  | chip (ctx off : Nat)
  | lanePriv (core slot lane off : Nat)
  | bstore (core unit : Nat)
  | acc (core : Nat) (set : Bool)
  | pte (ctx : BitVec 6) (pa : BitVec 52)
  | record (ctx : BitVec 6) (pa : BitVec 52)
  | cache (core : Nat) (pa : BitVec 52)
  deriving DecidableEq, Repr

/-- The register classes of a debug command (R386). -/
structure DbgSel where
  cls : BitVec 4
  idx : BitVec 12
  deriving DecidableEq, Repr

/-- The steps of the part. -/
inductive Instr where
  -- integer, logic, compare and move (R85 to R97)
  | iadd (g : Guard) (d : Reg) (a : Src) (b : Opd)
  | isub (g : Guard) (d : Reg) (a : Src) (b : Opd)
  | imul (g : Guard) (d : Reg) (a : Src) (b : Opd)
  | imulh (g : Guard) (d : Reg) (a : Src) (b : Opd) (u : Bool)
  | imad (g : Guard) (d : Reg) (a b c : Src)
  | iadd64 (g : Guard) (d : Reg) (a : Src) (b : Opd64)
  | idiv (g : Guard) (d : Reg) (a b : Src) (u : Bool)
  | irem (g : Guard) (d : Reg) (a b : Src) (u : Bool)
  | imin (g : Guard) (d : Reg) (a : Src) (b : Opd) (u : Bool)
  | imax (g : Guard) (d : Reg) (a : Src) (b : Opd) (u : Bool)
  | iabs (g : Guard) (d : Reg) (a : Src)
  | ineg (g : Guard) (d : Reg) (a : Src)
  | lea (g : Guard) (d : Reg) (a b : Src) (sx : Bool) (sh : BitVec 3)
  | imadw (g : Guard) (d : Reg) (a b c : Src) (u : Bool)
  | and (g : Guard) (d : Reg) (a : Src) (b : Opd)
  | or (g : Guard) (d : Reg) (a : Src) (b : Opd)
  | xor (g : Guard) (d : Reg) (a : Src) (b : Opd)
  | andn (g : Guard) (d : Reg) (a : Src) (b : Opd)
  | not (g : Guard) (d : Reg) (a : Src)
  | shl (g : Guard) (d : Reg) (a : Src) (b : Opd)
  | shr (g : Guard) (d : Reg) (a : Src) (b : Opd)
  | sar (g : Guard) (d : Reg) (a : Src) (b : Opd)
  | rotl (g : Guard) (d : Reg) (a : Src) (b : Opd)
  | popc (g : Guard) (d : Reg) (a : Src)
  | clz (g : Guard) (d : Reg) (a : Src)
  | brev (g : Guard) (d : Reg) (a : Src)
  | bfx (g : Guard) (d : Reg) (a : Src) (f : FieldSel) (s : Bool)
  | bfi (g : Guard) (d : Reg) (a : Src) (f : FieldSel) (c : Src)
  | bperm (g : Guard) (d : Reg) (a b : Src) (hi : Bool)
  | bsel (g : Guard) (d : Reg) (a b : Src) (sel : SelOpd)
  | iset (g : Guard) (p : BitVec 3) (a : Src) (b : Opd) (cond : ICond) (u : Bool)
  | isel (g : Guard) (d : Reg) (a : Src) (b : Opd) (p : BitVec 3) (neg : Bool)
  | mov (g : Guard) (d : Reg) (a : Src) (wide : Bool)
  | movi (g : Guard) (d : Reg) (x : Word)
  | movk (g : Guard) (kd : BitVec 5) (a : VSrc) (lane : BitVec 5)
  | pset (g : Guard) (p pa : BitVec 3) (na : Bool) (pb : BitVec 3) (nb : Bool) (op : POp)
  | pmov (g : Guard) (m : PMov)
  -- cross-lane (R98 to R100)
  | shfl (g : Guard) (d : Reg) (a : VSrc) (n : LaneOpd) (w : BitVec 3) (mode : ShMode)
  | vote (g : Guard) (dst : VoteDst) (pa : BitVec 3) (neg : Bool)
  | redux (g : Guard) (d : Reg) (a : VSrc) (op : RedOp)
  -- floating point (R112 to R116)
  | fadd (g : Guard) (f64 : Bool) (r : Rnd) (d : Reg) (a b : FSrc)
  | fsub (g : Guard) (f64 : Bool) (r : Rnd) (d : Reg) (a b : FSrc)
  | fmul (g : Guard) (f64 : Bool) (r : Rnd) (d : Reg) (a b : FSrc)
  | ffma (g : Guard) (f64 : Bool) (r : Rnd) (d : Reg) (negD absD : Bool) (a b : FSrc)
  | fmin (g : Guard) (f64 : Bool) (d : Reg) (a b : FSrc)
  | fmax (g : Guard) (f64 : Bool) (d : Reg) (a b : FSrc)
  | fset (g : Guard) (f64 : Bool) (p : BitVec 3) (a b : FSrc) (cond : FCond) (sig : Bool)
  | fdiv (g : Guard) (f64 : Bool) (r : Rnd) (d : Reg) (a b : FSrc)
  | fsqrt (g : Guard) (f64 : Bool) (r : Rnd) (d : Reg) (a : FSrc)
  | frcp (g : Guard) (f64 : Bool) (r : Rnd) (d : Reg) (a : FSrc)
  | frsq (g : Guard) (f64 : Bool) (r : Rnd) (d : Reg) (a : FSrc)
  | fexp2 (g : Guard) (f64 : Bool) (r : Rnd) (d : Reg) (a : FSrc)
  | flog2 (g : Guard) (f64 : Bool) (r : Rnd) (d : Reg) (a : FSrc)
  | fsin (g : Guard) (f64 : Bool) (r : Rnd) (d : Reg) (a : FSrc)
  | fcos (g : Guard) (f64 : Bool) (r : Rnd) (d : Reg) (a : FSrc)
  | fclass (g : Guard) (f64 : Bool) (d : Reg) (a : FSrc)
  -- conversions (R117 to R123)
  | frnd (g : Guard) (f64 : Bool) (r : Rnd) (d : Reg) (a : Src)
  | f2i (g : Guard) (f64 : Bool) (r : Rnd) (d : Reg) (a : Src) (ty : BitVec 2)
  | i2f (g : Guard) (f64 : Bool) (r : Rnd) (d : Reg) (a : Src) (ty : BitVec 2)
  | f2f (g : Guard) (narrow : Bool) (r : Rnd) (d : Reg) (a : Src)
  | cvt (g : Guard) (out : Bool) (d : Reg) (a : Src) (slot : BitVec 3)
  | cvtp (g : Guard) (d : Reg) (a : Src) (slot : BitVec 3)
  | cvtu (g : Guard) (d : Reg) (a : Src) (slot : BitVec 3)
  | tfence (g : Guard)
  -- packed halves and algebra (R124 to R130)
  | hadd2 (g : Guard) (bf : Bool) (r : Rnd) (d : Reg) (a b : FSrc)
  | hmul2 (g : Guard) (bf : Bool) (r : Rnd) (d : Reg) (a b : FSrc)
  | hfma2 (g : Guard) (bf : Bool) (r : Rnd) (d : Reg) (negD absD : Bool) (a b : FSrc)
  | almul (g : Guard) (r : Rnd) (d : Reg) (a b : Src) (t : BitVec 2)
  | almac (g : Guard) (r : Rnd) (d : Reg) (a b : Src) (t : BitVec 2)
  | alconj (g : Guard) (d : Reg) (a : Src) (t : BitVec 2)
  | alnorm (g : Guard) (r : Rnd) (d : Reg) (a : Src) (t : BitVec 2)
  | altab (g : Guard) (al : BitVec 2) (a : Src) (off : BitVec 16)
  | altabTableRead (core : Nat)
  -- control (R101 to R109)
  | bra (g : Guard) (off : BitVec 19)
  | brx (g : Guard) (a : Src) (off : BitVec 19)
  | call (g : Guard) (off : BitVec 19)
  | callx (g : Guard) (a : Src) (off : BitVec 19)
  | ret (g : Guard)
  | exit (g : Guard)
  | merge
  | yield
  | nop (g : Guard)
  | trap (g : Guard) (code : BitVec 19)
  | rtt
  | rts
  | brk (g : Guard) (code : BitVec 19)
  -- memory (R200 to R214)
  | ld (g : Guard) (d : Reg) (a : Src) (w : Width) (sp : Space) (off : BitVec 16)
  | st (g : Guard) (a b : Src) (w : Width) (sp : Space) (off : BitVec 16)
  | ldr (g : Guard) (d : Reg) (a : Src) (w : Width) (off : BitVec 16)
  | gath (g : Guard) (d : Reg) (a : Src) (w : Width) (sp : Space) (off : BitVec 16) (cb : BitVec 2)
  | scat (g : Guard) (a b : Src) (w : Width) (sp : Space) (off : BitVec 16) (cb : BitVec 2)
  | pref (g : Guard) (a : Src) (l2 : Bool) (off : BitVec 16)
  | atom (g : Guard) (op : AOp) (d : Reg) (a b : Src) (c : Option Src) (b64 : Bool) (scope : Scope) (ord : AOrd) (sp : Space)
  | red (g : Guard) (op : AOp) (a b : Src) (b64 : Bool) (scope : Scope) (rel : Bool) (sp : Space)
  | fence (g : Guard) (kind : FenceKind) (scope : Scope)
  | ifence (g : Guard)
  | roinv (g : Guard)
  | clrset (g : Guard) (a b c : Src)
  | clrget (g : Guard) (d : Reg) (a : Src) (off : BitVec 16)
  | monq (g : Guard) (d : Reg) (a : Src)
  | alloc (g : Guard) (d : Reg) (a : Src) (pg : PageSize)
  | free (g : Guard) (a : Src)
  -- waiting and barriers (R215 to R222)
  | wait (g : Guard) (d : Reg) (a b c : VSrc) (all rel : Bool)
  | waitTimeout (wid lane : Nat)
  | waitWordReread (wid lane : Nat)
  | bari (g : Guard) (bn : BitVec 4) (o : BariOpd)
  | bara (g : Guard) (d : Reg) (bn : BitVec 4) (w : Bool)
  | barq (g : Guard) (d : Reg) (bn : BitVec 4)
  -- copies, streams and shapes (R228 to R251)
  | cpa (g : Guard) (a b : Src) (c : Option Src) (tag : BitVec 2) (off : BitVec 16)
  | cpaLand (wid : Nat) (tag : BitVec 2)
  | bcopy (g : Guard) (st : Bool) (sh : BitVec 4) (cnt idx : BitVec 4) (bar : Option (BitVec 4)) (fut : Option Src)
  | bcopyTransferComplete (core : Nat)
  | engineStop (core : Nat) (e : EngineId)
  | mcast (g : Guard) (a b : Src) (mask : BitVec 8) (bar : Option (BitVec 4))
  | mcastDelivery (core : Nat)
  | slotf (g : Guard) (role : BitVec 3) (n : BitVec 4)
  | shld (g : Guard) (sh : BitVec 4) (a : Src) (scratch : Bool) (off : BitVec 16)
  | shst (g : Guard) (sh : BitVec 4) (a : Src) (scratch : Bool) (off : BitVec 16)
  | shset (g : Guard) (sh : BitVec 4) (f : ShField) (a : Src)
  | shget (g : Guard) (d : Reg) (sh : BitVec 4) (f : ShField)
  | strm (g : Guard) (st : Bool) (ch : BitVec 2) (sh : BitVec 4) (bar : Option (BitVec 4)) (fut : Option Src)
  | channelTile (core : Nat) (ch : BitVec 2)
  | strmq (g : Guard) (d : Reg) (ch : BitVec 2)
  | rsig (g : Guard) (ch : BitVec 2)
  -- the array (R254 to R279)
  | mma (g : Guard) (z pair : Bool) (acc : Bool) (sh : BitVec 4) (b : Src) (slot : BitVec 3)
  | mmaRun (core : Nat)
  | mzero (g : Guard) (pair : Bool) (acc : Bool)
  | mzeroRun (core : Nat)
  | bld (g : Guard) (sh : BitVec 4) (b : Src) (bar : Option (BitVec 4)) (fut : Option Src)
  | bldRun (core : Nat)
  | mdrain (g : Guard) (pair i : Bool) (acc : Bool) (sh : BitVec 4) (res : Option (BitVec 4)) (bar : Option (BitVec 4)) (fut : Option Src)
  | mdrainRun (core : Nat)
  | epil (g : Guard) (a : Src) (scratch : Bool) (off : BitVec 16)
  | epilRun (core : Nat)
  | mq (g : Guard) (d : Reg)
  -- tasks and futures (R280 to R315)
  | spawn (g : Guard) (pri : BitVec 2) (a b : Src) (dom : Option (BitVec 4 × Src))
  | queueSegmentLink (ctx : BitVec 6) (cluster : Nat) (pri : BitVec 2)
  | spawnf (g : Guard) (pri : BitVec 2) (a b c : Src) (n : BitVec 2)
  | futureRegistration (ctx : BitVec 6)
  | futnew (g : Guard) (a : Src) (off : BitVec 16)
  | futres (g : Guard) (faulted : Bool) (a b : Src) (off : BitVec 16)
  | futget (g : Guard) (d : Reg) (a : Src) (off : BitVec 16)
  | tself (g : Guard) (d : Reg)
  | tabort (g : Guard) (drop : Bool)
  | tirrev (g : Guard)
  -- system (R110, R394)
  | csrr (g : Guard) (d : Reg) (num : BitVec 12)
  | csrw (g : Guard) (num : BitVec 12) (a : Src)
  | evt (g : Guard) (a : Src) (code : BitVec 16)
  -- pairs, and bundles that are no instruction (R71, R74)
  | pairBundle (x y : Half)
  | illegalBundle (sub : IllSub) (pair slot : Bool)
  -- what a wave does beside issuing (R142, R387, R61)
  | trapEntry (wid : Nat)
  | pcMatchEntry
  | fetchFault
  | loadDataReturn (wid idx : Nat)
  | longOpComplete (wid idx : Nat)
  | slowCsrReturn (wid idx : Nat)
  | waveEnd (wid : Nat)
  -- the Headstock, the Chucks and the distributor
  | faultRecordService (map : Option LeafReq)
  | taskPromote (ctx : BitVec 6) (seq : Nat)
  | chuckScan (cluster : Nat)
  | chuckWindowExpire (cluster idx : Nat)
  | taskWavePlace (cluster idx : Nat)
  | taskCommit (ctx : BitVec 6) (dom : BitVec 4)
  | taskMove (ctx : BitVec 6) (pri : BitVec 2) (src dst n : Nat)
  | doorbellWrite (bell : Doorbell) (tail : BitVec 32)
  | ringEntryTake (ctx : BitVec 6)
  | blockPlace (ctx : BitVec 6)
  | blockRetire (bid : Nat)
  | launchEnd (lid : Nat)
  | create (ctx : BitVec 6)
  | destroy (ctx : BitVec 6)
  | suspend (ctx : BitVec 6)
  | resume (ctx : BitVec 6)
  | status (ctx : BitVec 6)
  | setvw (arg : BitVec 2)
  | quantumExpire (ctx : BitVec 6)
  | preempt (ctx : BitVec 6)
  | outstandingResponse (wid idx : Nat) (resp : ExtResp)
  | contextRestore (ctx : BitVec 6)
  | waveEvict (wid : Nat)
  | waveReturn (wid : Nat)
  | evacuationPageSend
  | pageReturn (ctx : BitVec 6)
  | mapRequest (ctx : BitVec 6) (leaf : LeafReq)
  | invalidation (ctx : BitVec 6) (va : BitVec 56) (bytes : Nat)
  -- power, host ports, links
  | powerOnReset (img : BootImage)
  | powerOff
  | staticEnergyTick
  | hostPortTrain (port : Bool) (lanes rate : Nat)
  | hostPortDown (port : Bool)
  | hostWindowAccess (port : Bool) (fn : Bool) (req : ExtReq)
  | functionLevelReset (port : Bool) (fn : Bool)
  | peerRequest (link : BitVec 4) (req : ExtReq)
  | flitReplay (link : BitVec 4)
  | linkFailure (link : BitVec 4)
  | linkRetrainTimeout (link : BitVec 4)
  | linkTrain (link : BitVec 4) (upstream : BitVec 64)
  | tickSync (upstream : BitVec 64)
  | tickRootLost (link : BitVec 4)
  -- debug, trace and profiling
  | registerWrite (addr : BitVec 32) (value : BitVec 64)
  | traceEnableWrite (value : BitVec 64)
  | stallSample
  | halt (core slot : Nat)
  | debugResume (core slot : Nat)
  | read (core slot lane : Nat) (sel : DbgSel)
  | write (core slot lane : Nat) (sel : DbgSel)
  | freezeArm (linked : Bool)
  | freezeStart
  | freezeResume
  | linkedArmArrival (link : BitVec 4) (frzt : BitVec 64)
  | linkedResumeArrival (link : BitVec 4)
  | pmcOverflow (core : Nat) (n : BitVec 3)
  | pmovfClear (core : Nat) (mask : BitVec 8)
  -- errors, identity and power
  | attest (ctx : BitVec 6)
  | capWrite (value : BitVec 64)
  | thermalThreshold (temp : BitVec 8)
  | clockStepChange
  | coreGate (core : Nat)
  | coreUngate (core : Nat)
  | memoryError (place : ErrPlace) (unc : Bool)
  deriving DecidableEq, Repr

end Sys2Proof
end

