-- ==== Sys2Proof/Machine/State.lean ====
section
/-! DEFINITION. The state of the Birivo: everything the spec gives the part, as plain data, and its value at reset.

Maps are sorted association lists (`FMap`); a key that is not listed reads as the default that the accessor names.
Memory is one list of cells in canonical form; its keys are built by `PAddr.key` (Machine/Ops.lean). -/

namespace Sys2Proof.Machine

/-- Memory: cells with rising keys, none holding the byte an unlisted key reads as, which is 0. -/
abbrev Memory := List Host.Cell

/-! ### Registers of a lane -/

/-- What a register holds beside its value, when it is not full (R26, R199). -/
inductive RegStat where
  /-- empty: the PC of the producer that last marked it, and that bundle's issue number (R29) -/
  | empty (pc : Pc) (issue : Nat)
  /-- poisoned: the failing address and its space (R199) -/
  | poison (addr : BitVec 64) (space : BitVec 3)
  deriving DecidableEq, Repr

/-- A frame record (R20). -/
structure Frame where
  /-- RPC -/
  rpc : Pc
  /-- KIND: 1 for a trap frame -/
  trap : Bool
  /-- ENTERED -/
  entered : BitVec 8
  deriving DecidableEq, Repr

/-- Where one entry of the hardware stack lies (R21): a 16-byte record or a 96-byte block, its offset, in the
lane-private allocation or in the global spill area. -/
structure StackEntry where
  block : Bool
  global : Bool
  off : Nat
  deriving DecidableEq, Repr

/-- A task record (R281), with what the part keeps beside it: the spawn priority (R296, R305), the FMASK of the join
record (R296), the parent in the domain (R305), and the queue's cluster (R280). -/
structure TaskRec where
  fj : Bool
  cont : Bool
  pri : BitVec 2
  dom : BitVec 4
  entry : Pc
  ts : BitVec 64
  seq : BitVec 64
  lid : Nat
  enq : BitVec 48
  args : List Word
  spri : BitVec 2
  fmask : BitVec 4
  parent : Option (BitVec 64)
  cluster : Nat
  deriving DecidableEq, Repr

/-- One lane of a wave. -/
structure Lane where
  /-- the lane has not exited (R131) -/
  alive : Bool
  /-- p1 to p7 in bits 1 to 7; bit 0 is not used, since p0 reads true (R24) -/
  preds : BitVec 8
  /-- WDEPTH (R18) -/
  wdepth : BitVec 12
  /-- the frame head (R19, R20) -/
  head : Frame
  /-- held-colour slots 0–7 whose V is 1, with their colours (R166) -/
  held : FMap (BitVec 12)
  /-- HLOW and PHIGH, and the global spill bytes in use (R21) -/
  hlow : Nat
  phigh : Nat
  gUsed : Nat
  /-- the pushed entries, newest first (R21) -/
  stack : List StackEntry
  /-- FPSR and FPEN (R35) -/
  fpsr : BitVec 7
  fpen : BitVec 7
  /-- the task that the lane runs (R285) -/
  task : Option TaskRec
  deriving DecidableEq, Repr

/-! ### Waits -/

/-- A latched descriptor of WAIT (R216): every register it names has been read. -/
inductive Cond where
  | tag (t : BitVec 2) (threshold : Nat)
  | bar (b : BitVec 4) (phase : Bool)
  /-- the future and the word by their memory keys, and the future's address -/
  | fut (key addr : Nat)
  | word (key : Nat) (value : Word) (equal : Bool)
  | array (ops : List Nat)
  | chan (c : BitVec 2)
  deriving DecidableEq, Repr

/-- A WAIT or BARA.w in progress (R217, R220). -/
structure WaitRec where
  /-- BARA.w: the result is the phase and LASTERR; otherwise WAIT's mask -/
  bara : Bool
  /-- the non-none descriptors, by index 0–3 -/
  conds : FMap Cond
  latched : BitVec 4
  all : Bool
  deadline : Option (BitVec 64)
  /-- destination and active lanes -/
  dst : Reg
  lanes : Word
  /-- latched descriptors of a barrier whose phase a wider release completed (R190) -/
  wide : BitVec 4
  /-- STEP falls due behind its bundle (R142) -/
  step : Bool
  deriving DecidableEq, Repr

/-! ### Splits -/

/-- STATE of a split (R134). -/
inductive SplitState where
  | ready | parked | trapped
  deriving DecidableEq, Repr

/-- REASON of a split (R134). -/
inductive Reason where
  | none | colour | wait | page | frontier | halt
  deriving DecidableEq, Repr

/-- HOLD of a split (R134): held at MERGE (R108), at RTT (R105), or at RTS as an RTT is (R389). -/
inductive Hold where
  | none | merge | rtt
  deriving DecidableEq, Repr

/-- The values of a trap (R144). -/
structure TrapVals where
  cause : BitVec 8
  pc : Pc
  mask : Word
  addr : BitVec 64
  info : Word
  deriving DecidableEq, Repr

/-- A split-table entry or stack entry (R134), with what the part keeps beside it. -/
structure Split where
  state : SplitState
  reason : Reason
  hold : Hold
  /-- LEVEL: 0, 1 or 2 -/
  level : BitVec 2
  pc : Pc
  mask : Word
  /-- CAUSE and the kept values of a pending trap -/
  trap : Option TrapVals
  /-- the issue number at which the split last issued; 0 is never (R138) -/
  lastIssue : Nat
  /-- the issue number at which it parked (R137) -/
  parkedAt : Nat
  /-- the WAIT or BARA.w it is parked on -/
  wait : Option WaitRec
  /-- granules (die, VA[55:16]) whose records it is parked on (R338) -/
  pages : List (Nat × Nat)
  /-- granules whose record closed CLOSED NONE, for the retry (R339) -/
  denied : List Nat
  /-- the array operation, ALTAB or EPIL, that the split's bundle waits for (R129, R272) -/
  busy : Option Nat
  /-- the split runs a PC-match handler (R389) -/
  handler : Bool
  /-- the next issue is the one an RTS resumes (R387) -/
  resumed : Bool
  /-- in a wave that the debugger halted: its STATE and REASON in the halt record (R386) -/
  kept : Option (SplitState × Reason)
  deriving DecidableEq, Repr

/-! ### Outstanding work of a wave -/

/-- What an outstanding producer is (R26). -/
inductive OutKind where
  | load | long | csr | futget
  /-- an atomic at host or peer memory, and a write there that has still to be acknowledged (R353, R372) -/
  | atom | ack
  deriving DecidableEq, Repr

/-- What an outstanding write or atomic has changed at host or peer memory: the memory key, and the bytes there before and after. -/
structure Undo where
  key : Nat
  old : List Byte
  new : List Byte
  deriving DecidableEq, Repr

/-- One lane's outstanding producer. -/
structure Out where
  kind : OutKind
  lane : Nat
  /-- PC of the bundle -/
  pc : Pc
  /-- the destination, as (register file, key): 0 v, 1 k, 2 h -/
  dst : List (Nat × Nat)
  /-- the values to write -/
  vals : List Word
  /-- uncorrectable data: the address and the space it poisons with (R199) -/
  bad : Option (BitVec 64 × BitVec 3)
  /-- FPSR flags a long function sets (R116) -/
  flags : BitVec 7
  /-- the future of a FUTGET, as a memory key; the address of another access -/
  fut : Nat
  /-- the outbound target, 9–26, of an access that goes to host or peer memory (R353, R374) -/
  via : Option Nat
  /-- MODEL: what the access did there when it was issued, which goes back if it fails (log entry 15) -/
  undo : Option Undo
  deriving DecidableEq, Repr

/-- One lane's share of a CPA in flight (R237). -/
structure CpaLane where
  lane : Nat
  dst : Nat
  bytes : List Byte
  /-- address of source data that is uncorrectable, or never came -/
  bad : Option (BitVec 64)
  src : BitVec 64
  /-- the outbound target that its bytes are still to come through -/
  via : Option Nat
  deriving DecidableEq, Repr

/-- A CPA in flight (R161). -/
structure CpaOp where
  tag : BitVec 2
  lanes : List CpaLane
  deriving DecidableEq, Repr

/-- PC-match state of a wave (R388): the entry, the matched PC and the lanes that entered. -/
structure MatchState where
  entry : Nat
  mpc : Pc
  lanes : Word
  deriving DecidableEq, Repr

/-- One wave. -/
structure Wave where
  ctx : Nat
  lid : Nat
  bid : Nat
  /-- wave index within the block -/
  widx : Nat
  /-- core and slot, none while saved or evicted -/
  place : Option (Nat × Nat)
  /-- the slot it holds or held, 16 × quarter + slot (R356) -/
  slot : Nat
  evicted : Bool
  /-- while evicted: the entries of its lanes in the global spill area (R357) -/
  spillSave : FMap (List Byte)
  lanes : FMap Lane
  /-- v registers: key 1024 × lane + physical position (R18); default 0 -/
  vregs : FMap Word
  vstat : FMap RegStat
  /-- k0–k30; default 0 -/
  kregs : FMap Word
  kstat : FMap RegStat
  /-- h registers: key 16 × lane + n; default 0 -/
  hregs : FMap Word
  hstat : FMap RegStat
  /-- cb0–cb3 -/
  cb : FMap Word
  /-- resident split entries 0–3 -/
  entries : FMap Split
  /-- the overflow stack, top first -/
  overflow : List Split
  tlevel : BitVec 2
  /-- trap CSR sets of levels 1 and 2 -/
  traps : FMap TrapVals
  tvec : Pc
  frm : BitVec 2
  stepctl : Bool
  /-- halted by R143 or by the debugger, and whether by the debugger, with a halt record (R386) -/
  halted : Bool
  recorded : Bool
  /-- trap entry waiting for its push (R142): the entry that counts as running a handler -/
  entering : Option Nat
  pmatch : Option MatchState
  /-- in-flight counters are the lengths of these queues, one per tag (R161) -/
  cpas : List CpaOp
  /-- tags whose landed copy met uncorrectable data: tag, lane, address (R237) -/
  cpaBad : List (BitVec 2 × Nat × BitVec 64)
  outs : FMap Out
  deriving DecidableEq, Repr

/-! ### Blocks and engines -/

/-- A barrier register with PEND and its held arrivals (R218, R221). -/
structure Barrier where
  members : BitVec 16
  wavesIn : BitVec 16
  expected : Nat
  arrived : Nat
  eng : Nat
  lastErr : Bool
  init : Bool
  err : Bool
  phase : Bool
  pend : Nat
  /-- engine arrivals counted in this phase, and arrivals held for later phases: error flag, and whether the release is wider
  than the block (R190, R241) -/
  engIn : Nat
  heldArr : List (Bool × Bool)
  /-- waves that departed in this phase -/
  gone : BitVec 16
  /-- an engine whose release is wider than the block arrived in this phase, or in the phase completed last (R190) -/
  wide : Bool
  lastWide : Bool
  deriving DecidableEq, Repr

/-- A transfer of BCOPY (R239). -/
structure Transfer where
  sh : BitVec 4
  bid : Nat
  shape : BitVec 512
  st : Bool
  count : Nat
  slices : List Nat
  bar : Option (BitVec 4)
  fut : Option (BitVec 64)
  /-- elements completed in its order (R251) -/
  done : Nat
  deriving DecidableEq, Repr

/-- A multicast in flight (R242). -/
structure Mcast where
  bid : Nat
  receivers : List Nat
  off : Nat
  bytes : List Byte
  /-- offset of uncorrectable source data, if any (R243) -/
  bad : Option Nat
  bar : Option (BitVec 4)
  deriving DecidableEq, Repr

/-- State of a channel (R245). -/
inductive ChanState where
  | idle | run | err
  deriving DecidableEq, Repr

/-- A Gouge channel (R245). -/
structure Channel where
  owner : Option Nat
  shape : BitVec 512
  st : Bool
  n : Nat
  f : Nat
  q : Nat
  state : ChanState
  bar : Option (BitVec 4)
  fut : Option (BitVec 64)
  deriving DecidableEq, Repr

/-- What an array operation does (R257). -/
inductive ArrKind where
  | mma (z pair acc : Bool) (shape : BitVec 512) (o : Nat) (aslot bslot : BitVec 64)
  | mzero (pair acc : Bool)
  | bld (shape : BitVec 512) (o : Nat) (bar : Option (BitVec 4)) (fut : Option (BitVec 64))
  | mdrain (pair i acc : Bool) (shape : BitVec 512) (res : Option (BitVec 512)) (bar : Option (BitVec 4))
      (fut : Option (BitVec 64))
  | epil (scratch : Bool) (addr : BitVec 64)
  | altab (al : BitVec 2) (addr : BitVec 64)
  deriving DecidableEq, Repr

/-- An array operation in a core's order. -/
structure ArrOp where
  id : Nat
  wid : Nat
  bid : Nat
  /-- the elected lane, and the lanes that were active at issue -/
  lane : Nat
  act : Word
  /-- where the bytes stand that an EPIL or ALTAB loads, as its checks at issue found (R129); 0 for the others -/
  key : Nat
  /-- of an EPIL or ALTAB whose translation was dropped before its turn (R334): the bytes that it then read, and the offset of the
  first uncorrectable one -/
  data : Option (List Byte × Option Nat)
  /-- STEP falls due behind its bundle, which waits for it (R142) -/
  step : Bool
  kind : ArrKind
  deriving DecidableEq, Repr

/-- A block on a core. -/
structure Block where
  ctx : Nat
  lid : Nat
  /-- linear index; all ones for a task wave's block -/
  idx : BitVec 64
  core : Option Nat
  /-- logical core, 8 × logical cluster + role (R21) -/
  lcore : Nat
  /-- wave ids by wave index -/
  waves : List Nat
  task : Bool
  sh : FMap (BitVec 512)
  bars : FMap Barrier
  /-- FREE[0–7] (R243) -/
  free : FMap (BitVec 4)
  /-- pending transfers, at most one per shape register (R239) -/
  pending : List Transfer
  deriving DecidableEq, Repr

/-! ### Cores -/

/-- A copy of a 16-byte sector in an L1 or read-only cache, with the tag it was filled with (R157, R162), and what the other
sector of its 32-byte unit then held (R160). -/
structure Sector where
  colour : BitVec 12
  bytes : List Byte
  mate : List Byte
  deriving DecidableEq, Repr

/-- A TLB entry: a valid leaf (R332). -/
structure TlbEntry where
  ctx : Nat
  /-- level of the leaf, 2 to 4 -/
  level : Nat
  /-- the page's number: VA >> page bits -/
  vpn : Nat
  leaf : BitVec 64
  /-- physical address of the leaf -/
  at_ : Nat
  deriving DecidableEq, Repr

/-- A performance counter with its selector (R392), and the sum that overflows it, 0 when it does not (R393). -/
structure Pmc where
  cnt : BitVec 64
  sel : BitVec 64
  past : Nat
  deriving DecidableEq, Repr

/-- A future that an engine has still to resolve (R291). -/
structure EngRes where
  e : EngineId
  ctx : Nat
  addr : BitVec 64
  faulted : Bool
  value : BitVec 64
  /-- its block, and the array operation that retires with it (R257) -/
  bid : Nat
  op : Option ArrOp
  deriving DecidableEq, Repr

/-- One core. -/
structure Core where
  owner : Option Nat
  /-- al0–al3, 68 bytes each -/
  al : FMap (List Byte)
  /-- twentieths of arithmetic-clock cycles that the core missed, gated or stopped -/
  missed : Int
  statp : Word
  /-- key 65,536 × slice + offset; default 0 -/
  bstore : FMap Byte
  /-- B-store bytes whose data is uncorrectable, by key (R265, R395) -/
  bstoreBad : List Nat
  /-- key 8,192 × set + 128 × row + column; default 0 -/
  acc : FMap Word
  accErr0 : Bool
  accErr1 : Bool
  skew : FMap Word
  order : List ArrOp
  l1 : FMap Sector
  ro : FMap Sector
  /-- instruction cache, and the fetch buffers by quarter: copies of 8-byte bundles by physical address (R159) -/
  icache : FMap (BitVec 64)
  fbufs : FMap (FMap (BitVec 64))
  tlb : List TlbEntry
  chans : FMap Channel
  xfers : List Transfer
  mcasts : List Mcast
  /-- futures that its engines have still to resolve, oldest first -/
  resolves : List EngRes
  pmcs : FMap Pmc
  pmovf : BitVec 8
  gated : Bool
  /-- the tick since which it has held no wave and no work (R402) -/
  idleSince : Nat
  /-- the context by whose access violation its clocks are stopped (R376) -/
  stopped : Option Nat
  /-- uncorrectable errors of codes 4, 7 and 8 (R403) -/
  errs : Nat
  /-- the wave slot sampled last (R384) -/
  sampled : Nat
  /-- the contexts of the waves by which this tick's static power is shared: resident at its start, or restored in it (R365) -/
  resident : List Nat
  deriving DecidableEq, Repr

/-- A logical core's state while its context is frozen (R354). -/
structure SavedCore where
  lid : Nat
  lcore : Nat
  core : Core
  phys : Nat
  /-- records that closed without a mapping for its engines (R339, R340) -/
  denied : List (EngineId × Nat)
  deriving DecidableEq, Repr

/-! ### Launches -/

/-- Where a launch stands: it waits for the launch before it (SER), distributes and runs, has its signal word still to write,
or has its future still to resolve; `ended` is no launch. -/
inductive LaunchState where
  | waiting | running | signalling | resolving | ended
  deriving DecidableEq, Repr

/-- An accepted launch (R318, R322). -/
structure Launch where
  ctx : Nat
  ring : BitVec 32
  entry : Pc
  grid : Nat
  gx : Nat
  gy : Nat
  ser : Bool
  sys : Bool
  l : Nat
  s : Nat
  wpb : Nat
  lend : Nat
  beta : Nat
  slots : List (BitVec 64)
  tables : List (List Byte)
  /-- the role table: 24 entries (R324) -/
  roles : List (BitVec 64)
  siga : BitVec 64
  futa : BitVec 64
  spill : BitVec 64
  g : Nat
  dom : BitVec 4
  pclass : BitVec 3
  kargs : List Word
  state : LaunchState
  /-- the next block to place, and where the search starts (R326) -/
  next : Nat
  search : Nat
  /-- its next block has found no room, and waits for a block to retire (R326) -/
  waits : Bool
  retired : BitVec 64
  /-- logical clusters whose cluster memory the launch holds (R325) -/
  clusters : List Nat
  /-- the signal value (R328), and whether the launch failed -/
  result : BitVec 64
  failed : Bool
  /-- its signal word or its future waits on a fault record; the record closed without a mapping (R328) -/
  parked : Bool
  denied : Bool
  deriving DecidableEq, Repr

/-! ### Fault records -/

/-- Who waits on a fault record (R338). -/
inductive PageWaiter where
  /-- a split of a wave, by its lowest lane -/
  | split (wid lane granule : Nat)
  | engine (core : Nat) (e : EngineId) (granule : Nat)
  /-- the end of a launch (R328) -/
  | launch (lid : Nat) (granule : Nat)
  deriving DecidableEq, Repr

/-- STATE of a fault record (R337); a closed one is freed once its waiters have been woken, in the same step. -/
inductive FaultState where
  | open_ | servicing | closedMapped | closedNone
  deriving DecidableEq, Repr

/-- A fault record (R337). -/
structure FaultRec where
  die : Nat
  ctx : Nat
  vpage : Nat
  state : FaultState
  xs : Bool
  ws : Bool
  rs : Bool
  eng : Bool
  level : Nat
  waiters : List PageWaiter
  opened : BitVec 64
  deriving DecidableEq, Repr

/-! ### Contexts -/

/-- A lane that waits for a colour (R169). -/
structure Waiter where
  wid : Nat
  lane : Nat
  deriving DecidableEq, Repr

/-- A directory entry (R165). -/
structure Mon where
  holder : Option Waiter
  claim : Option (BitVec 4)
  queue : List Waiter
  deriving DecidableEq, Repr

/-- Where an ordered task stands. -/
inductive TaskState where
  | queued | running | finished
  deriving DecidableEq, Repr

/-- An uncommitted task of a domain (R299). -/
structure DomTask where
  task : TaskRec
  state : TaskState
  wid : Nat
  lane : Nat
  /-- colours of lines that it has touched (R177) -/
  colours : List (BitVec 12)
  /-- TABORT.drop: it commits with no writes (R314) -/
  drop : Bool
  deriving DecidableEq, Repr

/-- A domain record (R300). -/
structure Domain where
  lid : Nat
  lastTs : BitVec 64
  lastSeq : BitVec 64
  tasks : List DomTask
  deriving DecidableEq, Repr

/-- A version of a 16-byte sector (R302). -/
structure Version where
  dom : BitVec 4
  seq : BitVec 64
  sector : Nat
  bytes : List Byte
  /-- the task's write count for the sector -/
  count : Nat
  deriving DecidableEq, Repr

/-- The source of a dependence (R303). -/
inductive DepSource where
  | committed
  | task (seq : BitVec 64) (count : Nat)
  deriving DecidableEq, Repr

/-- A dependence (R303); `line` says that it is kept for the sector's whole line (R306). -/
structure Dep where
  dom : BitVec 4
  seq : BitVec 64
  sector : Nat
  source : DepSource
  line : Bool
  deriving DecidableEq, Repr

/-- A segment of a task queue (R282): its place in the pool, TAIL, the records not yet dispatched by index, and the
records that a SPAWNF has reserved and not yet filled (R295). -/
structure Segment where
  off : Nat
  tail : Nat
  recs : FMap TaskRec
  resv : List Nat
  deriving DecidableEq, Repr

/-- A join record (R289), with the memory keys of its futures and the queue record reserved for it (R295). -/
structure Join where
  task : TaskRec
  count : Nat
  fmask : BitVec 4
  futs : List Nat
  slot : Nat × Nat
  /-- LINK0–LINK3 -/
  links : FMap (BitVec 48)
  deriving DecidableEq, Repr

/-- A registration on its way to its future's home slice (R295). -/
structure Registration where
  /-- memory key of the future -/
  fut : Nat
  join : Nat
  n : Nat
  deriving DecidableEq, Repr

/-- An open group of a Chuck (R284). -/
structure Group where
  lid : Nat
  entry : Pc
  dom : BitVec 4
  pri : BitVec 2
  opened : BitVec 64
  tasks : List TaskRec
  ready : Bool
  deriving DecidableEq, Repr

/-- A live allocation (R341). -/
structure Alloc where
  va : Nat
  level : Nat
  /-- the physical address of each page; none while evacuation has it (R359) -/
  pages : List (Option Nat)
  deriving DecidableEq, Repr

/-- A page sent by evacuation or with a current host copy (R359): the leaf's physical address, the frame that it left, the page's
level, its offset in the evacuation area, whether it is out, and then the reserved frame that is kept for it (R361). -/
structure SentPage where
  leaf : Nat
  pa : Nat
  level : Nat
  off : Nat
  out : Bool
  slot : Nat
  deriving DecidableEq, Repr

/-- STATE of a context (R366). -/
inductive CtxState where
  | running | frozen | evacuating | evacuated | returning
  deriving DecidableEq, Repr

/-- An energy counter of a context on a core (R363), with its value at the last restore or fold (R366). -/
structure Energy where
  e : BitVec 64
  sat : Bool
  base : BitVec 64
  /-- units of this tick, which are added once, at its end -/
  pend : Nat
  deriving DecidableEq, Repr

/-- The context record read at CREATE (R347). -/
structure CtxRec where
  root : Nat
  gwin : Nat
  chipw : Nat
  maxc : Nat
  conf : Bool
  rmode : Bool
  cls : BitVec 3
  quant : Nat
  q : Nat
  ringva : BitVec 64
  rlog : Nat
  segb : Nat
  eva : Nat
  evsz : Nat
  eseed : BitVec 48
  ewt : List Word
  bytes : List Byte
  deriving DecidableEq, Repr

/-- A reserved run of 64 KiB frames: first frame, count and map byte (R375). -/
structure FrameRun where
  first : Nat
  count : Nat
  byte : Byte
  deriving DecidableEq, Repr

/-- A context's memory side: reservations, allocations and pages. -/
structure CtxMem where
  /-- frames reserved at CREATE: save area, segment pool and pool frames, as first frame and count -/
  saveArea : Nat × Nat
  pool : Nat × Nat
  seg : Nat × Nat
  quotaUsed : Nat
  allocs : List Alloc
  /-- KIND 0 pages mapped by system software, as virtual address and level (R348) -/
  maps : List (Nat × Nat)
  pages : List SentPage
  /-- tables of the radix tree made by the Headstock are taken from here, and from those given back: address and bytes -/
  tabNext : Nat
  tabFree : List (Nat × Nat)
  /-- page tables are in the evacuation area (R359, R361) -/
  sysOut : Bool
  /-- frames of page tables, save area and segment pool that have been sent there (R359) -/
  sysSent : List FrameRun
  deriving DecidableEq, Repr

/-- A context's task side. -/
structure CtxTasks where
  nextSeq : BitVec 64
  age : Word
  /-- key 4 × cluster + priority -/
  queues : FMap (List Segment)
  /-- segments never used start here; segments returned -/
  segNext : Nat
  segFree : List Nat
  joinSegs : List Nat
  joins : FMap Join
  regs : List Registration
  /-- key: cluster -/
  groups : FMap (List Group)
  /-- lanes parked at futures: memory key of the future, wave, and the outstanding FUTGET or none for a WAIT -/
  futWait : List (Nat × Nat × Option Nat)
  doms : FMap Domain
  versions : List Version
  deps : List Dep
  deriving DecidableEq, Repr

/-- A context (R346). -/
structure Context where
  rec_ : CtxRec
  state : CtxState
  mem : CtxMem
  tasks : CtxTasks
  /-- the monitor directory, by colour (R165) -/
  dir : FMap Mon
  head : BitVec 32
  tail : BitVec 32
  /-- the ring waits for the next doorbell write after an unreadable entry (R321) -/
  ringStuck : Bool
  pcmbase : Pc
  pcmen : BitVec 16
  /-- the loaded comparators: MPC and HPC of each enabled entry (R388) -/
  pcm : FMap (Pc × Pc)
  /-- by physical core while resident, by logical key while saved -/
  energy : FMap Energy
  etot : BitVec 80
  runt : BitVec 64
  evb : BitVec 64
  /-- tick at which the current residency began, and the tick of the freeze (R351, R283) -/
  since : BitVec 64
  frozenAt : BitVec 64
  /-- frozen by SUSPEND or EVACUATION: restored only by RESUME or when evacuation ends; else waits in order -/
  suspended : Bool
  /-- only DESTROY is accepted (R395 code 10) -/
  broken : Bool
  /-- its quantum has passed in the current residency (R351) -/
  expired : Bool
  /-- fault records that a save took out of the dies (R340) -/
  faults : List FaultRec
  saved : List SavedCore
  deriving DecidableEq, Repr

/-! ### Translation -/

/-- An engine's answer from a closed fault record: CLOSED NONE for a granule (R339). -/
structure EngineDenied where
  core : Nat
  e : EngineId
  granule : Nat
  deriving DecidableEq, Repr

/-- The translation unit. -/
structure Mmu where
  /-- cluster and die TLBs -/
  tlbCluster : FMap (List TlbEntry)
  tlbDie : FMap (List TlbEntry)
  faults : List FaultRec
  denied : List EngineDenied
  /-- who waits for a record of a die to become free (R338) -/
  short : List (Nat × PageWaiter)
  deriving DecidableEq, Repr

/-! ### The hub -/

/-- A host port with its two functions (R370, R371). -/
structure Port where
  up : Bool
  lanes : Nat
  rate : Nat
  /-- Bus Master Enable of function 1 (R348) -/
  bme : Bool
  fn0Frozen : Bool
  fn1Frozen : Bool
  /-- the host address at which the host has placed BAR 2 of function 1, the doorbell pages (R319, R370) -/
  bar2 : Option Nat
  deriving DecidableEq, Repr

/-- An access violation of this tick (R376): the master, its core if it has one, the target, the access kind and the address. -/
structure Viol where
  master : Nat
  core : Option Nat
  target : Nat
  kind : Nat
  addr : Nat
  deriving DecidableEq, Repr

/-- A request held at a link port (R360, R372). -/
structure HeldReq where
  req : ExtReq
  deriving DecidableEq, Repr

/-- An Ndoust link (R372). -/
structure Link where
  up : Bool
  /-- the tick at which it failed, while it retrains -/
  failed : Option (BitVec 64)
  frozen : Bool
  held : List HeldReq
  /-- futures of this part, by memory key, at which a FUTGET of the peer waits (R287, R288) -/
  gets : List Nat
  /-- flits replayed from the sender's buffer (R372) -/
  replays : Nat
  deriving DecidableEq, Repr

/-- The mailbox, the access tables, the ports and the links. -/
structure Hub where
  cmda : BitVec 64
  busy : Bool
  res : BitVec 8
  lastop : BitVec 8
  unatt : BitVec 64
  /-- contexts and cores whose counters are folded at the end of this tick (R367) -/
  folds : List (Nat × Nat)
  ports : FMap Port
  links : FMap Link
  /-- key 88 × target + master (R374) -/
  access : FMap (BitVec 16)
  frames : List FrameRun
  /-- frames of evacuated contexts that the class-7 context's reservation has taken (R358, R359) -/
  lent : List FrameRun
  /-- version-way reservation: 0 none, 1 1/8, 2 1/4 (R350) -/
  vways : BitVec 2
  /-- the link that leads to the tick root, none at the root (R373) -/
  upstream : Option (BitVec 4)
  /-- the path to the tick root is lost, and no tick of the upstream neighbour has come since (R373) -/
  rootLost : Bool
  lastRootTick : BitVec 64
  lastSync : BitVec 64
  /-- this device is the tick root; a CREATE has been accepted since power-on; what the next tick adds (R373) -/
  tickRoot : Bool
  created : Bool
  tickStep : Nat
  /-- the link domain holds more than this device (R390) -/
  linked : Bool
  /-- responses of host and peer requests, for their senders: master and outcome -/
  replies : List (Nat × ExtResp)
  /-- the violations of this tick, whose records its end writes (R376) -/
  viols : List Viol
  /-- MSI-X vectors signalled to the host: function and vector -/
  msix : List (Nat × Nat)
  /-- the evacuation in force: the class-7 context that caused it (R358) -/
  evac : Option Nat
  /-- the evacuation unit has not stopped for want of a port (R359) -/
  evacOn : Bool
  deriving DecidableEq, Repr

/-! ### The Tailstock, security and power -/

/-- Registers of the Tailstock (R380, R386). -/
structure Tailstock where
  /-- the written value of TEN -/
  ten : Bool
  wrap : Bool
  sen : Bool
  tport : Bool
  tbase : BitVec 64
  tsize : Word
  twptr : BitVec 64
  tlost : BitVec 64
  /-- the buffer has filled while WRAP was 0: trace is stopped until TEN is written with 1 (R380) -/
  full : Bool
  sper : Word
  frzt : BitVec 64
  late : Bool
  refused : Bool
  frozen : Bool
  linked : Bool
  arm : Bool
  flbase : BitVec 64
  flport : Bool
  flen : Bool
  fllog : BitVec 4
  flhead : Word
  fltail : Word
  fllost : Word
  dsel : BitVec 16
  ddata : BitVec 64
  dres : BitVec 8
  deriving DecidableEq, Repr

/-- The Vorzil root's registers and fused values (R398, R399, R403). -/
structure Security where
  boot : BitVec 4
  fused : BitVec 64
  /-- the digest of the header and the firmware of the image that runs (R398, R399) -/
  fwDigest : BitVec 512
  ain : BitVec 64
  aout : BitVec 64
  ares : BitVec 8
  retired : BitVec 192
  /-- the newest repair map: it applies from the next reset -/
  nextRetired : BitVec 192
  generation : BitVec 64
  /-- contexts whose AES-XTS keys the root holds, with the number of the key -/
  keys : FMap Nat
  keyNext : Nat
  deriving DecidableEq, Repr

/-- The power block and the error counters (R400, R401). -/
structure Power where
  cap : BitVec 2
  step : BitVec 2
  /-- the step that a change in progress is moving to -/
  target : BitVec 2
  temp : BitVec 8
  tlim : Bool
  tshut : Bool
  cec : BitVec 64
  uec : BitVec 64
  /-- corrected errors and spare state of HBM rows: row number, errors, spared (R397) -/
  rows : FMap (Nat × Bool)
  spares : FMap Nat
  /-- the last 1,024-gt window in which each structure of each die was recorded (R396) -/
  windows : FMap Nat
  deriving DecidableEq, Repr

/-! ### The whole -/

/-- What moves next, when something outside the issue order is to move: an event, or one split's issue. -/
inductive Turn where
  | event (i : Instr)
  | issue (core slot entry : Nat)
  deriving DecidableEq, Repr

/-- The split that a bundle acts for. -/
structure Cur where
  wid : Nat
  entry : Nat
  deriving DecidableEq, Repr

/-- The part's clock and the model's own scheduling data. -/
structure Sys where
  powered : Bool
  gtick : BitVec 64
  /-- arithmetic-clock cycles since power-on in twentieths: a clock step runs 28, 22 or 17 of them per gt (R400) -/
  cyc : Nat
  /-- MODEL: counter that free values are drawn by -/
  fresh : Nat
  /-- MODEL: what moves next -/
  agenda : List Turn
  /-- MODEL: 0 an issue is due next, 1 an event, 2 a tick -/
  phase : Nat
  /-- MODEL: the split whose bundle runs -/
  cur : Option Cur
  /-- MODEL: splits found to be no candidates since anything last changed (R138) -/
  stalled : List Cur
  /-- number of the last issued bundle (R138) -/
  issue : Nat
  /-- yielded splits (R108): quarter (4 × core + quarter), the number of the YIELD, and the bundles of other splits that
  the quarter has still to issue -/
  yields : List (Nat × Nat × Nat)
  /-- MODEL: numbers for the next wave, block, launch, array operation and outstanding producer -/
  nextId : Nat
  /-- values that the debugger wrote to CSRs that other state determines (R386), each with the value that it replaced -/
  forced : FMap (Nat × Nat)
  deriving DecidableEq, Repr

/-- Everything but memory. -/
structure Dev where
  sys : Sys
  cores : FMap Core
  waves : FMap Wave
  blocks : FMap Block
  launches : FMap Launch
  ctxs : FMap Context
  /-- colour tags of HBM lines, by line number; default 0 (R162) -/
  tags : FMap (BitVec 12)
  /-- memory keys of bytes whose data is uncorrectable (R199, R395) -/
  bad : List Nat
  mmu : Mmu
  hub : Hub
  tail : Tailstock
  sec : Security
  pow : Power
  deriving DecidableEq, Repr

end Sys2Proof.Machine

namespace Sys2Proof.Machine

/-- The state of the machine. -/
structure State where
  mem : Memory
  dev : Dev
  deriving DecidableEq, Repr

/-- Reasons for which the machine is stuck. -/
inductive Fault where
  /-- A bundle was to be executed although no split issues it: `exec` of a bundle on a state in which `cur` names no
  living split. Raised by every bundle's meaning; no step of a powered part reaches it. Safe: the model stops. -/
  | noIssuingSplit
  /-- A step of a part whose power is off, with no event to bring it back: raised by `step` alone (R9). Safe. -/
  | poweredOff
  deriving DecidableEq, Repr

/-- Reasons for which the model gives no answer. -/
inductive Refusal where
  /-- The instruction has no meaning in the model: raised by `exec` in an arm that names it. Safe: nothing follows. -/
  | notModelled (mnemonic : String)
  deriving DecidableEq, Repr

/-! ### Reset -/

/-- A core at power-on (R9, R256, R402): nothing is resident; B-store, accumulators and Skew program hold zero. -/
def Core.reset : Core where
  owner := none
  al := []
  missed := 0
  statp := 0
  bstore := []
  bstoreBad := []
  acc := []
  accErr0 := false
  accErr1 := false
  skew := []
  order := []
  l1 := []
  ro := []
  icache := []
  fbufs := []
  tlb := []
  chans := []
  xfers := []
  mcasts := []
  resolves := []
  pmcs := []
  pmovf := 0
  gated := false
  idleSince := 0
  stopped := none
  errs := 0
  sampled := 63
  resident := []

/-- The Tailstock at reset (R380). -/
def Tailstock.reset : Tailstock where
  ten := false
  wrap := false
  sen := false
  tport := false
  tbase := 0
  tsize := 0
  twptr := 0
  tlost := 0
  full := false
  sper := 0
  frzt := 0
  late := false
  refused := false
  frozen := false
  linked := false
  arm := false
  flbase := 0
  flport := false
  flen := false
  fllog := 6
  flhead := 0
  fltail := 0
  fllost := 0
  dsel := 0
  ddata := 0
  dres := 0

/-- The hub at reset: nothing trained, every table entry zero. -/
def Hub.reset : Hub where
  cmda := 0
  busy := false
  res := 0
  lastop := 0
  unatt := 0
  folds := []
  ports := []
  links := []
  access := []
  frames := []
  lent := []
  vways := 0
  upstream := none
  rootLost := false
  lastRootTick := 0
  lastSync := 0
  tickRoot := true
  created := false
  tickStep := 1
  linked := false
  replies := []
  viols := []
  msix := []
  evac := none
  evacOn := false

/-- The Vorzil root at a power-on whose image is verified, with no core retired. -/
def Security.reset : Security where
  boot := 0
  fused := 0
  fwDigest := 0
  ain := 0
  aout := 0
  ares := 0
  retired := 0
  nextRetired := 0
  generation := 0
  keys := []
  keyNext := 0

/-- The power block at power-on. -/
def Power.reset : Power where
  cap := 0
  step := 0
  target := 0
  temp := 0
  tlim := false
  tshut := false
  cec := 0
  uec := 0
  rows := []
  spares := []
  windows := []

/-- The clock at power-on. -/
def Sys.reset : Sys where
  powered := true
  gtick := 0
  cyc := 0
  fresh := 0
  agenda := []
  phase := 0
  cur := none
  stalled := []
  issue := 0
  yields := []
  nextId := 1
  forced := []

/-- Everything but memory at power-on. -/
def Dev.reset : Dev where
  sys := Sys.reset
  cores := []
  waves := []
  blocks := []
  launches := []
  ctxs := []
  tags := []
  bad := []
  mmu := ⟨[], [], [], [], []⟩
  hub := Hub.reset
  tail := Tailstock.reset
  sec := Security.reset
  pow := Power.reset

/-- The machine right after power-on reset (R9); values that the spec does not give are log entry 13: DESIGN CHOICE. -/
def State.reset : State where
  mem := []
  dev := Dev.reset

end Sys2Proof.Machine
end

