-- ==== Sys2Proof/Machine/Maps.lean ====
section
/-! DEFINITION. Finite maps, memory in canonical form, and little-endian numbers. -/

namespace Sys2Proof.Machine

/-! ### Finite maps with rising keys -/

/-- The value at a key, if listed. -/
def mget? {α : Type} (m : FMap α) (k : Nat) : Option α :=
  match m with
  | [] => none
  | (j, x) :: m => if j = k then some x else mget? m k

/-- The value at a key, or the default. -/
def mget {α : Type} (m : FMap α) (k : Nat) (d : α) : α := (mget? m k).getD d

/-- The map with a key removed. -/
def mdel {α : Type} (m : FMap α) (k : Nat) : FMap α :=
  match m with
  | [] => []
  | (j, x) :: m => if j = k then mdel m k else (j, x) :: mdel m k

/-- The map with a value put at a key, in its place. -/
def mput {α : Type} (m : FMap α) (k : Nat) (v : α) : FMap α :=
  match m with
  | [] => [(k, v)]
  | (j, x) :: m => if k < j then (k, v) :: (j, x) :: m else if j = k then (k, v) :: m else (j, x) :: mput m k v

/-- The map with a value put at a key; a value equal to the default is not listed. -/
def mset {α : Type} [DecidableEq α] (m : FMap α) (k : Nat) (v d : α) : FMap α :=
  if v = d then mdel m k else mput m k v

/-- The map with the value at a key changed. -/
def mmod {α : Type} (m : FMap α) (k : Nat) (d : α) (f : α → α) : FMap α := mput m k (f (mget m k d))

/-- The listed keys. -/
def mkeys {α : Type} (m : FMap α) : List Nat := m.map (·.1)

/-! ### Memory -/

/-- What a key that memory does not list reads as (log entry 1: DESIGN CHOICE). -/
def Memory.default : Byte := 0

/-- The canonical form: keys strictly rising, no entry equal to what an unlisted key reads as. -/
def Memory.wf : Memory → Bool
  | [] => true
  | [c] => c.2 != Memory.default
  | c :: d :: m => (c.2 != Memory.default) && decide (c.1 < d.1) && Memory.wf (d :: m)

/-- The byte at a key. -/
def Memory.read (m : Memory) (k : Nat) : Byte := mget m k Memory.default

/-- Memory with a byte written at a key. -/
def Memory.write (m : Memory) (k : Nat) (b : Byte) : Memory :=
  match m with
  | [] => if b = Memory.default then [] else [(k, b)]
  | (j, x) :: m =>
    if k < j then (if b = Memory.default then (j, x) :: m else (k, b) :: (j, x) :: m)
    else if j = k then (if b = Memory.default then m else (k, b) :: m)
    else (j, x) :: Memory.write m k b

/-- Memory without the cells of a range of one address space: keys `base + 8 × i` for `i < n`. -/
def Memory.clear (m : Memory) (base n : Nat) : Memory :=
  m.filter fun c => !(decide (base ≤ c.1) && decide (c.1 < base + 8 * n) && decide (c.1 % 8 = base % 8))

/-! ### Numbers and bytes -/

/-- A little-endian number. -/
def leNat : List Byte → Nat
  | [] => 0
  | b :: bs => b.toNat + 256 * leNat bs

/-- The little-endian bytes of a number. -/
def leBytes (n : Nat) (x : Nat) : List Byte :=
  match n with
  | 0 => []
  | n + 1 => BitVec.ofNat 8 x :: leBytes n (x / 256)

/-- A slice of a list. -/
def slice {α : Type} (l : List α) (from_ n : Nat) : List α := (l.drop from_).take n

/-- Word `n` of eight bytes of a byte string. -/
def le64 (l : List Byte) (off : Nat) : BitVec 64 := BitVec.ofNat 64 (leNat (slice l off 8))

/-- The lanes of a mask, ascending. -/
def lanesOf (m : Word) : List Nat := (List.range 32).filter fun l => m.getLsbD l

/-- The mask of a list of lanes. -/
def maskOf (ls : List Nat) : Word := ls.foldl (fun m l => m ||| (1#32 <<< l)) 0

/-- Bits `hi` to `lo` of a number. -/
def bits (x hi lo : Nat) : Nat := x / 2 ^ lo % 2 ^ (hi + 1 - lo)

/-- Whether bit `n` of a number is 1. -/
def bit (x n : Nat) : Bool := x / 2 ^ n % 2 == 1

/-- A number rounded up to a multiple. -/
def roundUp (x m : Nat) : Nat := (x + m - 1) / m * m

/-- The index of a bit, as a Nat from a Bool. -/
def b2n (b : Bool) : Nat := if b then 1 else 0

/-- Sign-extension to a word of `w` bits. -/
def sextTo {n : Nat} (w : Nat) (x : BitVec n) : BitVec w := x.signExtend w

end Sys2Proof.Machine
end

