-- ==== Sys2Proof/Machine/Ops.lean ====
section
/-! DEFINITION. The working state of one step, memory by address space, registers, waves and splits, and how a step's
writes are committed. -/

namespace Sys2Proof.Machine

/-! ### A step's working state -/

/-- A change of memory. -/
inductive MemOp where
  | put (key : Nat) (b : Byte)
  /-- zero `n` bytes of one space from a key on -/
  | zero (key n : Nat)
  deriving DecidableEq, Repr

/-- The state while a step runs: memory as it stood, the changes made since (newest first), and everything else. -/
structure Work where
  base : Memory
  log : List MemOp
  dev : Dev
  deriving DecidableEq, Repr

/-- One change applied to memory. -/
def MemOp.apply (o : MemOp) (m : Memory) : Memory :=
  match o with
  | .put k b => m.write k b
  | .zero k n => m.clear k n

/-- Memory after the changes, which are newest first. -/
def applyLog (log : List MemOp) (m : Memory) : Memory :=
  match log with
  | [] => m
  | o :: log => o.apply (applyLog log m)

/-- A step that answers a next state: its memory changes are applied to the canonical memory. -/
def commit (f : Work → Work) (s : State) : Host.Outcome State Fault Refusal :=
  let w := f ⟨s.mem, [], s.dev⟩
  .next ⟨applyLog w.log s.mem, w.dev⟩

/-! ### Addresses -/

/-- A byte of the part's memories, by its owner (log entry 8: DEDUCED): scratchpad and lane-private bytes are named by block and
lane, cluster memory by launch and logical cluster, the chip window by context. -/
inductive PAddr where
  | hbm (pa : Nat)
  | host (a : Nat)
  | peer (link a : Nat)
  | scratch (bid off : Nat)
  | cluster (lid lc off : Nat)
  | chip (ctx off : Nat)
  | lane (wid l off : Nat)
  deriving DecidableEq, Repr

/-- The memory key of a byte; the bytes after it stand at steps of 8. -/
def PAddr.key : PAddr → Nat
  | .hbm pa => 8 * pa
  | .host a => 8 * a + 1
  | .peer l a => 8 * (l * 2 ^ 52 + a) + 2
  | .scratch b o => 8 * (b * 2 ^ 20 + o) + 3
  | .cluster lid lc o => 8 * ((lid * 24 + lc) * 2 ^ 23 + o) + 4
  | .chip c o => 8 * (c * 2 ^ 27 + o) + 5
  | .lane w l o => 8 * ((w * 32 + l) * 2 ^ 12 + o) + 6

/-! ### Reading and writing memory -/

/-- What the log says of a key, if it changed it. -/
def logRead (log : List MemOp) (k : Nat) : Option Byte :=
  match log with
  | [] => none
  | .put j b :: log => if j = k then some b else logRead log k
  | .zero j n :: log => if j ≤ k ∧ k < j + 8 * n ∧ k % 8 = j % 8 then some Memory.default else logRead log k

/-- The byte at a key. -/
def Work.byte (w : Work) (k : Nat) : Byte := (logRead w.log k).getD (w.base.read k)

/-- `n` bytes from a key on. -/
def Work.bytes (w : Work) (k n : Nat) : List Byte := (List.range n).map fun i => w.byte (k + 8 * i)

/-- A little-endian number of `n` bytes at a key. -/
def Work.num (w : Work) (k n : Nat) : Nat := leNat (w.bytes k n)

/-- The work with bytes written from a key on. -/
def Work.putBytes (w : Work) (k : Nat) (bs : List Byte) : Work :=
  match bs with
  | [] => w
  | b :: bs => ({ w with log := .put k b :: w.log }).putBytes (k + 8) bs

/-- The work with `n` bytes zeroed from a key on. -/
def Work.zero (w : Work) (k n : Nat) : Work := { w with log := .zero k n :: w.log }

/-- The listed cells of a range, as (offset, byte). -/
def Work.cellsIn (w : Work) (k n : Nat) : List (Nat × Byte) :=
  (applyLog w.log w.base).filterMap fun c =>
    if k ≤ c.1 ∧ c.1 < k + 8 * n ∧ c.1 % 8 = k % 8 then some ((c.1 - k) / 8, c.2) else none

/-- `n` bytes copied from one place to another. -/
def Work.copyRange (w : Work) (src dst n : Nat) : Work :=
  (w.cellsIn src n).foldl (fun w c => w.putBytes (dst + 8 * c.1) [c.2]) (w.zero dst n)

/-! ### Parts of the device, with what an absent one is -/

def Split.blank : Split := ⟨.ready, .none, .none, 0, 0, 0, none, 0, 0, none, [], [], none, false, false, none⟩
def Frame.blank : Frame := ⟨0, false, 0⟩
/-- A lane that has exited, or never lived. -/
def Lane.blank : Lane := ⟨false, 0, 0, Frame.blank, [], 0, 0, 0, [], 0, 0, none⟩
def TrapVals.blank : TrapVals := ⟨0, 0, 0, 0, 0⟩
def Wave.blank : Wave where
  ctx := 0
  lid := 0
  bid := 0
  widx := 0
  place := none
  slot := 0
  evicted := false
  spillSave := []
  lanes := []
  vregs := []
  vstat := []
  kregs := []
  kstat := []
  hregs := []
  hstat := []
  cb := []
  entries := []
  overflow := []
  tlevel := 0
  traps := []
  tvec := 0
  frm := 0
  stepctl := false
  halted := false
  recorded := false
  entering := none
  pmatch := none
  cpas := []
  cpaBad := []
  outs := []
/-- A barrier register at block placement (R15, R218). -/
def Barrier.blank : Barrier := ⟨0, 0, 0, 0, 0, false, false, false, false, 0, 0, [], 0, false, false⟩
def Channel.blank : Channel := ⟨none, 0, false, 0, 0, 0, .idle, none, none⟩
def Block.blank : Block := ⟨0, 0, 0, none, 0, [], false, [], [], [], []⟩
def Launch.blank : Launch where
  ctx := 0
  ring := 0
  entry := 0
  grid := 0
  gx := 0
  gy := 0
  ser := false
  sys := false
  l := 0
  s := 64
  wpb := 1
  lend := 0
  beta := 0
  slots := []
  tables := []
  roles := []
  siga := 0
  futa := 0
  spill := 0
  g := 0
  dom := 0
  pclass := 0
  kargs := []
  state := .ended
  next := 0
  search := 0
  waits := false
  retired := 0
  clusters := []
  result := 0
  failed := false
  parked := false
  denied := false
def CtxRec.blank : CtxRec := ⟨0, 0, 0, 1, false, false, 0, 1000, 0, 0, 4, 0, 0, 0, 0, [], []⟩
def CtxMem.blank : CtxMem := ⟨(0, 0), (0, 0), (0, 0), 0, [], [], [], 0, [], false, []⟩

/-- Whether something of page tables, save area and segment pool is away (R359). -/
def CtxMem.sysAway (m : CtxMem) : Bool := m.sysOut || !m.sysSent.isEmpty


/-- Task state at CREATE (R348). -/
def CtxTasks.fresh : CtxTasks := ⟨1, 0x00100000, [], 0, [], [], [], [], [], [], [], [], []⟩
def Context.blank : Context where
  rec_ := CtxRec.blank
  state := .running
  mem := CtxMem.blank
  tasks := CtxTasks.fresh
  dir := []
  head := 0
  tail := 0
  ringStuck := false
  pcmbase := 0
  pcmen := 0
  pcm := []
  energy := []
  etot := 0
  runt := 0
  evb := 0
  since := 0
  frozenAt := 0
  suspended := false
  broken := false
  expired := false
  faults := []
  saved := []
def Mon.blank : Mon := ⟨none, none, []⟩
def Port.blank : Port := ⟨false, 0, 0, false, false, false, none⟩
def Link.blank : Link := ⟨false, none, false, [], [], 0⟩
def Pmc.blank : Pmc := ⟨0, 0, 0⟩

/-! ### Reading and changing the device -/

def Work.modDev (w : Work) (f : Dev → Dev) : Work := { w with dev := f w.dev }
def Work.wave (w : Work) (i : Nat) : Wave := mget w.dev.waves i Wave.blank
def Work.setWave (w : Work) (i : Nat) (x : Wave) : Work := w.modDev fun d => { d with waves := mput d.waves i x }
def Work.modWave (w : Work) (i : Nat) (f : Wave → Wave) : Work := w.setWave i (f (w.wave i))
def Work.core (w : Work) (i : Nat) : Core := mget w.dev.cores i Core.reset
def Work.setCore (w : Work) (i : Nat) (x : Core) : Work := w.modDev fun d => { d with cores := mput d.cores i x }
def Work.modCore (w : Work) (i : Nat) (f : Core → Core) : Work := w.setCore i (f (w.core i))
def Work.block (w : Work) (i : Nat) : Block := mget w.dev.blocks i Block.blank
def Work.setBlock (w : Work) (i : Nat) (x : Block) : Work := w.modDev fun d => { d with blocks := mput d.blocks i x }
def Work.modBlock (w : Work) (i : Nat) (f : Block → Block) : Work := w.setBlock i (f (w.block i))
def Work.launch (w : Work) (i : Nat) : Launch := mget w.dev.launches i Launch.blank
def Work.setLaunch (w : Work) (i : Nat) (x : Launch) : Work :=
  w.modDev fun d => { d with launches := mput d.launches i x }
def Work.modLaunch (w : Work) (i : Nat) (f : Launch → Launch) : Work := w.setLaunch i (f (w.launch i))
def Work.ctx (w : Work) (i : Nat) : Context := mget w.dev.ctxs i Context.blank
def Work.setCtx (w : Work) (i : Nat) (x : Context) : Work := w.modDev fun d => { d with ctxs := mput d.ctxs i x }
def Work.modCtx (w : Work) (i : Nat) (f : Context → Context) : Work := w.setCtx i (f (w.ctx i))
def Work.modTasks (w : Work) (i : Nat) (f : CtxTasks → CtxTasks) : Work :=
  w.modCtx i fun c => { c with tasks := f c.tasks }
def Work.modSys (w : Work) (f : Sys → Sys) : Work := w.modDev fun d => { d with sys := f d.sys }
def Work.modMmu (w : Work) (f : Mmu → Mmu) : Work := w.modDev fun d => { d with mmu := f d.mmu }
def Work.modHub (w : Work) (f : Hub → Hub) : Work := w.modDev fun d => { d with hub := f d.hub }
def Work.modTail (w : Work) (f : Tailstock → Tailstock) : Work := w.modDev fun d => { d with tail := f d.tail }
def Work.modSec (w : Work) (f : Security → Security) : Work := w.modDev fun d => { d with sec := f d.sec }
def Work.modPow (w : Work) (f : Power → Power) : Work := w.modDev fun d => { d with pow := f d.pow }
def Work.gtick (w : Work) : BitVec 64 := w.dev.sys.gtick
/-- The gt since a tick, on the circle of 2⁶⁴ (R3). -/
def Work.age (w : Work) (t : BitVec 64) : Nat := (w.gtick - t).toNat
/-- Whether a tick that was at most 2⁶³ gt ahead has come (R3, R217). -/
def Work.reached (w : Work) (t : BitVec 64) : Bool := decide (w.age t < 2 ^ 63)
def Work.modLane (w : Work) (wid l : Nat) (f : Lane → Lane) : Work :=
  w.modWave wid fun v => { v with lanes := mmod v.lanes l Lane.blank f }
def Wave.lane (v : Wave) (l : Nat) : Lane := mget v.lanes l Lane.blank

/-- A number that no wave, block, launch, array operation or producer has had. -/
def Work.newId (w : Work) : Nat × Work :=
  (w.dev.sys.nextId, w.modSys fun s => { s with nextId := s.nextId + 1 })

/-- The next draw of the free values (log entry 4: DESIGN CHOICE). -/
def Work.draw (w : Work) : Nat × Work :=
  (w.dev.sys.fresh, w.modSys fun s => { s with fresh := s.fresh + 1 })

/-- One of several values that the spec permits: a free value when they differ. -/
def Work.pick {α : Type} [DecidableEq α] (w : Work) (xs : List α) (d : α) : α × Work :=
  match xs with
  | [] => (d, w)
  | x :: rest =>
    let others := (rest.filter fun y => decide (y ≠ x)).eraseDups
    if others.isEmpty then (x, w)
    else
      let (n, w) := w.draw
      ((x :: others).getD (Config.choice n % (others.length + 1)) x, w)

/-- A report to the host: an MSI-X vector of a function. -/
def Work.msix (w : Work) (fn vec : Nat) : Work := w.modHub fun h => { h with msix := h.msix ++ [(fn, vec)] }

/-! ### Caches of a core -/

/-- The instruction cache and the fetch buffers hold nothing (R159). -/
def Core.dropCode (c : Core) : Core := { c with icache := [], fbufs := [] }
/-- Every cache of a core and its TLB hold nothing. -/
def Core.dropCaches (c : Core) : Core := { c.dropCode with l1 := [], ro := [], tlb := [] }

/-- Lines of which a cache holds a sector; the keys rise. -/
def lineCount (m : FMap Sector) : Nat :=
  match m with
  | [] => 0
  | (_, _) :: [] => 1
  | (s, _) :: (t, x) :: m => (if s / 8 = t / 8 then 0 else 1) + lineCount ((t, x) :: m)

/-- A sector is put in a cache of `n` lines; of a full cache the lowest other line leaves (log entry 77: DESIGN CHOICE). -/
def putSector (m : FMap Sector) (s : Nat) (x : Sector) (n : Nat) : FMap Sector :=
  let m := mput m s x
  if lineCount m ≤ n then m
  else match m.find? fun y => y.1 / 8 != s / 8 with
    | some y => m.filter fun z => z.1 / 8 != y.1 / 8
    | none => m

/-- A bundle is put in a cache of `n` bundles; of a full one the lowest other leaves (log entry 77: DESIGN CHOICE). -/
def putBundle (m : FMap (BitVec 64)) (pa : Nat) (x : BitVec 64) (n : Nat) : FMap (BitVec 64) :=
  let m := mput m pa x
  if m.length ≤ n then m
  else match m.find? fun y => y.1 != pa with
    | some y => mdel m y.1
    | none => m

/-- The copies of a bundle that a quarter of a core may fetch: its fetch buffer's and the instruction cache's. -/
def Core.copies (c : Core) (quarter pa : Nat) : List (BitVec 64) :=
  (mget? (mget c.fbufs quarter []) pa).toList ++ (mget? c.icache pa).toList

/-- A fetched bundle is kept in the quarter's buffer and in the instruction cache, where they hold no copy (R195). -/
def Core.keep (c : Core) (quarter pa : Nat) (x : BitVec 64) : Core :=
  let f := mget c.fbufs quarter []
  { c with
    icache := if (mget? c.icache pa).isSome then c.icache else putBundle c.icache pa x Config.icacheBundles
    fbufs := if (mget? f pa).isSome then c.fbufs else mput c.fbufs quarter (putBundle f pa x Config.fetchBundles) }

/-! ### Places -/

/-- Die, cluster and position of a core (R2). -/
def dieOf (c : Nat) : Nat := c / 48
def clusterOf (c : Nat) : Nat := c / 8
def posOf (c : Nat) : Nat := c % 8
/-- The pair partner of a core (R2). -/
def partnerOf (c : Nat) : Nat := if c % 2 = 0 then c + 1 else c - 1

/-- The home slice of a physical line (R156). -/
def homeSlice (pa : Nat) : Nat :=
  (bits pa 15 7) ^^^ (bits pa 24 16) ^^^ (bits pa 33 25) ^^^ (bits pa 42 34) ^^^ (bits pa 51 43)

/-- The core that a wave stands on, if it is placed. -/
def Wave.core? (v : Wave) : Option Nat := v.place.map (·.1)
/-- The core of a wave, 0 for one that is not placed. -/
def Wave.coreOf (v : Wave) : Nat := (v.core?).getD 0

/-- The role-table entry of a logical cluster. -/
def Launch.role (l : Launch) (q : Nat) : BitVec 64 := l.roles.getD q 0
/-- Whether a logical core exists: its cluster's entry is used and its role is marked (R324). -/
def Launch.roleExists (l : Launch) (lcore : Nat) : Bool :=
  let e := l.role (lcore / 8)
  e.getLsbD 5 && e.getLsbD (32 + lcore % 8)
/-- The physical core of a logical core (R324). -/
def Launch.physical (l : Launch) (lcore : Nat) : Nat :=
  let e := (l.role (lcore / 8)).toNat
  8 * bits e 4 0 + bits e (10 + 3 * (lcore % 8)) (8 + 3 * (lcore % 8))
/-- Existing roles of a logical cluster, ascending. -/
def Launch.rolesOf (l : Launch) (q : Nat) : List Nat := (List.range 8).filter fun r => l.roleExists (8 * q + r)
/-- Where a byte of cluster memory lies (R153): its logical core and its offset in that core's scratchpad. Granules of 256 bytes rotate
through the existing roles. -/
def Launch.clusterPlace (l : Launch) (q off : Nat) : Nat × Nat :=
  let g := off / 256
  let n := (l.rolesOf q).length
  (8 * q + (l.rolesOf q).getD (g % n) 0, Config.scratchBytes - l.lend + g / n * 256 + off % 256)
/-- The die of a byte of a context's chip scratchpad window (R154). -/
def chipDie (off : Nat) : Nat := off / 4096 % 4
/-- Existing logical cores, ascending. -/
def Launch.lcores (l : Launch) : List Nat := (List.range 192).filter l.roleExists
/-- The logical core that a physical core is bound to. -/
def Launch.logical? (l : Launch) (c : Nat) : Option Nat := l.lcores.find? fun x => l.physical x == c

/-! ### Commands on maps of lists -/

/-- Replace the first element that satisfies a test. -/
def replaceFirst {α : Type} (l : List α) (p : α → Bool) (f : α → α) : List α :=
  match l with
  | [] => []
  | x :: xs => if p x then f x :: xs else x :: replaceFirst xs p f

end Sys2Proof.Machine
end

