-- ==== Sys2Proof/WellFormed.lean ====
section
/-! DEFINITION. Which instructions are well formed: the alignment and class rules that R74 checks as OPERAND, the values
that entries list as reserved, and the pair rules of R73. -/

namespace Sys2Proof

/-- The index of a register within its class. -/
def Reg.idx : Reg → Nat
  | .v n => n.toNat
  | .k n => n.toNat

/-- Whether a specifier is a k register (R64). -/
def Reg.isK : Reg → Bool
  | .v _ => false
  | .k _ => true

/-- Whether a register starts a group aligned to `n` (R25). -/
def Reg.aligned (r : Reg) (n : Nat) : Bool := r.idx % n == 0

/-- The registers of one value of a width (R69). -/
def Width.regs : Width → Nat
  | .b64 => 2
  | .b128 => 4
  | _ => 1

/-- The registers of an address: a pair in global space (R198). -/
def Space.regs : Space → Nat
  | .g => 2
  | _ => 1

/-- Registers of a float operand: FP64 takes a pair (R111). -/
def fpRegs (f64 : Bool) : Nat := if f64 then 2 else 1

/-- Registers of an integer type code: 0 s32, 1 u32, 2 s64, 3 u64 (R118). -/
def ityRegs (ty : BitVec 2) : Nat := if ty.getLsbD 1 then 2 else 1

/-- The CSRs of R32: whether a number is in the table, and whether its register is of 64 bits. -/
def csrWide (num : BitVec 12) : Option Bool :=
  let n := num.toNat
  if [0x002, 0x030, 0x032, 0x034, 0x040, 0x041, 0x050, 0x060, 0x061, 0x071].contains n then some true
  else if [0x000, 0x001, 0x003, 0x004, 0x010, 0x011, 0x012, 0x020, 0x021, 0x022, 0x031, 0x033, 0x035, 0x036, 0x051,
      0x052, 0x053, 0x062, 0x063, 0x070, 0x072, 0x080, 0x081, 0x090].contains n then some false
  else if 0x100 ≤ n ∧ n ≤ 0x10F then some false
  else none

/-- A register that holds a CSR's value is aligned for it, and the number is in the table (R110). -/
def csrOk (r : Reg) (num : BitVec 12) : Bool :=
  match csrWide num with
  | some wide => !wide || r.aligned 2
  | none => false

/-- The fields of SHSET and SHGET that name a pair (R234). -/
def ShField.wide : ShField → Bool
  | .base => true
  | .str _ => true
  | _ => false

/-- The register that a half writes (R72). -/
def Half.dst : Half → Option Reg
  | .nop => none
  | .rr _ d _ => some d
  | .sh _ d _ => some d
  | .ri _ d _ => some d
  | .shfl d _ _ => some d

/-- The registers that a half reads (R72). -/
def Half.reads : Half → List Reg
  | .nop => []
  | .rr .mov _ a => [a]
  | .rr _ d a => [d, a]
  | .sh _ d _ => [d]
  | .ri .movi _ _ => []
  | .ri _ d _ => [d]
  | .shfl _ a _ => [.v a]

/-- The v registers among some registers. -/
def vIndices (l : List Reg) : List Nat :=
  l.filterMap fun r => match r with
    | .v n => some n.toNat
    | .k _ => none

/-- The rules of a pair (R73): distinct writes, and no two distinct v registers read in one bank. -/
def pairOk (x y : Half) : Bool :=
  let vs := vIndices (x.reads ++ y.reads)
  (x.dst.isNone || decide (x.dst ≠ y.dst)) && vs.all fun a => vs.all fun b => a == b || a % 4 != b % 4

/-- An optional source that must be an even pair. -/
def optPair (s : Option Src) : Bool :=
  match s with
  | some s => s.reg.aligned 2
  | none => true

/-- Well-formedness of an instruction. Events are well formed: their arguments are data, not encodings. -/
def Instr.wf : Instr → Bool
  | .iadd64 _ d a b => d.aligned 2 && a.reg.aligned 2 && match b with
    | .pair s => s.reg.aligned 2
    | _ => true
  | .lea _ d a _ _ _ => d.aligned 2 && a.reg.aligned 2
  | .imadw _ d _ _ c _ => d.aligned 2 && c.reg.aligned 2
  | .bfx _ _ _ f _ => match f with
    | .imm _ len => decide (len.toNat ≤ 32)
    | .reg _ => true
  | .bfi _ _ _ f _ => match f with
    | .imm _ len => decide (len.toNat ≤ 32)
    | .reg _ => true
  | .bperm _ _ a _ _ => a.reg.aligned 4
  | .mov _ d a wide => !wide || (d.aligned 2 && a.reg.aligned 2)
  | .shfl _ _ _ _ w _ => decide (w.toNat ≤ 5)
  | .fadd _ f64 _ d a b => d.aligned (fpRegs f64) && a.src.reg.aligned (fpRegs f64) && b.src.reg.aligned (fpRegs f64)
  | .fsub _ f64 _ d a b => d.aligned (fpRegs f64) && a.src.reg.aligned (fpRegs f64) && b.src.reg.aligned (fpRegs f64)
  | .fmul _ f64 _ d a b => d.aligned (fpRegs f64) && a.src.reg.aligned (fpRegs f64) && b.src.reg.aligned (fpRegs f64)
  | .ffma _ f64 _ d _ _ a b =>
    d.aligned (fpRegs f64) && a.src.reg.aligned (fpRegs f64) && b.src.reg.aligned (fpRegs f64)
  | .fmin _ f64 d a b => d.aligned (fpRegs f64) && a.src.reg.aligned (fpRegs f64) && b.src.reg.aligned (fpRegs f64)
  | .fmax _ f64 d a b => d.aligned (fpRegs f64) && a.src.reg.aligned (fpRegs f64) && b.src.reg.aligned (fpRegs f64)
  | .fset _ f64 _ a b _ _ => a.src.reg.aligned (fpRegs f64) && b.src.reg.aligned (fpRegs f64)
  | .fdiv _ f64 _ d a b => d.aligned (fpRegs f64) && a.src.reg.aligned (fpRegs f64) && b.src.reg.aligned (fpRegs f64)
  | .fsqrt _ f64 _ d a => d.aligned (fpRegs f64) && a.src.reg.aligned (fpRegs f64)
  | .frcp _ f64 _ d a => d.aligned (fpRegs f64) && a.src.reg.aligned (fpRegs f64)
  | .frsq _ f64 _ d a => d.aligned (fpRegs f64) && a.src.reg.aligned (fpRegs f64)
  | .fexp2 _ f64 _ d a => d.aligned (fpRegs f64) && a.src.reg.aligned (fpRegs f64)
  | .flog2 _ f64 _ d a => d.aligned (fpRegs f64) && a.src.reg.aligned (fpRegs f64)
  | .fsin _ f64 _ d a => d.aligned (fpRegs f64) && a.src.reg.aligned (fpRegs f64)
  | .fcos _ f64 _ d a => d.aligned (fpRegs f64) && a.src.reg.aligned (fpRegs f64)
  | .fclass _ f64 _ a => a.src.reg.aligned (fpRegs f64)
  | .frnd _ f64 _ d a => d.aligned (fpRegs f64) && a.reg.aligned (fpRegs f64)
  | .f2i _ f64 _ d a ty => d.aligned (ityRegs ty) && a.reg.aligned (fpRegs f64)
  | .i2f _ f64 _ d a ty => d.aligned (fpRegs f64) && a.reg.aligned (ityRegs ty)
  | .f2f _ narrow r d a =>
    (narrow || r == .st .rn) && d.aligned (fpRegs (!narrow)) && a.reg.aligned (fpRegs narrow)
  | .altab _ _ a _ => a.reg.aligned 2
  | .brx _ a _ => a.reg.aligned 2
  | .callx _ a _ => a.reg.aligned 2
  | .ld _ d a w sp _ => d.aligned w.regs && a.reg.aligned sp.regs
  | .st _ a b w sp _ => (w != .s8 && w != .s16) && a.reg.aligned sp.regs && b.reg.aligned w.regs
  | .ldr _ d a w _ => d.aligned w.regs && a.reg.aligned 2
  | .gath _ d a w sp _ _ => d.aligned w.regs && a.reg.aligned sp.regs
  | .scat _ a b w sp _ _ => (w != .s8 && w != .s16) && a.reg.aligned sp.regs && b.reg.aligned w.regs
  | .pref _ a _ _ => a.reg.aligned 2
  | .atom _ op d a b c b64 _ _ sp =>
    (c.isSome == (op == .cas)) && sp != .l && d.aligned (fpRegs b64) && a.reg.aligned sp.regs
      && b.reg.aligned (fpRegs b64) && match c with
        | some c => c.reg.aligned (fpRegs b64)
        | none => true
  | .red _ op a b b64 _ _ sp =>
    (op != .exch && op != .cas) && sp != .l && a.reg.aligned sp.regs && b.reg.aligned (fpRegs b64)
  | .clrset _ a _ _ => a.reg.aligned 2
  | .clrget _ _ a _ => a.reg.aligned 2
  | .alloc _ d _ _ => d.aligned 2
  | .free _ a => a.reg.aligned 2
  | .cpa _ _ b _ _ _ => b.reg.aligned 2
  | .bcopy _ _ _ cnt idx _ fut => decide (idx.toNat ≤ cnt.toNat) && optPair fut
  | .mcast _ _ _ mask _ => mask != 0
  | .slotf _ _ n => n != 0
  | .shld _ _ a scratch _ => scratch || a.reg.aligned 2
  | .shst _ _ a scratch _ => scratch || a.reg.aligned 2
  | .shset _ _ f a => !f.wide || a.reg.aligned 2
  | .shget _ d _ f => !f.wide || d.aligned 2
  | .strm _ _ _ _ _ fut => optPair fut
  | .bld _ _ _ _ fut => optPair fut
  | .mdrain _ _ _ _ _ _ _ fut => optPair fut
  | .epil _ a scratch _ => scratch || a.reg.aligned 2
  | .spawn _ _ a b dom => a.reg.aligned 2 && b.reg.aligned 8 && match dom with
    | some (d, c) => d != 0 && c.reg.aligned 2
    | none => true
  | .spawnf _ _ a b c n =>
    a.reg.aligned 2 && b.reg.aligned 8 && c.reg.aligned 2 && decide (c.reg.idx + 2 * (n.toNat + 1) ≤ 32)
  | .futnew _ a _ => a.reg.aligned 2
  | .futres _ _ a b _ => a.reg.aligned 2 && b.reg.aligned 2
  | .futget _ d a _ => d.aligned 2 && a.reg.aligned 2
  | .csrr _ d num => csrOk d num
  | .csrw _ num a => csrOk a.reg num
  | .pairBundle x y => pairOk x y
  | .iadd .. | .isub .. | .imul .. | .imulh .. | .imad .. | .idiv .. | .irem .. | .imin .. | .imax .. | .iabs ..
  | .ineg .. | .and .. | .or .. | .xor .. | .andn .. | .not .. | .shl .. | .shr .. | .sar .. | .rotl .. | .popc ..
  | .clz .. | .brev .. | .bsel .. | .iset .. | .isel .. | .movi .. | .movk .. | .pset .. | .pmov .. | .vote ..
  | .redux .. | .cvt .. | .cvtp .. | .cvtu .. | .tfence .. | .hadd2 .. | .hmul2 .. | .hfma2 .. | .almul ..
  | .almac .. | .alconj .. | .alnorm .. | .bra .. | .call .. | .ret .. | .exit .. | .merge | .yield | .nop ..
  | .trap .. | .rtt | .rts | .brk .. | .fence .. | .ifence .. | .roinv .. | .monq .. | .wait .. | .bari .. | .bara ..
  | .barq .. | .strmq .. | .rsig .. | .mma .. | .mzero .. | .mq .. | .tself .. | .tabort .. | .tirrev .. | .evt ..
  | .illegalBundle .. | .altabTableRead .. | .waitTimeout .. | .waitWordReread .. | .cpaLand ..
  | .bcopyTransferComplete .. | .engineStop .. | .mcastDelivery .. | .channelTile .. | .mmaRun .. | .mzeroRun ..
  | .bldRun .. | .mdrainRun .. | .epilRun .. | .queueSegmentLink .. | .futureRegistration .. | .trapEntry ..
  | .pcMatchEntry | .fetchFault | .loadDataReturn .. | .longOpComplete .. | .slowCsrReturn .. | .waveEnd ..
  | .faultRecordService .. | .taskPromote .. | .chuckScan .. | .chuckWindowExpire .. | .taskWavePlace ..
  | .taskCommit .. | .taskMove .. | .doorbellWrite .. | .ringEntryTake .. | .blockPlace .. | .blockRetire ..
  | .launchEnd .. | .create .. | .destroy .. | .suspend .. | .resume .. | .status .. | .setvw .. | .quantumExpire ..
  | .preempt .. | .outstandingResponse .. | .contextRestore .. | .waveEvict .. | .waveReturn .. | .evacuationPageSend
  | .pageReturn .. | .mapRequest .. | .invalidation .. | .powerOnReset .. | .powerOff | .staticEnergyTick
  | .hostPortTrain .. | .hostPortDown .. | .hostWindowAccess .. | .functionLevelReset .. | .peerRequest ..
  | .flitReplay .. | .linkFailure .. | .linkRetrainTimeout .. | .linkTrain .. | .tickSync .. | .tickRootLost ..
  | .registerWrite .. | .traceEnableWrite .. | .stallSample | .halt .. | .debugResume .. | .read .. | .write ..
  | .freezeArm .. | .freezeStart | .freezeResume | .linkedArmArrival .. | .linkedResumeArrival .. | .pmcOverflow ..
  | .pmovfClear .. | .attest .. | .capWrite .. | .thermalThreshold .. | .clockStepChange | .coreGate ..
  | .coreUngate .. | .memoryError .. => true

end Sys2Proof
end

