-- ==== Sys2Proof/Machine/Operands.lean ====
section
/-! DEFINITION. Registers as bundles name them: windows, groups, shadow naming, empty bits and poison (01, R23–R27, R389). -/

namespace Sys2Proof

/-- The specifier number of a register (R64). -/
def Reg.code : Reg → Nat
  | .v n => n.toNat
  | .k n => 32 + n.toNat

/-- A v-only source as a source. -/
def VSrc.src (s : VSrc) : Src := ⟨.v s.n, s.trap⟩

end Sys2Proof

namespace Sys2Proof.Machine

/-- What the issue of a bundle fixes: the split and the lanes that pass the guard. -/
structure Iss where
  wid : Nat
  entry : Nat
  core : Nat
  slot : Nat
  ctx : Nat
  lid : Nat
  bid : Nat
  pc : Pc
  /-- lanes of the split -/
  mask : Word
  /-- active lanes, ascending -/
  act : List Nat
  /-- S of the launch -/
  s : Nat
  /-- specifiers 0x10–0x1F name h registers (R389) -/
  shadow : Bool
  level : BitVec 2
  deriving DecidableEq, Repr

/-- A register's home: file 0 the register stack, 1 k, 2 h, 3 kz; and the key in its map. -/
abbrev Loc := Nat × Nat

/-- Physical stack position of window register `n` at depth `w` (R18). -/
def stackPos (s w n : Nat) : Nat := (24 * w + n) % s

/-- The home of a specifier in a lane (R18, R64, R389). -/
def Wave.loc (v : Wave) (e : Iss) (r : Reg) (l : Nat) : Loc :=
  match r with
  | .v n =>
    if e.shadow ∧ 16 ≤ n.toNat then (2, 16 * l + (n.toNat - 16))
    else (0, 1024 * l + stackPos e.s (v.lane l).wdepth.toNat n.toNat)
  | .k n => if n = 31 then (3, 0) else (1, n.toNat)

/-- The word in a home; kz reads zero (R23). -/
def Wave.rd (v : Wave) (x : Loc) : Word :=
  match x.1 with
  | 0 => mget v.vregs x.2 0
  | 1 => mget v.kregs x.2 0
  | 2 => mget v.hregs x.2 0
  | _ => 0

/-- The empty bit or poison mark of a home; none is full. -/
def Wave.stat (v : Wave) (x : Loc) : Option RegStat :=
  match x.1 with
  | 0 => mget? v.vstat x.2
  | 1 => mget? v.kstat x.2
  | 2 => mget? v.hstat x.2
  | _ => none

/-- Set a home's status. -/
def Wave.setStat (v : Wave) (x : Loc) (t : Option RegStat) : Wave :=
  let f := fun (m : FMap RegStat) => match t with
    | some t => mput m x.2 t
    | none => mdel m x.2
  match x.1 with
  | 0 => { v with vstat := f v.vstat }
  | 1 => { v with kstat := f v.kstat }
  | 2 => { v with hstat := f v.hstat }
  | _ => v

/-- Write a home's word and set it full; kz discards. -/
def Wave.wr (v : Wave) (x : Loc) (y : Word) : Wave :=
  match x.1 with
  | 0 => { v with vregs := mset v.vregs x.2 y 0, vstat := mdel v.vstat x.2 }
  | 1 => { v with kregs := mset v.kregs x.2 y 0, kstat := mdel v.kstat x.2 }
  | 2 => { v with hregs := mset v.hregs x.2 y 0, hstat := mdel v.hstat x.2 }
  | _ => v

/-- Register `i` of the group that starts at `r` (R25). kz in a group reads zero and discards (R23). -/
def regAt (r : Reg) (i : Nat) : Reg :=
  match r with
  | .v n => .v (n + BitVec.ofNat 5 i)
  | .k n => .k (n + BitVec.ofNat 5 i)

/-- A lane's value of a register. -/
def Wave.val (v : Wave) (e : Iss) (r : Reg) (l : Nat) : Word := v.rd (v.loc e r l)
/-- A lane's value of a pair (R25). -/
def Wave.val64 (v : Wave) (e : Iss) (r : Reg) (l : Nat) : DWord :=
  DWord.ofPair (v.val e r l) (v.val e (regAt r 1) l)
/-- A lane's values of a group. -/
def Wave.vals (v : Wave) (e : Iss) (r : Reg) (n l : Nat) : List Word :=
  (List.range n).map fun i => v.val e (regAt r i) l

/-- Write a lane's group. -/
def Wave.put (v : Wave) (e : Iss) (r : Reg) (l : Nat) (ys : List Word) : Wave :=
  (ys.zipIdx).foldl (fun v y => v.wr (v.loc e (regAt r y.2) l) y.1) v

/-- Write a destination in every active lane; a k destination takes the lowest active lane's value (R23). -/
def Wave.putAll (v : Wave) (e : Iss) (r : Reg) (f : Nat → List Word) : Wave :=
  if r.isK then
    match e.act with
    | [] => v
    | l :: _ => v.put e r l (f l)
  else e.act.foldl (fun v l => v.put e r l (f l)) v

/-- The homes of a destination group that a producer marks: every active lane's, or once for a k register. -/
def Wave.dstLocs (v : Wave) (e : Iss) (r : Reg) (n l : Nat) : List Loc :=
  (List.range n).map fun i => v.loc e (regAt r i) l

/-- A lane's predicate (R24). -/
def Lane.pred (x : Lane) (p : BitVec 3) : Bool := p = 0 || x.preds.getLsbD p.toNat
/-- Write a lane's predicate; p0 discards. -/
def Lane.setPred (x : Lane) (p : BitVec 3) (b : Bool) : Lane :=
  if p = 0 then x
  else
    let m : BitVec 8 := 1#8 <<< p.toNat
    { x with preds := if b then x.preds ||| m else x.preds &&& ~~~m }
/-- Write a predicate in every active lane. -/
def Wave.putPred (v : Wave) (e : Iss) (p : BitVec 3) (f : Nat → Bool) : Wave :=
  e.act.foldl (fun v l => { v with lanes := mmod v.lanes l Lane.blank fun x => x.setPred p (f l) }) v

/-! ### What a bundle reads and writes -/

/-- A register read: the group, its length, the field it stands in (0 a, 1 b, 2 c, 3 d, 4 implicit), and whether an
empty register raises EMPTYREAD (R27). -/
structure Use where
  reg : Reg
  len : Nat
  field : Nat
  trap : Bool
  deriving DecidableEq, Repr

/-- The use of a source as field 0 a, 1 b or 2 c. -/
def useOf (s : Src) (len field : Nat) : Use := ⟨s.reg, len, field, s.trap⟩

/-- The registers of a bundle: sources, and the destination group. -/
structure Uses where
  src : List Use
  dst : Option (Reg × Nat)
  deriving DecidableEq, Repr

/-- How the registers of a bundle stand at issue (R27). -/
inductive Ready where
  | ok
  | stall
  /-- DATAERR: the kept address, its space and the lane -/
  | poison (addr : BitVec 64) (space : BitVec 3) (lane : Nat)
  /-- EMPTYREAD: producer PC, field, specifier, lane -/
  | empty (pc : Pc) (field spec lane : Nat)
  deriving DecidableEq, Repr

/-- The first element for which a function gives an answer. -/
def firstSome {α β : Type} (l : List α) (f : α → Option β) : Option β :=
  match l with
  | [] => none
  | x :: xs => match f x with
    | some y => some y
    | none => firstSome xs f

/-- The homes that a use names in a lane, with their specifiers. -/
def Wave.useLocs (v : Wave) (e : Iss) (u : Use) (l : Nat) : List (Reg × Loc) :=
  (List.range u.len).map fun i => (regAt u.reg i, v.loc e (regAt u.reg i) l)

/-- The registers of a bundle against their empty bits and marks, for given active lanes; `at_` gives the lane whose
register the use of a field reads, which differs from the lane itself only in cross-lane reads (R27). A trap names the lane that
reads (log entry 86: DEDUCED). -/
def Wave.ready (v : Wave) (e : Iss) (u : Uses) (at_ : Nat → Nat → Nat) : Ready :=
  let dst : List Use := match u.dst with
    | some (r, n) => [⟨r, n, 3, false⟩]
    | none => []
  let order := u.src.filter (·.field < 3) ++ dst ++ u.src.filter (3 ≤ ·.field)
  let lane := fun (x : Use) (l : Nat) => at_ x.field l
  let pois := firstSome e.act fun l => firstSome order fun x => firstSome (v.useLocs e x (lane x l)) fun y =>
    match v.stat y.2 with
    | some (.poison a s) => some (Ready.poison a s l)
    | _ => none
  match pois with
  | some r => r
  | none =>
    let emp := firstSome (u.src.filter (·.trap)) fun x => firstSome e.act fun l =>
      firstSome (v.useLocs e x (lane x l)) fun y =>
        match v.stat y.2 with
        | some (.empty p _) => some (Ready.empty p x.field y.1.code l)
        | _ => none
    match emp with
    | some r => r
    | none =>
      let busy := e.act.any fun l => order.any fun x => (v.useLocs e x (lane x l)).any fun y =>
        (v.stat y.2).isSome
      if busy then .stall else .ok

end Sys2Proof.Machine
end

