-- ==== Sys2Proof/Machine/Translate.lean ====
section
/-! DEFINITION. Translation: page walks, TLBs, permissions, access tables and fault records (20, 23 R374–R376). -/

namespace Sys2Proof.Machine

/-- Kinds of access, by the leaf bits they need (R335). -/
inductive Acc where
  | r | w | rw | x
  deriving DecidableEq, Repr

/-- Page size in bits of a leaf level (R329). -/
def pageBits (level : Nat) : Nat := if level = 2 then 26 else if level = 3 then 21 else 16

/-- Index bits of a level (R329). -/
def vaIndex (level va : Nat) : Nat :=
  match level with
  | 0 => bits va 55 44
  | 1 => bits va 43 35
  | 2 => bits va 34 26
  | 3 => bits va 25 21
  | _ => bits va 20 16

/-- Size in bits of a level's table (R329). -/
def tableBits (level : Nat) : Nat := if level = 0 then 15 else if level ≤ 2 then 12 else 8

/-- A valid table entry of a level (R330, R331). -/
def tableEntryOk (level e : Nat) : Bool :=
  bit e 0 && !bit e 1 && level < 4 && bits e 63 52 == 0 && bits e 7 2 == 0 &&
    (bits e 51 8 * 256) % 2 ^ tableBits (level + 1) == 0

/-- A valid leaf of a level (R331). -/
def leafOk (level e : Nat) : Bool :=
  bit e 0 && bit e 1 && 2 ≤ level && bits e 63 56 == 0 && bits e 15 11 == 0 && !bit e 9 && bits e 7 6 != 3 &&
    (bits e 51 16 * 65536) % 2 ^ pageBits level == 0 &&
    (match bits e 7 6 with
     | 0 => bits e 55 52 == 0
     | 2 => bits e 55 53 == 0
     | _ => true)

/-- What a walk finds. -/
inductive Walk where
  | leaf (e : BitVec 64) (at_ level : Nat)
  | bad (level : Nat)
  deriving DecidableEq, Repr

/-- A walk from a table on, through the levels given (R329, R333); an uncorrectable entry is invalid (R395). -/
def walkFrom (w : Work) (va table : Nat) : List Nat → Walk
  | [] => .bad 4
  | level :: rest =>
    let at_ := table + 8 * vaIndex level va
    let k := (PAddr.hbm at_).key
    let e := w.num k 8
    if (List.range 8).any fun i => w.dev.bad.contains (k + 8 * i) then .bad level
    else if leafOk level e then .leaf (BitVec.ofNat 64 e) at_ level
    else if tableEntryOk level e then walkFrom w va (bits e 51 8 * 256) rest
    else .bad level

/-- A walk of a context's tables. -/
def walk (w : Work) (ctx va : Nat) : Walk := walkFrom w va (w.ctx ctx).rec_.root [0, 1, 2, 3, 4]

def TlbEntry.hits (t : TlbEntry) (ctx va : Nat) : Bool := t.ctx == ctx && t.vpn == va / 2 ^ pageBits t.level

/-- Add an entry to a TLB of a size; of a full one the entry filled first leaves (log entry 77: DESIGN CHOICE). -/
def tlbFill (l : List TlbEntry) (t : TlbEntry) (size : Nat) : List TlbEntry :=
  (t :: l.filter fun x => !(x.ctx == t.ctx && x.level == t.level && x.vpn == t.vpn)).take size

/-- Apply a function to every TLB of the package. -/
def Work.modTlbs (w : Work) (f : List TlbEntry → List TlbEntry) : Work :=
  let w := w.modDev fun d => { d with cores := d.cores.map fun c => (c.1, { c.2 with tlb := f c.2.tlb }) }
  w.modMmu fun m => { m with tlbCluster := m.tlbCluster.map fun c => (c.1, f c.2),
                             tlbDie := m.tlbDie.map fun c => (c.1, f c.2) }

/-- Fill the three TLB levels above a core (R332). -/
def Work.fillTlbs (w : Work) (core : Nat) (t : TlbEntry) : Work :=
  let w := w.modCore core fun c => { c with tlb := tlbFill c.tlb t Config.tlbCore }
  w.modMmu fun m => { m with
    tlbCluster := mmod m.tlbCluster (clusterOf core) [] fun l => tlbFill l t Config.tlbCluster
    tlbDie := mmod m.tlbDie (dieOf core) [] fun l => tlbFill l t Config.tlbDie }

/-- Translate an address for a context (R332, R333). With a core, its TLBs may answer: a hit, or a fresh walk when the
entry has been dropped, and where these differ the answer is free (log entry 6: DESIGN CHOICE). The Headstock walks. -/
def Work.translate (w : Work) (ctx : Nat) (core : Option Nat) (va : Nat) : Walk × Work :=
  let fresh := walk w ctx va
  match core with
  | none => (fresh, w)
  | some c =>
    let tlbs := (w.core c).tlb ++ mget w.dev.mmu.tlbCluster (clusterOf c) [] ++ mget w.dev.mmu.tlbDie (dieOf c) []
    let hits := (tlbs.filter fun t => t.hits ctx va).map fun t => Walk.leaf t.leaf t.at_ t.level
    let (r, w) := w.pick (hits ++ [fresh]) fresh
    match r with
    | .leaf e at_ level => (r, w.fillTlbs c ⟨ctx, level, va / 2 ^ pageBits level, e, at_⟩)
    | .bad _ => (r, w)

/-- Set D in a leaf and in every TLB copy of it (R336). -/
def Work.setDirty (w : Work) (leaf : BitVec 64) (at_ : Nat) : Work :=
  if leaf.getLsbD 5 then w
  else
    let k := (PAddr.hbm at_).key
    let w := w.putBytes k [w.byte k ||| 0x20]
    w.modTlbs fun l => l.map fun t => if t.at_ = at_ then { t with leaf := t.leaf ||| 0x20 } else t

/-! ### Access tables (R374, R375) -/

/-- The frame-map byte of a physical address. -/
def Hub.frameByte (h : Hub) (pa : Nat) : Byte :=
  match h.frames.find? fun r => decide (r.first ≤ pa / 65536) && decide (pa / 65536 < r.first + r.count) with
  | some r => r.byte
  | none => 0

/-- The map bytes that cover a physical address: one, or one for each context into which its frame is mapped (log entry 67: DEDUCED). -/
def Hub.frameBytes (h : Hub) (pa : Nat) : List Byte :=
  (h.frames.filter fun r => decide (r.first ≤ pa / 65536) && decide (pa / 65536 < r.first + r.count)).map (·.byte)

/-- The HBM controller of a physical address: the controller beside the home slice (log entry 27: DEDUCED). -/
def hbmTarget (pa : Nat) : Nat := homeSlice pa / 64

/-- Kind of access at a target: 0 read, 1 write, 2 atomic. -/
def tableAllows (h : Hub) (target master kind : Nat) (pa : Option Nat) : Bool :=
  let e := mget h.access (88 * target + master) 0
  e.getLsbD 15 && e.getLsbD kind &&
    (match pa with
     | none => true
     | some a =>
       let fs := h.frameBytes a
       (fs.all fun f => !f.getLsbD 6) &&
         fs.any fun f => f.getLsbD 7 && (e.getLsbD 14 || bits f.toNat 5 0 == bits e.toNat 13 8))

/-- Where a translated access goes. -/
structure Phys where
  /-- memory key of the first byte -/
  key : Nat
  /-- 0 HBM, 1 peer, 2 host -/
  kind : Nat
  pa : Nat
  shrd : Bool
  /-- the leaf and its address, for D (R336) -/
  leaf : BitVec 64
  at_ : Nat
  /-- the outbound target of peer and host memory (R374) -/
  via : Option Nat
  deriving DecidableEq, Repr

/-- A place in this part's HBM that no leaf of a context has given. -/
def hbmPlace (pa : Nat) : Phys := ⟨8 * pa, 0, pa, false, 0x20, 0, none⟩
/-- The place of a memory key, where it is one of this part's HBM. -/
def placeOf (key : Nat) : Option Phys := if key % 8 = 0 then some (hbmPlace (key / 8)) else none

/-- The place that a leaf gives an address. -/
def physOf (e : BitVec 64) (at_ level va : Nat) : Phys :=
  let n := e.toNat
  let pa := bits n 51 16 * 65536 + va % 2 ^ pageBits level
  match bits n 7 6 with
  | 0 => ⟨(PAddr.hbm pa).key, 0, pa, bit n 10, e, at_, none⟩
  | 1 => ⟨(PAddr.peer (bits n 55 52) pa).key, 1, pa, false, e, at_, some (11 + bits n 55 52)⟩
  | _ => ⟨(PAddr.host pa).key, 2, pa, false, e, at_, some (9 + bits n 52 52)⟩

/-- Outcome of a check of one access. -/
inductive Chk where
  | ok (p : Phys)
  /-- a cause and the address -/
  | fault (cause : BitVec 8) (addr : BitVec 64)
  /-- refused by the access table of a target, which is a violation: target, access kind, physical address, address -/
  | refused (target kind pa : Nat) (addr : BitVec 64)
  /-- needs the fault record of a granule, met at a level -/
  | page (granule level : Nat)
  deriving DecidableEq, Repr

/-- The cause and address of an outright failure (R150). -/
def Chk.fails : Chk → Option (BitVec 8 × BitVec 64)
  | .fault c a => some (c, a)
  | .refused _ _ _ a => some (0x05, a)
  | _ => none

end Sys2Proof.Machine
end

