-- ==== Sys2Proof/Machine/Trace.lean ====
section
/-! DEFINITION. Records of the Tailstock: the trace buffer and the fault log (24 R380–R383), and access violations
(23 R376). -/

namespace Sys2Proof.Machine

/-- Whom a record concerns (R381). -/
structure Subject where
  core : Nat
  ctx : Nat
  wslot : Nat
  split : Nat
  mask : Word
  deriving DecidableEq, Repr

/-- A record that concerns no core and no wave. -/
def Subject.none : Subject := ⟨0xFF, 0, 0, 0, 0⟩
/-- A record of a context alone. -/
def Subject.ofCtx (c : Nat) : Subject := ⟨0xFF, c, 0, 0, 0⟩
/-- A record of a core and a context. -/
def Subject.ofCore (core ctx : Nat) : Subject := ⟨core, ctx, 0, 0, 0⟩

/-- Whether a context is confidential (R378). -/
def Work.conf (w : Work) (ctx : Nat) : Bool := ((mget? w.dev.ctxs ctx).map fun c => c.rec_.conf).getD false

/-- The four words of a record (R381), with the zeroing of R382. -/
def recordWords (w : Work) (type : Nat) (s : Subject) (hasCtx : Bool) (w2 w3 : Nat) : List Nat :=
  let conf := hasCtx && w.conf s.ctx
  let w1 :=
    if conf then type * 2 ^ 56 + s.core * 2 ^ 48 + 2 ^ 41
    else type * 2 ^ 56 + s.core * 2 ^ 48 + s.ctx * 2 ^ 42 + s.wslot * 2 ^ 35 + s.split * 2 ^ 33 + s.mask.toNat
  [w.gtick.toNat, w1, if conf then (if type = 3 then w2 % 256 else 0) else w2, if conf then 0 else w3]

/-- The bytes of a record. -/
def recordBytes (ws : List Nat) : List Byte := ws.flatMap (leBytes 8)

/-- Whether a link works (R345). -/
def Work.linkUp (w : Work) (n : Nat) : Bool := (mget w.dev.hub.links n Link.blank).up
/-- Whether a host port works (R370). -/
def Work.portUp (w : Work) (p : Nat) : Bool := (mget w.dev.hub.ports p Port.blank).up

/-- TSIZE holds a power of two from 65,536 to 2³⁰ (R380). -/
def tsizeOk (t : Word) : Bool := (List.range 15).any fun i => t.toNat == 2 ^ (16 + i)

/-- Whether a buffer of a new TSIZE is full (R380): WRAP is 0 and TWPTR has reached its end or passed it. -/
def Tailstock.fills (t : Tailstock) : Bool := tsizeOk t.tsize && !t.wrap && decide (t.tsize.toNat / 32 ≤ t.twptr.toNat)

/-- A trace record is dropped, and counted (R380, R394). -/
def Work.traceLost (w : Work) : Work :=
  w.modTail fun t => { t with tlost := if t.tlost = BitVec.allOnes 64 then t.tlost else t.tlost + 1 }

/-- Write one trace record through the port TPORT (R380); one whose port does not work is dropped (log entry 84: DESIGN CHOICE). -/
def Work.trace (w : Work) (bs : List Byte) : Work :=
  let t := w.dev.tail
  if !t.ten then w
  else if !tsizeOk t.tsize ∨ t.full ∨ !w.portUp (b2n t.tport) then w.traceLost
  else
    let at_ := t.tbase.toNat + 32 * (t.twptr.toNat % (t.tsize.toNat / 32))
    (w.putBytes (PAddr.host at_).key bs).modTail fun t =>
      { t with twptr := t.twptr + 1, full := !t.wrap && (t.twptr.toNat + 1 == t.tsize.toNat / 32) }

/-- Entries of the fault log (R380). -/
def Tailstock.logEntries (t : Tailstock) : Nat := 2 ^ (max 6 (min 12 t.fllog.toNat))

/-- Write one fault record, to the fault log through the port FLPORT, and to the trace (R380, R383); one whose port does not
work is dropped from the log (log entry 84: DESIGN CHOICE). -/
def Work.report (w : Work) (cls cause : Nat) (detail addr : Nat) (s : Subject) (hasCtx : Bool) : Work :=
  let bs := recordBytes (recordWords w 3 s hasCtx (detail % 2 ^ 32 * 2 ^ 16 + cause * 2 ^ 8 + cls) addr)
  let w := w.trace bs
  let t := w.dev.tail
  if !t.flen ∨ (t.fltail - t.flhead).toNat = t.logEntries ∨ !w.portUp (b2n t.flport) then
    w.modTail fun t => { t with fllost := if t.fllost = BitVec.allOnes 32 then t.fllost else t.fllost + 1 }
  else
    let at_ := t.flbase.toNat + 32 * (t.fltail.toNat % t.logEntries)
    let w := (w.putBytes (PAddr.host at_).key bs).modTail fun t => { t with fltail := t.fltail + 1 }
    w.msix 0 0

/-- An error of a structure is counted and recorded (R396, R401): every uncorrectable one, and the first corrected one of
each structure, die and aligned window of 1,024 gt. -/
def Work.logError (w : Work) (code die addr : Nat) (unc spared : Bool) (s : Subject) (hasCtx : Bool) : Work :=
  let up := fun (x : BitVec 64) => if x = BitVec.allOnes 64 then x else x + 1
  let w := w.modPow fun p => if unc then { p with uec := up p.uec } else { p with cec := up p.cec }
  let window := w.gtick.toNat / 1024 + 1
  let key := 4 * code + die
  if !unc ∧ mget w.dev.pow.windows key 0 = window then w
  else
    let w := if unc then w else w.modPow fun p => { p with windows := mput p.windows key window }
    w.report 8 (if unc then 0x0D else 0) (code + b2n unc * 2 ^ 10 + b2n spared * 2 ^ 11 + die * 2 ^ 12) addr s hasCtx

/-! ### Performance counters (R392, R393) -/

/-- One counter of a core adds `n`; a sum of 2⁶³ or more stands for the overflow that is the part's next event (R393). -/
def Work.pmcAdd (w : Work) (core i n : Nat) : Work :=
  let p := mget (w.core core).pmcs i Pmc.blank
  let c := (if p.past = 0 then bits p.cnt.toNat 62 0 else p.past) + n
  let put := fun (p : Pmc) => w.modCore core fun k => { k with pmcs := mput k.pmcs i p }
  if c < 2 ^ 63 then put { p with cnt := BitVec.ofNat 64 (bits p.cnt.toNat 63 63 * 2 ^ 63 + c) }
  else
    let w := put { p with past := c }
    if p.past ≠ 0 then w
    else w.modSys fun s => { s with agenda := .event (.pmcOverflow core (BitVec.ofNat 3 i)) :: s.agenda }

/-- The overflow of a counter (R393): COUNT wraps, OV and PMOVF are set, and it is recorded and signalled as TRC and IRQ
ask. -/
def Work.pmcOverflow (w : Work) (core i : Nat) : Work :=
  let p := mget (w.core core).pmcs i Pmc.blank
  if p.past = 0 then w
  else
    let q := { p with cnt := BitVec.ofNat 64 (2 ^ 63 + p.past % 2 ^ 63), past := 0 }
    let w := w.modCore core fun k => { k with pmcs := mput k.pmcs i q, pmovf := k.pmovf ||| (1#8 <<< i) }
    let w := if p.sel.getLsbD 16 then
        let sel := bits p.sel.toNat 17 8 * 2 ^ 8 + i
        w.trace (recordBytes (recordWords w 4 (Subject.ofCore core 0) false sel 0))
      else w
    if p.sel.getLsbD 17 then w.msix 0 1 else w

/-- `n` events of a kind on a core for a context: every counter that selects them counts (R392). -/
def Work.count (w : Work) (core ctx event n : Nat) : Work :=
  if n = 0 ∨ w.conf ctx then w
  else (w.core core).pmcs.foldl (fun w p =>
    let s := p.2.sel.toNat
    if bits s 7 0 = event ∧ (!bit s 14 ∨ bits s 13 8 = ctx) then w.pmcAdd core p.1 n else w) w

/-! ### Checks of translated accesses -/

/-- A violation at a target: its record is written at the end of the tick (R376). -/
def Work.noteViolation (w : Work) (v : Viol) : Work := w.modHub fun h => { h with viols := h.viols ++ [v] }

/-- The context's master is refused at a target: an event record, and the core's clocks stop (R376). -/
def Work.violation (w : Work) (core ctx target kind pa : Nat) : Work :=
  (w.noteViolation ⟨ctx, some core, target, kind, pa⟩).modCore core fun c => { c with stopped := some ctx }


/-- Whether the link or port of an outbound target works (R345, R370). -/
def Work.targetUp (w : Work) (t : Nat) : Bool := if 11 ≤ t then w.linkUp (t - 11) else w.portUp (t - 9)

/-- The checks of the host or peer that an access goes to: a refusal is PROTECT, and nothing performs (R345; when it is made, and
whether, is free: log entry 79: DESIGN CHOICE). -/
def Work.extCheck (w : Work) (p : Phys) (va : Nat) : Chk × Work :=
  if p.via.isNone then (.ok p, w)
  else
    let (n, w) := w.draw
    (if Config.extRefuses n then .fault 0x05 (BitVec.ofNat 64 va) else .ok p, w)

/-- Check one global access of a context by checks 2 to 4 of R150 and the access table of its target (R335, R345, R374),
for `n` bytes that lie in one page. `core` is the core that issues it. -/
def Work.check (w : Work) (ctx core va : Nat) (acc : Acc) : Chk × Work :=
  if 2 ^ 56 ≤ va then (.fault 0x04 (BitVec.ofNat 64 va), w)
  else
    let (r, w) := w.translate ctx (some core) va
    match r with
    | .bad level => (.page (va / 65536) level, w)
    | .leaf e at_ level =>
      let okBits := match acc with
        | .r => e.getLsbD 2
        | .w => e.getLsbD 3
        | .rw => e.getLsbD 2 && e.getLsbD 3
        | .x => e.getLsbD 4
      if !okBits then (.fault 0x05 (BitVec.ofNat 64 va), w)
      else
        let p := physOf e at_ level va
        let kind := match acc with
          | .r | .x => 0
          | .w => 1
          | .rw => 2
        if (p.via.map w.targetUp) = some false then (.fault 0x04 (BitVec.ofNat 64 va), w)
        else
          let target := p.via.getD (hbmTarget p.pa)
          if tableAllows w.dev.hub target ctx kind (if p.kind = 0 then some p.pa else none) then w.extCheck p va
          else (.refused target kind p.pa (BitVec.ofNat 64 va), w)

/-- The violations among the checks of a bundle or an element (R376). -/
def Work.violations (w : Work) (core ctx : Nat) (cs : List Chk) : Work :=
  cs.foldl (fun w c => match c with
    | .refused t k p _ => w.violation core ctx t k p
    | _ => w) w

/-- Check a range that may cross pages: the first failure of its pieces, or the place of its first byte. -/
def Work.checkRange (w : Work) (ctx core va n : Nat) (acc : Acc) : Chk × Work :=
  let last := va + (n - 1)
  let (a, w) := w.check ctx core va acc
  match a with
  | .ok _ =>
    if n ≤ 1 ∨ va / 65536 = last / 65536 then (a, w)
    else
      let (b, w) := w.check ctx core last acc
      match b with
      | .ok _ => (a, w)
      | _ => (b, w)
  | _ => (a, w)

/-! ### Fault records (R337–R339) -/

/-- Join or open the record of a granule, for one waiter. Without a free record on the die, the waiter waits until one frees, and
walks again (R338). -/
def Work.joinRecord (w : Work) (die ctx granule level : Nat) (acc : Acc) (eng : Bool) (x : PageWaiter) : Work :=
  let mine := fun (r : FaultRec) => r.die == die && r.ctx == ctx && r.vpage == granule
  let add := fun (r : FaultRec) => { r with
    xs := r.xs || acc == .x, ws := r.ws || (acc == .w || acc == .rw), rs := r.rs || (acc == .r || acc == .rw)
    eng := r.eng || eng, waiters := if r.waiters.contains x then r.waiters else r.waiters ++ [x] }
  w.modMmu fun m =>
    if m.faults.any mine then { m with faults := replaceFirst m.faults mine add }
    else if (m.faults.filter fun r => r.die == die).length < Config.faultRecords then
      { m with faults := m.faults ++ [add ⟨die, ctx, granule, .open_, false, false, false, false, level, [],
                                          w.dev.sys.gtick⟩] }
    else { m with short := if m.short.contains (die, x) then m.short else m.short ++ [(die, x)] }

/-- A write goes to a checked place: D of its leaf is set first (R336). -/
def Work.dirty (w : Work) (p : Phys) : Work := w.setDirty p.leaf p.at_

/-- The tag of an HBM line by physical address; other memory is colour 0 (R162). -/
def Work.tag (w : Work) (p : Phys) : BitVec 12 := if p.kind = 0 then mget w.dev.tags (p.pa / 128) 0 else 0

/-- Whether any of `n` bytes at a key is uncorrectable. -/
def Work.badData (w : Work) (k n : Nat) : Bool :=
  !w.dev.bad.isEmpty && (List.range n).any fun i => w.dev.bad.contains (k + 8 * i)

/-- The first of `n` bytes at a key that is uncorrectable. -/
def Work.firstBad (w : Work) (k n : Nat) : Option Nat :=
  if w.dev.bad.isEmpty then none else (List.range n).find? fun i => w.dev.bad.contains (k + 8 * i)

/-- A write puts correct data: the marks of the bytes go. -/
def Work.mend (w : Work) (k n : Nat) : Work :=
  if w.dev.bad.isEmpty then w
  else w.modDev fun d => { d with bad := d.bad.filter fun x => !(decide (k ≤ x) && decide (x < k + 8 * n) && x % 8 == k % 8) }

end Sys2Proof.Machine
end

