-- ==== Sys2Proof/Machine/Waves.lean ====
section
/-! DEFINITION. The split table: groups, merging, MERGE and RTT holds, the overflow stack and its rotation
(06 R134–R137, 04 R101, R105, R108), and the wakes of parked splits. -/

namespace Sys2Proof.Machine

/-- Every split of a wave: resident entries, then the overflow stack from its top. -/
def Wave.splits (v : Wave) : List Split := v.entries.map (·.2) ++ v.overflow

/-- A function applied to every split of a wave. -/
def Wave.mapSplits (v : Wave) (f : Split → Split) : Wave :=
  { v with entries := v.entries.map fun x => (x.1, f x.2), overflow := v.overflow.map f }

/-- A resident entry. -/
def Wave.split (v : Wave) (n : Nat) : Split := mget v.entries n Split.blank
def Wave.setSplit (v : Wave) (n : Nat) (s : Split) : Wave := { v with entries := mput v.entries n s }

/-- Living lanes of a wave. -/
def Wave.living (v : Wave) : List Nat := (List.range 32).filter fun l => (v.lane l).alive

/-- The lowest free resident entry. -/
def Wave.freeEntry (v : Wave) : Option Nat := (List.range 4).find? fun n => (mget? v.entries n).isNone

/-- A new group takes the lowest free entry, or is pushed on the overflow stack (R101, R136). -/
def Wave.addGroup (v : Wave) (s : Split) : Wave :=
  match v.freeEntry with
  | some n => v.setSplit n s
  | none => { v with overflow := s :: v.overflow }

/-- Whether two resident splits merge by equal PCs (R135). -/
def mergeable (a b : Split) : Bool :=
  a.state == .ready && b.state == .ready && a.hold == .none && b.hold == .none && a.level == b.level &&
    a.pc == b.pc && a.handler == b.handler && a.busy.isNone && b.busy.isNone

/-- Two splits as one (R135, R138). Where one of them has still to issue the bundle that an RTS resumes, the union issues it
unmatched (log entry 91: DESIGN CHOICE). -/
def Split.union (a b : Split) : Split :=
  { a with mask := a.mask ||| b.mask, lastIssue := min a.lastIssue b.lastIssue, resumed := a.resumed || b.resumed
           denied := a.denied ++ b.denied, parkedAt := min a.parkedAt b.parkedAt }

/-- Merge the first pair of entries that a test allows, the higher into the lower. -/
def mergeOne (v : Wave) (p : Split → Split → Bool) : Option Wave :=
  firstSome v.entries fun x => firstSome v.entries fun y =>
    if x.1 < y.1 ∧ p x.2 y.2 then
      some { v with entries := mdel (mput v.entries x.1 (x.2.union y.2)) y.1 }
    else none

/-- The lanes that a held RTT or RTS waits for: those of TMASK, or those that entered the handler, still living. -/
def Wave.rttLanes (v : Wave) (s : Split) : Word :=
  let m := if s.level = 0 then (v.pmatch.map (·.lanes)).getD 0 else (mget v.traps s.level.toNat TrapVals.blank).mask
  maskOf ((lanesOf m).filter fun l => (v.lane l).alive)

/-- A split stands at the MERGE of another (R108): READY at its PC and level, and like it in or out of a PC-match handler, whose
splits merge only with one another (R389). A PARKED split at that PC does not count (log entry 91: DESIGN CHOICE). -/
def Split.joins (s t : Split) : Bool := s.pc == t.pc && s.state == .ready && s.level == t.level && s.handler == t.handler

/-- R108's condition: some split is held at a MERGE, and every split of the wave stands there. -/
def Wave.mergeAt (v : Wave) : Option Pc :=
  match v.entries.find? fun x => x.2.hold == .merge with
  | none => none
  | some x => if v.splits.all fun s => s.joins x.2 then some x.2.pc else none

/-- Every split merges into the lowest-numbered entry (R108). -/
def Wave.mergeAll (v : Wave) : Wave :=
  match v.entries with
  | [] => v
  | x :: rest =>
    let s := (rest.map (·.2) ++ v.overflow).foldl Split.union x.2
    { v with entries := [(x.1, { s with hold := .none })], overflow := [] }

/-- A split counts as parked for rotation (R137), one held at a MERGE too (R108). -/
def Split.counts (s : Split) : Bool := s.state == .parked || s.hold == .merge
/-- A stack entry that rotation brings in: READY, and not held at a MERGE (R108, R137). -/
def Split.waiting (s : Split) : Bool := s.state == .ready && s.hold != .merge

/-- The key of the earliest parked among entries. -/
def oldestParked (es : List (Nat × Split)) : Option Nat :=
  (es.foldl (fun (a : Option (Nat × Split)) x => match a with
    | none => some x
    | some y => if x.2.parkedAt < y.2.parkedAt then some x else some y) none).map (·.1)

/-- Swap the oldest parked resident split with the topmost READY stack entry (R137). -/
def Wave.rotate (v : Wave) : Option Wave :=
  if v.entries.length = 4 ∧ v.entries.all (fun x => x.2.counts) then
    match oldestParked v.entries, v.overflow.find? Split.waiting with
    | some n, some s =>
      let old := v.split n
      some { v.setSplit n s with overflow := replaceFirst v.overflow Split.waiting fun _ => old }
    | _, _ => none
  else none

/-- MERGE without progress (R108): every resident split is held at a MERGE or parked and no stack entry can be brought in,
so the splits at the lowest MERGE PC, resident or on the stack, go past it; they do not issue it (log entry 91: DESIGN
CHOICE). -/
def Wave.passMerge (v : Wave) : Option Wave :=
  let held := v.splits.filter fun s => s.hold == .merge
  if held.isEmpty ∨ !v.entries.all (fun x => x.2.counts) ∨ v.overflow.any Split.waiting then none
  else
    let low := held.foldl (fun (m : Nat) s => min m s.pc.toNat) (2 ^ 56)
    some (v.mapSplits fun s =>
      if s.hold == .merge ∧ s.pc.toNat = low then { s with hold := .none, pc := s.pc + 8 } else s)

/-- One adjustment of a wave's table at an issue boundary, if one is due; a wave that the debugger halted keeps its table
(R386). -/
def Wave.adjust (v : Wave) : Option Wave :=
  if v.recorded then none
  else match v.entries.find? fun x => x.2.mask = 0 with
  | some x => some { v with entries := mdel v.entries x.1 }
  | none =>
    if v.overflow.any fun s => s.mask = 0 then some { v with overflow := v.overflow.filter fun s => s.mask ≠ 0 }
    else
      match v.freeEntry, v.overflow with
      | some n, s :: rest => some { v.setSplit n s with overflow := rest }
      | _, _ =>
        if v.halted then none
        else
          match mergeOne v mergeable with
          | some v => some v
          | none =>
            match mergeOne v fun a b => a.hold == .rtt && b.hold == .rtt && a.pc == b.pc && a.level == b.level with
            | some v => some v
            | none =>
              match v.entries.find? fun x => x.2.hold == .rtt && x.2.mask == v.rttLanes x.2 with
              | some x => some (v.setSplit x.1 { x.2 with hold := .none })
              | none =>
                if v.mergeAt.isSome ∧ v.splits.any (fun s => s.hold == .merge) then some v.mergeAll
                else
                  match v.rotate with
                  | some v => some v
                  | none => v.passMerge

/-- A wave's table with every adjustment made, in at most `n`. -/
def Wave.settleN (v : Wave) : Nat → Wave
  | 0 => v
  | n + 1 => match v.adjust with
    | some v => v.settleN n
    | none => v

/-- A wave's table with every adjustment that is due. -/
def Wave.settle (v : Wave) : Wave := v.settleN 80

def Work.settleNow (w : Work) (wid : Nat) : Work := w.modWave wid Wave.settle

/-- A wave's table after an event; the issuing wave's table is left until its bundle has run. -/
def Work.settle (w : Work) (wid : Nat) : Work :=
  if w.dev.sys.cur.map (·.wid) = some wid then w else w.settleNow wid

/-- The split that holds a lane. -/
def Wave.splitOf (v : Wave) (l : Nat) : Option Split := v.splits.find? fun s => s.mask.getLsbD l

/-- A split as the debugger's HALT found it: the STATE and REASON of its halt record stand for its own (R386). -/
def Split.unhalt (s : Split) : Split := match s.kept with
  | some k => { s with state := k.1, reason := k.2, kept := none }
  | none => s
/-- A split halted for the debugger (R386). -/
def Split.rehalt (s : Split) : Split :=
  { s with state := .parked, reason := .halt, kept := some (s.state, s.reason) }

/-- An event changes a split; in a wave that the debugger halted, its kept state (R386). -/
def Split.event (s : Split) (f : Split → Split) : Split :=
  if s.kept.isNone then f s else if f s.unhalt = s.unhalt then s else (f s.unhalt).rehalt
/-- An event changes the splits of a wave. -/
def Wave.onSplits (v : Wave) (f : Split → Split) : Wave := v.mapSplits fun s => s.event f

/-- Make READY every split of a wave that satisfies a test. -/
def Wave.wake (v : Wave) (p : Split → Bool) : Wave :=
  v.onSplits fun s => if p s then { s with state := .ready, reason := .none } else s

/-- Wake the split of a lane that is parked for a reason. -/
def Wave.wakeLane (v : Wave) (l : Nat) (r : Reason) : Wave :=
  v.wake fun s => s.state == .parked && s.reason == r && s.mask.getLsbD l

/-- Lanes leave a split of a wave: they are removed from whichever split holds them. -/
def Wave.dropLanes (v : Wave) (m : Word) : Wave := v.mapSplits fun s => { s with mask := s.mask &&& ~~~m }

/-- The issuing split's lanes go to groups by target (R101): the fall-through lanes and the groups, each with its PC.
Lanes in no group have exited. -/
def Wave.placeGroups (v : Wave) (entry : Nat) (fall : Word) (fallPc : Pc) (groups : List (Pc × Word)) : Wave :=
  let s := v.split entry
  let base := { s with state := .ready, reason := .none, hold := .none, trap := none, denied := [], pages := [],
                       wait := none, busy := none, resumed := false }
  let gs := groups.filter fun g => g.2 ≠ 0
  if fall ≠ 0 then
    let v := v.setSplit entry { base with mask := fall, pc := fallPc }
    gs.foldl (fun v g => v.addGroup { base with mask := g.2, pc := g.1 }) v
  else
    match gs with
    | [] => { v with entries := mdel v.entries entry }
    | g :: gs =>
      let v := v.setSplit entry { base with mask := g.2, pc := g.1 }
      gs.foldl (fun v g => v.addGroup { base with mask := g.2, pc := g.1 }) v

/-- Group lanes by target, in ascending order of each group's lowest lane; the lanes come ascending. -/
def groupBy (ls : List (Nat × Pc)) : List (Pc × Word) :=
  ls.foldl (fun gs x =>
    if gs.any fun g => g.1 == x.2 then
      gs.map fun g => if g.1 == x.2 then (g.1, g.2 ||| (1#32 <<< x.1)) else g
    else gs ++ [(x.2, 1#32 <<< x.1)]) []

/-- Lanes of the issuing split form a new split at its PC, parked for a reason (R135, R308, R310). -/
def Wave.parkLanes (v : Wave) (entry : Nat) (m : Word) (r : Reason) (stamp : Nat) : Wave :=
  let s := v.split entry
  let parked := { s with state := .parked, reason := r, hold := .none, trap := none, parkedAt := stamp, wait := none,
                         pages := [], busy := none }
  if s.mask &&& ~~~m = 0 then v.setSplit entry { parked with mask := m }
  else
    let v := v.setSplit entry { s with mask := s.mask &&& ~~~m }
    v.addGroup { parked with mask := m }

end Sys2Proof.Machine
end

