-- ==== Sys2Proof/Machine/Colours.lean ====
section
/-! DEFINITION. Colours: held sets, the monitor directory, hand-off and release (08 R162–R177). -/

namespace Sys2Proof.Machine

/-- The ordered domain and task of a lane, if it runs a task of one (R177). -/
def Lane.ordered (x : Lane) : Option TaskRec := x.task.filter fun t => t.dom ≠ 0

def Lane.holds (x : Lane) (c : BitVec 12) : Bool := x.held.any fun h => h.2 == c
/-- The lowest free held-colour slot (R166). -/
def Lane.freeSlot (x : Lane) : Option Nat := (List.range 8).find? fun n => (mget? x.held n).isNone
/-- A colour takes the lowest free slot, and its bit in the frame head (R166). -/
def Lane.enter (x : Lane) (c : BitVec 12) : Lane :=
  match x.freeSlot with
  | some n => { x with held := mput x.held n c, head := { x.head with entered := x.head.entered ||| (1#8 <<< n) } }
  | none => x

/-- The order of two task keys (R298). -/
def keyLt (a b : TaskRec) : Bool := a.ts < b.ts || (a.ts == b.ts && a.seq < b.seq)

/-- The uncommitted task with the smallest key: the frontier (R299). -/
def Domain.frontier (d : Domain) : Option DomTask :=
  d.tasks.foldl (fun (m : Option DomTask) t => match m with
    | none => some t
    | some f => if keyLt t.task f.task then some t else some f) none

/-- A context's domain. -/
def Work.domain (w : Work) (ctx : Nat) (d : BitVec 4) : Option Domain := mget? (w.ctx ctx).tasks.doms d.toNat

/-- Whether a task is its domain's frontier. -/
def Work.isFrontier (w : Work) (ctx : Nat) (t : TaskRec) : Bool :=
  match w.domain ctx t.dom with
  | some d => match d.frontier with
    | some f => f.task.seq == t.seq
    | none => false
  | none => false

def Work.modDomain (w : Work) (ctx : Nat) (d : BitVec 4) (f : Domain → Domain) : Work :=
  w.modTasks ctx fun t => { t with doms := t.doms.map fun x => if x.1 = d.toNat then (x.1, f x.2) else x }

def Context.mon (c : Context) (k : BitVec 12) : Mon := mget c.dir k.toNat Mon.blank
/-- Put a directory entry; a free one is dropped (R165). -/
def Work.setMon (w : Work) (ctx : Nat) (k : BitVec 12) (m : Mon) : Work :=
  w.modCtx ctx fun c => { c with dir := if m = Mon.blank then mdel c.dir k.toNat else mput c.dir k.toNat m }

/-- The colour becomes free of its owner: it goes to the oldest waiter, or to that waiter's domain as a claim (R170). The L1
of the waiter's core drops the colour's lines, for an evicted wave too (R157, R188, R197). -/
def Work.handOff (w : Work) (ctx : Nat) (k : BitVec 12) : Work :=
  let m := (w.ctx ctx).mon k
  match m.queue with
  | [] => w.setMon ctx k Mon.blank
  | x :: rest =>
    match ((w.wave x.wid).lane x.lane).ordered with
    | some t =>
      let ofDom := fun (y : Waiter) => match ((w.wave y.wid).lane y.lane).ordered with
        | some u => u.dom == t.dom
        | none => false
      let woken := (x :: rest).filter ofDom
      let w := w.setMon ctx k ⟨none, some t.dom, rest.filter fun y => !ofDom y⟩
      woken.foldl (fun w y => w.modWave y.wid fun v => v.wakeLane y.lane .colour) w
    | none =>
      let w := w.setMon ctx k ⟨some x, none, rest⟩
      let w := w.modLane x.wid x.lane fun l => l.enter k
      let w := w.modWave x.wid fun v => v.wakeLane x.lane .colour
      match (w.block (w.wave x.wid).bid).core with
      | some c => (w.modCore c fun c => { c with l1 := c.l1.filter fun s => s.2.colour ≠ k }).count c ctx 0x0D 1
      | none => w

/-- A lane releases the colours of a set of slots (R171). -/
def Work.release (w : Work) (wid l : Nat) (slots : BitVec 8) : Work :=
  let v := w.wave wid
  let gone := (v.lane l).held.filter fun h => slots.getLsbD h.1
  let w := w.modLane wid l fun x => { x with held := x.held.filter fun h => !slots.getLsbD h.1 }
  gone.foldl (fun w h => w.handOff v.ctx h.2) w

/-- A lane withdraws from every queue of its context but those of some colours (R169). -/
def Work.withdraw (w : Work) (ctx wid l : Nat) (except : List (BitVec 12)) : Work :=
  let without := fun (x : Nat × Mon) =>
    let m : Mon := { x.2 with queue := x.2.queue.filter fun y => !(y.wid == wid && y.lane == l) }
    if except.contains (BitVec.ofNat 12 x.1) then some x
    else if m = Mon.blank then none
    else some (x.1, m)
  w.modCtx ctx fun c => { c with dir := c.dir.filterMap without }

/-- Colours that an uncommitted task of a domain has touched keep the claim alive (R177). -/
def Domain.touches (d : Domain) (k : BitVec 12) : Bool := d.tasks.any fun t => t.colours.contains k

/-- Claims of a domain that no uncommitted task keeps alive end, and are handed off (R177, R312). One that a hand-off gave the
domain ends so too, if no woken task has touched a line of the colour by then (log entry 93: DESIGN CHOICE). -/
def Work.endClaims (w : Work) (ctx : Nat) (dom : BitVec 4) : Work :=
  (w.ctx ctx).dir.foldl (fun w x =>
    let k := BitVec.ofNat 12 x.1
    if x.2.claim = some dom ∧ !(((w.domain ctx dom).map fun d => d.touches k).getD false) then
      (w.setMon ctx k { (w.ctx ctx).mon k with claim := none }).handOff ctx k
    else w) w

/-! ### The colour step (R167, R168, R177) -/

/-- What the colour step says of one lane. -/
inductive Step1 where
  | go
  /-- enters a colour, or claims it for its domain -/
  | enter (c : BitVec 12)
  | claim (c : BitVec 12)
  | waits (c : BitVec 12)
  deriving DecidableEq, Repr

/-- Who owns a colour, from the view of a lane: nothing, itself or its domain, or another (R167, R177). -/
def Work.owned (w : Work) (ctx : Nat) (c : BitVec 12) (x : Lane) : Bool :=
  let m := (w.ctx ctx).mon c
  match x.ordered with
  | some t => m.holder.isSome || (match m.claim with
    | some d => d != t.dom
    | none => false)
  | none => m.holder.isSome || m.claim.isSome

/-- Classify the lanes of one instruction (R167): (lane, colour) in ascending lane order, with colour 0 for a plain
line. -/
def Work.classify (w : Work) (ctx wid : Nat) (ls : List (Nat × BitVec 12)) : List (Nat × Step1) :=
  let v := w.wave wid
  (ls.foldl (fun (a : List (Nat × Step1) × List (BitVec 12)) p =>
    let x := v.lane p.1
    let c := p.2
    match x.ordered with
    | some _ =>
      if c = 0 then (a.1 ++ [(p.1, .go)], a.2)
      else if w.owned ctx c x then (a.1 ++ [(p.1, .waits c)], a.2)
      else (a.1 ++ [(p.1, .claim c)], a.2)
    | none =>
      if c = 0 ∨ x.holds c then (a.1 ++ [(p.1, .go)], a.2)
      else if !w.owned ctx c x ∧ !a.2.contains c then (a.1 ++ [(p.1, .enter c)], c :: a.2)
      else (a.1 ++ [(p.1, .waits c)], a.2)) ([], [])).1

/-- The highest colour that a lane holds; for a frontier task, the highest it has touched (R177). -/
def Work.highest (w : Work) (ctx wid l : Nat) : Nat :=
  let x := (w.wave wid).lane l
  let own := x.held.foldl (fun m h => max m h.2.toNat) 0
  match x.ordered with
  | none => own
  | some t =>
    let ts := ((w.domain ctx t.dom).map (·.tasks)).getD []
    match ts.find? fun y => y.task.seq == t.seq with
    | some y => y.colours.foldl (fun m c => max m c.toNat) own
    | none => own

/-- The checks of R168 for one classified lane: a cause with its TINFO, without the lane field; MONCAP before
COLOURORDER. A lane of an ordered task fills no slots, and never meets MONCAP (R177, log entry 93: DEDUCED). -/
def Work.colourCheck (w : Work) (ctx wid : Nat) (p : Nat × Step1) : Option (BitVec 8 × Nat) :=
  let x := (w.wave wid).lane p.1
  let full := x.ordered.isNone && x.held.length == 8
  match p.2 with
  | .go | .claim _ => none
  | .enter c => if full then some (0x0A, c.toNat) else none
  | .waits c =>
    if full then some (0x0A, c.toNat)
    else
      let h := w.highest ctx wid p.1
      if c.toNat < h then some (0x08, c.toNat + h * 2 ^ 12) else none

/-- A lane becomes the holder of a colour: the directory records it, a slot fills, and the core's L1 drops the colour's
lines (R157, R167). -/
def Work.enterColour (w : Work) (ctx core wid l : Nat) (c : BitVec 12) : Work :=
  let m := (w.ctx ctx).mon c
  let w := w.setMon ctx c { m with holder := some ⟨wid, l⟩ }
  let w := w.modLane wid l fun x => x.enter c
  w.modCore core fun k => { k with l1 := k.l1.filter fun s => s.2.colour ≠ c }

/-- A task's domain claims a colour, and the task has touched it (R177). -/
def Work.claimColour (w : Work) (ctx : Nat) (t : TaskRec) (c : BitVec 12) : Work :=
  let m := (w.ctx ctx).mon c
  let w := w.setMon ctx c { m with claim := some t.dom }
  let touch := fun (y : DomTask) =>
    if y.task.seq == t.seq ∧ !y.colours.contains c then { y with colours := c :: y.colours } else y
  w.modDomain ctx t.dom fun d => { d with tasks := d.tasks.map touch }

/-- A lane joins the queue of a colour, unless it stands in it already (R169). -/
def Work.enqueue (w : Work) (ctx wid l : Nat) (c : BitVec 12) : Work :=
  let w := w.withdraw ctx wid l [c]
  let m := (w.ctx ctx).mon c
  if m.queue.contains ⟨wid, l⟩ then w else w.setMon ctx c { m with queue := m.queue ++ [⟨wid, l⟩] }

end Sys2Proof.Machine
end

