-- ==== Sys2Proof/Machine/Waits.lean ====
section
/-! DEFINITION. Waits in progress: conditions, latching, completion (10 R215–R222), acquires (09 R184, R185), and the
barrier registers (R218–R221). -/

namespace Sys2Proof.Machine

/-- The bundle environment of a lane set of a split. -/
def Work.issOf (w : Work) (wid entry : Nat) (s : Split) (act : List Nat) : Iss :=
  let v := w.wave wid
  { wid := wid, entry := entry, core := v.coreOf, slot := v.slot, ctx := v.ctx, lid := v.lid, bid := v.bid, pc := s.pc
    mask := s.mask, act := act, s := (w.launch v.lid).s, shadow := s.handler && v.tlevel == 0, level := s.level }

/-- An acquire at cluster scope or wider drops the core's colour-0 L1 lines (R157, R185). -/
def Work.acquire (w : Work) (core : Nat) (scope : Scope) : Work :=
  match scope with
  | .wave | .block => w
  | _ => w.modCore core fun c => { c with l1 := c.l1.filter fun s => s.2.colour ≠ 0 }

/-- A channel's slots that are ready for the waves (R245, R248). -/
def Channel.ready (c : Channel) (slots : Nat) : Nat :=
  if c.st then min (slots - (c.q - c.f)) (c.n - c.q) else c.f - c.q
/-- SLOTS of a shape record (R229). -/
def shapeSlots (r : BitVec 512) : Nat := bits r.toNat (7 * 64 + 39) (7 * 64 + 32)

/-- CPAs of a tag in flight: the tag's counter (R161). -/
def Wave.tagCount (v : Wave) (t : BitVec 2) : Nat := (v.cpas.filter fun c => c.tag == t).length

/-- The core of a wave's block: an evicted wave has one, a saved wave has none. -/
def Work.home? (w : Work) (v : Wave) : Option Nat := (w.block v.bid).core

/-- Whether a condition holds now (R216); what stands on a core is not looked at while the wave's block is on none. A future or
word with uncorrectable bytes is compared as they stand, and nothing is raised (log entry 88: DESIGN CHOICE). -/
def Work.condMet (w : Work) (wid : Nat) (c : Cond) : Bool :=
  let v := w.wave wid
  match c with
  | .tag t n => v.tagCount t ≤ n
  | .bar b p => (mget (w.block v.bid).bars b.toNat Barrier.blank).phase != p
  | .fut k _ => 2 ≤ w.num k 8 / 2 ^ 62
  | .word k x eq => (w.num k 4 == x.toNat) == eq
  | .array ops => match w.home? v with
    | some core => !((w.core core).order.any fun o => ops.contains o.id)
    | none => false
  | .chan n => match w.home? v with
    | some core =>
      let ch := mget (w.core core).chans n.toNat Channel.blank
      ch.state == .err || (ch.state == .run && 0 < ch.ready (shapeSlots ch.shape))
    | none => false

/-- Scope at which a met condition acquires (R216): device for futures and for a channel whose source is global; a barrier's
is widened when an engine's release in the phase that latched it was (R190). -/
def Work.condScope (w : Work) (core : Nat) (wide : Bool) : Cond → Scope
  | .fut _ _ => .device
  | .chan n => if (mget (w.core core).chans n.toNat Channel.blank).st then .block else .device
  | .bar _ _ => if wide then .device else .block
  | _ => .block

/-- A WAIT's latch mask after an evaluation. -/
def Work.latchMask (w : Work) (wid : Nat) (r : WaitRec) : BitVec 4 :=
  r.conds.foldl (fun m c => if m.getLsbD c.1 ∨ w.condMet wid c.2 then m ||| (1#4 <<< c.1) else m) r.latched

/-- A wait with its latch mask after an evaluation; a barrier latched now keeps whether the phase completed last was widened
(R190). -/
def Work.latch (w : Work) (wid : Nat) (r : WaitRec) : WaitRec :=
  let m := w.latchMask wid r
  let wide := r.conds.foldl (fun (x : BitVec 4) c => match c.2 with
    | .bar b _ =>
      if m.getLsbD c.1 ∧ !r.latched.getLsbD c.1 ∧ (mget (w.block (w.wave wid).bid).bars b.toNat Barrier.blank).lastWide then
        x ||| (1#4 <<< c.1)
      else x
    | _ => x) r.wide
  { r with latched := m, wide := wide }

/-- Whether a WAIT's latch mask completes it (R217); without conditions it waits for its deadline, if it has one. -/
def WaitRec.done (r : WaitRec) : Bool :=
  if r.conds.isEmpty then r.deadline.isNone
  else if r.all then r.conds.all fun c => r.latched.getLsbD c.1 else r.conds.any fun c => r.latched.getLsbD c.1

/-- The marks of uncorrectable data of the tags that a wait would newly latch, in the order of the descriptors (R237): tag,
lane and source address. -/
def Work.badTags (w : Work) (wid : Nat) (r : WaitRec) : List (BitVec 2 × Nat × BitVec 64) :=
  r.conds.flatMap fun c => match c.2 with
    | .tag t _ =>
      if !r.latched.getLsbD c.1 ∧ w.condMet wid c.2 then (w.wave wid).cpaBad.filter fun b => b.1 == t else []
    | _ => []

/-- A lane waits to become the frontier (R308, R310). -/
def Wave.awaitsFrontier (v : Wave) (l : Nat) : Bool :=
  v.splits.any fun s => s.state == .parked && s.reason == .frontier && s.mask.getLsbD l

/-- The first of these marks that is raised: those of lanes whose fault is deferred stay until their retry (R310). -/
def Work.badTag (w : Work) (wid : Nat) (r : WaitRec) : Option (BitVec 2 × Nat × BitVec 64) :=
  (w.badTags wid r).find? fun b => !(w.wave wid).awaitsFrontier b.2.1

/-- The acquires of the latched conditions (R216). A saved wave will find empty caches (R355). -/
def Work.waitAcquire (w : Work) (wid : Nat) (r : WaitRec) : Work :=
  match w.home? (w.wave wid) with
  | none => w
  | some core => r.conds.foldl (fun w c =>
      if r.latched.getLsbD c.1 then w.acquire core (w.condScope core (r.wide.getLsbD c.1) c.2) else w) w

/-- The futures and words of a wait are read at their home slices, so the core keeps no older copy of them (R182, R183). -/
def Work.waitReads (w : Work) (wid : Nat) (r : WaitRec) : Work :=
  match w.home? (w.wave wid) with
  | none => w
  | some core => r.conds.foldl (fun w c => match c.2 with
      | .fut k _ => if k % 8 = 0 then w.modCore core fun x => { x with l1 := mdel x.l1 (k / 128) } else w
      | .word k _ _ => if k % 8 = 0 then w.modCore core fun x => { x with l1 := mdel x.l1 (k / 128) } else w
      | _ => w) w

/-- The result of a wait: the latch mask with bit 4 for a timeout (R217), or phase and LASTERR for BARA.w (R220). -/
def Work.waitResult (w : Work) (wid : Nat) (r : WaitRec) (late : Bool) : Word :=
  if r.bara then
    match r.conds with
    | (_, .bar b p) :: _ =>
      BitVec.ofNat 32 (b2n p + 2 * b2n (mget (w.block (w.wave wid).bid).bars b.toNat Barrier.blank).lastErr)
    | _ => 0
  else BitVec.ofNat 32 (r.latched.toNat + 16 * b2n late)

/-- A split behind its finished wait (R135, R217); STEP falls due there when its bundle issued with STEPCTL 1 (R142). -/
def Split.waited (t : Split) (step : Bool) : Split :=
  let t := { t with state := .ready, reason := .none, pc := t.pc + 8, wait := none }
  if step then { t with state := .trapped, trap := some ⟨0x11, t.pc, t.mask, (t.pc - 8).setWidth 64, 0⟩ } else t

/-- What the WAIT of a split has asked of peers is waited for no more. -/
def Work.unask (w : Work) (wid : Nat) (s : Split) : Work :=
  let asked := fun (o : Nat × Out) => o.2.kind == .futget && o.2.dst.isEmpty && o.2.pc == s.pc && s.mask.getLsbD o.2.lane
  let v := w.wave wid
  if v.outs.any asked then
    let ids := (v.outs.filter asked).map (·.1)
    let w := w.modTasks v.ctx fun t => { t with
      futWait := t.futWait.filter fun x => !(x.2.1 == wid && (x.2.2.map fun i => ids.contains i).getD false) }
    w.modWave wid fun v => { v with outs := v.outs.filter fun o => !asked o }
  else w

/-- A parked wait of a split, finished as latched: the result is written in the active lanes and the split goes on (R135, R217). -/
def Work.finishWait (w : Work) (wid : Nat) (s : Split) (p r : WaitRec) (late : Bool) : Work :=
  let w := (w.waitAcquire wid r).unask wid s
  let x := w.waitResult wid r late
  let act := (lanesOf r.lanes).filter fun l => s.mask.getLsbD l
  let e := w.issOf wid 0 s act
  w.modWave wid fun v =>
    (v.putAll e r.dst fun _ => [x]).onSplits fun t => if t.mask = s.mask ∧ t.wait = some p then t.waited r.step else t

/-- Re-evaluate the parked waits of a wave: latch what is met, finish what is done (R217). A tag that would latch over
uncorrectable data makes the split retry its WAIT, which traps (R237). -/
def Work.latchWave (w : Work) (wid : Nat) : Work :=
  ((w.wave wid).splits.foldl (fun w s =>
    match s.wait with
    | none => w
    | some r =>
      let w := w.waitReads wid r
      match w.badTag wid r with
      | some _ => (w.unask wid s).modWave wid fun v => v.onSplits fun t =>
          if t.wait = some r ∧ t.mask = s.mask then { t with state := .ready, reason := .none, wait := none } else t
      | none =>
        let q := w.latch wid r
        if q.done then w.finishWait wid s r q false
        else w.modWave wid fun v => v.mapSplits fun t =>
          if t.wait = some r ∧ t.mask = s.mask then { t with wait := some q } else t) w).settle wid

/-- Re-evaluate the parked waits of every wave that waits and satisfies a test. -/
def Work.latchWhere (w : Work) (p : Wave → Bool) : Work :=
  w.dev.waves.foldl (fun w x => if p x.2 ∧ x.2.splits.any (fun s => s.wait.isSome) then w.latchWave x.1 else w) w

/-- A write to a line of HBM: waits on words of the line are evaluated again (R216). -/
def Work.pokeWords (w : Work) (k : Nat) : Work :=
  if k % 8 = 0 then
    w.latchWhere fun v => v.splits.any fun s => match s.wait with
      | some r => r.conds.any fun c => match c.2 with
        | .word j _ _ => j % 8 == 0 && j / 1024 == k / 1024
        | _ => false
      | none => false
  else w

/-! ### Barrier registers -/

def Work.bar (w : Work) (bid : Nat) (b : BitVec 4) : Barrier := mget (w.block bid).bars b.toNat Barrier.blank
def Work.setBar (w : Work) (bid : Nat) (b : BitVec 4) (x : Barrier) : Work :=
  w.modBlock bid fun k => { k with bars := mput k.bars b.toNat x }

/-- Bits set of a mask. -/
def popcount {n : Nat} (x : BitVec n) : Nat := ((List.range n).filter fun i => x.getLsbD i).length

/-- The completion of a phase (R221). -/
def Barrier.complete (x : Barrier) : Barrier :=
  let m := x.members &&& ~~~x.gone
  let n := popcount m + x.eng
  { x with members := m, expected := n, lastErr := x.err, err := false, arrived := 0, wavesIn := 0, engIn := 0,
           gone := 0, phase := !x.phase, init := x.init && n != 0, lastWide := x.wide, wide := false }

/-- Complete a phase whose arrivals have all come, wake its waiters, and count the arrivals held for the next one
(R221, R241). -/
def Work.checkBar (w : Work) (bid : Nat) (b : BitVec 4) : Nat → Work
  | 0 => w
  | n + 1 =>
    let x := w.bar bid b
    if !x.init ∨ x.arrived ≠ x.expected then w
    else
      let w := w.setBar bid b x.complete
      let w := w.latchWhere fun v => v.bid == bid
      let y := w.bar bid b
      let now := y.heldArr.take y.eng
      let y := { y with
        heldArr := y.heldArr.drop y.eng, arrived := y.arrived + now.length, engIn := now.length
        err := now.any fun e => e.1, pend := y.pend - now.length, wide := now.any fun e => e.2 }
      (w.setBar bid b y).checkBar bid b n

/-- Every completion that is due at a barrier: of the phase, and of the phases that held arrivals then fill (R221). -/
def Work.settleBar (w : Work) (bid : Nat) (b : BitVec 4) : Work := w.checkBar bid b ((w.bar bid b).heldArr.length + 2)

/-- An engine arrives at a barrier of a block (R190, R221, R241): `err` its error flag, `wide` a release at cluster scope or
wider. -/
def Work.engineArrive (w : Work) (bid : Nat) (b : BitVec 4) (err wide : Bool) : Work :=
  let x := w.bar bid b
  if x.engIn < x.eng then
    let x := { x with
      arrived := x.arrived + 1, engIn := x.engIn + 1, err := x.err || err, pend := x.pend - 1, wide := x.wide || wide }
    (w.setBar bid b x).settleBar bid b
  else w.setBar bid b { x with heldArr := x.heldArr ++ [(err, wide)] }

/-- A wave departs every barrier of which it is a member (R221). -/
def Work.depart (w : Work) (bid widx : Nat) : Work :=
  (List.range 16).foldl (fun w n =>
    let b := BitVec.ofNat 4 n
    let x := w.bar bid b
    let m : BitVec 16 := 1#16 <<< widx
    if !x.init ∨ x.members &&& m = 0 then w
    else
      let x := if x.wavesIn &&& m = 0 then { x with arrived := x.arrived + 1, wavesIn := x.wavesIn ||| m } else x
      (w.setBar bid b { x with gone := x.gone ||| m }).settleBar bid b) w

end Sys2Proof.Machine
end

