-- ==== Sys2Proof/Machine/Memory.lean ====
section
/-! DEFINITION. Task queues and their segments (16 R280–R283), global reads and writes with the L1 (07 R157), versions,
aborts and commits of ordered domains (17), and the end of a lane (04 R107). -/

namespace Sys2Proof.Machine

/-! ### Queues (R280–R282) -/

/-- Segments of a context's pool. -/
def CtxRec.segments (r : CtxRec) : Nat := r.segb / 4096

/-- Free segments of a pool. -/
def CtxTasks.segLeft (t : CtxTasks) (total : Nat) : Nat := (total - t.segNext) + t.segFree.length

/-- Take a segment: the highest never used, or one that was returned (log entry 18: DESIGN CHOICE). -/
def CtxTasks.takeSeg (t : CtxTasks) (total : Nat) : Option (Nat × CtxTasks) :=
  match t.segFree with
  | s :: rest => some (s, { t with segFree := rest })
  | [] => if t.segNext < total then some (total - 1 - t.segNext, { t with segNext := t.segNext + 1 }) else none

/-- The queue of a cluster and priority. -/
def queueKey (cluster : Nat) (pri : BitVec 2) : Nat := 4 * cluster + pri.toNat

/-- Whether the last segment of a queue has no record left to write. -/
def queueFull (q : List Segment) : Bool :=
  match q.getLast? with
  | none => true
  | some s => s.tail == 63

/-- Append a record at the tail of a queue, in a segment that has room. -/
def queuePush (q : List Segment) (t : TaskRec) : List Segment :=
  match q.reverse with
  | [] => q
  | s :: before => (({ s with tail := s.tail + 1, recs := mput s.recs s.tail t }) :: before).reverse

/-- The number from which segments lie that the Headstock keeps outside a context's pool (log entry 18: DESIGN CHOICE). -/
def ownSegs : Nat := 2 ^ 40

/-- A segment outside the pool, not in use. -/
def CtxTasks.ownSeg (t : CtxTasks) : Nat := (t.queues.flatMap fun q => q.2.map fun s => s.off + 1).foldl max ownSegs

/-- Enqueue a record, with a fresh segment when the last is full. A promotion's or an abort's record is never refused: without a
free segment the Headstock keeps it outside the pool (log entry 18: DESIGN CHOICE). -/
def CtxTasks.enqueue (t : CtxTasks) (total : Nat) (r : TaskRec) : CtxTasks :=
  let k := queueKey r.cluster r.pri
  let q := mget t.queues k []
  if queueFull q then
    let (off, t) := match t.takeSeg total with
      | some x => x
      | none => (t.ownSeg, t)
    { t with queues := mput t.queues k (queuePush (q ++ [⟨off, 0, [], []⟩]) r) }
  else { t with queues := mput t.queues k (queuePush q r) }

/-- The segments of a queue that hold nothing and take nothing any more, and the others: of those only the last may take a record. -/
def spentSegs (q : List Segment) : List Segment × List Segment :=
  let spent := fun (x : Segment × Nat) =>
    x.1.recs.isEmpty && x.1.resv.isEmpty && (x.1.tail == 63 || decide (x.2 + 1 < q.length))
  ((q.zipIdx.filter spent).map (·.1), (q.zipIdx.filter fun x => !spent x).map (·.1))

/-- Segments whose records have all gone return to the pool (R282). -/
def CtxTasks.freeSegs (t : CtxTasks) : CtxTasks :=
  let freed := (t.queues.flatMap fun q => (spentSegs q.2).1.map fun s => s.off).filter fun o => o < ownSegs
  { t with queues := t.queues.map fun q => (q.1, (spentSegs q.2).2), segFree := t.segFree ++ freed }

/-- Remove a record from whichever queue holds it (R282). -/
def CtxTasks.remove (t : CtxTasks) (seq : BitVec 64) : CtxTasks :=
  let strip := fun (s : Segment) => { s with recs := s.recs.filter fun x => x.2.seq != seq }
  let t : CtxTasks := { t with queues := t.queues.map fun q => (q.1, q.2.map strip) }
  t.freeSegs

/-- The queued records of a queue, oldest first. -/
def queueRecs (q : List Segment) : List TaskRec := q.flatMap fun s => s.recs.map (·.2)

/-! ### Ends of lanes -/

/-- Whether a producer's k destination is still to be filled although its lane ends (R23). -/
def Out.toK (o : Out) : Bool := o.dst.any fun d => d.1 == 1

/-- The specifier by which a lane's window names a physical stack position (R18). -/
def Lane.specAt (x : Lane) (s pos : Nat) : Nat :=
  ((List.range 32).find? fun n => stackPos s x.wdepth.toNat n == pos).getD 0

/-- A register holds poison. -/
def RegStat.isPoison : RegStat → Bool
  | .poison _ _ => true
  | _ => false

/-- Specifiers of the v and h registers of a lane that hold poison. -/
def Wave.poisoned (v : Wave) (s l : Nat) : List Nat :=
  ((v.vstat.filter fun x => x.1 / 1024 == l && x.2.isPoison).map fun x => (v.lane l).specAt s (x.1 % 1024)) ++
    (v.hstat.filter fun x => x.1 / 16 == l && x.2.isPoison).map fun x => 16 + x.1 % 16
/-- Specifiers of the k registers that hold poison. -/
def Wave.poisonedK (v : Wave) : List Nat := (v.kstat.filter fun x => x.2.isPoison).map fun x => 32 + x.1

/-- Poison that nobody has read is discarded and logged as code 4 (R199, R395). -/
def Work.discardPoison (w : Work) (v : Wave) (specs : List Nat) : Work :=
  specs.foldl (fun w n =>
    w.logError 4 (dieOf v.coreOf) n true false (Subject.ofCore ((v.core?).getD 0xFF) v.ctx) true) w

/-- A lane ends: its colours go, its outstanding producers but those of k registers are discarded, and it leaves its
split (R107). Poison that nobody read is discarded and logged as code 4 (R395). -/
def Work.endLane (w : Work) (wid l : Nat) : Work :=
  let v := w.wave wid
  let w := w.release wid l (BitVec.allOnes 8)
  let w := w.withdraw v.ctx wid l []
  let w := w.discardPoison v (v.poisoned (w.launch v.lid).s l)
  let w := w.modTasks v.ctx fun t => { t with futWait := t.futWait.filter fun x =>
    !(x.2.1 == wid && (match x.2.2 with
      | some i => ((mget? v.outs i).map fun o => o.lane == l && !o.toK).getD false
      | none => false)) }
  let w := w.modLane wid l fun x => { x with alive := false }
  w.modWave wid fun v =>
    { v.dropLanes (1#32 <<< l) with
      entering := v.entering.filter fun n => (v.split n).mask &&& ~~~(1#32 <<< l) != 0
      outs := v.outs.filter fun o => o.2.lane != l || o.2.toK
      vstat := v.vstat.filter fun s => s.1 / 1024 != l
      hstat := v.hstat.filter fun s => s.1 / 16 != l }

/-! ### Ordered domains (17) -/

/-- The tasks that an abort of one task takes with it: descendants, and readers of any of them, to a fixed point
(R305). -/
def abortSet (d : Domain) (deps : List Dep) (dom : BitVec 4) (s : List (BitVec 64)) : Nat → List (BitVec 64)
  | 0 => s
  | n + 1 =>
    let more := (d.tasks.filter fun t =>
      !s.contains t.task.seq &&
        ((match t.task.parent with
          | some p => s.contains p
          | none => false) ||
         deps.any fun x => x.dom == dom && x.seq == t.task.seq && (match x.source with
           | .task q _ => s.contains q
           | .committed => false))).map fun t => t.task.seq
    if more.isEmpty then s else abortSet d deps dom (s ++ more) n

/-- Whether a task has an ancestor in a set (R305). -/
def hasAncestor (d : Domain) (s : List (BitVec 64)) (seq : BitVec 64) : Nat → Bool
  | 0 => false
  | n + 1 =>
    match d.tasks.find? fun t => t.task.seq == seq with
    | none => false
    | some t => match t.task.parent with
      | none => false
      | some p => s.contains p || hasAncestor d s p n

/-- The frontier's split is woken when it is parked on REASON FRONTIER (R135, R308). -/
def Work.wakeFrontier (w : Work) (ctx : Nat) (dom : BitVec 4) : Work :=
  match (w.domain ctx dom).bind Domain.frontier with
  | some f => if f.state = .running then w.modWave f.wid fun v => v.wakeLane f.lane .frontier else w
  | none => w

/-- Take back a set of tasks of a domain (R305): versions and dependences go, those with an ancestor among `roots` or the set
are discarded, the others are queued again with their spawn priority, and running lanes end. -/
def Work.takeBack (w : Work) (ctx : Nat) (dom : BitVec 4) (s roots : List (BitVec 64)) : Work :=
  match w.domain ctx dom with
  | none => w
  | some d =>
    let n := d.tasks.length + 1
    let hit := d.tasks.filter fun t => s.contains t.task.seq
    let w := w.modTasks ctx fun t => { t with
      versions := t.versions.filter fun x => !(x.dom == dom && s.contains x.seq)
      deps := t.deps.filter fun x => !(x.dom == dom && s.contains x.seq) }
    let total := (w.ctx ctx).rec_.segments
    hit.foldl (fun w t =>
      let w := if t.state = .running then
          let w := match (w.wave t.wid).core? with
            | some core => w.count core ctx 0x0F 1
            | none => w
          (w.endLane t.wid t.lane).settle t.wid
        else w
      let again : TaskRec := { t.task with enq := w.gtick.setWidth 48, pri := t.task.spri }
      if hasAncestor d (roots ++ s) t.task.seq n then
        let w := w.modTasks ctx fun x => x.remove t.task.seq
        let w := w.modTasks ctx fun x => { x with groups := x.groups.map fun g =>
          (g.1, (g.2.map fun y => { y with tasks := y.tasks.filter fun z => z.seq != t.task.seq }).filter fun y =>
            !y.tasks.isEmpty) }
        w.modDomain ctx dom fun d => { d with tasks := d.tasks.filter fun y => y.task.seq != t.task.seq }
      else if t.state = .queued then w
      else
        let w := w.modTasks ctx fun x => x.enqueue total again
        w.modDomain ctx dom fun d => { d with tasks := d.tasks.map fun y =>
          if y.task.seq == t.task.seq then ⟨again, .queued, 0, 0, [], false⟩ else y }) w

/-- Abort one task with everything that follows from it (R305). The frontier is never aborted (R299). -/
def Work.abortTask (w : Work) (ctx : Nat) (dom : BitVec 4) (seq : BitVec 64) : Work :=
  match w.domain ctx dom with
  | none => w
  | some d =>
    if ((d.frontier).map fun f => f.task.seq == seq).getD true then w
    else
      let s := abortSet d (w.ctx ctx).tasks.deps dom [seq] (d.tasks.length + 1)
      (w.takeBack ctx dom s []).endClaims ctx dom

/-- TABORT.drop at the frontier (R314): its versions go, its descendants are discarded, and the readers of its versions are
aborted; the task itself stays. -/
def Work.dropTask (w : Work) (ctx : Nat) (dom : BitVec 4) (seq : BitVec 64) : Work :=
  match w.domain ctx dom with
  | none => w
  | some d =>
    let s := abortSet d (w.ctx ctx).tasks.deps dom [seq] (d.tasks.length + 1)
    let w := w.takeBack ctx dom (s.filter fun x => x != seq) [seq]
    (w.modTasks ctx fun t => { t with versions := t.versions.filter fun x => !(x.dom == dom && x.seq == seq) }).endClaims ctx dom

/-- The latest version of a sector that a task sees: its own, or that of the latest earlier task (R303). -/
def Work.versionFor (w : Work) (ctx : Nat) (t : TaskRec) (sector : Nat) : Option Version :=
  let d := w.domain ctx t.dom
  let key := fun (q : BitVec 64) => ((d.map (·.tasks)).getD []).find? fun y => y.task.seq == q
  ((w.ctx ctx).tasks.versions.filter fun x => x.dom == t.dom && x.sector == sector).foldl
    (fun (m : Option Version) x =>
      if x.seq = t.seq then some x
      else match m, key x.seq with
        | some b, some k => if b.seq = t.seq then m
            else match key b.seq with
              | some kb => if keyLt k.task t ∧ keyLt kb.task k.task then some x else m
              | none => m
        | none, some k => if keyLt k.task t then some x else none
        | _, none => m) none

/-- A write to a sector counts as one to what a dependence is kept for: its sector, or its line (R304, R306). -/
def Dep.covers (d : Dep) (sector : Nat) : Bool := d.sector == sector || (d.line && d.sector / 8 == sector / 8)

/-- Register a dependence of a task on a sector (R303). Whether it is one too many to hold by sector, and so kept for the
line, is free (R306, log entry 24: DESIGN CHOICE). -/
def Work.addDep (w : Work) (ctx : Nat) (t : TaskRec) (sector : Nat) (s : DepSource) : Work :=
  let mine := fun (d : Dep) => d.dom == t.dom && d.seq == t.seq && d.source == s && d.covers sector
  if (w.ctx ctx).tasks.deps.any mine then w
  else
    let (n, w) := w.draw
    w.modTasks ctx fun x => { x with deps := x.deps ++ [⟨t.dom, t.seq, sector, s, Config.depCoarse n⟩] }

/-- Abort every task of some domain of some context that read committed memory at a sector that an outsider writes,
the frontier excepted (R304). -/
def Work.outsideWrite (w : Work) (sector : Nat) (except : Option (Nat × BitVec 4)) : Work :=
  w.dev.ctxs.foldl (fun w c =>
    let hits := c.2.tasks.deps.filter fun d =>
      d.covers sector && d.source == .committed && except != some (c.1, d.dom)
    hits.foldl (fun w d => w.abortTask c.1 d.dom d.seq) w) w

/-! ### Global reads and writes -/

/-- The sectors of HBM that a range touches. -/
def sectorsOf (pa n : Nat) : List Nat := (List.range ((pa + n - 1) / 16 - pa / 16 + 1)).map fun i => pa / 16 + i

/-- A core's L1 copy of a sector of HBM goes. -/
def Work.dropCopy (w : Work) (core sector : Nat) : Work :=
  w.modCore core fun c => { c with l1 := mdel c.l1 sector }

/-- An operation of a core at the home slice of a place leaves the core no older L1 copy of its sector (R157, R182, R206). -/
def Work.atHome (w : Work) (core : Nat) (p : Phys) : Work :=
  if p.kind = 0 then w.dropCopy core (p.pa / 16) else w

/-- The other sector of a sector's 32-byte unit. -/
def mateOf (s : Nat) : Nat := if s % 2 = 0 then s + 1 else s - 1

/-- A sector of HBM as the home slice holds it, with its tag (R157). -/
def Work.homeSector (w : Work) (s : Nat) : Sector :=
  ⟨mget w.dev.tags (s / 8) 0, w.bytes (PAddr.hbm (16 * s)).key 16, w.bytes (PAddr.hbm (16 * mateOf s)).key 16⟩

/-- What an L1 holds of `n` bytes of one 32-byte unit: of two sectors, only what the unit held at one moment (R160). -/
def l1Piece (l1 : FMap Sector) (pa n : Nat) : Option (List Byte) :=
  match sectorsOf pa n with
  | [s] => (mget? l1 s).map fun x => slice x.bytes (pa % 16) n
  | [s, t] => match mget? l1 s, mget? l1 t with
    | some x, some y =>
      if x.mate = y.bytes ∨ y.mate = x.bytes then some (slice (x.bytes ++ y.bytes) (pa % 32) n) else none
    | _, _ => none
  | _ => none

/-- A plain read by a core of bytes of one 32-byte unit of HBM: from memory, or from the core's L1 copies where it holds some that
the spec still allows (R157, R160, R182; log entry 6: DESIGN CHOICE). Read from memory, the sectors fill the L1. -/
def Work.readPiece (w : Work) (ctx core : Nat) (p : Phys) (n : Nat) : List Byte × Work :=
  let now := w.bytes p.key n
  let held := l1Piece (w.core core).l1 p.pa n
  let (r, w) := w.pick (held.toList ++ [now]) now
  if some r = held then (r, w)
  else
    let ss := sectorsOf p.pa n
    let fill := fun (m : FMap Sector) (s : Nat) => putSector m s (w.homeSector s) Config.l1Lines
    (r, (w.modCore core fun c => { c with l1 := ss.foldl fill c.l1 }).count core ctx 0x0A ss.length)

/-- The pieces of a range that lie in one 32-byte unit each (R160), as offset and length. -/
def unitPieces (pa n : Nat) : List (Nat × Nat) :=
  if n = 0 then []
  else (List.range ((pa + n - 1) / 32 - pa / 32 + 1)).map fun i =>
    let lo := max pa (32 * (pa / 32 + i))
    (lo - pa, min (pa + n) (32 * (pa / 32 + i + 1)) - lo)

/-- A doorbell register of the part: the port whose function 1 shows it, its context, and the offset in its page (R319). -/
structure Bell where
  port : Nat
  ctx : Nat
  off : Nat
  deriving DecidableEq, Repr

/-- The doorbell register at a host address: a KIND 2 page that names BAR 2 of a port is a doorbell page mapped for a program (R319,
R345, R370, log entry 97: DEDUCED). -/
def Work.bellAt (w : Work) (pa : Nat) : Option Bell :=
  firstSome w.dev.hub.ports fun p => match p.2.bar2 with
    | some b => if b ≤ pa ∧ pa < b + 64 * 4096 then some ⟨p.1, (pa - b) / 4096, (pa - b) % 4096⟩ else none
    | none => none

/-- A program's write of TAIL reaches the port as a host's does, behind those that came before it (R319, R320). -/
def Work.ringBell (w : Work) (b : Bell) (bs : List Byte) : Work :=
  if b.off ≠ 0 ∨ bs.length < 4 then w
  else
    let turn := Turn.event (.doorbellWrite ⟨b.port == 1, BitVec.ofNat 6 b.ctx⟩ (BitVec.ofNat 32 (leNat (bs.take 4))))
    let bell : Turn → Bool := fun t => match t with
      | .event (.doorbellWrite _ _) => true
      | _ => false
    w.modSys fun s => { s with agenda := s.agenda.takeWhile bell ++ turn :: s.agenda.dropWhile bell }

/-- A byte of a doorbell page as it reads: of HEAD, or 0 (R319). -/
def Work.bellByte (w : Work) (b : Bell) : Byte :=
  if 8 ≤ b.off ∧ b.off < 12 then ((leBytes 4 (w.ctx b.ctx).head.toNat)[b.off - 8]?).getD 0 else 0

/-- The bytes at a place as an access past the L1 reads them. -/
def Work.bytesAt (w : Work) (p : Phys) (n : Nat) : List Byte :=
  match if p.kind = 2 then w.bellAt p.pa else none with
  | some b => (List.range n).map fun i => w.bellByte { b with off := b.off + i }
  | none => w.bytes p.key n

/-- A plain read by a core (R157, R160). Coloured lines of shared frames, host and peer memory are read where they stand
(R189). -/
def Work.readVia (w : Work) (ctx core : Nat) (p : Phys) (n : Nat) : List Byte × Work :=
  if p.kind ≠ 0 ∨ (p.shrd ∧ w.tag p ≠ 0) then (w.bytesAt p n, w)
  else (unitPieces p.pa n).foldl (fun (r : List Byte × Work) x =>
    let (bs, w) := r.2.readPiece ctx core { p with key := p.key + 8 * x.1, pa := p.pa + x.1 } x.2
    (r.1 ++ bs, w)) ([], w)

/-- Bytes of one sector that a core has read past its L1 leave it no copy that differs (R182, R183). -/
def Work.seen (w : Work) (core : Nat) (p : Phys) (bs : List Byte) : Work :=
  if p.kind ≠ 0 then w
  else match mget? (w.core core).l1 (p.pa / 16) with
    | some x => if slice x.bytes (p.pa % 16) bs.length = bs then w else w.dropCopy core (p.pa / 16)
    | none => w

/-- A write at its point of coherence: memory, marks, waits on the words of its line, and the tasks of domains that had
read the sector (R181, R216, R304). `dom` is the domain that commits, if one does. In a doorbell page it rings (R319). -/
def Work.writeHome (w : Work) (k kind pa : Nat) (bs : List Byte) (dom : Option (Nat × BitVec 4)) : Work :=
  match if kind = 2 then w.bellAt pa else none with
  | some b => w.ringBell b bs
  | none =>
    let w := (w.putBytes k bs).mend k bs.length
    if kind = 0 then
      let w := (sectorsOf pa bs.length).foldl (fun w s => w.outsideWrite s dom) w
      w.pokeWords k
    else w

/-- The bytes of a sector with those of a store that lie in it. -/
def storedIn (old : List Byte) (s pa : Nat) (bs : List Byte) : List Byte :=
  (List.range 16).map fun i =>
    if pa ≤ 16 * s + i then (bs[16 * s + i - pa]?).getD (old.getD i 0) else old.getD i 0

/-- A copy of a sector after a store (R157). -/
def Sector.stored (x : Sector) (s pa : Nat) (bs : List Byte) : Sector :=
  { x with bytes := storedIn x.bytes s pa bs, mate := storedIn x.mate (mateOf s) pa bs }

/-- A store of a core: write-through, and the stored bytes go into its own L1 copies too (R157). -/
def Work.writeVia (w : Work) (core : Nat) (p : Phys) (bs : List Byte) : Work :=
  let w := (w.dirty p).writeHome p.key p.kind p.pa bs none
  if p.kind ≠ 0 then w
  else
    let upd := fun (m : FMap Sector) (s : Nat) => match mget? m s with
      | some x => mput m s (x.stored s p.pa bs)
      | none => m
    let ss := sectorsOf p.pa bs.length
    w.modCore core fun c => { c with l1 := (ss ++ (ss.map mateOf).filter fun s => !ss.contains s).foldl upd c.l1 }

/-- A task's read of bytes of one sector (R303): the value, with the dependence registered. Both happen at the home slice, so
that a committed value is the present one (log entry 66: DEDUCED). -/
def Work.readVersion (w : Work) (ctx core : Nat) (t : TaskRec) (p : Phys) (n : Nat) : List Byte × Work :=
  let s := p.pa / 16
  match w.versionFor ctx t s with
  | some x =>
    let r := slice x.bytes (p.pa % 16) n
    if x.seq = t.seq then (r, w) else (r, w.addDep ctx t s (.task x.seq x.count))
  | none =>
    let r := w.bytes p.key n
    (r, (w.seen core p r).addDep ctx t s .committed)

/-- A task's write of bytes of one sector: the conflict check and the version, in one step (R302, R304). A source that is no
uncommitted task has committed, and is earlier than the writer. -/
def Work.writeVersion (w : Work) (ctx : Nat) (t : TaskRec) (p : Phys) (bs : List Byte) : Work :=
  let s := p.pa / 16
  let d := ((w.domain ctx t.dom).map (·.tasks)).getD []
  let rec_ := fun (q : BitVec 64) => (d.find? fun y => y.task.seq == q).map (·.task)
  let later := fun (q : BitVec 64) => ((rec_ q).map fun u => keyLt t u).getD false
  let early := fun (x : DepSource) => match x with
    | .committed => true
    | .task q _ => q == t.seq || ((rec_ q).map fun u => keyLt u t).getD true
  let hits := (w.ctx ctx).tasks.deps.filter fun x => x.dom == t.dom && x.covers s && later x.seq && early x.source
  let w := hits.foldl (fun w x => w.abortTask ctx t.dom x.seq) w
  let old := w.versionFor ctx t s
  let whole := match old with
    | some x => x.bytes
    | none => w.bytes (PAddr.hbm (16 * s)).key 16
  let off := p.pa % 16
  let bytes := whole.take off ++ bs ++ whole.drop (off + bs.length)
  let count := match old with
    | some x => if x.seq = t.seq then x.count + 1 else 1
    | none => 1
  w.modTasks ctx fun x => { x with
    versions := (x.versions.filter fun y => !(y.dom == t.dom && y.seq == t.seq && y.sector == s)) ++
      [⟨t.dom, t.seq, s, bytes, count⟩] }

/-- Tasks that are no frontier and hold a version in the set of a slice in which a sector's versions stand, with their
contexts (R306). -/
def Work.versionHolders (w : Work) (sector : Nat) : List (Nat × TaskRec) :=
  w.dev.ctxs.flatMap fun c => c.2.tasks.doms.flatMap fun d =>
    ((d.2.tasks.map (·.task)).filter fun t =>
      !w.isFrontier c.1 t && c.2.tasks.versions.any fun v =>
        v.dom == t.dom && v.seq == t.seq && homeSlice (16 * v.sector) == homeSlice (16 * sector) &&
          Config.versionSet v.sector == Config.versionSet sector).map fun t => (c.1, t)

/-- A version write that finds no free way: the slice aborts the latest task of the set that is no frontier, and again until
a way is free (R306); the number of ways is not given, so when one is free is free (log entry 24: DESIGN CHOICE). -/
def Work.freeWay (w : Work) (sector : Nat) : Nat → Work
  | 0 => w
  | n + 1 =>
    match w.versionHolders sector with
    | [] => w
    | y :: ys =>
      let (k, w) := w.draw
      if Config.versionFull k then
        let last := ys.foldl (fun a b => if keyLt a.2 b.2 then b else a) y
        (w.abortTask last.1 last.2.dom last.2.seq).freeWay sector n
      else w

/-- Room for a task's version of a sector: one that it has already is replaced, and a new one needs a way (R302, R306). -/
def Work.versionSpace (w : Work) (ctx : Nat) (t : TaskRec) (sector : Nat) : Work :=
  if (w.ctx ctx).tasks.versions.any fun v => v.dom == t.dom && v.seq == t.seq && v.sector == sector then w
  else w.freeWay sector (w.versionHolders sector).length

/-- The number of sectors a task has written (R307). -/
def Work.writeSet (w : Work) (ctx : Nat) (t : TaskRec) : Nat :=
  ((w.ctx ctx).tasks.versions.filter fun x => x.dom == t.dom && x.seq == t.seq).length

/-- The claims that a committing frontier has kept alive end with it when outsiders wait: the other tasks that keep them alive
are aborted (R177). -/
def Work.yieldClaims (w : Work) (ctx : Nat) (dom : BitVec 4) (f : DomTask) : Work :=
  f.colours.foldl (fun w k =>
    let m := (w.ctx ctx).mon k
    if m.claim = some dom ∧ !m.queue.isEmpty then
      let ts := ((w.domain ctx dom).map (·.tasks)).getD []
      (ts.filter fun t => t.task.seq != f.task.seq && t.colours.contains k).foldl (fun w t =>
        w.abortTask ctx dom t.task.seq) w
    else w) w

/-- The frontier commits, and finished tasks behind it in key order (R311, R312): its versions become committed memory,
its dependences go, and its claims end. -/
def Work.commitDomain (w : Work) (ctx : Nat) (dom : BitVec 4) : Nat → Work
  | 0 => w
  | n + 1 =>
    match (w.domain ctx dom).bind Domain.frontier with
    | none => w
    | some f =>
      if f.state ≠ .finished then w.wakeFrontier ctx dom
      else
        let w := w.yieldClaims ctx dom f
        let mine := (w.ctx ctx).tasks.versions.filter fun x => x.dom == dom && x.seq == f.task.seq
        let w := if f.drop then w
          else mine.foldl (fun w x =>
            w.writeHome (PAddr.hbm (16 * x.sector)).key 0 (16 * x.sector) x.bytes (some (ctx, dom))) w
        let w := w.modTasks ctx fun t => { t with
          versions := t.versions.filter fun x => !(x.dom == dom && x.seq == f.task.seq)
          deps := t.deps.filter fun x => !(x.dom == dom && x.seq == f.task.seq) }
        let w := w.modDomain ctx dom fun d => { d with
          lastTs := f.task.ts, lastSeq := f.task.seq, tasks := d.tasks.filter fun y => y.task.seq != f.task.seq }
        (w.endClaims ctx dom).commitDomain ctx dom n

end Sys2Proof.Machine
end

