-- ==== Sys2Proof/Machine/Frames.lean ====
section
/-! DEFINITION. Window motion: pushes and pops of the hardware stack with its spills and fills (01 R18–R22). -/

namespace Sys2Proof.Machine

/-- LOW of a depth (R18). -/
def lowOf (s w : Nat) : Nat := 24 * ((24 * w + 32 - s + 23) / 24)

/-- The two little-endian words of a frame record (R20). -/
def Frame.toBytes (f : Frame) : List Byte :=
  leBytes 8 f.rpc.toNat ++ leBytes 8 (b2n f.trap * 256 + f.entered.toNat)
/-- A PC: a multiple of 8 (R61); what is written to its three low bits is dropped (log entry 75: DEDUCED). -/
def pcOf (x : Nat) : Pc := BitVec.ofNat 56 (x / 8 * 8)
/-- The frame record of 16 bytes; RPC is a PC (R20, R61). -/
def Frame.ofBytes (b : List Byte) : Frame :=
  let x := leNat (slice b 0 8)
  let y := leNat (slice b 8 8)
  ⟨pcOf x, bit y 8, BitVec.ofNat 8 y⟩

/-- The lane's area in the global spill area (R21). -/
def spillArea (l : Launch) (lcore slot lane : Nat) : Nat :=
  l.spill.toNat + l.g * (2048 * lcore + 32 * slot + lane)

/-- Place an entry of `n` bytes (R21): lane-private between PHIGH and HLOW, else on top of the global area. -/
def placeEntry (x : Lane) (g n : Nat) (block : Bool) : Option (StackEntry × Lane) :=
  if x.phigh + n ≤ x.hlow then
    let e : StackEntry := ⟨block, false, x.hlow - n⟩
    some (e, { x with hlow := x.hlow - n, stack := e :: x.stack })
  else if x.gUsed + n ≤ g then
    let e : StackEntry := ⟨block, true, x.gUsed⟩
    some (e, { x with gUsed := x.gUsed + n, stack := e :: x.stack })
  else none

/-- Outcome of a window motion that is not yet made (R19, R21). -/
inductive Motion where
  | ok
  /-- a register to spill is still empty -/
  | wait
  /-- a cause with its address, TINFO, and the checks behind it -/
  | fail (cause : BitVec 8) (addr : BitVec 64) (info : Nat) (checks : List Chk)
  /-- granules whose records are needed, with the level -/
  | pages (gs : List (Nat × Nat))
  /-- uncorrectable data met by a fill, at an address, with DATAERR's TINFO (R144, R395) -/
  | halts (addr : BitVec 64) (info : Nat)
  deriving DecidableEq, Repr

/-- Key and virtual address of an entry's place for a lane. -/
def entryPlace (w : Work) (wid l : Nat) (e : StackEntry) : Nat :=
  let v := w.wave wid
  spillArea (w.launch v.lid) (w.block v.bid).lcore v.slot l + e.off

/-- TINFO of spill traffic (R146): SPILL, WRITE for a spill, SPACE and the lane (log entry 68: DEDUCED). -/
def spillInfo (l : Nat) (write : Bool) (space : Nat) : Nat := l * 2 ^ 8 + 2 ^ 5 + b2n write * 2 ^ 4 + space

/-- Bytes of an entry (R21). -/
def StackEntry.size (e : StackEntry) : Nat := if e.block then 96 else 16

/-- The pieces of a range that lie in one 128-byte line each, as address and length; a line lies in one page. -/
def linePieces (va n : Nat) : List (Nat × Nat) :=
  if n = 0 then []
  else (List.range ((va + n - 1) / 128 - va / 128 + 1)).map fun i =>
    let lo := max va (128 * (va / 128 + i))
    let hi := min (va + n) (128 * (va / 128 + i + 1))
    (lo, hi - lo)

/-- Check one line of the global place of an entry: translation, permission R and W, and path (R21, R176, R335). -/
def Work.checkSpillLine (w : Work) (wid l va : Nat) (write : Bool) (denied : List Nat) : Motion × Work :=
  let v := w.wave wid
  let (c, w) := w.check v.ctx v.coreOf va .rw
  match c with
  | .page g lv =>
    if denied.contains g then (.fail 0x04 (BitVec.ofNat 64 va) (spillInfo l write 0) [], w)
    else (.pages [(g, lv)], w)
  | .ok p =>
    if w.tag p ≠ 0 then (.fail 0x09 (BitVec.ofNat 64 (va / 128 * 128)) (spillInfo l write 0) [], w) else (.ok, w)
  | .fault k a => (.fail k a (spillInfo l write 0) [], w)
  | .refused t k p a => (.fail 0x05 a (spillInfo l write 0) [.refused t k p a], w)

/-- Combine outcomes in ascending order: the first failing cause at once when those before it pass; otherwise the records of
all that need one, or a wait, come first (R141, R102). -/
def joinMotions (ms : List Motion) : Motion :=
  let pages := ms.flatMap fun m => match m with
    | .pages gs => gs
    | _ => []
  match ms.find? fun m => m != .ok with
  | some (.pages _) => .pages pages
  | some m => m
  | none => .ok

/-- Check the global place of an entry, line by line. -/
def Work.checkEntry (w : Work) (wid l : Nat) (e : StackEntry) (write : Bool) (denied : List Nat) : Motion × Work :=
  if !e.global then (.ok, w)
  else
    let r := (linePieces (entryPlace w wid l e) e.size).foldl (fun (r : List Motion × Work) x =>
      let (m, w) := r.2.checkSpillLine wid l x.1 write denied
      (r.1 ++ [m], w)) ([], w)
    (joinMotions r.1, r.2)

/-- Where a checked address stands: what the core's TLB holds of it, which the check has filled, or else a walk (R332). -/
def Work.spot (w : Work) (ctx core va : Nat) : Option Phys :=
  let here : Walk := match (w.core core).tlb.find? fun t => t.hits ctx va with
    | some t => .leaf t.leaf t.at_ t.level
    | none => walk w ctx va
  match here with
  | .leaf e at_ level => some (physOf e at_ level va)
  | .bad _ => none

/-- The bytes of an entry's place, as runs of one line each: where the run stands, its first byte within the entry, and its
length. -/
def Work.entryRuns (w : Work) (wid l : Nat) (e : StackEntry) : List (Phys × Nat × Nat) :=
  let v := w.wave wid
  let va := entryPlace w wid l e
  (linePieces va e.size).filterMap fun x => (w.spot v.ctx v.coreOf x.1).map fun p => (p, x.1 - va, x.2)

/-- The entries that a push of a lane makes, record first, and whether it spills. -/
def pushPlan (lc : Launch) (x : Lane) : Option (List StackEntry × Lane × Bool) :=
  let d := x.wdepth.toNat
  let spill := lowOf lc.s d < lowOf lc.s (d + 1)
  match placeEntry x lc.g 16 false with
  | none => none
  | some (e, x) =>
    if !spill then some ([e], x, false)
    else match placeEntry x lc.g 96 true with
      | none => none
      | some (b, x) => some ([e, b], x, true)

/-- The registers that a push of a lane spills. -/
def spillLocs (s l w : Nat) : List Loc := (List.range 24).map fun i => (0, 1024 * l + (lowOf s w + i) % s)

/-- A register is empty: a producer has still to fill it (R26). -/
def Wave.pending (v : Wave) (y : Loc) : Bool := match v.stat y with
  | some (.empty _ _) => true
  | _ => false

/-- Whether a lane's push can be made (R19, R22). -/
def Work.checkPush (w : Work) (wid : Nat) (denied : List Nat) (l : Nat) : Motion × Work :=
  let v := w.wave wid
  let lc := w.launch v.lid
  let x := v.lane l
  if x.wdepth = 4095 then (.fail 0x0B 0 (l * 2 ^ 8) [], w)
  else match pushPlan lc x with
    | none => (.fail 0x0B 0 (1 + l * 2 ^ 8) [], w)
    | some (es, _, spill) =>
      let locs := if spill then spillLocs lc.s l x.wdepth.toNat else []
      if locs.any v.pending then (.wait, w)
      else match firstSome locs fun y => match v.stat y with
          | some (.poison a s) => some (a, s)
          | _ => none with
      | some (a, s) => (.fail 0x0D a (s.toNat + l * 2 ^ 8) [], w)
      | none =>
        es.foldl (fun (r : Motion × Work) e => match r.1 with
          | .ok => r.2.checkEntry wid l e true denied
          | _ => r) (.ok, w)

/-- A check made for each lane of a list, ascending. -/
def Work.perLane (w : Work) (ls : List Nat) (f : Work → Nat → Motion × Work) : List (Nat × Motion) × Work :=
  ls.foldl (fun (r : List (Nat × Motion) × Work) l =>
    let (m, w) := f r.2 l
    (r.1 ++ [(l, m)], w)) ([], w)

/-- The checks of a push in every lane of a list. -/
def Work.checkPushes (w : Work) (wid : Nat) (denied : List Nat) (ls : List Nat) : Motion × Work :=
  let r := w.perLane ls fun w l => w.checkPush wid denied l
  (joinMotions (r.1.map (·.2)), r.2)

/-- Write bytes of a lane's hardware stack at an entry's place, or read them. -/
def Work.putEntry (w : Work) (wid l : Nat) (e : StackEntry) (bs : List Byte) : Work :=
  if e.global then
    (w.entryRuns wid l e).foldl (fun w x => w.writeVia (w.wave wid).coreOf x.1 (slice bs x.2.1 x.2.2)) w
  else
    let k := (PAddr.lane wid l e.off).key
    (w.putBytes k bs).mend k bs.length
def Work.getEntry (w : Work) (wid l : Nat) (e : StackEntry) : List Byte :=
  if e.global then (w.entryRuns wid l e).flatMap fun x => w.bytes x.1.key x.2.2
  else w.bytes (PAddr.lane wid l e.off).key e.size

/-- The push of one lane (R19): the head and, on a spill, the 24 lowest resident registers go to the hardware stack. -/
def Work.push (w : Work) (wid l : Nat) (rpc : Pc) (trap : Bool) : Work :=
  let v := w.wave wid
  let lc := w.launch v.lid
  let x := v.lane l
  match pushPlan lc x with
  | none => w
  | some (es, y, spill) =>
    let block := (spillLocs lc.s l x.wdepth.toNat).flatMap fun a => leBytes 4 (v.rd a).toNat
    let w := es.foldl (fun w e => w.putEntry wid l e (if e.block then block else x.head.toBytes)) w
    let w := if spill then w.count v.coreOf v.ctx 0x08 1 else w
    w.modLane wid l fun _ => { y with wdepth := x.wdepth + 1, head := ⟨rpc, trap, 0⟩ }

/-- The entries that a pop of a lane takes: the block first when the window fills. -/
def popPlan (s : Nat) (x : Lane) : List StackEntry :=
  let d := x.wdepth.toNat
  if lowOf s (d - 1) < lowOf s d then x.stack.take 2 else x.stack.take 1

/-- The registers that a pop of a lane fills (R19). -/
def fillLocs (s l w : Nat) : List Loc :=
  if lowOf s (w - 1) < lowOf s w then spillLocs s l (w - 1) else []

/-- The offset of the first uncorrectable byte of an entry's place. -/
def Work.entryBad (w : Work) (wid l : Nat) (e : StackEntry) : Option Nat :=
  if e.global then firstSome (w.entryRuns wid l e) fun x => (w.firstBad x.1.key x.2.2).map fun i => x.2.1 + i
  else w.firstBad (PAddr.lane wid l e.off).key e.size

/-- A fill that meets uncorrectable data at an offset of an entry: its address and space as DATAERR gives them (R144). -/
def Work.fillHalts (w : Work) (wid l : Nat) (e : StackEntry) (i : Nat) : Motion :=
  if e.global then .halts (BitVec.ofNat 64 (entryPlace w wid l e + i)) (l * 2 ^ 8)
  else .halts (BitVec.ofNat 64 (e.off + i)) (4 + l * 2 ^ 8)

/-- Whether a lane's pop can be made (R21, R395). A register that the pop fills while its producer is still outstanding is
waited for, as every destination is (R27, log entry 76: DEDUCED). -/
def Work.checkPop (w : Work) (wid : Nat) (denied : List Nat) (l : Nat) : Motion × Work :=
  let v := w.wave wid
  let s := (w.launch v.lid).s
  let x := v.lane l
  if x.wdepth = 0 then (.ok, w)
  else if (fillLocs s l x.wdepth.toNat).any v.pending then (.wait, w)
  else (popPlan s x).foldl (fun (r : Motion × Work) e => match r.1 with
    | .ok =>
      let (m, w) := r.2.checkEntry wid l e false denied
      match m with
      | .ok => match w.entryBad wid l e with
        | some i => (w.fillHalts wid l e i, w)
        | none => (.ok, w)
      | _ => (m, w)
    | _ => r) (.ok, w)

/-- A lane without the entries of a pop. -/
def Lane.unstack (x : Lane) (es : List StackEntry) : Lane :=
  es.foldl (fun x e =>
    let x := { x with stack := x.stack.drop 1 }
    if e.global then { x with gUsed := x.gUsed - e.size } else { x with hlow := x.hlow + e.size }) x

/-- The pop of one lane at a depth above 0 (R19): its colours are released, the block fills, the record becomes the
head. -/
def Work.pop (w : Work) (wid l : Nat) : Work :=
  let w := w.release wid l ((w.wave wid).lane l).head.entered
  let v := w.wave wid
  let s := (w.launch v.lid).s
  let x := v.lane l
  let d := x.wdepth.toNat
  let es := popPlan s x
  let w := es.foldl (fun w e =>
    let bs := w.getEntry wid l e
    if e.block then
      let w := w.count v.coreOf v.ctx 0x09 1
      w.modWave wid fun v => ((fillLocs s l d).zipIdx).foldl (fun v y =>
        v.wr y.1 (BitVec.ofNat 32 (leNat (slice bs (4 * y.2) 4)))) v
    else w.modLane wid l fun y => { y with head := Frame.ofBytes bs }) w
  w.modLane wid l fun y => { y.unstack es with wdepth := y.wdepth - 1 }

end Sys2Proof.Machine
end

