-- ==== Sys2Proof/Machine/Traps.lean ====
section
/-! DEFINITION. Taking a trap, halting a wave, deferring a speculative task's fault, and the end of a task
(06 R141–R146, 17 R308–R311). The return from a trap is `Work.returnTrap`. -/

namespace Sys2Proof.Machine

/-- Cause codes (R144). -/
def Cause.illegal : BitVec 8 := 0x01
def Cause.emptyread : BitVec 8 := 0x02
def Cause.arith : BitVec 8 := 0x03
def Cause.memfault : BitVec 8 := 0x04
def Cause.protect : BitVec 8 := 0x05
def Cause.align : BitVec 8 := 0x06
def Cause.bounds : BitVec 8 := 0x07
def Cause.colourpath : BitVec 8 := 0x09
def Cause.frameovf : BitVec 8 := 0x0B
def Cause.doubleres : BitVec 8 := 0x0C
def Cause.dataerr : BitVec 8 := 0x0D
def Cause.queue : BitVec 8 := 0x0E
def Cause.software : BitVec 8 := 0x0F
def Cause.breakpoint : BitVec 8 := 0x10
def Cause.step : BitVec 8 := 0x11

/-- A split of a wave that halts takes REASON HALT; a trap that is kept in it stays there (R143, R135). -/
def Split.haltSplit (s : Split) : Split :=
  { s with state := if s.trap.isSome then .trapped else .parked, reason := .halt, hold := .none, wait := none
           pages := [], busy := none, kept := none }

/-- The wave halts (R143): its splits take REASON HALT, and a class-1 fault record names the trap of the split in an
entry, which is raised no more. -/
def Work.haltWave (w : Work) (wid entry : Nat) (t : TrapVals) : Work :=
  let v := w.wave wid
  let w := w.modWave wid fun v =>
    { (v.setSplit entry { v.split entry with trap := none }).mapSplits Split.haltSplit with
      halted := true, recorded := false, entering := none }
  let cause := if v.tvec = 0 then 0 else t.cause.toNat
  w.report 1 cause t.info.toNat t.pc.toNat ⟨v.coreOf, v.ctx, v.slot, entry, t.mask⟩ true

/-- Whether a split of a wave may enter its handler now (R142, first line); one that the debugger halted takes no trap. -/
def Wave.mayEnter (v : Wave) (entry : Nat) (s : Split) : Bool :=
  !v.recorded && !(decide (s.level < v.tlevel)) && (match v.entering with
    | some n => n == entry
    | none => true)

/-- A split is kept TRAPPED with the values of its trap (R135, R142). -/
def Wave.keepTrap (v : Wave) (entry : Nat) (t : TrapVals) : Wave :=
  v.setSplit entry ((v.split entry).event fun s =>
    { s with state := .trapped, reason := .none, hold := .none, trap := some t, wait := none, busy := none })

/-- The lanes of a split that its trap does not take form the fall-through group (R101, R142). -/
def Wave.leaveRest (v : Wave) (entry : Nat) (t : TrapVals) (fallPc : Pc) : Wave :=
  let s := v.split entry
  let rest := s.mask &&& ~~~t.mask
  if rest = 0 then v
  else
    (v.setSplit entry { s with mask := s.mask &&& t.mask }).addGroup { s with
      state := .ready, reason := .none, hold := .none, trap := none, mask := rest, pc := fallPc, wait := none
      pages := [], denied := [], busy := none, resumed := false }

/-- The trap CSRs of a level, and the handler's PC and level for the lanes of the split (R142). -/
def Wave.enterHandler (v : Wave) (entry : Nat) (t : TrapVals) : Wave :=
  let s := v.split entry
  let level := v.tlevel + 1
  let v := v.setSplit entry { s with
    state := .ready, reason := .none, hold := .none, trap := none, pc := v.tvec, level := level
    wait := none, pages := [], denied := [], busy := none, resumed := false }
  { v with tlevel := level, traps := mput v.traps level.toNat { t with mask := s.mask }, entering := none }

/-- The PC at which a trap was raised (R142): that of the TRAP for SOFTWARE, whose TRAPPC is the next bundle's (R144). -/
def TrapVals.at_ (t : TrapVals) : Pc := if t.cause = Cause.software then t.pc - 8 else t.pc

/-- Trap entry sets every poisoned register of some lanes full, holding 0 (R142); a k register belongs to all of them (log
entry 92: DESIGN CHOICE). -/
def Wave.cleanse (v : Wave) (lanes : List Nat) : Wave :=
  let bad := fun (m : FMap RegStat) (p : Nat → Bool) => (m.filter fun x => p x.1 && x.2.isPoison).map (·.1)
  let v := (bad v.vstat fun k => lanes.contains (k / 1024)).foldl (fun v k => v.wr (0, k) 0) v
  let v := (bad v.hstat fun k => lanes.contains (k / 16)).foldl (fun v k => v.wr (2, k) 0) v
  (bad v.kstat fun _ => true).foldl (fun v k => v.wr (1, k) 0) v

/-- Take a trap that a resident split has raised (R142): kept while another handler runs or enters; a halt at level 2,
with TVEC 0, or when a push fails; otherwise the handler, once every push can be made. A split that has waited for its push goes
on from there. -/
def Work.takeTrap (w : Work) (wid entry : Nat) (t : TrapVals) : Work :=
  let v := w.wave wid
  let s := v.split entry
  let w := w.modWave wid fun v => v.keepTrap entry t
  if !v.mayEnter entry s then w.settle wid
  else if v.tlevel = 2 ∨ v.tvec = 0 then (w.haltWave wid entry t).settle wid
  else
    let lanes := lanesOf (s.mask &&& t.mask)
    let w := w.modWave wid fun x =>
      if v.entering = some entry then x else (x.leaveRest entry t (t.at_ + 8)).cleanse lanes
    let (m, w) := w.checkPushes wid s.denied lanes
    match m with
    | .ok =>
      let w := lanes.foldl (fun w l => w.push wid l t.at_ true) w
      (w.modWave wid fun v => v.enterHandler entry t).settle wid
    | .wait => w.modWave wid fun v => { v with entering := some entry }
    | .pages gs =>
      let die := dieOf v.coreOf
      let w := gs.foldl (fun w g => w.joinRecord die v.ctx g.1 g.2 .rw false (.split wid ((lanesOf (v.split entry).mask).headD 0) g.1)) w
      let w := w.count v.coreOf v.ctx 0x10 1
      w.modWave wid fun v =>
        { v.setSplit entry { v.split entry with pages := gs.map fun g => (die, g.1) } with entering := some entry }
    | .fail _ _ _ cs => ((w.violations v.coreOf v.ctx cs).haltWave wid entry t).settle wid
    | .halts _ _ => (w.haltWave wid entry t).settle wid

/-- The resident split whose trap is taken next: the one that is entering, or the lowest TRAPPED one of the wave's level
(R142, log entry 31: DEDUCED). -/
def Wave.nextTrapped (v : Wave) : Option (Nat × TrapVals) :=
  if v.halted then none
  else match v.entering with
    | some n =>
      let s := v.split n
      if s.pages.isEmpty then s.trap.map fun t => (n, t) else none
    | none =>
      firstSome v.entries fun x =>
        if x.2.state == .trapped ∧ x.2.level = v.tlevel then x.2.trap.map fun t => (x.1, t) else none

/-! ### Ends of tasks -/

/-- An ordered task finishes (R309), and commits at once if it is the frontier. -/
def Work.finishTask (w : Work) (ctx : Nat) (t : TaskRec) (drop : Bool) : Work :=
  w.modDomain ctx t.dom fun d => { d with tasks := d.tasks.map fun y =>
    if y.task.seq == t.seq then { y with state := .finished, wid := 0, lane := 0, drop := drop } else y }

/-- Finished uncommitted tasks of a domain: FIN (R300). -/
def Domain.fin (d : Domain) : Nat := (d.tasks.filter fun t => t.state == .finished).length

/-- A lane exits (R107): its task, if it runs one of a domain, finishes (R309). -/
def Work.exitLane (w : Work) (wid l : Nat) : Work :=
  let v := w.wave wid
  let w := match (v.lane l).ordered with
    | some t => w.finishTask v.ctx t false
    | none => w
  w.endLane wid l

/-- A lane's task may not end yet: it is not the frontier and FIN, with `ahead` tasks that end before it in the same
bundle, is full (R309). -/
def Work.finBlocked (w : Work) (wid ahead l : Nat) : Bool :=
  let v := w.wave wid
  match (v.lane l).ordered with
  | some t =>
    !w.isFrontier v.ctx t && ((w.domain v.ctx t.dom).map fun d => decide (16384 ≤ d.fin + ahead)).getD false
  | none => false

/-- The lanes of a bundle whose tasks may not end yet, in ascending order (R309): each task that ends raises FIN. -/
def Work.finHeld (w : Work) (wid : Nat) (ls : List Nat) : List Nat :=
  (ls.foldl (fun (a : List Nat × Nat) l =>
    if w.finBlocked wid a.2 l then (a.1 ++ [l], a.2)
    else (a.1, a.2 + b2n ((w.wave wid).lane l).ordered.isSome)) ([], 0)).1

/-- A lane runs an ordered task that is not the frontier (R308, R310). -/
def Work.speculative (w : Work) (wid l : Nat) : Bool :=
  let v := w.wave wid
  match (v.lane l).ordered with
  | some t => !w.isFrontier v.ctx t
  | none => false

/-- Whether a wave has a living lane that runs a task of a domain. -/
def Work.anySpeculative (w : Work) (wid : Nat) (ls : List Nat) : List Nat := ls.filter fun l => w.speculative wid l

/-! ### Raising a trap from a bundle -/

/-- The active lanes' trap of a bundle, with TRAPPC and TMASK (R142, R144). -/
def trapOf (e : Iss) (cause : BitVec 8) (addr : BitVec 64) (info : Word) : TrapVals :=
  ⟨cause, if cause = Cause.software then e.pc + 8 else e.pc, if cause = Cause.illegal then e.mask else maskOf e.act,
   addr, info⟩

/-- The end of a trap handler (R105): pops, TRAPPC for every lane, one level down. TRAPPC keeps what CSRW wrote (R32); the
lanes go to the PC that it names (R61, log entry 75: DEDUCED). -/
def Work.returnTrap (w : Work) (e : Iss) : Work :=
  let v := w.wave e.wid
  let pc := pcOf (mget v.traps v.tlevel.toNat TrapVals.blank).pc.toNat
  let w := e.act.foldl (fun w l => w.pop e.wid l) w
  (w.modWave e.wid fun v =>
    let s := v.split e.entry
    let v := v.setSplit e.entry { s with
      state := .ready, reason := .none, hold := .none, pc := pc, level := s.level - 1, denied := [], pages := [] }
    { v with tlevel := v.tlevel - 1 }).settle e.wid

end Sys2Proof.Machine
end

