-- ==== Sys2Proof/Machine/Bundle.lean ====
section
/-! DEFINITION. The issue of a bundle: active lanes, readiness, irrevocable actions, the effect, energy, and STEP
(06 R138–R142, 01 R27, 17 R308, 21 R363, R364). -/

namespace Sys2Proof.Machine

/-- The PC-match entry that a split matches, if any (R387). -/
def Work.matchOf (w : Work) (v : Wave) (s : Split) : Option (Nat × Pc) :=
  if v.tlevel ≠ 0 ∨ s.handler ∨ s.resumed then none
  else firstSome (w.ctx v.ctx).pcm fun x => if x.2.1 = s.pc then some (x.1, x.2.2) else none

/-- Whether a core's clocks run: it is not stopped by a violation (R376), gated (R400, R402), or frozen with the part
(R390). -/
def Work.runs (w : Work) (core : Nat) : Bool :=
  let c := w.core core
  c.stopped.isNone && !c.gated && !w.dev.pow.tshut && !w.dev.tail.frozen

/-- How a bundle's effect ends. -/
inductive Fin_ where
  /-- every lane of the split goes on to PC + 8 -/
  | next
  | raise (cause : BitVec 8) (addr : BitVec 64) (info : Word)
  /-- the bundle does not issue yet -/
  | stall
  /-- the effect has placed the split's lanes itself -/
  | gone
  /-- the effect has taken a trap, or halted the wave, itself -/
  | trapped
  /-- the split is held at the bundle, which does not issue (R105, R108) -/
  | hold (h : Hold)
  deriving DecidableEq, Repr

/-- An effect: the working state, how it ends, and the energy class (0–9) and units it is charged (R364). -/
structure Eff where
  w : Work
  fin : Fin_
  cls : Nat
  units : Nat
  deriving DecidableEq, Repr

/-- Energy classes (R364). -/
def clsInt : Nat := 0
def clsFp32 : Nat := 1
def clsFp64 : Nat := 2
def clsSfu : Nat := 3
def clsLd : Nat := 4
def clsSt : Nat := 5
def clsAtom : Nat := 6
def clsCopy : Nat := 7
def clsCtrl : Nat := 8
def clsMma : Nat := 9

/-- A context's counter on a core; one never charged holds ESEED (R348). -/
def Context.energyOn (c : Context) (core : Nat) : Energy :=
  let e : BitVec 64 := BitVec.ofNat 64 (c.rec_.eseed.toNat * 65536)
  mget c.energy core ⟨e, false, e, 0⟩

/-- Units for this tick's sum (R363). -/
def Energy.add (x : Energy) (u : Nat) : Energy := { x with pend := x.pend + u }
/-- The sum of a tick is added once, saturating (R363). -/
def Energy.settle (x : Energy) : Energy :=
  if 2 ^ 64 ≤ x.e.toNat + x.pend then { x with e := BitVec.allOnes 64, sat := true, pend := 0 }
  else { x with e := x.e + BitVec.ofNat 64 x.pend, pend := 0 }

/-- Charge `n` units of a class to a context on a core (R364). -/
def Work.charge (w : Work) (ctx core cls n : Nat) : Work :=
  let u := n * ((w.ctx ctx).rec_.ewt.getD cls 0).toNat
  if u = 0 then w else w.modCtx ctx fun c => { c with energy := mput c.energy core ((c.energyOn core).add u) }

/-- Whether a lane passes a guard (R63). -/
def guardPasses (g : Guard) (x : Lane) : Bool := x.pred g.p != g.neg

/-- The issue environment of the current split under a guard. -/
def Work.iss (w : Work) (c : Cur) (g : Guard) : Iss :=
  let v := w.wave c.wid
  let s := v.split c.entry
  w.issOf c.wid c.entry s ((lanesOf s.mask).filter fun l => guardPasses g (v.lane l))

/-- The split's lanes go on to PC + 8. -/
def Work.advance (w : Work) (e : Iss) : Work :=
  w.modWave e.wid fun v => v.setSplit e.entry { v.split e.entry with
    state := .ready, reason := .none, hold := .none, pc := e.pc + 8, trap := none, wait := none, pages := []
    denied := [], busy := none, resumed := false }

/-- Some active lanes leave the split and park for a reason; the environment without them. -/
def Work.parkAs (w : Work) (e : Iss) (r : Reason) (ls : List Nat) : Iss × Work :=
  if ls.isEmpty then (e, w)
  else
    let m := maskOf ls
    let (stamp, w) := w.newId
    let w := w.modWave e.wid fun v => v.parkLanes e.entry m r stamp
    ({ e with mask := e.mask &&& ~~~m, act := e.act.filter fun l => !ls.contains l }, w)

/-- Some active lanes leave the split and park with REASON FRONTIER (R308, R310). -/
def Work.parkFrontier (w : Work) (e : Iss) (ls : List Nat) : Iss × Work := w.parkAs e .frontier ls

/-- How a bundle ends when no active lane is left: the split's other lanes, if it has any, go on. -/
def Iss.ends (e : Iss) : Fin_ := if e.mask = 0 then .gone else .next

/-- Active lanes whose task is not the frontier leave the split and park (R308). -/
def Work.parkSpec (w : Work) (e : Iss) : Iss × Work := w.parkFrontier e (w.anySpeculative e.wid e.act)

/-- A bundle's lanes without those that have left its split meanwhile. -/
def Work.left (w : Work) (e : Iss) : Iss :=
  let m := ((w.wave e.wid).split e.entry).mask
  { e with mask := e.mask &&& m, act := e.act.filter fun l => m.getLsbD l }

/-- A bundle raises a cause in its active lanes; in every lane of its split, where it has no active lane. In an ordered domain,
those of them whose task is not the frontier park with REASON FRONTIER instead, unless the cause is BREAK or STEP; the trap is
taken if lanes are left in which it is raised (R310). -/
def Work.raise (w : Work) (e : Iss) (cause : BitVec 8) (addr : BitVec 64) (info : Word) : Work :=
  let e := w.left e
  let hit := if e.act.isEmpty then lanesOf e.mask else e.act
  let spec := if cause = Cause.breakpoint ∨ cause = Cause.step then [] else w.anySpeculative e.wid hit
  let (e, w) := w.parkFrontier e spec
  if spec.length < hit.length then w.takeTrap e.wid e.entry (trapOf e cause addr info)
  else if e.mask = 0 then w.settle e.wid
  else w.advance e

/-- Every split that the bundle leaves behind READY becomes TRAPPED with CAUSE STEP (R142); one that it parks has still to issue
the bundle (log entry 92: DESIGN CHOICE). -/
def Wave.stepTraps (v : Wave) (stamp : Nat) (pc : Pc) : Wave :=
  v.mapSplits fun s =>
    if s.state == .ready ∧ s.hold == .none ∧ s.busy.isNone ∧ s.lastIssue = stamp ∧ s.level = 0 ∧ s.mask ≠ 0 then
      { s with state := .trapped, trap := some ⟨Cause.step, s.pc, s.mask, pc.setWidth 64, 0⟩ }
    else s

/-- The lowest TRAPPED split enters its handler when nothing stands against it (R142). -/
def Work.tryTrap (w : Work) (wid : Nat) : Work :=
  match (w.wave wid).nextTrapped with
  | some (n, t) => w.takeTrap wid n t
  | none => w

/-- The quarter of a wave: 4 × core + quarter (R132). -/
def Wave.quarter (v : Wave) : Nat := 4 * v.coreOf + v.slot / 16

/-- What one issue of a quarter leaves of the yields (R108). -/
def countYields (ys : List (Nat × Nat × Nat)) (q last : Nat) : List (Nat × Nat × Nat) :=
  ys.filterMap fun y =>
    if y.1 ≠ q then some y
    else if y.2.1 = last ∨ y.2.2 ≤ 1 then none
    else some (y.1, y.2.1, y.2.2 - 1)

/-- The split is stamped as issued (R138). -/
def Work.stamp (w : Work) (c : Cur) : Work :=
  let v := w.wave c.wid
  let last := (v.split c.entry).lastIssue
  let w := w.modSys fun s => { s with
    issue := s.issue + 1, stalled := [], yields := countYields s.yields v.quarter last }
  w.modWave c.wid fun v => v.setSplit c.entry { v.split c.entry with lastIssue := w.dev.sys.issue }

/-- The bundle does not issue: the split is no candidate until something changes, and the turn to issue goes to another
candidate (R138). -/
def Work.noteStall (w : Work) (c : Cur) : Work :=
  w.modSys fun s => { s with stalled := if s.stalled.contains c then s.stalled else c :: s.stalled, phase := 0 }

/-- What follows a bundle that has issued: its energy, its counts, STEP, and the table's adjustments. -/
def Work.after (w : Work) (e : Iss) (stepped : Bool) (cls units instrs : Nat) : Work :=
  let w := w.charge e.ctx e.core cls units
  let w := (w.count e.core e.ctx 0x02 1).count e.core e.ctx 0x03 instrs
  let n := w.dev.sys.issue
  if stepped then (w.modWave e.wid fun v => v.stepTraps n e.pc).tryTrap e.wid else w

/-- Finish an effect: advance, trap, or leave the lanes where the effect put them. -/
def Work.finish (e : Iss) (stepped : Bool) (x : Eff) (instrs : Nat) : Work :=
  match x.fin with
  | .next => (x.w.advance e).after e stepped x.cls x.units instrs
  | .raise c a i => (x.w.raise e c a i).after e false clsCtrl 1 instrs
  | .gone => x.w.after e stepped x.cls x.units instrs
  | .trapped => x.w.after e false clsCtrl 1 instrs
  | .stall | .hold _ => x.w

/-- The pair fields of DATAERR's TINFO (R144): bit 14, and in bit 13 the slot; uses of slot B have fields from 8 up. -/
def pairInfo (v : Wave) (e : Iss) (u : Uses) (at_ : Nat → Nat → Nat) (instrs l : Nat) : Nat :=
  if instrs ≠ 2 then 0
  else
    let inA := (u.src.filter (·.field < 8)).any fun x => (v.useLocs e x (at_ x.field l)).any fun y =>
      match v.stat y.2 with
      | some (.poison _ _) => true
      | _ => false
    2 ^ 14 + if inA then 0 else 2 ^ 13

/-- Lanes of speculative tasks that meet poison or an empty register that traps: each is deferred on its own (R310). -/
def Work.deferred (w : Work) (e : Iss) (u : Uses) (at_ : Nat → Nat → Nat) : List Nat :=
  (w.anySpeculative e.wid e.act).filter fun l => match (w.wave e.wid).ready { e with act := [l] } u at_ with
    | .poison _ _ _ => true
    | .empty _ _ _ _ => true
    | _ => false

/-- The guard `@!p0`: the bundle is never executed (R63). -/
def neverGuard (g : Guard) : Bool := g.neg && g.p == 0

/-- The split is held at its bundle, which does not issue (R105, R108); rotation counts it as parked from now on (R137). -/
def Work.holdSplit (w : Work) (c : Cur) (h : Hold) : Work :=
  let (stamp, w) := w.newId
  w.modWave c.wid fun v => v.setSplit c.entry { v.split c.entry with hold := h, parkedAt := stamp }

/-- Issue a bundle for the current split: `irrev` says that it is an irrevocable action in an ordered domain, `at_`
gives the lane whose register a cross-lane read reads, `f` is the effect. Under the guard `@!p0` nothing is executed: the bundle
only takes its issue slot (R63). -/
def Work.issueBundle (w : Work) (c : Cur) (g : Guard) (u : Uses) (irrev : Bool) (at_ : Iss → Work → Nat → Nat → Nat)
    (f : Iss → Work → Eff) (instrs : Nat) : Work :=
  let e := w.iss c g
  let v := w.wave c.wid
  let stepped := v.stepctl && e.level == 0 && !(v.split c.entry).handler
  let r := w.stamp c
  let (e, r) := if irrev then r.parkSpec e else (e, r)
  let (e, r) := r.parkFrontier e (r.deferred e u (at_ e r))
  if e.mask = 0 then
    let x := f e r
    r.after e false x.cls x.units instrs
  else
    let trap := fun (k : BitVec 8) (a : BitVec 64) (i : Nat) =>
      Work.finish e stepped ⟨r.takeTrap e.wid e.entry (trapOf e k a (BitVec.ofNat 32 i)), .trapped, clsCtrl, 1⟩ instrs
    match (r.wave c.wid).ready e u (at_ e r) with
    | .poison a sp l => trap Cause.dataerr a (sp.toNat + l * 2 ^ 8 + pairInfo (r.wave c.wid) e u (at_ e r) instrs l)
    | .empty p k n l => trap Cause.emptyread (p.setWidth 64) (k + 1 + n * 2 ^ 8 + l * 2 ^ 16)
    | .stall => w.noteStall c
    | .ok =>
      let x := if neverGuard g then ⟨r, .next, clsCtrl, 1⟩ else f e r
      match x.fin with
      | .stall => w.noteStall c
      | .hold h => w.holdSplit c h
      | _ => Work.finish e stepped x instrs

/-- The meaning of a bundle as a step: a fault when no split issues it. -/
def runBundle (g : Guard) (u : Uses) (irrev : Bool) (at_ : Iss → Work → Nat → Nat → Nat) (f : Iss → Work → Eff)
    (instrs : Nat) (s : State) : Host.Outcome State Fault Refusal :=
  match s.dev.sys.cur with
  | none => .fault .noIssuingSplit
  | some c =>
    if (mget? (mget s.dev.waves c.wid Wave.blank).entries c.entry).isNone then .fault .noIssuingSplit
    else commit (fun w => (w.issueBundle c g u irrev at_ f instrs).settleNow c.wid) s

/-- A bundle without cross-lane reads. -/
def bundle (g : Guard) (u : Uses) (irrev : Bool) (f : Iss → Work → Eff) (s : State) :
    Host.Outcome State Fault Refusal :=
  runBundle g u irrev (fun _ _ _ l => l) f 1 s

/-- The effect of a bundle that writes a register in each active lane, from the lane's own values, before any write. -/
def writes (d : Reg) (cls : Nat) (f : Iss → Wave → Nat → List Word) (e : Iss) (w : Work) : Eff :=
  let v := w.wave e.wid
  ⟨w.setWave e.wid (v.putAll e d (f e v)), .next, cls, 1⟩

end Sys2Proof.Machine
end

