-- ==== Sys2Proof/Machine/Flags.lean ====
section
/-! DEFINITION. FPSR flags, and bundles whose results come later: producers (01 R26, R35). -/

namespace Sys2Proof.Machine

/-! ### FPSR (R35) -/

def flagNV : BitVec 7 := 0x01
def flagDZ : BitVec 7 := 0x02
def flagOF : BitVec 7 := 0x04
def flagUF : BitVec 7 := 0x08
def flagNX : BitVec 7 := 0x10
def flagIDZ : BitVec 7 := 0x20
def flagSAT : BitVec 7 := 0x40

/-- A lane's sticky flags gain some. -/
def Wave.orFlags (v : Wave) (l : Nat) (f : BitVec 7) : Wave :=
  if f = 0 then v else { v with lanes := mmod v.lanes l Lane.blank fun x => { x with fpsr := x.fpsr ||| f } }

/-- Write a destination, with each active lane's flags: a k destination takes the lowest lane's value, and the flags go to
every active lane (R111). -/
def Wave.putFlags (v : Wave) (e : Iss) (d : Reg) (f : Nat → List Word × BitVec 7) : Wave :=
  e.act.foldl (fun v l => v.orFlags l (f l).2) (v.putAll e d fun l => (f l).1)

/-- The effect of a bundle that writes a register with flags. -/
def writesF (d : Reg) (cls : Nat) (f : Iss → Wave → Nat → List Word × BitVec 7) (e : Iss) (w : Work) : Eff :=
  let v := w.wave e.wid
  ⟨w.setWave e.wid (v.putFlags e d (f e v)), .next, cls, 1⟩

/-! ### Producers (R26) -/

/-- The homes that a lane's producer fills: its own v registers, or the k registers for the lane whose value they take. -/
def Iss.fills (e : Iss) (v : Wave) (d : Reg) (n l : Nat) : List Loc :=
  if d.isK ∧ e.act.head? ≠ some l then [] else (v.dstLocs e d n l).filter fun x => x.1 ≠ 3

/-- One lane's outstanding producer begins: its destinations are empty from now on (R26, R29). -/
def Work.begin_ (w : Work) (e : Iss) (o : Out) : Work :=
  let (i, w) := w.newId
  w.modWave e.wid fun v =>
    let v := o.dst.foldl (fun v x => v.setStat x (some (.empty e.pc w.dev.sys.issue))) v
    { v with outs := mput v.outs i o }

/-- An address as the two words of a pair: what a FUTGET that waits holds in place of its value. -/
def addrWords (a : Nat) : List Word := [BitVec.ofNat 32 a, BitVec.ofNat 32 (a / 2 ^ 32)]
/-- The address that an outstanding access names. -/
def Out.addr (o : Out) : Nat :=
  if o.kind = .futget then leNat (o.vals.flatMap fun x => leBytes 4 x.toNat) else o.fut

/-- A producer in every active lane (R26). -/
def Work.produce (w : Work) (e : Iss) (d : Reg) (n : Nat) (kind : OutKind) (f : Nat → List Word × BitVec 7) : Work :=
  let v := w.wave e.wid
  e.act.foldl (fun w l =>
    w.begin_ e ⟨kind, l, e.pc, e.fills v d n l, (f l).1, none, (f l).2, 0, none, none⟩) w

/-- The effect of a bundle that is a producer of values known at issue. -/
def produces (d : Reg) (n : Nat) (kind : OutKind) (cls : Nat) (f : Iss → Wave → Nat → List Word × BitVec 7) (e : Iss)
    (w : Work) : Eff :=
  let v := w.wave e.wid
  ⟨w.produce e d n kind (f e v), .next, cls, 1⟩

/-- The access goes to host or peer memory. -/
def Out.ext (o : Out) : Bool := o.via.isSome

/-- Whether a request through a target is held: its link retrains (R372). -/
def Work.viaHeld (w : Work) (t : Option Nat) : Bool :=
  (t.map fun t => decide (11 ≤ t) && (mget w.dev.hub.links (t - 11) Link.blank).failed.isSome).getD false

/-- Writes of some lanes to host or peer memory that have not been acknowledged (R353, R372). -/
def Wave.unacked (v : Wave) (ls : List Nat) : Bool :=
  v.outs.any fun o => (o.2.kind == .ack || o.2.kind == .atom) && ls.contains o.2.lane

/-- An outstanding producer completes: its values are written, or its destinations poisoned, and its flags set (R26, R116,
R199). The lane's k destinations are filled even when it has ended (R23). -/
def Work.complete (w : Work) (wid idx : Nat) : Work :=
  match mget? (w.wave wid).outs idx with
  | none => w
  | some o =>
    w.modWave wid fun v =>
      let v := { v with outs := mdel v.outs idx }
      let v := (o.dst.zip o.vals).foldl (fun v x => match o.bad with
        | none => v.wr x.1 x.2
        | some (a, s) => v.setStat x.1 (some (.poison a s))) v
      if (v.lane o.lane).alive then v.orFlags o.lane o.flags else v

end Sys2Proof.Machine
end

