-- ==== Sys2Proof/Machine/Lanes.lean ====
section
/-! DEFINITION. The checks that a bundle makes lane by lane before any lane performs, and what follows from them
(06 R141, 17 R310, 20 R338). -/

namespace Sys2Proof.Machine

/-- The split parks with REASON PAGE on the records of granules, on its core's die (R338). -/
def Work.parkPages (w : Work) (e : Iss) (gs : List (Nat × Nat)) (acc : Acc) : Work :=
  let die := dieOf e.core
  let gs := gs.eraseDups
  let w := gs.foldl (fun w g => w.joinRecord die e.ctx g.1 g.2 acc false (.split e.wid (e.act.headD 0) g.1)) w
  let w := w.count e.core e.ctx 0x10 1
  let (stamp, w) := w.newId
  w.modWave e.wid fun v => v.setSplit e.entry { v.split e.entry with
    state := .parked, reason := .page, hold := .none, parkedAt := stamp
    pages := (gs.map fun g => (die, g.1)).eraseDups }

/-- Whether a lane's outcome is an outright failure. -/
def Motion.failed : Motion → Bool
  | .fail _ _ _ _ => true
  | _ => false

/-- What follows from the lanes' checks: lanes of speculative tasks that fail park on their own (R310); of the others the
lowest failing lane's cause is raised at once unless a lane below it needs a record, in which case the split parks on
every record needed (R141); a lane that waits for a register stalls the bundle; otherwise the lanes that remain go on. A
bundle that parks is charged `units` of its class (R364). -/
def Work.judge (w : Work) (e : Iss) (outs : List (Nat × Motion)) (acc : Acc) (cls units : Nat)
    (go : Iss → Work → Eff) : Eff :=
  let failing := (outs.filter fun x => x.2.failed).map (·.1)
  let spec := w.anySpeculative e.wid failing
  let (e, w) := w.parkFrontier e spec
  let rest := (outs.filter fun x => !spec.contains x.1).map (·.2)
  if e.act.isEmpty ∧ !spec.isEmpty then ⟨w, e.ends, cls, units⟩
  else match joinMotions rest with
    | .ok => go e w
    | .wait => ⟨w, .stall, clsCtrl, 0⟩
    | .pages gs => ⟨w.parkPages e gs acc, .gone, cls, units⟩
    | .fail c a i cs =>
      let w := w.violations e.core e.ctx cs
      ⟨w.takeTrap e.wid e.entry (trapOf e c a (BitVec.ofNat 32 i)), .trapped, clsCtrl, 1⟩
    | .halts a i =>
      ⟨(w.haltWave e.wid e.entry (trapOf e Cause.dataerr a (BitVec.ofNat 32 i))).settle e.wid, .trapped, clsCtrl, 1⟩

/-- TINFO of ILLEGAL (R145). -/
def illInfo (sub : IllSub) (pair slot : Bool) (detail : Nat) : Word :=
  let code := match sub with
    | .reserved => 1
    | .future => 2
    | .field => 3
    | .pair => 4
    | .operand => 5
  BitVec.ofNat 32 (code + b2n (pair && slot && sub != .pair) * 2 ^ 4 + b2n pair * 2 ^ 5 + detail * 2 ^ 8)

/-- ILLEGAL/OPERAND of an instruction's own checks (R145). -/
def illegalOperand (w : Work) : Eff := ⟨w, .raise Cause.illegal 0 (illInfo .operand false false 0), clsCtrl, 1⟩

end Sys2Proof.Machine
end

