-- ==== Sys2Proof/Machine/Control.lean ====
section
/-! DEFINITION. Control transfer, traps by program, and what a split does instead of issuing its bundle
(04 R101–R109, 03 R61, R74, 06 R142, 24 R387–R389). -/

namespace Sys2Proof.Machine

/-- Bundles without registers. -/
def noUses : Uses := ⟨[], none⟩

/-- Lanes of the split that the guard leaves out: the fall-through group (R101). -/
def Iss.fall (e : Iss) : Word := e.mask &&& ~~~(maskOf e.act)

/-- The active lanes go to their targets, and the others on to PC + 8 (R101). -/
def Work.transfer (w : Work) (e : Iss) (targets : List (Nat × Pc)) : Eff :=
  ⟨w.modWave e.wid fun v => v.placeGroups e.entry ((v.split e.entry).mask &&& ~~~(maskOf e.act))
    (e.pc + 8) (groupBy targets), .gone, clsCtrl, 1⟩

/-- T of BRA and CALL (R102). -/
def branchTarget (pc : Pc) (off : BitVec 19) : Pc := pc + sextTo 56 off * 8

/-- BRA (R102). -/
def execBra (g : Guard) (off : BitVec 19) (s : State) : Host.Outcome State Fault Refusal :=
  bundle g noUses false (fun e w => w.transfer e (e.act.map fun l => (l, branchTarget e.pc off))) s

/-- T of BRX and CALLX in a lane, 64 bits (R103). -/
def indirectTarget (v : Wave) (e : Iss) (a : Reg) (off : BitVec 19) (l : Nat) : DWord :=
  v.val64 e a l + sextTo 64 off * 8

/-- The checks of an indirect target (R103): ALIGN, then MEMFAULT; TINFO's FETCH is set (R146). -/
def checkTarget (t : DWord) (l : Nat) : Motion :=
  if t.toNat % 8 ≠ 0 then .fail Cause.align t (l * 2 ^ 8 + 2 ^ 3) []
  else if 2 ^ 56 ≤ t.toNat then .fail Cause.memfault t (l * 2 ^ 8 + 2 ^ 3) []
  else .ok

/-- BRX (R103). -/
def execBrx (g : Guard) (a : Src) (off : BitVec 19) (s : State) : Host.Outcome State Fault Refusal :=
  bundle g ⟨[useOf a 2 0], none⟩ false (fun e w =>
    let v := w.wave e.wid
    let t := indirectTarget v e a.reg off
    w.judge e (e.act.map fun l => (l, checkTarget (t l) l)) .x clsCtrl 1 fun e w =>
      w.transfer e (e.act.map fun l => (l, (t l).setWidth 56))) s

/-- A call in the active lanes (R102, R103): every lane is checked, then every lane pushes, and the lanes go to their
targets; in a lane its target is checked before its push (log entry 87: DEDUCED). Inside a PC-match handler it is ILLEGAL
(R389). -/
def Work.callTo (w : Work) (e : Iss) (t : Nat → DWord) : Eff :=
  if e.act.isEmpty then ⟨w, .next, clsCtrl, 1⟩
  else if e.shadow then illegalOperand w
  else
    let denied := ((w.wave e.wid).split e.entry).denied
    let (outs, w) := w.perLane e.act fun w l => match checkTarget (t l) l with
      | .ok => w.checkPush e.wid denied l
      | m => (m, w)
    w.judge e outs .rw clsCtrl 1 fun e w =>
      let w := e.act.foldl (fun w l => w.push e.wid l (e.pc + 8) false) w
      w.transfer e (e.act.map fun l => (l, (t l).setWidth 56))

/-- CALL (R102). -/
def execCall (g : Guard) (off : BitVec 19) (s : State) : Host.Outcome State Fault Refusal :=
  bundle g noUses false (fun e w => w.callTo e fun _ => (branchTarget e.pc off).setWidth 64) s

/-- CALLX (R103). -/
def execCallx (g : Guard) (a : Src) (off : BitVec 19) (s : State) : Host.Outcome State Fault Refusal :=
  bundle g ⟨[useOf a 2 0], none⟩ false (fun e w =>
    let v := w.wave e.wid
    w.callTo e (indirectTarget v e a.reg off)) s

/-- Lanes whose tasks may not end yet park with REASON FRONTIER (R309). -/
def Work.parkFin (w : Work) (e : Iss) (ls : List Nat) : Iss × Work := w.parkFrontier e (w.finHeld e.wid ls)

/-- RET (R104): each active lane pops and goes to its return PC; a lane at depth 0 exits. -/
def execRet (g : Guard) (s : State) : Host.Outcome State Fault Refusal :=
  bundle g noUses false (fun e w =>
    if e.act.isEmpty then ⟨w, .next, clsCtrl, 1⟩
    else if e.shadow then illegalOperand w
    else
      let depth0 := fun (w : Work) (l : Nat) => ((w.wave e.wid).lane l).wdepth == 0
      let (e, w) := w.parkFin e (e.act.filter (depth0 w))
      if e.act.isEmpty then ⟨w, e.ends, clsCtrl, 1⟩
      else
        let denied := ((w.wave e.wid).split e.entry).denied
        let (outs, w) := w.perLane e.act fun w l => w.checkPop e.wid denied l
        w.judge e outs .rw clsCtrl 1 fun e w =>
          let v := w.wave e.wid
          let back := (e.act.filter fun l => !depth0 w l).map fun l => (l, (v.lane l).head.rpc)
          let w := e.act.foldl (fun w l => if depth0 w l then w.exitLane e.wid l else w.pop e.wid l) w
          w.transfer e back) s

/-- EXIT (R107): each active lane ends. -/
def execExit (g : Guard) (s : State) : Host.Outcome State Fault Refusal :=
  bundle g noUses false (fun e w =>
    let (e, w) := w.parkFin e e.act
    if e.act.isEmpty then ⟨w, e.ends, clsCtrl, 1⟩
    else (e.act.foldl (fun w l => w.exitLane e.wid l) w).transfer e []) s

/-- MERGE (R108): with every split of the wave at this PC, they merge and it issues as a NOP; else the split is held. -/
def execMerge (s : State) : Host.Outcome State Fault Refusal :=
  bundle ⟨false, 0⟩ noUses false (fun e w =>
    let v := w.wave e.wid
    if v.splits.length == 1 then ⟨w, .next, clsCtrl, 1⟩
    else if v.splits.all fun t => t.joins (v.split e.entry) then
      let v := v.mergeAll
      let go := fun (x : Nat × Split) => (x.1, { x.2 with pc := e.pc + 8, resumed := false, denied := [] })
      ⟨w.setWave e.wid { v with entries := v.entries.map go }, .gone, clsCtrl, 1⟩
    else ⟨w, .hold .merge, clsCtrl, 0⟩) s

/-- YIELD (R108): the split waits until its quarter has issued 16 bundles of other splits, or has no other candidate. -/
def execYield (s : State) : Host.Outcome State Fault Refusal :=
  bundle ⟨false, 0⟩ noUses false (fun e w =>
    let q := (w.wave e.wid).quarter
    ⟨w.modSys fun y => { y with yields := (q, y.issue, 16) :: y.yields }, .next, clsCtrl, 1⟩) s

/-- NOP (R108). -/
def execNop (g : Guard) (s : State) : Host.Outcome State Fault Refusal :=
  bundle g noUses false (fun _ w => ⟨w, .next, clsCtrl, 1⟩) s

/-- A trap that the program asks for (R109); with no active lane, nothing. -/
def trapCode (g : Guard) (cause : BitVec 8) (code : BitVec 19) (s : State) : Host.Outcome State Fault Refusal :=
  bundle g noUses false (fun e w =>
    if e.act.isEmpty then ⟨w, .next, clsCtrl, 1⟩ else ⟨w, .raise cause 0 (code.setWidth 32), clsCtrl, 1⟩) s

/-- TRAP (R109). -/
def execTrap (g : Guard) (code : BitVec 19) (s : State) : Host.Outcome State Fault Refusal :=
  trapCode g Cause.software code s

/-- BRK (R109). -/
def execBrk (g : Guard) (code : BitVec 19) (s : State) : Host.Outcome State Fault Refusal :=
  trapCode g Cause.breakpoint code s

/-- RTT (R105): the end of a trap handler, once its split holds every lane that entered and lives. -/
def execRtt (s : State) : Host.Outcome State Fault Refusal :=
  bundle ⟨false, 0⟩ noUses false (fun e w =>
    let v := w.wave e.wid
    let t := v.split e.entry
    if v.tlevel = 0 ∨ e.act.any (fun l => !(v.lane l).head.trap) then illegalOperand w
    else if t.mask ≠ v.rttLanes t then ⟨w, .hold .rtt, clsCtrl, 0⟩
    else
      let (outs, w) := w.perLane e.act fun w l => w.checkPop e.wid t.denied l
      w.judge e outs .rw clsCtrl 1 fun e w => ⟨(w.returnTrap e).tryTrap e.wid, .trapped, clsCtrl, 1⟩) s

/-- RTS (R106, R389): the end of a PC-match handler. -/
def execRts (s : State) : Host.Outcome State Fault Refusal :=
  bundle ⟨false, 0⟩ noUses false (fun e w =>
    let v := w.wave e.wid
    let t := v.split e.entry
    match v.pmatch with
    | none => illegalOperand w
    | some m =>
      if !e.shadow then illegalOperand w
      else if t.mask ≠ v.rttLanes t then ⟨w, .hold .rtt, clsCtrl, 0⟩
      else
        let t := { t with pc := m.mpc, handler := false, resumed := true, hold := .none, denied := [] }
        ⟨w.setWave e.wid { v.setSplit e.entry t with pmatch := none }, .gone, clsCtrl, 1⟩) s

/-! ### Instead of a bundle -/

/-- A bundle that is no instruction (R74): ILLEGAL for every lane of the split, whatever its guard. -/
def execIllegalBundle (sub : IllSub) (pair slot : Bool) (s : State) : Host.Outcome State Fault Refusal :=
  bundle ⟨false, 0⟩ noUses false (fun _ w => ⟨w, .raise Cause.illegal 0 (illInfo sub pair slot 0), clsCtrl, 1⟩) s

/-- The fetch of a bundle fails (R61): MEMFAULT or PROTECT at the PC, DATAERR for uncorrectable code (log entry 33: DEDUCED), or a
fault record; nothing when the page has meanwhile come. No bundle issues. -/
def Work.fetchFails (w : Work) (c : Cur) : Work :=
  let e := w.iss c ⟨false, 0⟩
  let l := e.act.headD 0
  let pc : BitVec 64 := e.pc.setWidth 64
  let (r, w) := w.check e.ctx e.core e.pc.toNat .x
  let fail := fun (w : Work) (k : BitVec 8) (info : Nat) (cs : List Chk) =>
    let x := w.judge e (e.act.map fun l => (l, .fail k pc info cs)) .x clsCtrl 1 fun _ w => ⟨w, .gone, clsCtrl, 0⟩
    (x.w.charge e.ctx e.core clsCtrl 1).settle e.wid
  let info := l * 2 ^ 8 + 2 ^ 3
  match r with
  | .ok p => if w.badData p.key 8 then fail w Cause.dataerr (l * 2 ^ 8) [] else w
  | .fault k _ => fail w k info []
  | .refused t k p a => fail w Cause.protect info [.refused t k p a]
  | .page gr lv =>
    if ((w.wave e.wid).split e.entry).denied.contains gr then fail w Cause.memfault info []
    else (w.parkPages e [(gr, lv)] .x).settle e.wid

/-- A meaning for the current split that issues no bundle; a fault when there is no such split. -/
def forSplit (f : Cur → Work → Work) (s : State) : Host.Outcome State Fault Refusal :=
  match s.dev.sys.cur with
  | none => .fault .noIssuingSplit
  | some c =>
    if (mget? (mget s.dev.waves c.wid Wave.blank).entries c.entry).isNone then .fault .noIssuingSplit
    else commit (fun w => (f c w).settleNow c.wid) s

/-- FETCH_FAULT (R61). -/
def execFetchFault (s : State) : Host.Outcome State Fault Refusal := forSplit (fun c w => w.fetchFails c) s

/-- A TRAPPED split whose turn it is enters its handler, or halts its wave (R142). -/
def execTrapEntry (wid : Nat) (s : State) : Host.Outcome State Fault Refusal :=
  commit (fun w => w.tryTrap wid) s

/-- A split at the MPC of an enabled entry enters that entry's handler with the same lanes (R387); it takes no issue
slot. -/
def Work.enterMatch (w : Work) (c : Cur) : Work :=
  let v := w.wave c.wid
  let t := v.split c.entry
  match w.matchOf v t with
  | none => w
  | some (n, hpc) =>
    let v := v.setSplit c.entry { t with pc := hpc, handler := true, denied := [] }
    w.setWave c.wid { v with pmatch := some ⟨n, t.pc, t.mask⟩ }

/-- PC_MATCH_ENTRY (R387). -/
def execPcMatchEntry (s : State) : Host.Outcome State Fault Refusal := forSplit (fun c w => w.enterMatch c) s

end Sys2Proof.Machine
end

