-- ==== Sys2Proof/Machine/Alu.lean ====
section
/-! DEFINITION. Integer arithmetic, logic and bit fields on words (04 R85–R94). -/

namespace Sys2Proof.Machine

/-- The second operand of R66, sign-extended: arithmetic and ISET. -/
def Wave.opdS (v : Wave) (e : Iss) (o : Opd) (l : Nat) : Word :=
  match o with
  | .reg s => v.val e s.reg l
  | .imm i => sextTo 32 i
/-- The second operand of R66, zero-extended: logic and shifts. -/
def Wave.opdZ (v : Wave) (e : Iss) (o : Opd) (l : Nat) : Word :=
  match o with
  | .reg s => v.val e s.reg l
  | .imm i => i.setWidth 32
/-- The registers of that operand. -/
def opdUses (o : Opd) : List Use :=
  match o with
  | .reg s => [useOf s 1 1]
  | .imm _ => []

/-- The upper half of a product, signed or unsigned (R85). -/
def mulHigh (u : Bool) (a b : Word) : Word :=
  if u then ((a.setWidth 64 * b.setWidth 64 : DWord) >>> 32).setWidth 32
  else ((sextTo 64 a * sextTo 64 b : DWord) >>> 32).setWidth 32
/-- The smaller and the larger word (R85). -/
def minWord (u : Bool) (a b : Word) : Word := if u then (if a < b then a else b) else if a.slt b then a else b
def maxWord (u : Bool) (a b : Word) : Word := if u then (if b < a then a else b) else if b.slt a then a else b

/-- The product of two words as 64 bits (R87). -/
def mulWide (u : Bool) (a b : Word) : DWord :=
  if u then a.setWidth 64 * b.setWidth 64 else sextTo 64 a * sextTo 64 b

/-- Quotient, remainder and flag of a division that rounds toward zero (R88). -/
def divRem (u : Bool) (a b : Word) : Word × Word × BitVec 7 :=
  if b = 0 then (BitVec.allOnes 32, a, flagIDZ)
  else if u then (a / b, a % b, 0)
  else if a = 0x80000000 ∧ b = BitVec.allOnes 32 then (0x80000000, 0, 0)
  else (a.sdiv b, a.srem b, 0)

/-- The number of 1 bits (R89). -/
def onesOf (a : Word) : Word := BitVec.ofNat 32 (popcount a)
/-- The number of leading zeros (R89). -/
def leadingZeros (a : Word) : Word :=
  BitVec.ofNat 32 (((List.range 32).find? fun i => a.getLsbD (31 - i)).getD 32)
/-- The bits in reverse order (R89). -/
def reverseBits (a : Word) : Word := a.reverse

/-- Bits named by a shift's second operand (R90). -/
def shiftBy (b : Word) : Nat := b.toNat % 32
def rotL (a b : Word) : Word := a.rotateLeft (shiftBy b)

/-- The position and length of a field (R91): a length above 32 acts as 32. -/
def Wave.fieldSel (v : Wave) (e : Iss) (f : FieldSel) (l : Nat) : Nat × Nat :=
  match f with
  | .reg s =>
    let x := (v.val e s.reg l).toNat
    (x % 32, min 32 (bits x 13 8))
  | .imm pos len => (pos.toNat, min 32 len.toNat)
def fieldUses (f : FieldSel) : List Use :=
  match f with
  | .reg s => [useOf s 1 1]
  | .imm _ _ => []

/-- A field of a word (R91). -/
def extractField (s : Bool) (a : Word) (pos len : Nat) : Word :=
  let x : DWord := if s then sextTo 64 a else a.setWidth 64
  let f := (x >>> pos).toNat % 2 ^ len
  if s ∧ 0 < len ∧ bit f (len - 1) then BitVec.ofNat 32 (f + 2 ^ 32 - 2 ^ len) else BitVec.ofNat 32 f
/-- A field inserted into a word (R91). -/
def insertField (a c : Word) (pos len : Nat) : Word :=
  let m : Word := BitVec.ofNat 32 ((2 ^ len - 1) * 2 ^ pos)
  (c &&& ~~~m) ||| ((a <<< pos) &&& m)

/-- Byte `n` of a list of registers, little-endian. -/
def byteOf (rs : List Word) (n : Nat) : Byte := (rs.getD (n / 4) 0 >>> (8 * (n % 4))).setWidth 8
/-- A word of four bytes. -/
def wordOf (b0 b1 b2 b3 : Byte) : Word := b3 ++ b2 ++ b1 ++ b0

/-- A lookup of each byte's nibble in a 16-byte table (R92). -/
def permute (hi : Bool) (table : List Word) (b : Word) : Word :=
  let one := fun i => byteOf table ((b >>> (8 * i + if hi then 4 else 0)).toNat % 16)
  wordOf (one 0) (one 1) (one 2) (one 3)
/-- Bytes picked from two words, or cleared (R93). -/
def selectBytes (a b : Word) (sel : BitVec 16) : Word :=
  let one := fun i =>
    if sel.getLsbD (12 + i) then (0 : Byte) else byteOf [a, b] ((sel >>> (3 * i)).toNat % 8)
  wordOf (one 0) (one 1) (one 2) (one 3)

/-- A comparison (R94). -/
def compareWords (k : ICond) (u : Bool) (a b : Word) : Bool :=
  let lt := fun (x y : Word) => if u then decide (x < y) else x.slt y
  match k with
  | .eq => a == b
  | .ne => a != b
  | .lt => lt a b
  | .le => !lt b a
  | .gt => lt b a
  | .ge => !lt a b

end Sys2Proof.Machine
end

