-- ==== Sys2Proof/Machine/Integer.lean ====
section
/-! DEFINITION. Integer arithmetic, logic, compare, select and move (04 R85–R97). -/

namespace Sys2Proof.Machine

/-- A bundle with sources a and the second operand of R66, one result per lane. -/
def intTwo (g : Guard) (d : Reg) (a : Src) (b : Opd) (f : Iss → Wave → Nat → Word) (s : State) :
    Host.Outcome State Fault Refusal :=
  bundle g ⟨useOf a 1 0 :: opdUses b, some (d, 1)⟩ false (writes d clsInt fun e v l => [f e v l]) s

/-- A bundle with one source register, one result per lane. -/
def intOne (g : Guard) (d : Reg) (a : Src) (f : Word → Word) (s : State) : Host.Outcome State Fault Refusal :=
  bundle g ⟨[useOf a 1 0], some (d, 1)⟩ false (writes d clsInt fun e v l => [f (v.val e a.reg l)]) s

/-- A 64-bit value as the words of a pair, the even register first (R25). -/
def pairOf (x : DWord) : List Word := [x.lo, x.hi]

/-- IADD (R85): wraps modulo 2³². -/
def execIadd (g : Guard) (d : Reg) (a : Src) (b : Opd) (s : State) : Host.Outcome State Fault Refusal :=
  intTwo g d a b (fun e v l => v.val e a.reg l + v.opdS e b l) s

/-- ISUB (R85): wraps modulo 2³². -/
def execIsub (g : Guard) (d : Reg) (a : Src) (b : Opd) (s : State) : Host.Outcome State Fault Refusal :=
  intTwo g d a b (fun e v l => v.val e a.reg l - v.opdS e b l) s

/-- IMUL (R85): wraps modulo 2³². -/
def execImul (g : Guard) (d : Reg) (a : Src) (b : Opd) (s : State) : Host.Outcome State Fault Refusal :=
  intTwo g d a b (fun e v l => v.val e a.reg l * v.opdS e b l) s

/-- IMULH (R85). -/
def execImulh (g : Guard) (d : Reg) (a : Src) (b : Opd) (u : Bool) (s : State) : Host.Outcome State Fault Refusal :=
  intTwo g d a b (fun e v l => mulHigh u (v.val e a.reg l) (v.opdS e b l)) s

/-- IMIN (R85). -/
def execImin (g : Guard) (d : Reg) (a : Src) (b : Opd) (u : Bool) (s : State) : Host.Outcome State Fault Refusal :=
  intTwo g d a b (fun e v l => minWord u (v.val e a.reg l) (v.opdS e b l)) s

/-- IMAX (R85). -/
def execImax (g : Guard) (d : Reg) (a : Src) (b : Opd) (u : Bool) (s : State) : Host.Outcome State Fault Refusal :=
  intTwo g d a b (fun e v l => maxWord u (v.val e a.reg l) (v.opdS e b l)) s

/-- IMAD (R87): the low word of a × b + c. -/
def execImad (g : Guard) (d : Reg) (a b c : Src) (s : State) : Host.Outcome State Fault Refusal :=
  bundle g ⟨[useOf a 1 0, useOf b 1 1, useOf c 1 2], some (d, 1)⟩ false
    (writes d clsInt fun e v l => [v.val e a.reg l * v.val e b.reg l + v.val e c.reg l]) s

/-- The second operand of IADD64 (R86). -/
def Wave.opd64 (v : Wave) (e : Iss) (o : Opd64) (l : Nat) : DWord :=
  match o with
  | .pair s => v.val64 e s.reg l
  | .zx s => (v.val e s.reg l).setWidth 64
  | .sx s => sextTo 64 (v.val e s.reg l)
  | .imm i => sextTo 64 i
/-- Its registers. -/
def opd64Uses (o : Opd64) : List Use :=
  match o with
  | .pair s => [useOf s 2 1]
  | .zx s => [useOf s 1 1]
  | .sx s => [useOf s 1 1]
  | .imm _ => []

/-- IADD64 (R86): wraps modulo 2⁶⁴. -/
def execIadd64 (g : Guard) (d : Reg) (a : Src) (b : Opd64) (s : State) : Host.Outcome State Fault Refusal :=
  bundle g ⟨useOf a 2 0 :: opd64Uses b, some (d, 2)⟩ false
    (writes d clsInt fun e v l => pairOf (v.val64 e a.reg l + v.opd64 e b l)) s

/-- LEA (R86): a + (b << shift), b extended to 64 bits. -/
def execLea (g : Guard) (d : Reg) (a b : Src) (sx : Bool) (sh : BitVec 3) (s : State) : Host.Outcome State Fault Refusal :=
  bundle g ⟨[useOf a 2 0, useOf b 1 1], some (d, 2)⟩ false
    (writes d clsInt fun e v l =>
      let x : DWord := if sx then sextTo 64 (v.val e b.reg l) else (v.val e b.reg l).setWidth 64
      pairOf (v.val64 e a.reg l + (x <<< sh.toNat))) s

/-- IMADW (R87): the exact product of 64 bits plus c, which wraps. -/
def execImadw (g : Guard) (d : Reg) (a b c : Src) (u : Bool) (s : State) : Host.Outcome State Fault Refusal :=
  bundle g ⟨[useOf a 1 0, useOf b 1 1, useOf c 2 2], some (d, 2)⟩ false
    (writes d clsInt fun e v l => pairOf (mulWide u (v.val e a.reg l) (v.val e b.reg l) + v.val64 e c.reg l)) s

/-- IDIV (R88): a producer; the flag is set when the lane completes. -/
def execIdiv (g : Guard) (d : Reg) (a b : Src) (u : Bool) (s : State) : Host.Outcome State Fault Refusal :=
  bundle g ⟨[useOf a 1 0, useOf b 1 1], some (d, 1)⟩ false
    (produces d 1 .long clsSfu fun e v l =>
      let q := divRem u (v.val e a.reg l) (v.val e b.reg l)
      ([q.1], q.2.2)) s

/-- IREM (R88): a producer; the flag is set when the lane completes. -/
def execIrem (g : Guard) (d : Reg) (a b : Src) (u : Bool) (s : State) : Host.Outcome State Fault Refusal :=
  bundle g ⟨[useOf a 1 0, useOf b 1 1], some (d, 1)⟩ false
    (produces d 1 .long clsSfu fun e v l =>
      let q := divRem u (v.val e a.reg l) (v.val e b.reg l)
      ([q.2.1], q.2.2)) s

/-- IABS (R89). -/
def execIabs (g : Guard) (d : Reg) (a : Src) (s : State) : Host.Outcome State Fault Refusal :=
  intOne g d a (fun x => if x.msb then 0 - x else x) s

/-- INEG (R89). -/
def execIneg (g : Guard) (d : Reg) (a : Src) (s : State) : Host.Outcome State Fault Refusal :=
  intOne g d a (fun x => 0 - x) s

/-- NOT (R89). -/
def execNot (g : Guard) (d : Reg) (a : Src) (s : State) : Host.Outcome State Fault Refusal :=
  intOne g d a (fun x => ~~~x) s

/-- POPC (R89). -/
def execPopc (g : Guard) (d : Reg) (a : Src) (s : State) : Host.Outcome State Fault Refusal :=
  intOne g d a onesOf s

/-- CLZ (R89). -/
def execClz (g : Guard) (d : Reg) (a : Src) (s : State) : Host.Outcome State Fault Refusal :=
  intOne g d a leadingZeros s

/-- BREV (R89). -/
def execBrev (g : Guard) (d : Reg) (a : Src) (s : State) : Host.Outcome State Fault Refusal :=
  intOne g d a reverseBits s

/-- AND (R90). -/
def execAnd (g : Guard) (d : Reg) (a : Src) (b : Opd) (s : State) : Host.Outcome State Fault Refusal :=
  intTwo g d a b (fun e v l => v.val e a.reg l &&& v.opdZ e b l) s

/-- OR (R90). -/
def execOr (g : Guard) (d : Reg) (a : Src) (b : Opd) (s : State) : Host.Outcome State Fault Refusal :=
  intTwo g d a b (fun e v l => v.val e a.reg l ||| v.opdZ e b l) s

/-- XOR (R90). -/
def execXor (g : Guard) (d : Reg) (a : Src) (b : Opd) (s : State) : Host.Outcome State Fault Refusal :=
  intTwo g d a b (fun e v l => v.val e a.reg l ^^^ v.opdZ e b l) s

/-- ANDN (R90). -/
def execAndn (g : Guard) (d : Reg) (a : Src) (b : Opd) (s : State) : Host.Outcome State Fault Refusal :=
  intTwo g d a b (fun e v l => v.val e a.reg l &&& ~~~(v.opdZ e b l)) s

/-- SHL (R90): by the low five bits. -/
def execShl (g : Guard) (d : Reg) (a : Src) (b : Opd) (s : State) : Host.Outcome State Fault Refusal :=
  intTwo g d a b (fun e v l => v.val e a.reg l <<< shiftBy (v.opdZ e b l)) s

/-- SHR (R90). -/
def execShr (g : Guard) (d : Reg) (a : Src) (b : Opd) (s : State) : Host.Outcome State Fault Refusal :=
  intTwo g d a b (fun e v l => v.val e a.reg l >>> shiftBy (v.opdZ e b l)) s

/-- SAR (R90). -/
def execSar (g : Guard) (d : Reg) (a : Src) (b : Opd) (s : State) : Host.Outcome State Fault Refusal :=
  intTwo g d a b (fun e v l => (v.val e a.reg l).sshiftRight (shiftBy (v.opdZ e b l))) s

/-- ROTL (R90). -/
def execRotl (g : Guard) (d : Reg) (a : Src) (b : Opd) (s : State) : Host.Outcome State Fault Refusal :=
  intTwo g d a b (fun e v l => rotL (v.val e a.reg l) (v.opdZ e b l)) s

/-- BFX (R91). -/
def execBfx (g : Guard) (d : Reg) (a : Src) (f : FieldSel) (sg : Bool) (s : State) : Host.Outcome State Fault Refusal :=
  bundle g ⟨useOf a 1 0 :: fieldUses f, some (d, 1)⟩ false
    (writes d clsInt fun e v l =>
      let p := v.fieldSel e f l
      [extractField sg (v.val e a.reg l) p.1 p.2]) s

/-- BFI (R91). -/
def execBfi (g : Guard) (d : Reg) (a : Src) (f : FieldSel) (c : Src) (s : State) : Host.Outcome State Fault Refusal :=
  bundle g ⟨useOf a 1 0 :: (fieldUses f ++ [useOf c 1 2]), some (d, 1)⟩ false
    (writes d clsInt fun e v l =>
      let p := v.fieldSel e f l
      [insertField (v.val e a.reg l) (v.val e c.reg l) p.1 p.2]) s

/-- BPERM (R92). -/
def execBperm (g : Guard) (d : Reg) (a b : Src) (hi : Bool) (s : State) : Host.Outcome State Fault Refusal :=
  bundle g ⟨[useOf a 4 0, useOf b 1 1], some (d, 1)⟩ false
    (writes d clsInt fun e v l => [permute hi (v.vals e a.reg 4 l) (v.val e b.reg l)]) s

/-- BSEL (R93): bits above 15 of a register selector are ignored. -/
def execBsel (g : Guard) (d : Reg) (a b : Src) (sel : SelOpd) (s : State) : Host.Outcome State Fault Refusal :=
  let uses : List Use := match sel with
    | .reg c => [useOf c 1 2]
    | .imm _ => []
  bundle g ⟨useOf a 1 0 :: useOf b 1 1 :: uses, some (d, 1)⟩ false
    (writes d clsInt fun e v l =>
      let x : BitVec 16 := match sel with
        | .reg c => (v.val e c.reg l).setWidth 16
        | .imm i => i
      [selectBytes (v.val e a.reg l) (v.val e b.reg l) x]) s

/-- The effect of a bundle that writes a predicate. -/
def writesP (p : BitVec 3) (cls : Nat) (f : Iss → Wave → Nat → Bool) (e : Iss) (w : Work) : Eff :=
  let v := w.wave e.wid
  ⟨w.setWave e.wid (v.putPred e p (f e v)), .next, cls, 1⟩

/-- ISET (R94). -/
def execIset (g : Guard) (p : BitVec 3) (a : Src) (b : Opd) (cond : ICond) (u : Bool) (s : State) : Host.Outcome State Fault Refusal :=
  bundle g ⟨useOf a 1 0 :: opdUses b, none⟩ false
    (writesP p clsInt fun e v l => compareWords cond u (v.val e a.reg l) (v.opdS e b l)) s

/-- ISEL (R96): both sources are read. -/
def execIsel (g : Guard) (d : Reg) (a : Src) (b : Opd) (p : BitVec 3) (neg : Bool) (s : State) : Host.Outcome State Fault Refusal :=
  intTwo g d a b (fun e v l => if (v.lane l).pred p != neg then v.val e a.reg l else v.opdS e b l) s

/-- MOV (R97): a register, or a pair. -/
def execMov (g : Guard) (d : Reg) (a : Src) (wide : Bool) (s : State) : Host.Outcome State Fault Refusal :=
  let n := if wide then 2 else 1
  bundle g ⟨[useOf a n 0], some (d, n)⟩ false (writes d clsInt fun e v l => v.vals e a.reg n l) s

/-- MOVI (R67, R97). -/
def execMovi (g : Guard) (d : Reg) (x : Word) (s : State) : Host.Outcome State Fault Refusal :=
  bundle g ⟨[], some (d, 1)⟩ false (writes d clsInt fun _ _ _ => [x]) s

/-- A cross-lane read (R98): the reading split names the register, the source lane's window holds it, and a lane that has
exited supplies 0. -/
def Wave.cross (v : Wave) (e : Iss) (r : Reg) (src : Nat) : Word :=
  if (v.lane src).alive then v.val e r src else 0

/-- MOVK (R97): register a of one named lane, active or not. -/
def execMovk (g : Guard) (kd : BitVec 5) (a : VSrc) (lane : BitVec 5) (s : State) : Host.Outcome State Fault Refusal :=
  runBundle g ⟨[useOf a.src 1 0], some (.k kd, 1)⟩ false (fun _ _ f l => if f = 0 then lane.toNat else l)
    (writes (.k kd) clsInt fun e v _ => [v.cross e a.src.reg lane.toNat]) 1 s

/-- PSET (R95). -/
def execPset (g : Guard) (p pa : BitVec 3) (na : Bool) (pb : BitVec 3) (nb : Bool) (op : POp) (s : State) : Host.Outcome State Fault Refusal :=
  bundle g ⟨[], none⟩ false
    (writesP p clsInt fun _ v l =>
      let x := (v.lane l).pred pa != na
      let y := (v.lane l).pred pb != nb
      match op with
      | .and => x && y
      | .or => x || y
      | .xor => x != y) s

/-- A lane's predicates as a word: bit n holds pn, and bit 0 is 1 (R95). -/
def Lane.predWord (x : Lane) : Word := (x.preds ||| 1).setWidth 32
/-- Predicates p1–p7 taken from a word where a mask says so (R95). -/
def Lane.setPreds (x : Lane) (mask : BitVec 7) (y : Word) : Lane :=
  let m : BitVec 8 := mask ++ 0#1
  { x with preds := (x.preds &&& ~~~m) ||| (y.setWidth 8 &&& m) }

/-- PMOV (R95). -/
def execPmov (g : Guard) (m : PMov) (s : State) : Host.Outcome State Fault Refusal :=
  match m with
  | .get d => bundle g ⟨[], some (d, 1)⟩ false (writes d clsInt fun _ v l => [(v.lane l).predWord]) s
  | .put a mask => bundle g ⟨[useOf a 1 0], none⟩ false
      (fun e w => ⟨w.modWave e.wid fun v => e.act.foldl (fun v l =>
        { v with lanes := mmod v.lanes l Lane.blank fun x => x.setPreds mask (v.val e a.reg l) }) v, .next, clsInt, 1⟩) s

end Sys2Proof.Machine
end

