-- ==== Sys2Proof/Decode.lean ====
section
/-! DEFINITION. Bundles as bits: the two layouts, the decoder with the checks of R74 in their order, and the encoder. -/

namespace Sys2Proof

/-! ### The F-form's fields (R62) -/

/-- The fields of an F-form bundle. -/
structure FForm where
  opc : BitVec 8
  gn : Bool
  gp : BitVec 3
  d : BitVec 6
  a : BitVec 6
  b : BitVec 6
  c : BitVec 6
  ea : Bool
  eb : Bool
  ec : Bool
  mod : BitVec 4
  imm : BitVec 19
  deriving DecidableEq, Repr

/-- Bits `lo` to `lo + n − 1` of a word. -/
def fieldAt {w : Nat} (x : BitVec w) (lo n : Nat) : BitVec n := x.extractLsb' lo n

/-- The fields of a bundle (R62). -/
def FForm.ofBits (x : BitVec 64) : FForm where
  opc := fieldAt x 54 8
  gn := x.getLsbD 53
  gp := fieldAt x 50 3
  d := fieldAt x 44 6
  a := fieldAt x 38 6
  b := fieldAt x 32 6
  c := fieldAt x 26 6
  ea := x.getLsbD 25
  eb := x.getLsbD 24
  ec := x.getLsbD 23
  mod := fieldAt x 19 4
  imm := fieldAt x 0 19

/-- The bundle of some fields, KIND 0b00. -/
def FForm.toBits (r : FForm) : BitVec 64 :=
  0#2 ++ r.opc ++ BitVec.ofBool r.gn ++ r.gp ++ r.d ++ r.a ++ r.b ++ r.c ++ BitVec.ofBool r.ea ++ BitVec.ofBool r.eb
    ++ BitVec.ofBool r.ec ++ r.mod ++ r.imm

/-! ### Codes of the operands' types -/

/-- The register of a 6-bit specifier (R64). -/
def Reg.ofSpec (x : BitVec 6) : Reg := if x.getLsbD 5 then .k (fieldAt x 0 5) else .v (fieldAt x 0 5)
/-- The specifier of a register (R64). -/
def Reg.spec : Reg → BitVec 6
  | .v n => 0#1 ++ n
  | .k n => 1#1 ++ n

/-- Rounding modes by code (R37). -/
def RMode.ofCode (x : BitVec 2) : RMode :=
  match x.toNat with
  | 0 => .rn
  | 1 => .rz
  | 2 => .ru
  | _ => .rd
def RMode.code : RMode → BitVec 2
  | .rn => 0
  | .rz => 1
  | .ru => 2
  | .rd => 3

/-- MOD[3:1] as a rounding (R68). -/
def Rnd.ofCode (x : BitVec 3) : Option Rnd :=
  if x.getLsbD 0 then (if x = 1 then some .dyn else none) else some (.st (RMode.ofCode (fieldAt x 1 2)))
def Rnd.code : Rnd → BitVec 3
  | .dyn => 1
  | .st m => m.code ++ 0#1

/-- Widths by MOD (R69). -/
def Width.ofCode (x : BitVec 4) : Option Width :=
  match x.toNat with
  | 0 => some .u8
  | 1 => some .s8
  | 2 => some .u16
  | 3 => some .s16
  | 4 => some .b32
  | 5 => some .b64
  | 6 => some .b128
  | _ => none
def Width.code : Width → BitVec 4
  | .u8 => 0
  | .s8 => 1
  | .u16 => 2
  | .s16 => 3
  | .b32 => 4
  | .b64 => 5
  | .b128 => 6

/-- Spaces by IMM19[18:16] (R69). -/
def Space.ofCode (x : BitVec 3) : Option Space :=
  match x.toNat with
  | 0 => some .g
  | 1 => some .c
  | 2 => some .x
  | 3 => some .h
  | 4 => some .l
  | _ => none
def Space.code : Space → BitVec 3
  | .g => 0
  | .c => 1
  | .x => 2
  | .h => 3
  | .l => 4

/-- Conditions of ISET (R94). -/
def ICond.ofCode (x : BitVec 3) : Option ICond :=
  match x.toNat with
  | 0 => some .eq
  | 1 => some .ne
  | 2 => some .lt
  | 3 => some .le
  | 4 => some .gt
  | 5 => some .ge
  | _ => none
def ICond.code : ICond → BitVec 3
  | .eq => 0
  | .ne => 1
  | .lt => 2
  | .le => 3
  | .gt => 4
  | .ge => 5

/-- Conditions of FSET (R114). -/
def FCond.ofCode (x : BitVec 4) : Option FCond :=
  match x.toNat with
  | 0 => some .eq
  | 1 => some .ne
  | 2 => some .lt
  | 3 => some .le
  | 4 => some .gt
  | 5 => some .ge
  | 6 => some .num
  | 7 => some .nan
  | 8 => some .equ
  | 9 => some .ltu
  | 10 => some .leu
  | 11 => some .gtu
  | 12 => some .geu
  | _ => none
def FCond.code : FCond → BitVec 4
  | .eq => 0
  | .ne => 1
  | .lt => 2
  | .le => 3
  | .gt => 4
  | .ge => 5
  | .num => 6
  | .nan => 7
  | .equ => 8
  | .ltu => 9
  | .leu => 10
  | .gtu => 11
  | .geu => 12

/-- Operations of PSET (R95). -/
def POp.ofCode (x : BitVec 2) : Option POp :=
  match x.toNat with
  | 0 => some .and
  | 1 => some .or
  | 2 => some .xor
  | _ => none
def POp.code : POp → BitVec 2
  | .and => 0
  | .or => 1
  | .xor => 2

/-- Modes of SHFL (R99). -/
def ShMode.ofCode (x : BitVec 2) : ShMode :=
  match x.toNat with
  | 0 => .idx
  | 1 => .up
  | 2 => .down
  | _ => .xor
def ShMode.code : ShMode → BitVec 2
  | .idx => 0
  | .up => 1
  | .down => 2
  | .xor => 3

/-- Operations of REDUX (R100). -/
def RedOp.ofCode (x : BitVec 3) : RedOp :=
  match x.toNat with
  | 0 => .add
  | 1 => .min
  | 2 => .max
  | 3 => .minu
  | 4 => .maxu
  | 5 => .and
  | 6 => .or
  | _ => .xor
def RedOp.code : RedOp → BitVec 3
  | .add => 0
  | .min => 1
  | .max => 2
  | .minu => 3
  | .maxu => 4
  | .and => 5
  | .or => 6
  | .xor => 7

/-- Operations of ATOM and RED (R205). -/
def AOp.ofCode (x : BitVec 4) : Option AOp :=
  match x.toNat with
  | 0 => some .add
  | 1 => some .min
  | 2 => some .max
  | 3 => some .minu
  | 4 => some .maxu
  | 5 => some .and
  | 6 => some .or
  | 7 => some .xor
  | 8 => some .exch
  | 9 => some .cas
  | 10 => some .fadd
  | _ => none
def AOp.code : AOp → BitVec 4
  | .add => 0
  | .min => 1
  | .max => 2
  | .minu => 3
  | .maxu => 4
  | .and => 5
  | .or => 6
  | .xor => 7
  | .exch => 8
  | .cas => 9
  | .fadd => 10

/-- Scopes (R205, R208). -/
def Scope.ofCode (x : BitVec 3) : Option Scope :=
  match x.toNat with
  | 0 => some .wave
  | 1 => some .block
  | 2 => some .cluster
  | 3 => some .device
  | 4 => some .system
  | _ => none
def Scope.code : Scope → BitVec 3
  | .wave => 0
  | .block => 1
  | .cluster => 2
  | .device => 3
  | .system => 4

/-- Orderings of ATOM (R205). -/
def AOrd.ofCode (x : BitVec 2) : AOrd :=
  match x.toNat with
  | 0 => .rlx
  | 1 => .acq
  | 2 => .rel
  | _ => .acqrel
def AOrd.code : AOrd → BitVec 2
  | .rlx => 0
  | .acq => 1
  | .rel => 2
  | .acqrel => 3

/-- Kinds of FENCE (R208). -/
def FenceKind.ofCode (x : BitVec 2) : Option FenceKind :=
  match x.toNat with
  | 1 => some .acq
  | 2 => some .rel
  | 3 => some .full
  | _ => none
def FenceKind.code : FenceKind → BitVec 2
  | .acq => 1
  | .rel => 2
  | .full => 3

/-- Page sizes of ALLOC (R213). -/
def PageSize.ofCode (x : BitVec 2) : Option PageSize :=
  match x.toNat with
  | 0 => some .k64
  | 1 => some .m2
  | 2 => some .m64
  | _ => none
def PageSize.code : PageSize → BitVec 2
  | .k64 => 0
  | .m2 => 1
  | .m64 => 2

/-- Field identifiers of SHSET and SHGET (R234). -/
def ShField.ofCode (x : BitVec 5) : Option ShField :=
  match x.toNat with
  | 0 => some .base
  | 1 => some (.ext 0)
  | 2 => some (.ext 1)
  | 3 => some (.ext 2)
  | 4 => some (.ext 3)
  | 5 => some (.str 0)
  | 6 => some (.str 1)
  | 7 => some (.str 2)
  | 8 => some (.str 3)
  | 9 => some (.box 0)
  | 10 => some (.box 1)
  | 11 => some (.box 2)
  | 12 => some (.box 3)
  | 13 => some .ring
  | 14 => some .slotb
  | 15 => some .slots
  | 16 => some .rank
  | 17 => some .fslot
  | 18 => some .oob
  | 19 => some .alg
  | _ => none
def ShField.code : ShField → BitVec 5
  | .base => 0
  | .ext k => 1 + k.setWidth 5
  | .str k => 5 + k.setWidth 5
  | .box k => 9 + k.setWidth 5
  | .ring => 13
  | .slotb => 14
  | .slots => 15
  | .rank => 16
  | .fslot => 17
  | .oob => 18
  | .alg => 19

/-! ### Reading fields -/

/-- Whether a specifier stands within a class of `n` registers (R64). -/
def inClass (x : BitVec 6) (n : Nat) : Bool := decide (x.toNat < n)

/-- A check: FIELD comes before OPERAND (R74). -/
def chk (field operand : Bool) (i : Instr) : Except IllSub Instr :=
  if field then (if operand then .ok i else .error .operand) else .error .field

namespace FForm

def g (r : FForm) : Guard := ⟨r.gn, r.gp⟩
def srcA (r : FForm) : Src := ⟨Reg.ofSpec r.a, r.ea⟩
def srcB (r : FForm) : Src := ⟨Reg.ofSpec r.b, r.eb⟩
def srcC (r : FForm) : Src := ⟨Reg.ofSpec r.c, r.ec⟩
def dst (r : FForm) : Reg := Reg.ofSpec r.d
/-- Float sources with their flags in C (R68). -/
def fA (r : FForm) : FSrc := ⟨r.srcA, r.c.getLsbD 0, r.c.getLsbD 1⟩
def fB (r : FForm) : FSrc := ⟨r.srcB, r.c.getLsbD 2, r.c.getLsbD 3⟩
def m (r : FForm) (i : Nat) : Bool := r.mod.getLsbD i
def off (r : FForm) : BitVec 16 := fieldAt r.imm 0 16

/-- Fields that must be zero (R65). -/
def zG (r : FForm) : Bool := !r.gn && r.gp == 0
def zD (r : FForm) : Bool := r.d == 0
def zA (r : FForm) : Bool := r.a == 0 && !r.ea
def zB (r : FForm) : Bool := r.b == 0 && !r.eb
def zC (r : FForm) : Bool := r.c == 0 && !r.ec
def zM (r : FForm) : Bool := r.mod == 0
def zI (r : FForm) : Bool := r.imm == 0
/-- Bits `lo` and above of IMM19 are zero. -/
def zIfrom (r : FForm) (lo : Nat) : Bool := fieldAt r.imm lo (19 - lo) == 0

/-- Fields of the second operand of R66. -/
def opdF (r : FForm) : Bool := if r.m 3 then r.zB else r.zI
def opd (r : FForm) : Opd := if r.m 3 then .imm r.imm else .reg r.srcB

/-- Two-source integer operations: MOD[2:1] zero, MOD[0] zero unless the operation has .u (R85, R90). -/
def twoSrc (r : FForm) (hasU : Bool) (i : Instr) : Except IllSub Instr :=
  chk (r.zC && r.opdF && !r.m 2 && !r.m 1 && (hasU || !r.m 0)) true i
/-- One-source integer operations (R89). -/
def oneSrc (r : FForm) (i : Instr) : Except IllSub Instr := chk (r.zB && r.zC && r.zM && r.zI) true i

/-- Float operations with two sources and a rounding (R68, R112); `addend` allows C[5:4]. -/
def fTwo (r : FForm) (addend : Bool) (i : Rnd → Instr) : Except IllSub Instr :=
  match Rnd.ofCode (fieldAt r.mod 1 3) with
  | some x => chk (!r.ec && r.zI && (addend || fieldAt r.c 4 2 == 0)) (i x).wf (i x)
  | none => .error .field
/-- Float operations with one source and a rounding (R116). -/
def fOne (r : FForm) (i : Rnd → Instr) : Except IllSub Instr :=
  match Rnd.ofCode (fieldAt r.mod 1 3) with
  | some x => chk (r.zB && !r.ec && r.zI && fieldAt r.c 2 4 == 0) (i x).wf (i x)
  | none => .error .field
/-- Conversions with a rounding (R117–R119); the bits of IMM19 from `lo` up are zero. -/
def conv (r : FForm) (lo : Nat) (i : Rnd → Instr) : Except IllSub Instr :=
  match Rnd.ofCode (fieldAt r.mod 1 3) with
  | some x => chk (r.zB && r.zC && r.zIfrom lo) (i x).wf (i x)
  | none => .error .field
/-- The packed operations share the checks of `fTwo`, and need no alignment (R124). -/
def half2 (r : FForm) (addend : Bool) (i : Rnd → Instr) : Except IllSub Instr := r.fTwo addend i

/-- Barrier in D, present when MOD[1] is 1; a value out of its class is OPERAND. -/
def barD (r : FForm) : Option (BitVec 4) := if r.m 1 then some (fieldAt r.d 0 4) else none
def barDF (r : FForm) : Bool := r.m 1 || r.zD
def barDO (r : FForm) : Bool := !r.m 1 || inClass r.d 16

/-- The decoder of F-form bundles, by OPC (R75). -/
def decode (r : FForm) : Except IllSub Instr :=
  let g := r.g
  let d := r.dst
  let a := r.srcA
  let b := r.srcB
  let c := r.srcC
  let u := r.m 0
  match r.opc.toNat with
  | 0x00 => r.twoSrc false (.iadd g d a r.opd)
  | 0x01 => r.twoSrc false (.isub g d a r.opd)
  | 0x02 => r.twoSrc false (.imul g d a r.opd)
  | 0x03 => r.twoSrc true (.imulh g d a r.opd u)
  | 0x04 => chk (r.zM && r.zI) true (.imad g d a b c)
  | 0x05 =>
    let x : Opd64 := if r.m 3 then .imm r.imm
      else if r.m 0 then .zx b
      else if r.m 1 then .sx b
      else .pair b
    let i : Instr := .iadd64 g d a x
    chk (r.zC && r.opdF && !r.m 2 && !(r.m 3 && (r.m 0 || r.m 1)) && !(r.m 0 && r.m 1)) i.wf i
  | 0x06 => chk (r.zC && r.zI && fieldAt r.mod 1 3 == 0) true (.idiv g d a b u)
  | 0x07 => chk (r.zC && r.zI && fieldAt r.mod 1 3 == 0) true (.irem g d a b u)
  | 0x08 => r.twoSrc true (.imin g d a r.opd u)
  | 0x09 => r.twoSrc true (.imax g d a r.opd u)
  | 0x0A => r.oneSrc (.iabs g d a)
  | 0x0B => r.oneSrc (.ineg g d a)
  | 0x0C =>
    let i : Instr := .lea g d a b u (fieldAt r.imm 0 3)
    chk (r.zC && fieldAt r.mod 1 3 == 0 && r.zIfrom 3) i.wf i
  | 0x0D =>
    let i : Instr := .imadw g d a b c u
    chk (r.zI && fieldAt r.mod 1 3 == 0) i.wf i
  | 0x10 => r.twoSrc false (.and g d a r.opd)
  | 0x11 => r.twoSrc false (.or g d a r.opd)
  | 0x12 => r.twoSrc false (.xor g d a r.opd)
  | 0x13 => r.twoSrc false (.andn g d a r.opd)
  | 0x14 => r.oneSrc (.not g d a)
  | 0x15 => r.twoSrc false (.shl g d a r.opd)
  | 0x16 => r.twoSrc false (.shr g d a r.opd)
  | 0x17 => r.twoSrc false (.sar g d a r.opd)
  | 0x18 => r.twoSrc false (.rotl g d a r.opd)
  | 0x19 => r.oneSrc (.popc g d a)
  | 0x1A => r.oneSrc (.clz g d a)
  | 0x1B => r.oneSrc (.brev g d a)
  | 0x1C =>
    let f : FieldSel := if r.m 3 then .imm (fieldAt r.imm 0 5) (fieldAt r.imm 5 6) else .reg b
    let i : Instr := .bfx g d a f u
    chk (r.zC && r.opdF && !r.m 2 && !r.m 1 && (!r.m 3 || (r.zIfrom 11 && decide ((fieldAt r.imm 5 6).toNat ≤ 32))))
      true i
  | 0x1D =>
    let f : FieldSel := if r.m 3 then .imm (fieldAt r.imm 0 5) (fieldAt r.imm 5 6) else .reg b
    let i : Instr := .bfi g d a f c
    chk (r.opdF && !r.m 2 && !r.m 1 && !r.m 0
      && (!r.m 3 || (r.zIfrom 11 && decide ((fieldAt r.imm 5 6).toNat ≤ 32)))) true i
  | 0x1E =>
    let i : Instr := .bperm g d a b u
    chk (r.zC && r.zI && fieldAt r.mod 1 3 == 0) i.wf i
  | 0x1F =>
    let s : SelOpd := if r.m 3 then .imm r.off else .reg c
    chk (fieldAt r.mod 0 3 == 0 && if r.m 3 then r.zC && r.zIfrom 16 else r.zI) true (.bsel g d a b s)
  | 0x20 =>
    match ICond.ofCode (fieldAt r.mod 0 3) with
    | some k => chk (!r.ec && fieldAt r.c 1 5 == 0 && r.opdF) (inClass r.d 8)
        (.iset g (fieldAt r.d 0 3) a r.opd k (r.c.getLsbD 0))
    | none => .error .field
  | 0x21 => chk (!r.ec && fieldAt r.c 4 2 == 0 && r.opdF && fieldAt r.mod 0 3 == 0) true
      (.isel g d a r.opd (fieldAt r.c 0 3) (r.c.getLsbD 3))
  | 0x22 =>
    let i : Instr := .mov g d a u
    chk (r.zB && r.zC && r.zI && fieldAt r.mod 1 3 == 0) i.wf i
  | 0x23 => chk (r.zA && !r.eb && !r.ec && fieldAt r.mod 1 3 == 0) true
      (.movi g d (BitVec.ofBool u ++ r.b ++ r.c ++ r.imm))
  | 0x24 => chk (r.zB && r.zC && r.zM && r.zIfrom 5) (d.isK && !(Reg.ofSpec r.a).isK)
      (.movk g (fieldAt r.d 0 5) ⟨fieldAt r.a 0 5, r.ea⟩ (fieldAt r.imm 0 5))
  | 0x25 =>
    match POp.ofCode (fieldAt r.mod 0 2) with
    | some k => chk (!r.ea && !r.eb && !r.ec && fieldAt r.c 2 4 == 0 && fieldAt r.mod 2 2 == 0 && r.zI)
        (inClass r.d 8 && inClass r.a 8 && inClass r.b 8)
        (.pset g (fieldAt r.d 0 3) (fieldAt r.a 0 3) (r.c.getLsbD 0) (fieldAt r.b 0 3) (r.c.getLsbD 1) k)
    | none => .error .field
  | 0x26 =>
    if u then chk (r.zD && r.zB && r.zC && fieldAt r.mod 1 3 == 0 && fieldAt r.imm 0 1 == 0 && r.zIfrom 8) true
        (.pmov g (.put a (fieldAt r.imm 1 7)))
    else chk (r.zA && r.zB && r.zC && fieldAt r.mod 1 3 == 0 && r.zI) true (.pmov g (.get d))
  | 0x30 =>
    let n : LaneOpd := if r.m 3 then .imm (fieldAt r.imm 0 5) else .reg b
    chk (!r.ec && fieldAt r.c 3 3 == 0 && decide ((fieldAt r.c 0 3).toNat ≤ 5) && !r.m 2
        && if r.m 3 then r.zB && r.zIfrom 5 else r.zI) (!(Reg.ofSpec r.a).isK)
      (.shfl g d ⟨fieldAt r.a 0 5, r.ea⟩ n (fieldAt r.c 0 3) (ShMode.ofCode (fieldAt r.mod 0 2)))
  | 0x31 =>
    let p := fieldAt r.a 0 3
    let n := r.a.getLsbD 3
    let f := !r.ea && r.zB && r.zC && r.zI && fieldAt r.a 4 2 == 0 && !r.m 3
    match (fieldAt r.mod 0 3).toNat with
    | 0 => chk f (inClass r.d 8) (.vote g (.all (fieldAt r.d 0 3)) p n)
    | 1 => chk f (inClass r.d 8) (.vote g (.any (fieldAt r.d 0 3)) p n)
    | 2 => chk f true (.vote g (.ballot d) p n)
    | _ => .error .field
  | 0x32 => chk (r.zB && r.zC && r.zI && !r.m 3) (!(Reg.ofSpec r.a).isK)
      (.redux g d ⟨fieldAt r.a 0 5, r.ea⟩ (RedOp.ofCode (fieldAt r.mod 0 3)))
  | 0x40 => r.fTwo false fun x => .fadd g u x d r.fA r.fB
  | 0x41 => r.fTwo false fun x => .fsub g u x d r.fA r.fB
  | 0x42 => r.fTwo false fun x => .fmul g u x d r.fA r.fB
  | 0x43 => r.fTwo true fun x => .ffma g u x d (r.c.getLsbD 4) (r.c.getLsbD 5) r.fA r.fB
  | 0x44 =>
    let i : Instr := .fmin g u d r.fA r.fB
    chk (!r.ec && r.zI && fieldAt r.c 4 2 == 0 && fieldAt r.mod 1 3 == 0) i.wf i
  | 0x45 =>
    let i : Instr := .fmax g u d r.fA r.fB
    chk (!r.ec && r.zI && fieldAt r.c 4 2 == 0 && fieldAt r.mod 1 3 == 0) i.wf i
  | 0x46 =>
    match FCond.ofCode (fieldAt r.imm 0 4) with
    | some k =>
      let i : Instr := .fset g u (fieldAt r.d 0 3) r.fA r.fB k (r.imm.getLsbD 4)
      chk (!r.ec && fieldAt r.c 4 2 == 0 && fieldAt r.mod 1 3 == 0 && r.zIfrom 5) (inClass r.d 8 && i.wf) i
    | none => .error .field
  | 0x47 => r.fTwo false fun x => .fdiv g u x d r.fA r.fB
  | 0x48 => r.fOne fun x => .fsqrt g u x d r.fA
  | 0x49 => r.fOne fun x => .frcp g u x d r.fA
  | 0x4A => r.fOne fun x => .frsq g u x d r.fA
  | 0x4B => r.fOne fun x => .fexp2 g u x d r.fA
  | 0x4C => r.fOne fun x => .flog2 g u x d r.fA
  | 0x4D => r.fOne fun x => .fsin g u x d r.fA
  | 0x4E => r.fOne fun x => .fcos g u x d r.fA
  | 0x4F =>
    let i : Instr := .fclass g u d r.fA
    chk (r.zB && !r.ec && fieldAt r.c 2 4 == 0 && fieldAt r.mod 1 3 == 0 && r.zI) i.wf i
  | 0x50 => r.conv 0 fun x => .frnd g u x d a
  | 0x51 => r.conv 2 fun x => .f2i g u x d a (fieldAt r.imm 0 2)
  | 0x52 => r.conv 2 fun x => .i2f g u x d a (fieldAt r.imm 0 2)
  | 0x53 =>
    if !u && fieldAt r.mod 1 3 != 0 then .error .field else r.conv 0 fun x => .f2f g u x d a
  | 0x54 => chk (r.zB && r.zC && fieldAt r.mod 1 3 == 0 && r.zIfrom 3) true (.cvt g u d a (fieldAt r.imm 0 3))
  | 0x55 => chk (r.zB && r.zC && r.zM && r.zIfrom 3) true (.cvtp g d a (fieldAt r.imm 0 3))
  | 0x56 => chk (r.zB && r.zC && r.zM && r.zIfrom 3) true (.cvtu g d a (fieldAt r.imm 0 3))
  | 0x57 => chk (r.zD && r.zA && r.zB && r.zC && r.zM && r.zI) true (.tfence g)
  | 0x60 => r.half2 false fun x => .hadd2 g u x d r.fA r.fB
  | 0x61 => r.half2 false fun x => .hmul2 g u x d r.fA r.fB
  | 0x62 => r.half2 true fun x => .hfma2 g u x d (r.c.getLsbD 4) (r.c.getLsbD 5) r.fA r.fB
  | 0x63 =>
    match Rnd.ofCode (fieldAt r.mod 1 3) with
    | some x => chk (r.zC && !u && r.zIfrom 2) true (.almul g x d a b (fieldAt r.imm 0 2))
    | none => .error .field
  | 0x64 =>
    match Rnd.ofCode (fieldAt r.mod 1 3) with
    | some x => chk (r.zC && !u && r.zIfrom 2) true (.almac g x d a b (fieldAt r.imm 0 2))
    | none => .error .field
  | 0x65 => chk (r.zB && r.zC && r.zM && r.zIfrom 2) true (.alconj g d a (fieldAt r.imm 0 2))
  | 0x66 =>
    match Rnd.ofCode (fieldAt r.mod 1 3) with
    | some x => chk (r.zB && r.zC && !u && r.zIfrom 2) true (.alnorm g x d a (fieldAt r.imm 0 2))
    | none => .error .field
  | 0x67 =>
    let i : Instr := .altab g (fieldAt r.d 0 2) a r.off
    chk (r.zB && r.zC && r.zM && r.zIfrom 16) (inClass r.d 4 && i.wf) i
  | 0x70 => chk (r.zD && r.zA && r.zB && r.zC && r.zM) true (.bra g r.imm)
  | 0x71 =>
    let i : Instr := .brx g a r.imm
    chk (r.zD && r.zB && r.zC && r.zM) i.wf i
  | 0x72 => chk (r.zD && r.zA && r.zB && r.zC && r.zM) true (.call g r.imm)
  | 0x73 =>
    let i : Instr := .callx g a r.imm
    chk (r.zD && r.zB && r.zC && r.zM) i.wf i
  | 0x74 => chk (r.zD && r.zA && r.zB && r.zC && r.zM && r.zI) true (.ret g)
  | 0x75 => chk (r.zD && r.zA && r.zB && r.zC && r.zM && r.zI) true (.exit g)
  | 0x76 => chk (r.zG && r.zD && r.zA && r.zB && r.zC && r.zM && r.zI) true .merge
  | 0x77 => chk (r.zG && r.zD && r.zA && r.zB && r.zC && r.zM && r.zI) true .yield
  | 0x78 => chk (r.zD && r.zA && r.zB && r.zC && r.zM && r.zI) true (.nop g)
  | 0x79 => chk (r.zD && r.zA && r.zB && r.zC && r.zM) true (.trap g r.imm)
  | 0x7A => chk (r.zG && r.zD && r.zA && r.zB && r.zC && r.zM && r.zI) true .rtt
  | 0x7B => chk (r.zG && r.zD && r.zA && r.zB && r.zC && r.zM && r.zI) true .rts
  | 0x7C => chk (r.zD && r.zA && r.zB && r.zC && r.zM) true (.brk g r.imm)
  | 0x80 =>
    match Width.ofCode r.mod, Space.ofCode (fieldAt r.imm 16 3) with
    | some w, some sp =>
      let i : Instr := .ld g d a w sp r.off
      chk (r.zB && r.zC) i.wf i
    | _, _ => .error .field
  | 0x81 =>
    match Width.ofCode r.mod, Space.ofCode (fieldAt r.imm 16 3) with
    | some w, some sp =>
      let i : Instr := .st g a b w sp r.off
      chk (r.zD && r.zC && w != .s8 && w != .s16) i.wf i
    | _, _ => .error .field
  | 0x82 =>
    match Width.ofCode r.mod with
    | some w =>
      let i : Instr := .ldr g d a w r.off
      chk (r.zB && r.zC && r.zIfrom 16) i.wf i
    | none => .error .field
  | 0x83 =>
    match Width.ofCode r.mod, Space.ofCode (fieldAt r.imm 16 3) with
    | some w, some sp =>
      let i : Instr := .gath g d a w sp r.off (fieldAt r.c 0 2)
      chk (r.zB && !r.ec && fieldAt r.c 2 4 == 0) i.wf i
    | _, _ => .error .field
  | 0x84 =>
    match Width.ofCode r.mod, Space.ofCode (fieldAt r.imm 16 3) with
    | some w, some sp =>
      let i : Instr := .scat g a b w sp r.off (fieldAt r.c 0 2)
      chk (r.zD && !r.ec && fieldAt r.c 2 4 == 0 && w != .s8 && w != .s16) i.wf i
    | _, _ => .error .field
  | 0x85 =>
    let i : Instr := .pref g a u r.off
    chk (r.zD && r.zB && r.zC && fieldAt r.mod 1 3 == 0 && r.zIfrom 16) i.wf i
  | 0x90 =>
    match AOp.ofCode r.mod, Space.ofCode (fieldAt r.imm 16 3), Scope.ofCode (fieldAt r.imm 12 3) with
    | some op, some sp, some k =>
      let i : Instr := .atom g op d a b (if op = .cas then some c else none) (r.imm.getLsbD 15) k
        (AOrd.ofCode (fieldAt r.imm 10 2)) sp
      chk ((op == .cas || r.zC) && sp != .l && fieldAt r.imm 0 10 == 0) i.wf i
    | _, _, _ => .error .field
  | 0x91 =>
    match AOp.ofCode r.mod, Space.ofCode (fieldAt r.imm 16 3), Scope.ofCode (fieldAt r.imm 12 3) with
    | some op, some sp, some k =>
      let i : Instr := .red g op a b (r.imm.getLsbD 15) k (r.imm.getLsbD 11) sp
      chk (r.zD && r.zC && op != .exch && op != .cas && sp != .l && !r.imm.getLsbD 10 && fieldAt r.imm 0 10 == 0) i.wf i
    | _, _, _ => .error .field
  | 0x92 =>
    match FenceKind.ofCode (fieldAt r.mod 0 2), Scope.ofCode (fieldAt r.imm 0 3) with
    | some k, some sc => chk (r.zD && r.zA && r.zB && r.zC && fieldAt r.mod 2 2 == 0 && r.zIfrom 3) true (.fence g k sc)
    | _, _ => .error .field
  | 0x93 => chk (r.zD && r.zA && r.zB && r.zC && r.zM && r.zI) true (.ifence g)
  | 0x94 => chk (r.zD && r.zA && r.zB && r.zC && r.zM && r.zI) true (.roinv g)
  | 0x95 =>
    let i : Instr := .clrset g a b c
    chk (r.zD && r.zM && r.zI) i.wf i
  | 0x96 =>
    let i : Instr := .clrget g d a r.off
    chk (r.zB && r.zC && r.zM && r.zIfrom 16) i.wf i
  | 0x97 => r.oneSrc (.monq g d a)
  | 0x98 =>
    match PageSize.ofCode (fieldAt r.mod 0 2) with
    | some pg =>
      let i : Instr := .alloc g d a pg
      chk (r.zB && r.zC && fieldAt r.mod 2 2 == 0 && r.zI) i.wf i
    | none => .error .field
  | 0x99 =>
    let i : Instr := .free g a
    chk (r.zD && r.zB && r.zC && r.zM && r.zI) i.wf i
  | 0xA0 => chk (fieldAt r.mod 2 2 == 0 && r.zI) (a.reg.isK && b.reg.isK && c.reg.isK)
      (.wait g d ⟨fieldAt r.a 0 5, r.ea⟩ ⟨fieldAt r.b 0 5, r.eb⟩ ⟨fieldAt r.c 0 5, r.ec⟩ u (r.m 1))
  | 0xA1 =>
    let o : BariOpd := if r.m 3 then .imm r.off (fieldAt r.imm 16 3) else .reg a
    chk (r.zB && r.zC && fieldAt r.mod 0 3 == 0 && if r.m 3 then r.zA else r.zI) (inClass r.d 16)
      (.bari g (fieldAt r.d 0 4) o)
  | 0xA2 => chk (!r.ea && r.zB && r.zC && fieldAt r.mod 1 3 == 0 && r.zI) (inClass r.a 16)
      (.bara g d (fieldAt r.a 0 4) u)
  | 0xA3 => chk (!r.ea && r.zB && r.zC && r.zM && r.zI) (inClass r.a 16) (.barq g d (fieldAt r.a 0 4))
  | 0xA4 =>
    let i : Instr := .cpa g a b (if r.m 3 then none else some c) (fieldAt r.mod 0 2) r.off
    chk (r.zD && (!r.m 3 || r.zC) && !r.m 2 && r.zIfrom 16) i.wf i
  | 0xA5 =>
    let i : Instr := .bcopy g u (fieldAt r.a 0 4) (fieldAt r.imm 4 4) (fieldAt r.imm 0 4) r.barD
      (if r.m 2 then some b else none)
    chk (r.barDF && !r.ea && (r.m 2 || r.zB) && r.zC && !r.m 3 && r.zIfrom 8
        && decide ((fieldAt r.imm 0 4).toNat ≤ (fieldAt r.imm 4 4).toNat)) (r.barDO && inClass r.a 16 && i.wf) i
  | 0xA6 => chk (r.barDF && r.zC && fieldAt r.mod 2 2 == 0 && !u && r.zIfrom 8 && fieldAt r.imm 0 8 != 0) r.barDO
      (.mcast g a b (fieldAt r.imm 0 8) r.barD)
  | 0xA7 => chk (r.zD && r.zA && r.zB && r.zC && r.zM && r.zIfrom 7 && fieldAt r.imm 3 4 != 0) true
      (.slotf g (fieldAt r.imm 0 3) (fieldAt r.imm 3 4))
  | 0xB0 =>
    let i : Instr := .shld g (fieldAt r.d 0 4) a (r.imm.getLsbD 16) r.off
    chk (r.zB && r.zC && r.zM && r.zIfrom 17) (inClass r.d 16 && i.wf) i
  | 0xB1 =>
    let i : Instr := .shst g (fieldAt r.d 0 4) a (r.imm.getLsbD 16) r.off
    chk (r.zB && r.zC && r.zM && r.zIfrom 17) (inClass r.d 16 && i.wf) i
  | 0xB2 =>
    match ShField.ofCode (fieldAt r.imm 0 5) with
    | some f =>
      let i : Instr := .shset g (fieldAt r.d 0 4) f a
      chk (r.zB && r.zC && r.zM && r.zIfrom 5) (inClass r.d 16 && i.wf) i
    | none => .error .field
  | 0xB3 =>
    match ShField.ofCode (fieldAt r.imm 0 5) with
    | some f =>
      let i : Instr := .shget g d (fieldAt r.a 0 4) f
      chk (!r.ea && r.zB && r.zC && r.zM && r.zIfrom 5) (inClass r.a 16 && i.wf) i
    | none => .error .field
  | 0xB4 =>
    let i : Instr := .strm g u (fieldAt r.imm 0 2) (fieldAt r.a 0 4) r.barD (if r.m 2 then some b else none)
    chk (r.barDF && !r.ea && (r.m 2 || r.zB) && r.zC && !r.m 3 && r.zIfrom 2) (r.barDO && inClass r.a 16 && i.wf) i
  | 0xB5 => chk (r.zA && r.zB && r.zC && r.zM && r.zIfrom 2) true (.strmq g d (fieldAt r.imm 0 2))
  | 0xB6 => chk (r.zD && r.zA && r.zB && r.zC && r.zM && r.zIfrom 2) true (.rsig g (fieldAt r.imm 0 2))
  | 0xC0 => chk (!r.ea && r.zC && fieldAt r.mod 2 2 == 0 && r.zIfrom 3) (inClass r.d 2 && inClass r.a 16)
      (.mma g u (r.m 1) (r.d.getLsbD 0) (fieldAt r.a 0 4) b (fieldAt r.imm 0 3))
  | 0xC1 => chk (r.zA && r.zB && r.zC && fieldAt r.mod 2 2 == 0 && !u && r.zI) (inClass r.d 2)
      (.mzero g (r.m 1) (r.d.getLsbD 0))
  | 0xC2 =>
    let i : Instr := .bld g (fieldAt r.a 0 4) b r.barD (if r.m 2 then some c else none)
    chk (r.barDF && !r.ea && (r.m 2 || r.zC) && !r.m 3 && !u && r.zI) (r.barDO && inClass r.a 16 && i.wf) i
  | 0xC3 =>
    let res := r.imm.getLsbD 4
    let i : Instr := .mdrain g u (r.m 3) (r.d.getLsbD 0) (fieldAt r.a 0 4)
      (if res then some (fieldAt r.b 0 4) else none) (if r.m 1 then some (fieldAt r.imm 0 4) else none)
      (if r.m 2 then some c else none)
    chk (!r.ea && !r.eb && (res || r.b == 0) && (r.m 2 || r.zC) && r.zIfrom 5 && (r.m 1 || fieldAt r.imm 0 4 == 0))
      (inClass r.d 2 && inClass r.a 16 && (!res || inClass r.b 16) && i.wf) i
  | 0xC4 =>
    let i : Instr := .epil g a (r.imm.getLsbD 16) r.off
    chk (r.zD && r.zB && r.zC && r.zM && r.zIfrom 17) i.wf i
  | 0xC5 => chk (r.zA && r.zB && r.zC && r.zM && r.zI) true (.mq g d)
  | 0xD0 =>
    let dom := fieldAt r.imm 0 4
    let i : Instr := .spawn g (fieldAt r.mod 0 2) a b (if dom = 0 then none else some (dom, c))
    chk (r.zD && (dom != 0 || r.zC) && fieldAt r.mod 2 2 == 0 && r.zIfrom 4) i.wf i
  | 0xD1 =>
    let i : Instr := .spawnf g (fieldAt r.mod 0 2) a b c (fieldAt r.imm 0 2)
    chk (r.zD && fieldAt r.mod 2 2 == 0 && r.zIfrom 2) i.wf i
  | 0xD2 =>
    let i : Instr := .futnew g a r.off
    chk (r.zD && r.zB && r.zC && r.zM && r.zIfrom 16) i.wf i
  | 0xD3 =>
    let i : Instr := .futres g u a b r.off
    chk (r.zD && r.zC && fieldAt r.mod 1 3 == 0 && r.zIfrom 16) i.wf i
  | 0xD4 =>
    let i : Instr := .futget g d a r.off
    chk (r.zB && r.zC && r.zM && r.zIfrom 16) i.wf i
  | 0xD5 => chk (r.zA && r.zB && r.zC && r.zM && r.zI) true (.tself g d)
  | 0xD6 => chk (r.zD && r.zA && r.zB && r.zC && fieldAt r.mod 1 3 == 0 && r.zI) true (.tabort g u)
  | 0xD7 => chk (r.zD && r.zA && r.zB && r.zC && r.zM && r.zI) true (.tirrev g)
  | 0xE0 =>
    let i : Instr := .csrr g d (fieldAt r.imm 0 12)
    chk (r.zA && r.zB && r.zC && r.zM && r.zIfrom 12) i.wf i
  | 0xE1 =>
    let i : Instr := .csrw g (fieldAt r.imm 0 12) a
    chk (r.zD && r.zB && r.zC && r.zM && r.zIfrom 12) i.wf i
  | 0xE2 => chk (r.zD && r.zB && r.zC && r.zM && r.zIfrom 16) true (.evt g a r.off)
  | n => .error (if 0xF0 ≤ n then .future else .reserved)

end FForm

/-! ### Pair bundles (R70 to R73) -/

/-- The fields of a half. -/
structure HForm where
  op : BitVec 6
  d : BitVec 6
  a : BitVec 6
  x : BitVec 13
  deriving DecidableEq, Repr

/-- The fields of a 31-bit half. -/
def HForm.ofBits (h : BitVec 31) : HForm := ⟨fieldAt h 25 6, fieldAt h 19 6, fieldAt h 13 6, fieldAt h 0 13⟩
/-- The 31 bits of a half. -/
def HForm.toBits (h : HForm) : BitVec 31 := h.op ++ h.d ++ h.a ++ h.x

/-- Halves that read d and a, by code (R72). -/
def HRR.ofCode (n : Nat) : Option HRR :=
  match n with
  | 0x01 => some .iadd
  | 0x03 => some .isub
  | 0x04 => some .imul
  | 0x05 => some .and
  | 0x06 => some .or
  | 0x07 => some .xor
  | 0x0B => some .mov
  | 0x0D => some .imin
  | 0x0E => some .imax
  | 0x0F => some .fadd
  | 0x10 => some .fsub
  | 0x11 => some .fmul
  | 0x12 => some .fmin
  | 0x13 => some .fmax
  | _ => none
def HRR.code : HRR → BitVec 6
  | .iadd => 0x01
  | .isub => 0x03
  | .imul => 0x04
  | .and => 0x05
  | .or => 0x06
  | .xor => 0x07
  | .mov => 0x0B
  | .imin => 0x0D
  | .imax => 0x0E
  | .fadd => 0x0F
  | .fsub => 0x10
  | .fmul => 0x11
  | .fmin => 0x12
  | .fmax => 0x13

/-- Halves that shift by an immediate, by code (R72). -/
def HSh.ofCode (n : Nat) : Option HSh :=
  match n with
  | 0x08 => some .shl
  | 0x09 => some .shr
  | 0x0A => some .sar
  | _ => none
def HSh.code : HSh → BitVec 6
  | .shl => 0x08
  | .shr => 0x09
  | .sar => 0x0A

/-- Halves that take the 13-bit immediate, by code (R72). -/
def HRI.ofCode (n : Nat) : Option HRI :=
  match n with
  | 0x02 => some .iadd
  | 0x0C => some .movi
  | 0x15 => some .and
  | 0x16 => some .or
  | 0x17 => some .xor
  | _ => none
def HRI.code : HRI → BitVec 6
  | .iadd => 0x02
  | .movi => 0x0C
  | .and => 0x15
  | .or => 0x16
  | .xor => 0x17

/-- A half from its fields, with its FIELD and OPERAND checks; none for a reserved code (R72). -/
def HForm.half (h : HForm) : Option (Bool × Bool × Half) :=
  let n := h.op.toNat
  let d := Reg.ofSpec h.d
  let a := Reg.ofSpec h.a
  if n = 0 then some (h.d == 0 && h.a == 0 && h.x == 0, true, .nop)
  else if n = 0x14 then some (fieldAt h.x 5 8 == 0, !a.isK, .shfl d (fieldAt h.a 0 5) (fieldAt h.x 0 5))
  else match HRR.ofCode n with
    | some op => some (h.x == 0, true, .rr op d a)
    | none => match HSh.ofCode n with
      | some op => some (h.a == 0 && fieldAt h.x 5 8 == 0, true, .sh op d (fieldAt h.x 0 5))
      | none => match HRI.ofCode n with
        | some op => some (h.a == 0, true, .ri op d h.x)
        | none => none

/-- The fields of a half instruction. -/
def Half.form : Half → HForm
  | .nop => ⟨0, 0, 0, 0⟩
  | .rr op d a => ⟨op.code, d.spec, a.spec, 0⟩
  | .sh op d n => ⟨op.code, d.spec, 0, 0#8 ++ n⟩
  | .ri op d x => ⟨op.code, d.spec, 0, x⟩
  | .shfl d a n => ⟨0x14, d.spec, 0#1 ++ a, 0#8 ++ n⟩

/-- Why a bundle is refused (R74): the subclass and, for a pair, the slot that failed first. -/
structure Reject where
  sub : IllSub
  pair : Bool
  slot : Bool
  deriving DecidableEq, Repr

/-- The decoder of pair bundles: each level is checked for both halves before the next (R74). -/
def decodePair (x y : HForm) : Except Reject Instr :=
  match x.half, y.half with
  | none, _ => .error ⟨.reserved, true, false⟩
  | _, none => .error ⟨.reserved, true, true⟩
  | some (fx, ox, hx), some (fy, oy, hy) =>
    if !fx then .error ⟨.field, true, false⟩
    else if !fy then .error ⟨.field, true, true⟩
    else if !ox then .error ⟨.operand, true, false⟩
    else if !oy then .error ⟨.operand, true, true⟩
    else if pairOk hx hy then .ok (.pairBundle hx hy)
    else .error ⟨.pair, true, false⟩

/-! ### The decoder -/

/-- The instruction of a bundle, or why it is refused (R61, R74). -/
def decode (x : BitVec 64) : Except Reject Instr :=
  if x.getLsbD 63 then .error ⟨.future, false, false⟩
  else if x.getLsbD 62 then decodePair (HForm.ofBits (fieldAt x 31 31)) (HForm.ofBits (fieldAt x 0 31))
  else match (FForm.ofBits x).decode with
    | .ok i => .ok i
    | .error e => .error ⟨e, false, false⟩

/-- The 64-bit bundle of eight bytes, the first at the lowest address (R61). -/
def bundleOf (bs : List Byte) : BitVec 64 :=
  let at_ := fun i => bs.getD i 0
  at_ 7 ++ at_ 6 ++ at_ 5 ++ at_ 4 ++ at_ 3 ++ at_ 2 ++ at_ 1 ++ at_ 0

/-- The bytes of a bundle, the first at the lowest address (R61). -/
def bytesOf (x : BitVec 64) : List Byte :=
  [fieldAt x 0 8, fieldAt x 8 8, fieldAt x 16 8, fieldAt x 24 8, fieldAt x 32 8, fieldAt x 40 8, fieldAt x 48 8,
    fieldAt x 56 8]

/-- The decoder on bytes: eight of them make a bundle, and the rest is left. -/
def decodeBytes (bs : List Byte) : Except Reject Instr × List Byte := (decode (bundleOf bs), bs.drop 8)

/-- What the decoder reads from a row's bits, laid out as code stores them; every bundle is 64 bits. -/
def decodeTableWord (nbits w : Nat) : Option Instr :=
  match (decodeBytes (bytesOf (BitVec.ofNat 64 (w % 2 ^ nbits)))).1 with
  | .ok i => some i
  | .error _ => none

/-! ### The encoder -/

/-- Four MOD bits. -/
def mod4 (b3 b2 b1 b0 : Bool) : BitVec 4 :=
  BitVec.ofBool b3 ++ BitVec.ofBool b2 ++ BitVec.ofBool b1 ++ BitVec.ofBool b0
/-- A rounding with the format bit as MOD (R68). -/
def modR (r : Rnd) (b : Bool) : BitVec 4 := r.code ++ BitVec.ofBool b

/-- An F-form with only its opcode and guard. -/
def FForm.base (opc : BitVec 8) (g : Guard) : FForm :=
  ⟨opc, g.neg, g.p, 0, 0, 0, 0, false, false, false, 0, 0⟩

namespace FForm
def withD (r : FForm) (d : Reg) : FForm := { r with d := d.spec }
def withA (r : FForm) (a : Src) : FForm := { r with a := a.reg.spec, ea := a.trap }
def withB (r : FForm) (b : Src) : FForm := { r with b := b.reg.spec, eb := b.trap }
def withC (r : FForm) (c : Src) : FForm := { r with c := c.reg.spec, ec := c.trap }
def withMod (r : FForm) (m : BitVec 4) : FForm := { r with mod := m }
def withImm (r : FForm) (x : BitVec 19) : FForm := { r with imm := x }
/-- The second operand of R66, with the low bits of MOD. -/
def withOpd (r : FForm) (o : Opd) (low : BitVec 3) : FForm :=
  match o with
  | .reg s => { r.withB s with mod := 0#1 ++ low }
  | .imm i => { r with mod := 1#1 ++ low, imm := i }
/-- Two float sources with their flags, and the addend's (R68). -/
def withF (r : FForm) (negD absD : Bool) (a b : FSrc) : FForm :=
  { (r.withA a.src).withB b.src with
    c := BitVec.ofBool absD ++ BitVec.ofBool negD ++ BitVec.ofBool b.abs ++ BitVec.ofBool b.neg ++ BitVec.ofBool a.abs
      ++ BitVec.ofBool a.neg }
/-- One float source with its flags. -/
def withF1 (r : FForm) (a : FSrc) : FForm :=
  { r.withA a.src with c := 0#4 ++ BitVec.ofBool a.abs ++ BitVec.ofBool a.neg }
/-- A predicate, a class register or a number in D or A. -/
def withDn {n : Nat} (r : FForm) (x : BitVec n) : FForm := { r with d := x.setWidth 6 }
def withAn {n : Nat} (r : FForm) (x : BitVec n) : FForm := { r with a := x.setWidth 6 }
/-- A v-only or k-only source. -/
def withAv (r : FForm) (a : VSrc) (k : Bool) : FForm := { r with a := BitVec.ofBool k ++ a.n, ea := a.trap }
def withBk (r : FForm) (b : VSrc) : FForm := { r with b := 1#1 ++ b.n, eb := b.trap }
def withCk (r : FForm) (c : VSrc) : FForm := { r with c := 1#1 ++ c.n, ec := c.trap }
/-- A number in IMM19. -/
def withImmN {n : Nat} (r : FForm) (x : BitVec n) : FForm := { r with imm := x.setWidth 19 }
/-- Space and offset in IMM19 (R69). -/
def withMem (r : FForm) (sp : BitVec 3) (off : BitVec 16) : FForm := { r with imm := sp ++ off }
/-- An optional source in B or C. -/
def withB? (r : FForm) (b : Option Src) : FForm :=
  match b with
  | some b => r.withB b
  | none => r
def withC? (r : FForm) (c : Option Src) : FForm :=
  match c with
  | some c => r.withC c
  | none => r
/-- An optional barrier in D. -/
def withBar (r : FForm) (b : Option (BitVec 4)) : FForm :=
  match b with
  | some b => r.withDn b
  | none => r
end FForm

/-- The fields of an F-form instruction; none for a pair, for an event and for what is no instruction. -/
def Instr.form : Instr → Option FForm
  | .iadd g d a b => some (((FForm.base 0x00 g).withD d |>.withA a).withOpd b 0)
  | .isub g d a b => some (((FForm.base 0x01 g).withD d |>.withA a).withOpd b 0)
  | .imul g d a b => some (((FForm.base 0x02 g).withD d |>.withA a).withOpd b 0)
  | .imulh g d a b u => some (((FForm.base 0x03 g).withD d |>.withA a).withOpd b (0#2 ++ BitVec.ofBool u))
  | .imad g d a b c => some (((FForm.base 0x04 g).withD d |>.withA a).withB b |>.withC c)
  | .iadd64 g d a b =>
    let r := (FForm.base 0x05 g).withD d |>.withA a
    some (match b with
      | .pair s => r.withB s
      | .zx s => (r.withB s).withMod 1
      | .sx s => (r.withB s).withMod 2
      | .imm i => (r.withImm i).withMod 8)
  | .idiv g d a b u => some (((FForm.base 0x06 g).withD d |>.withA a).withB b |>.withMod (mod4 false false false u))
  | .irem g d a b u => some (((FForm.base 0x07 g).withD d |>.withA a).withB b |>.withMod (mod4 false false false u))
  | .imin g d a b u => some (((FForm.base 0x08 g).withD d |>.withA a).withOpd b (0#2 ++ BitVec.ofBool u))
  | .imax g d a b u => some (((FForm.base 0x09 g).withD d |>.withA a).withOpd b (0#2 ++ BitVec.ofBool u))
  | .iabs g d a => some ((FForm.base 0x0A g).withD d |>.withA a)
  | .ineg g d a => some ((FForm.base 0x0B g).withD d |>.withA a)
  | .lea g d a b sx sh => some (((FForm.base 0x0C g).withD d |>.withA a).withB b |>.withMod (mod4 false false false sx)
      |>.withImmN sh)
  | .imadw g d a b c u => some (((FForm.base 0x0D g).withD d |>.withA a).withB b |>.withC c
      |>.withMod (mod4 false false false u))
  | .and g d a b => some (((FForm.base 0x10 g).withD d |>.withA a).withOpd b 0)
  | .or g d a b => some (((FForm.base 0x11 g).withD d |>.withA a).withOpd b 0)
  | .xor g d a b => some (((FForm.base 0x12 g).withD d |>.withA a).withOpd b 0)
  | .andn g d a b => some (((FForm.base 0x13 g).withD d |>.withA a).withOpd b 0)
  | .not g d a => some ((FForm.base 0x14 g).withD d |>.withA a)
  | .shl g d a b => some (((FForm.base 0x15 g).withD d |>.withA a).withOpd b 0)
  | .shr g d a b => some (((FForm.base 0x16 g).withD d |>.withA a).withOpd b 0)
  | .sar g d a b => some (((FForm.base 0x17 g).withD d |>.withA a).withOpd b 0)
  | .rotl g d a b => some (((FForm.base 0x18 g).withD d |>.withA a).withOpd b 0)
  | .popc g d a => some ((FForm.base 0x19 g).withD d |>.withA a)
  | .clz g d a => some ((FForm.base 0x1A g).withD d |>.withA a)
  | .brev g d a => some ((FForm.base 0x1B g).withD d |>.withA a)
  | .bfx g d a f s =>
    let r := (FForm.base 0x1C g).withD d |>.withA a
    some (match f with
      | .reg b => (r.withB b).withMod (mod4 false false false s)
      | .imm pos len => (r.withImmN (len ++ pos)).withMod (mod4 true false false s))
  | .bfi g d a f c =>
    let r := (FForm.base 0x1D g).withD d |>.withA a |>.withC c
    some (match f with
      | .reg b => r.withB b
      | .imm pos len => (r.withImmN (len ++ pos)).withMod 8)
  | .bperm g d a b hi => some (((FForm.base 0x1E g).withD d |>.withA a).withB b |>.withMod (mod4 false false false hi))
  | .bsel g d a b s =>
    let r := (FForm.base 0x1F g).withD d |>.withA a |>.withB b
    some (match s with
      | .reg c => r.withC c
      | .imm i => (r.withImmN i).withMod 8)
  | .iset g p a b k u =>
    some { ((FForm.base 0x20 g).withDn p |>.withA a).withOpd b k.code with c := 0#5 ++ BitVec.ofBool u }
  | .isel g d a b p n =>
    some { ((FForm.base 0x21 g).withD d |>.withA a).withOpd b 0 with c := 0#2 ++ BitVec.ofBool n ++ p }
  | .mov g d a w => some (((FForm.base 0x22 g).withD d |>.withA a).withMod (mod4 false false false w))
  | .movi g d x => some { (FForm.base 0x23 g).withD d with
      mod := mod4 false false false (x.getLsbD 31), b := fieldAt x 25 6, c := fieldAt x 19 6, imm := fieldAt x 0 19 }
  | .movk g kd a lane => some (((FForm.base 0x24 g).withD (.k kd) |>.withAv a false).withImmN lane)
  | .pset g p pa na pb nb op => some { ((FForm.base 0x25 g).withDn p |>.withAn pa).withMod (0#2 ++ op.code) with
      b := pb.setWidth 6, c := 0#4 ++ BitVec.ofBool nb ++ BitVec.ofBool na }
  | .pmov g m => some (match m with
      | .get d => (FForm.base 0x26 g).withD d
      | .put a mask => ((FForm.base 0x26 g).withA a |>.withMod 1).withImmN (mask ++ 0#1))
  | .shfl g d a n w mode =>
    let r := (FForm.base 0x30 g).withD d |>.withAv a false
    let r := { r with c := w.setWidth 6 }
    some (match n with
      | .reg b => (r.withB b).withMod (0#2 ++ mode.code)
      | .imm n => (r.withImmN n).withMod (0b10#2 ++ mode.code))
  | .vote g dst p n =>
    let r := { FForm.base 0x31 g with a := 0#2 ++ BitVec.ofBool n ++ p }
    some (match dst with
      | .all pd => r.withDn pd
      | .any pd => (r.withDn pd).withMod 1
      | .ballot d => (r.withD d).withMod 2)
  | .redux g d a op => some (((FForm.base 0x32 g).withD d |>.withAv a false).withMod (0#1 ++ op.code))
  | .fadd g f r d a b => some (((FForm.base 0x40 g).withD d |>.withF false false a b).withMod (modR r f))
  | .fsub g f r d a b => some (((FForm.base 0x41 g).withD d |>.withF false false a b).withMod (modR r f))
  | .fmul g f r d a b => some (((FForm.base 0x42 g).withD d |>.withF false false a b).withMod (modR r f))
  | .ffma g f r d n ab a b => some (((FForm.base 0x43 g).withD d |>.withF n ab a b).withMod (modR r f))
  | .fmin g f d a b => some (((FForm.base 0x44 g).withD d |>.withF false false a b).withMod (modR (.st .rn) f))
  | .fmax g f d a b => some (((FForm.base 0x45 g).withD d |>.withF false false a b).withMod (modR (.st .rn) f))
  | .fset g f p a b k s => some (((FForm.base 0x46 g).withDn p |>.withF false false a b).withMod (modR (.st .rn) f)
      |>.withImmN (BitVec.ofBool s ++ k.code))
  | .fdiv g f r d a b => some (((FForm.base 0x47 g).withD d |>.withF false false a b).withMod (modR r f))
  | .fsqrt g f r d a => some (((FForm.base 0x48 g).withD d |>.withF1 a).withMod (modR r f))
  | .frcp g f r d a => some (((FForm.base 0x49 g).withD d |>.withF1 a).withMod (modR r f))
  | .frsq g f r d a => some (((FForm.base 0x4A g).withD d |>.withF1 a).withMod (modR r f))
  | .fexp2 g f r d a => some (((FForm.base 0x4B g).withD d |>.withF1 a).withMod (modR r f))
  | .flog2 g f r d a => some (((FForm.base 0x4C g).withD d |>.withF1 a).withMod (modR r f))
  | .fsin g f r d a => some (((FForm.base 0x4D g).withD d |>.withF1 a).withMod (modR r f))
  | .fcos g f r d a => some (((FForm.base 0x4E g).withD d |>.withF1 a).withMod (modR r f))
  | .fclass g f d a => some (((FForm.base 0x4F g).withD d |>.withF1 a).withMod (modR (.st .rn) f))
  | .frnd g f r d a => some (((FForm.base 0x50 g).withD d |>.withA a).withMod (modR r f))
  | .f2i g f r d a ty => some (((FForm.base 0x51 g).withD d |>.withA a).withMod (modR r f) |>.withImmN ty)
  | .i2f g f r d a ty => some (((FForm.base 0x52 g).withD d |>.withA a).withMod (modR r f) |>.withImmN ty)
  | .f2f g n r d a => some (((FForm.base 0x53 g).withD d |>.withA a).withMod (modR r n))
  | .cvt g o d a slot => some (((FForm.base 0x54 g).withD d |>.withA a).withMod (mod4 false false false o)
      |>.withImmN slot)
  | .cvtp g d a slot => some (((FForm.base 0x55 g).withD d |>.withA a).withImmN slot)
  | .cvtu g d a slot => some (((FForm.base 0x56 g).withD d |>.withA a).withImmN slot)
  | .tfence g => some (FForm.base 0x57 g)
  | .hadd2 g f r d a b => some (((FForm.base 0x60 g).withD d |>.withF false false a b).withMod (modR r f))
  | .hmul2 g f r d a b => some (((FForm.base 0x61 g).withD d |>.withF false false a b).withMod (modR r f))
  | .hfma2 g f r d n ab a b => some (((FForm.base 0x62 g).withD d |>.withF n ab a b).withMod (modR r f))
  | .almul g r d a b t => some (((FForm.base 0x63 g).withD d |>.withA a |>.withB b).withMod (modR r false)
      |>.withImmN t)
  | .almac g r d a b t => some (((FForm.base 0x64 g).withD d |>.withA a |>.withB b).withMod (modR r false)
      |>.withImmN t)
  | .alconj g d a t => some (((FForm.base 0x65 g).withD d |>.withA a).withImmN t)
  | .alnorm g r d a t => some (((FForm.base 0x66 g).withD d |>.withA a).withMod (modR r false) |>.withImmN t)
  | .altab g al a off => some (((FForm.base 0x67 g).withDn al |>.withA a).withImmN off)
  | .bra g off => some ((FForm.base 0x70 g).withImm off)
  | .brx g a off => some (((FForm.base 0x71 g).withA a).withImm off)
  | .call g off => some ((FForm.base 0x72 g).withImm off)
  | .callx g a off => some (((FForm.base 0x73 g).withA a).withImm off)
  | .ret g => some (FForm.base 0x74 g)
  | .exit g => some (FForm.base 0x75 g)
  | .merge => some (FForm.base 0x76 ⟨false, 0⟩)
  | .yield => some (FForm.base 0x77 ⟨false, 0⟩)
  | .nop g => some (FForm.base 0x78 g)
  | .trap g code => some ((FForm.base 0x79 g).withImm code)
  | .rtt => some (FForm.base 0x7A ⟨false, 0⟩)
  | .rts => some (FForm.base 0x7B ⟨false, 0⟩)
  | .brk g code => some ((FForm.base 0x7C g).withImm code)
  | .ld g d a w sp off => some (((FForm.base 0x80 g).withD d |>.withA a).withMod w.code |>.withMem sp.code off)
  | .st g a b w sp off => some (((FForm.base 0x81 g).withA a |>.withB b).withMod w.code |>.withMem sp.code off)
  | .ldr g d a w off => some (((FForm.base 0x82 g).withD d |>.withA a).withMod w.code |>.withImmN off)
  | .gath g d a w sp off cb => some { ((FForm.base 0x83 g).withD d |>.withA a).withMod w.code
      |>.withMem sp.code off with c := cb.setWidth 6 }
  | .scat g a b w sp off cb => some { ((FForm.base 0x84 g).withA a |>.withB b).withMod w.code
      |>.withMem sp.code off with c := cb.setWidth 6 }
  | .pref g a l2 off => some (((FForm.base 0x85 g).withA a).withMod (mod4 false false false l2) |>.withImmN off)
  | .atom g op d a b c w sc o sp => some (((FForm.base 0x90 g).withD d |>.withA a |>.withB b).withC? c
      |>.withMod op.code |>.withImm (sp.code ++ BitVec.ofBool w ++ sc.code ++ o.code ++ 0#10))
  | .red g op a b w sc rel sp => some (((FForm.base 0x91 g).withA a |>.withB b).withMod op.code
      |>.withImm (sp.code ++ BitVec.ofBool w ++ sc.code ++ BitVec.ofBool rel ++ 0#11))
  | .fence g k sc => some ((FForm.base 0x92 g).withMod (0#2 ++ k.code) |>.withImmN sc.code)
  | .ifence g => some (FForm.base 0x93 g)
  | .roinv g => some (FForm.base 0x94 g)
  | .clrset g a b c => some ((FForm.base 0x95 g).withA a |>.withB b |>.withC c)
  | .clrget g d a off => some (((FForm.base 0x96 g).withD d |>.withA a).withImmN off)
  | .monq g d a => some ((FForm.base 0x97 g).withD d |>.withA a)
  | .alloc g d a pg => some (((FForm.base 0x98 g).withD d |>.withA a).withMod (0#2 ++ pg.code))
  | .free g a => some ((FForm.base 0x99 g).withA a)
  | .wait g d a b c all rel => some (((FForm.base 0xA0 g).withD d |>.withAv a true |>.withBk b |>.withCk c).withMod
      (mod4 false false rel all))
  | .bari g bn o =>
    let r := (FForm.base 0xA1 g).withDn bn
    some (match o with
      | .reg a => r.withA a
      | .imm mask eng => (r.withMod 8).withImm (eng ++ mask))
  | .bara g d bn w => some (((FForm.base 0xA2 g).withD d |>.withAn bn).withMod (mod4 false false false w))
  | .barq g d bn => some ((FForm.base 0xA3 g).withD d |>.withAn bn)
  | .cpa g a b c tag off => some (((FForm.base 0xA4 g).withA a |>.withB b |>.withC? c).withMod
      (BitVec.ofBool c.isNone ++ 0#1 ++ tag) |>.withImmN off)
  | .bcopy g isSt sh cnt idx bar fut => some (((FForm.base 0xA5 g).withBar bar |>.withAn sh |>.withB? fut).withMod
      (mod4 false fut.isSome bar.isSome isSt) |>.withImmN (cnt ++ idx))
  | .mcast g a b mask bar => some (((FForm.base 0xA6 g).withBar bar |>.withA a |>.withB b).withMod
      (mod4 false false bar.isSome false) |>.withImmN mask)
  | .slotf g role n => some ((FForm.base 0xA7 g).withImmN (n ++ role))
  | .shld g sh a c off => some (((FForm.base 0xB0 g).withDn sh |>.withA a).withMem (0#2 ++ BitVec.ofBool c) off)
  | .shst g sh a c off => some (((FForm.base 0xB1 g).withDn sh |>.withA a).withMem (0#2 ++ BitVec.ofBool c) off)
  | .shset g sh f a => some (((FForm.base 0xB2 g).withDn sh |>.withA a).withImmN f.code)
  | .shget g d sh f => some (((FForm.base 0xB3 g).withD d |>.withAn sh).withImmN f.code)
  | .strm g isSt ch sh bar fut => some (((FForm.base 0xB4 g).withBar bar |>.withAn sh |>.withB? fut).withMod
      (mod4 false fut.isSome bar.isSome isSt) |>.withImmN ch)
  | .strmq g d ch => some ((FForm.base 0xB5 g).withD d |>.withImmN ch)
  | .rsig g ch => some ((FForm.base 0xB6 g).withImmN ch)
  | .mma g z pair acc sh b slot => some (((FForm.base 0xC0 g).withDn (BitVec.ofBool acc) |>.withAn sh |>.withB b).withMod
      (mod4 false false pair z) |>.withImmN slot)
  | .mzero g pair acc => some (((FForm.base 0xC1 g).withDn (BitVec.ofBool acc)).withMod (mod4 false false pair false))
  | .bld g sh b bar fut => some (((FForm.base 0xC2 g).withBar bar |>.withAn sh |>.withB b |>.withC? fut).withMod
      (mod4 false fut.isSome bar.isSome false))
  | .mdrain g pair i acc sh res bar fut =>
    let r := ((FForm.base 0xC3 g).withDn (BitVec.ofBool acc) |>.withAn sh |>.withC? fut).withMod
      (mod4 i fut.isSome bar.isSome pair)
    some { r with b := (res.getD 0).setWidth 6, imm := (BitVec.ofBool res.isSome ++ bar.getD 0).setWidth 19 }
  | .epil g a c off => some (((FForm.base 0xC4 g).withA a).withMem (0#2 ++ BitVec.ofBool c) off)
  | .mq g d => some ((FForm.base 0xC5 g).withD d)
  | .spawn g pri a b dom =>
    let r := ((FForm.base 0xD0 g).withA a |>.withB b).withMod (0#2 ++ pri)
    some (match dom with
      | some (d, c) => (r.withC c).withImmN d
      | none => r)
  | .spawnf g pri a b c n => some (((FForm.base 0xD1 g).withA a |>.withB b |>.withC c).withMod (0#2 ++ pri)
      |>.withImmN n)
  | .futnew g a off => some ((FForm.base 0xD2 g).withA a |>.withImmN off)
  | .futres g f a b off => some (((FForm.base 0xD3 g).withA a |>.withB b).withMod (mod4 false false false f)
      |>.withImmN off)
  | .futget g d a off => some ((FForm.base 0xD4 g).withD d |>.withA a |>.withImmN off)
  | .tself g d => some ((FForm.base 0xD5 g).withD d)
  | .tabort g drop => some ((FForm.base 0xD6 g).withMod (mod4 false false false drop))
  | .tirrev g => some (FForm.base 0xD7 g)
  | .csrr g d num => some ((FForm.base 0xE0 g).withD d |>.withImmN num)
  | .csrw g num a => some ((FForm.base 0xE1 g).withA a |>.withImmN num)
  | .evt g a code => some ((FForm.base 0xE2 g).withA a |>.withImmN code)
  | .pairBundle .. | .illegalBundle .. | .altabTableRead .. | .waitTimeout .. | .waitWordReread .. | .cpaLand ..
  | .bcopyTransferComplete .. | .engineStop .. | .mcastDelivery .. | .channelTile .. | .mmaRun .. | .mzeroRun ..
  | .bldRun .. | .mdrainRun .. | .epilRun .. | .queueSegmentLink .. | .futureRegistration .. | .trapEntry ..
  | .pcMatchEntry | .fetchFault | .loadDataReturn .. | .longOpComplete .. | .slowCsrReturn .. | .waveEnd ..
  | .faultRecordService .. | .taskPromote .. | .chuckScan .. | .chuckWindowExpire .. | .taskWavePlace ..
  | .taskCommit .. | .taskMove .. | .doorbellWrite .. | .ringEntryTake .. | .blockPlace .. | .blockRetire ..
  | .launchEnd .. | .create .. | .destroy .. | .suspend .. | .resume .. | .status .. | .setvw .. | .quantumExpire ..
  | .preempt .. | .outstandingResponse .. | .contextRestore .. | .waveEvict .. | .waveReturn .. | .evacuationPageSend
  | .pageReturn .. | .mapRequest .. | .invalidation .. | .powerOnReset .. | .powerOff | .staticEnergyTick
  | .hostPortTrain .. | .hostPortDown .. | .hostWindowAccess .. | .functionLevelReset .. | .peerRequest ..
  | .flitReplay .. | .linkFailure .. | .linkRetrainTimeout .. | .linkTrain .. | .tickSync .. | .tickRootLost ..
  | .registerWrite .. | .traceEnableWrite .. | .stallSample | .halt .. | .debugResume .. | .read .. | .write ..
  | .freezeArm .. | .freezeStart | .freezeResume | .linkedArmArrival .. | .linkedResumeArrival .. | .pmcOverflow ..
  | .pmovfClear .. | .attest .. | .capWrite .. | .thermalThreshold .. | .clockStepChange | .coreGate ..
  | .coreUngate .. | .memoryError .. => none

/-- The bundle of an instruction, if it has one. -/
def encode (i : Instr) : Option (BitVec 64) :=
  match i with
  | .pairBundle x y => some (0b01#2 ++ x.form.toBits ++ y.form.toBits)
  | i => i.form.map FForm.toBits

end Sys2Proof
end

