-- ==== Sys2Proof/Machine/Float.lean ====
section
/-! DEFINITION. Floating-point numbers as exact values, their rounding, and arithmetic on them (02 R37, R40; 05 R112–R116). -/

namespace Sys2Proof.Machine

/-! ### Formats and values -/

/-- A binary format: widths of the exponent and of the fraction. -/
structure FFmt where
  e : Nat
  f : Nat
  deriving DecidableEq, Repr

def fp32 : FFmt := ⟨8, 23⟩
def fp64 : FFmt := ⟨11, 52⟩
def fp16 : FFmt := ⟨5, 10⟩
def bf16 : FFmt := ⟨8, 7⟩

namespace FFmt
/-- Exponent bias. -/
def bias (t : FFmt) : Nat := 2 ^ (t.e - 1) - 1
/-- Weight of the sign bit. -/
def signBit (t : FFmt) : Nat := 2 ^ (t.e + t.f)
/-- Code of +∞. -/
def infCode (t : FFmt) : Nat := (2 ^ t.e - 1) * 2 ^ t.f
/-- The canonical quiet NaN (R37, R40). -/
def nan (t : FFmt) : Nat := t.infCode + 2 ^ (t.f - 1)
/-- A code with a sign. -/
def signed (t : FFmt) (neg : Bool) (x : Nat) : Nat := b2n neg * t.signBit + x
end FFmt

/-- A value: a NaN, signalling or not, an infinity, or a sign and an exact magnitude n / d. -/
inductive FVal where
  | nan (sig : Bool)
  | inf (neg : Bool)
  | num (neg : Bool) (n d : Nat)
  deriving DecidableEq, Repr

/-- n / d × 2^k. -/
def scale2 (n d : Nat) (k : Int) : Nat × Nat :=
  if 0 ≤ k then (n * 2 ^ k.toNat, d) else (n, d * 2 ^ (-k).toNat)

/-- The value of a code. -/
def FFmt.value (t : FFmt) (x : Nat) : FVal :=
  let neg := bit x (t.e + t.f)
  let ex := x / 2 ^ t.f % 2 ^ t.e
  let fr := x % 2 ^ t.f
  if ex = 2 ^ t.e - 1 then (if fr = 0 then .inf neg else .nan (!bit x (t.f - 1)))
  else
    let m := if ex = 0 then fr else 2 ^ t.f + fr
    let p := scale2 m 1 ((max ex 1 : Nat) - (t.bias : Int) - t.f)
    .num neg p.1 p.2

/-! ### Rounding -/

/-- Whether a magnitude between two neighbours goes to the upper one: `q` is the lower, `r / d` the rest (R37). -/
def roundsUp (mode : RMode) (neg : Bool) (q r d : Nat) : Bool :=
  match mode with
  | .rn => decide (d < 2 * r) || (2 * r == d && q % 2 == 1)
  | .rz => false
  | .ru => !neg && r != 0
  | .rd => neg && r != 0

/-- A magnitude rounded to an integer. -/
def roundInt (mode : RMode) (neg : Bool) (n d : Nat) : Nat :=
  n / d + b2n (roundsUp mode neg (n / d) (n % d) d)

/-- The greatest k with 2^k ≤ n / d, for n > 0. -/
def log2Q (n d : Nat) : Int :=
  let k : Int := (Nat.log2 n : Int) - Nat.log2 d
  let p := scale2 1 1 k
  if d * p.1 ≤ n * p.2 then k else k - 1

/-- A result and the flags it sets. -/
abbrev FRes := Nat × BitVec 7

/-- The result of an overflow by mode (R37). -/
def FFmt.overflow (t : FFmt) (mode : RMode) (neg : Bool) : Nat :=
  let big := match mode with
    | .rn => true
    | .rz => false
    | .ru => !neg
    | .rd => neg
  t.signed neg (if big then t.infCode else t.infCode - 1)

/-- A magnitude n / d > 0 rounded as though the exponent range were unbounded above: the code without sign, whether it is
exact, and whether the result is tiny (R37, R41). -/
def FFmt.roundCode (t : FFmt) (mode : RMode) (neg : Bool) (n d : Nat) : Nat × Bool × Bool :=
  let k := log2Q n d
  let emin : Int := 1 - (t.bias : Int)
  let top := max k emin
  let p := scale2 n d ((t.f : Int) - top)
  let m := roundInt mode neg p.1 p.2
  let free := scale2 n d ((t.f : Int) - k)
  let tiny := decide (k < emin) && !(k == emin - 1 && roundInt mode neg free.1 free.2 == 2 ^ (t.f + 1))
  ((top + t.bias - 1).toNat * 2 ^ t.f + m, p.1 % p.2 == 0, tiny)

/-- The flags of a rounding without overflow (R37). -/
def roundFlags (exact tiny : Bool) : BitVec 7 := if exact then 0 else if tiny then flagNX ||| flagUF else flagNX

/-- An exact magnitude rounded once to a format: overflow, and tininess detected after rounding (R37). -/
def FFmt.round (t : FFmt) (mode : RMode) (neg : Bool) (n d : Nat) : FRes :=
  if n = 0 then (t.signed neg 0, 0)
  else
    let r := t.roundCode mode neg n d
    if t.infCode ≤ r.1 then (t.overflow mode neg, flagOF ||| flagNX)
    else (t.signed neg r.1, roundFlags r.2.1 r.2.2)

/-- A value put into a format; NaNs become canonical, and NV is set only for a signalling one. -/
def FFmt.ofValue (t : FFmt) (mode : RMode) (x : FVal) : FRes :=
  match x with
  | .nan sig => (t.nan, if sig then flagNV else 0)
  | .inf neg => (t.signed neg t.infCode, 0)
  | .num neg n d => t.round mode neg n d

/-! ### Arithmetic (R112) -/

def FVal.isNan : FVal → Bool
  | .nan _ => true
  | _ => false
def FVal.isSig : FVal → Bool
  | .nan s => s
  | _ => false
def FVal.neg : FVal → FVal
  | .nan s => .nan s
  | .inf s => .inf !s
  | .num s n d => .num (!s) n d
def FVal.sign : FVal → Bool
  | .nan _ => false
  | .inf s => s
  | .num s _ _ => s
def FVal.isZero : FVal → Bool
  | .num _ n _ => n == 0
  | _ => false
def FVal.isInf : FVal → Bool
  | .inf _ => true
  | _ => false

/-- The result when an operand is a NaN. -/
def FFmt.nanRes (t : FFmt) (xs : List FVal) (invalid : Bool) : FRes :=
  (t.nan, if invalid || xs.any FVal.isSig then flagNV else 0)

/-- The exact sum of two magnitudes with signs; a zero sum of opposite signs is negative in RD alone. -/
def addExact (mode : RMode) (s1 : Bool) (n1 d1 : Nat) (s2 : Bool) (n2 d2 : Nat) : FVal :=
  let x := n1 * d2
  let y := n2 * d1
  if s1 = s2 then .num s1 (x + y) (d1 * d2)
  else if x = y then .num (mode = .rd) 0 1
  else if y < x then .num s1 (x - y) (d1 * d2)
  else .num s2 (y - x) (d1 * d2)

/-- a + b (R112). -/
def FFmt.add (t : FFmt) (mode : RMode) (a b : FVal) : FRes :=
  match a, b with
  | .nan _, _ => t.nanRes [a, b] false
  | _, .nan _ => t.nanRes [a, b] false
  | .inf s, .inf u => if s = u then (t.signed s t.infCode, 0) else t.nanRes [] true
  | .inf s, _ => (t.signed s t.infCode, 0)
  | _, .inf s => (t.signed s t.infCode, 0)
  | .num s1 n1 d1, .num s2 n2 d2 => t.ofValue mode (addExact mode s1 n1 d1 s2 n2 d2)

/-- The exact product of two values; none for 0 × ∞. -/
def mulExact (a b : FVal) : Option FVal :=
  match a, b with
  | .nan s, .nan u => some (.nan (s || u))
  | .nan s, _ => some (.nan s)
  | _, .nan s => some (.nan s)
  | .inf s, .inf u => some (.inf (s != u))
  | .inf s, .num u n _ => if n = 0 then none else some (.inf (s != u))
  | .num u n _, .inf s => if n = 0 then none else some (.inf (s != u))
  | .num s1 n1 d1, .num s2 n2 d2 => some (.num (s1 != s2) (n1 * n2) (d1 * d2))

/-- a × b (R112). -/
def FFmt.mul (t : FFmt) (mode : RMode) (a b : FVal) : FRes :=
  match mulExact a b with
  | none => t.nanRes [] true
  | some x => t.ofValue mode x

/-- a × b + c with one rounding; NV for 0 × ∞ whatever the addend (R112). -/
def FFmt.fma (t : FFmt) (mode : RMode) (a b c : FVal) : FRes :=
  if a.isNan ∨ b.isNan then t.nanRes [a, b, c] false
  else match mulExact a b with
    | none => t.nanRes [] true
    | some p => t.add mode p c

/-- a / b (R116). -/
def FFmt.div (t : FFmt) (mode : RMode) (a b : FVal) : FRes :=
  match a, b with
  | .nan _, _ => t.nanRes [a, b] false
  | _, .nan _ => t.nanRes [a, b] false
  | .inf _, .inf _ => t.nanRes [] true
  | .inf s, .num u _ _ => (t.signed (s != u) t.infCode, 0)
  | .num s _ _, .inf u => (t.signed (s != u) 0, 0)
  | .num s n1 d1, .num u n2 d2 =>
    if n2 = 0 then (if n1 = 0 then t.nanRes [] true else (t.signed (s != u) t.infCode, flagDZ))
    else t.round mode (s != u) (n1 * d2) (d1 * n2)

/-! ### Comparison and selection (R113–R115) -/

/-- −1, 0 or 1 for ordered operands; none when one is a NaN. -/
def FVal.cmp (a b : FVal) : Option Int :=
  match a, b with
  | .nan _, _ => none
  | _, .nan _ => none
  | .inf s, .inf u => some (if s = u then 0 else if s then -1 else 1)
  | .inf s, _ => some (if s then -1 else 1)
  | _, .inf s => some (if s then 1 else -1)
  | .num s1 n1 d1, .num s2 n2 d2 =>
    let x : Int := (if s1 then -1 else 1) * (n1 * d2 : Nat)
    let y : Int := (if s2 then -1 else 1) * (n2 * d1 : Nat)
    some (if x < y then -1 else if x = y then 0 else 1)

/-- The smaller (or larger) of two codes; −0 counts as less than +0 (R113). -/
def FFmt.minMax (t : FFmt) (isMax : Bool) (x y : Nat) : FRes :=
  let a := t.value x
  let b := t.value y
  let fl := if a.isSig || b.isSig then flagNV else 0
  match a.cmp b with
  | none => if a.isNan && b.isNan then (t.nan, fl) else if a.isNan then (y, fl) else (x, fl)
  | some c =>
    let aLess := decide (c < 0) || (c == 0 && a.sign && !b.sign)
    (if aLess != isMax then x else if c = 0 ∧ a.sign = b.sign then x else y, 0)

/-- The condition of FSET (R114). -/
def FCond.holds (k : FCond) (c : Option Int) : Bool :=
  match k, c with
  | .eq, some c => c == 0
  | .ne, some c => c != 0
  | .lt, some c => decide (c < 0)
  | .le, some c => decide (c ≤ 0)
  | .gt, some c => decide (0 < c)
  | .ge, some c => decide (0 ≤ c)
  | .num, some _ => true
  | .nan, some _ => false
  | .equ, some c => c == 0
  | .ltu, some c => decide (c < 0)
  | .leu, some c => decide (c ≤ 0)
  | .gtu, some c => decide (0 < c)
  | .geu, some c => decide (0 ≤ c)
  | .eq, none => false
  | .ne, none => true
  | .lt, none => false
  | .le, none => false
  | .gt, none => false
  | .ge, none => false
  | .num, none => false
  | .nan, none => true
  | .equ, none => true
  | .ltu, none => true
  | .leu, none => true
  | .gtu, none => true
  | .geu, none => true

/-- The class bit of a code (R115). -/
def FFmt.classBit (t : FFmt) (x : Nat) : Nat :=
  let ex := x / 2 ^ t.f % 2 ^ t.e
  match t.value x with
  | .nan sig => if sig then 8 else 9
  | .inf neg => if neg then 0 else 7
  | .num neg n _ =>
    if n = 0 then (if neg then 3 else 4)
    else if ex = 0 then (if neg then 2 else 5)
    else if neg then 1 else 6

/-- A value rounded to an integral value of the same format; zero keeps the sign (R117). -/
def FFmt.integral (t : FFmt) (mode : RMode) (x : Nat) : FRes :=
  match t.value x with
  | .nan sig => (t.nan, if sig then flagNV else 0)
  | .inf _ => (x, 0)
  | .num neg n d =>
    let k := roundInt mode neg n d
    ((t.round mode neg k 1).1, if n % d = 0 then 0 else flagNX)

/-! ### Long functions (R116): correctly rounded values of irrational results

A result that is irrational is enclosed between two rationals, closer and closer, until both round alike (log entry
11). -/

/-- The integer square root, by bits from `k` down. -/
def isqrt (n : Nat) : Nat → Nat → Nat
  | 0, r => if (r + 1) * (r + 1) ≤ n then r + 1 else r
  | k + 1, r =>
    let c := r + 2 ^ (k + 1)
    isqrt n k (if c * c ≤ n then c else r)

/-- The square root of n / d > 0, rounded: between s and s + 1 at a scale finer than every rounding boundary. -/
def FFmt.sqrtOf (t : FFmt) (mode : RMode) (n d : Nat) : FRes :=
  let k : Nat := (t.f + 8 + ((Nat.log2 d + 2) / 2))
  let x := n * 2 ^ (2 * k)
  let q := x / d
  let s := isqrt q (Nat.log2 q / 2 + 1) 0
  if s * s * d = x then t.round mode false s (2 ^ k) else t.round mode false (2 * s + 1) (2 ^ (k + 1))

/-- A result enclosed by two magnitudes, if both round alike; it is inexact. -/
def FFmt.enclosed (t : FFmt) (mode : RMode) (neg : Bool) (lo hi d : Nat) : Option FRes :=
  let a := t.round mode neg lo d
  let b := t.round mode neg hi d
  if lo ≠ 0 ∧ a.1 = b.1 ∧ (a.2 ||| flagNX) = (b.2 ||| flagNX) then some (a.1, a.2 ||| flagNX) else none

/-- Working precisions, in bits. -/
def precisions : List Nat := [160, 320, 640, 1280, 2560, 5120]

/-- Try precisions until an approximation decides (R116, log entry 11: DEDUCED): `f p` is a signed approximation at scale 2^p, within 2^24 of it. -/
def FFmt.decide_ (t : FFmt) (mode : RMode) (f : Nat → Int) (k : Int) : List Nat → FRes
  | [] => (t.nan, 0)
  | p :: ps =>
    let a := f p
    let m := a.natAbs
    let lo := scale2 (m - 2 ^ 24) (2 ^ p) k
    let hi := scale2 (m + 2 ^ 24) (2 ^ p) k
    match t.enclosed mode (decide (a < 0)) (if m < 2 ^ 24 then 0 else lo.1) hi.1 lo.2 with
    | some r => r
    | none => match ps with
      | [] => t.round mode (decide (a < 0)) lo.1 lo.2
      | _ => t.decide_ mode f k ps

/-- Terms of a series in fixed point: Σ t × sign / (2i + 1), t shrinking by q each time. -/
def oddSeries (alt : Bool) (q : Nat) : Nat → Nat → Nat → Int
  | 0, _, _ => 0
  | n + 1, i, t =>
    let x : Int := (t / (2 * i + 1) : Nat)
    (if alt ∧ i % 2 = 1 then -x else x) + oddSeries alt q n (i + 1) (t / q)

/-- 2^p × arctan (1 / q), and 2^p × artanh (1 / q). -/
def atanInv (p q : Nat) : Int := oddSeries true (q * q) (p / 2 + 2) 0 (2 ^ p / q)
def atanhInv (p q : Nat) : Int := oddSeries false (q * q) (p / 2 + 2) 0 (2 ^ p / q)

/-- 2^p × π / 2 (Machin), with 16 guard bits taken off. -/
def halfPi (p : Nat) : Nat := ((8 * atanInv (p + 16) 5 - 2 * atanInv (p + 16) 239) / 2 ^ 16).toNat
/-- 2^p × ln 2. -/
def ln2 (p : Nat) : Nat := (2 * atanhInv (p + 16) 3 / 2 ^ 16).toNat

/-- Σ y^i / i! in fixed point from term `i` on; `alt` alternates signs, `by2` takes every second term. -/
def factSeries (p y : Nat) (alt by2 : Bool) : Nat → Nat → Nat → Bool → Int
  | 0, _, _, _ => 0
  | n + 1, i, t, neg =>
    let x : Int := t
    let next := if by2 then t * y / 2 ^ p * y / 2 ^ p / ((i + 1) * (i + 2)) else t * y / 2 ^ p / (i + 1)
    (if neg then -x else x) + factSeries p y alt by2 n (i + if by2 then 2 else 1) next (alt && !neg)

/-- 2^p × e^(y / 2^p) for 0 ≤ y < 2^p. -/
def expFix (p y : Nat) : Int := factSeries p y false false (p + 4) 0 (2 ^ p) false
/-- 2^p × sin and cos of y / 2^p for 0 ≤ y < 2^(p+1). -/
def sinFix (p y : Nat) : Int := factSeries p y true true (p + 4) 1 y false
def cosFix (p y : Nat) : Int := factSeries p y true true (p + 4) 0 (2 ^ p) false

/-- 2^a for a = ±n / d (R116). -/
def FFmt.exp2Of (t : FFmt) (mode : RMode) (neg : Bool) (n d : Nat) : FRes :=
  if n % d = 0 then
    let k := min (n / d) 5000
    let p := scale2 1 1 (if neg then -(k : Int) else k)
    t.round mode false p.1 p.2
  else
    let whole : Int := if neg then -((n / d : Nat) : Int) - 1 else (n / d : Nat)
    let frac := if neg then d - n % d else n % d
    let k := max (-5000) (min 5000 whole)
    t.decide_ mode (fun p => expFix p (frac * ln2 p / d)) k precisions

/-- log₂ of n / d > 0 (R116). -/
def FFmt.log2Of (t : FFmt) (mode : RMode) (n d : Nat) : FRes :=
  let k := log2Q n d
  let m := scale2 n d (-k)
  if m.1 = m.2 then t.round mode (decide (k < 0)) k.natAbs 1
  else
    t.decide_ mode (fun p =>
      let z := (m.1 - m.2) * 2 ^ p / (m.1 + m.2)
      let ln := 2 * logSeries p z (p + 4) 0 z
      k * 2 ^ p + ln * 2 ^ p / ln2 p) 0 precisions
where
  /-- Σ z^(2i+1) / (2i + 1) in fixed point. -/
  logSeries (p z : Nat) : Nat → Nat → Nat → Int
    | 0, _, _ => 0
    | n + 1, i, x => ((x / (2 * i + 1) : Nat) : Int) + logSeries p z n (i + 1) (x * z / 2 ^ p * z / 2 ^ p)

/-- A signed magnitude sum of two rationals, for enclosures near 0. -/
def smallSin (n d : Nat) : (Nat × Nat) × (Nat × Nat) :=
  -- x − x³/6 and x − x³/6 + x⁵/120
  let lo := (6 * n * d * d - n * n * n, 6 * d * d * d)
  let hi := (120 * n * d ^ 4 - 20 * n ^ 3 * d ^ 2 + n ^ 5, 120 * d ^ 5)
  (lo, hi)
def smallCos (n d : Nat) : (Nat × Nat) × (Nat × Nat) :=
  -- 1 − x²/2 and 1 − x²/2 + x⁴/24
  let lo := (2 * d * d - n * n, 2 * d * d)
  let hi := (24 * d ^ 4 - 12 * n ^ 2 * d ^ 2 + n ^ 4, 24 * d ^ 4)
  (lo, hi)

/-- sin or cos of ±n / d ≠ 0 (R116): a small argument by its series, any other reduced by a sufficient number of digits
of π. -/
def FFmt.sinCosOf (t : FFmt) (mode : RMode) (isCos neg : Bool) (n d : Nat) : FRes :=
  let sgn := neg && !isCos
  let small := if isCos then smallCos n d else smallSin n d
  let quick := if n * 2 ^ 30 < d then
      let a := t.round mode sgn small.1.1 small.1.2
      let b := t.round mode sgn small.2.1 small.2.2
      if a.1 = b.1 ∧ (a.2 ||| flagNX) = (b.2 ||| flagNX) then some (a.1, a.2 ||| flagNX) else none
    else none
  match quick with
  | some r => r
  | none =>
    let big := Nat.log2 (n / d + 1)
    let x := fun p =>
      let q := p + big + 8
      let h := halfPi q
      let y := n * 2 ^ q / d
      let k := y / h % 4
      let r := (y % h) / 2 ^ (big + 8)
      let useCos := (k % 2 == 1) != isCos
      let v := if useCos then cosFix p r else sinFix p r
      let minus := if isCos then k == 1 || k == 2 else k == 2 || k == 3
      if minus != sgn then -v else v
    t.decide_ mode x 0 precisions

/-- The one-source long functions on a value (R116). -/
def FFmt.sqrt (t : FFmt) (mode : RMode) (a : FVal) : FRes :=
  match a with
  | .nan _ => t.nanRes [a] false
  | .inf neg => if neg then t.nanRes [] true else (t.infCode, 0)
  | .num neg n d => if n = 0 then (t.signed neg 0, 0) else if neg then t.nanRes [] true else t.sqrtOf mode n d
def FFmt.rcp (t : FFmt) (mode : RMode) (a : FVal) : FRes :=
  match a with
  | .nan _ => t.nanRes [a] false
  | .inf neg => (t.signed neg 0, 0)
  | .num neg n d => if n = 0 then (t.signed neg t.infCode, flagDZ) else t.round mode neg d n
def FFmt.rsq (t : FFmt) (mode : RMode) (a : FVal) : FRes :=
  match a with
  | .nan _ => t.nanRes [a] false
  | .inf neg => if neg then t.nanRes [] true else (0, 0)
  | .num neg n d =>
    if n = 0 then (t.signed neg t.infCode, flagDZ) else if neg then t.nanRes [] true else t.sqrtOf mode d n
def FFmt.exp2 (t : FFmt) (mode : RMode) (a : FVal) : FRes :=
  match a with
  | .nan _ => t.nanRes [a] false
  | .inf neg => (if neg then 0 else t.infCode, 0)
  | .num neg n d => t.exp2Of mode neg n d
def FFmt.log2 (t : FFmt) (mode : RMode) (a : FVal) : FRes :=
  match a with
  | .nan _ => t.nanRes [a] false
  | .inf neg => if neg then t.nanRes [] true else (t.infCode, 0)
  | .num neg n d =>
    if n = 0 then (t.signed true t.infCode, flagDZ) else if neg then t.nanRes [] true else t.log2Of mode n d
def FFmt.sinCos (t : FFmt) (isCos : Bool) (mode : RMode) (a : FVal) : FRes :=
  match a with
  | .nan _ => t.nanRes [a] false
  | .inf _ => t.nanRes [] true
  | .num neg n d =>
    if n = 0 then (if isCos then t.round mode false 1 1 else (t.signed neg 0, 0)) else t.sinCosOf mode isCos neg n d

end Sys2Proof.Machine
end

