-- ==== Sys2Proof/Machine/Slots.lean ====
section
/-! DEFINITION. Format slots: readings, D8, conversions in and out, and sums of exact terms (02 R39–R53). -/

namespace Sys2Proof.Machine

/-! ### A slot (R48) -/

def slotFmt (x : BitVec 64) : Nat := bits x.toNat 3 0
def slotRdg (x : BitVec 64) : Nat := bits x.toNat 5 4
def slotRnd (x : BitVec 64) : RMode := RMode.ofCode (fieldAt x 6 2)
def slotAl (x : BitVec 64) : Option (BitVec 2) := if x.getLsbD 10 then some (fieldAt x 8 2) else none
/-- The scale; the code 0 stands for 1 (R48). -/
def slotScale (x : BitVec 64) : FVal :=
  if bits x.toNat 63 32 = 0 then .num false 1 1 else fp32.value (bits x.toNat 63 32)
/-- Bits of a value of a format (R39). -/
def fmtBits (fmt : Nat) : Nat :=
  match fmt with
  | 0 => 32
  | 1 => 16
  | 2 => 16
  | 3 => 8
  | 4 => 8
  | 5 => 8
  | 6 => 32
  | _ => 64
def slotBits (x : BitVec 64) : Nat := fmtBits (slotFmt x)
def slotBytes (x : BitVec 64) : Nat := slotBits x / 8

/-! ### D8 (R42–R46) -/

/-- The magnitude of a marker code from 2 to 127, in units of 1 / (32 × 10⁶), with its decade (R42, R43). -/
def d8Mag (c : Nat) : Nat × Int :=
  let d := 6 - Nat.log2 c
  let f := 5 - d
  let h := bit c f
  let e : Int := if h then d else -(d : Int) - 1
  (10 ^ (e + 6).toNat * (2 ^ f + 9 * (c % 2 ^ f)) * 2 ^ (5 - f), e)

/-- Units of `d8Mag`. -/
def d8Unit : Nat := 32000000

/-- The value of a D8 byte under a reading: 0 finite-only, 1 NaN-only, 2 IEEE-like (R42, R44). -/
def d8Value (rdg x : Nat) : FVal :=
  let neg := bit x 7
  let c := x % 128
  if c = 0 then (if neg ∧ rdg ≠ 0 then .nan false else .num neg 0 1)
  else if c = 1 then (if rdg = 2 then .inf neg else .num neg 1000000 1)
  else .num neg (d8Mag c).1 d8Unit

/-- A candidate magnitude in the same units, its code, and its decade; 0 and 10⁶ stand outside the decades (R46). -/
def d8Cands : List (Nat × Nat × Int) :=
  (0, 0, -100) :: (1000000 * d8Unit, 1, 100) :: (List.range 126).map fun i =>
    ((d8Mag (i + 2)).1, i + 2, (d8Mag (i + 2)).2)

/-- The encoding of a value in D8 (R46). -/
def d8Encode (rdg : Nat) (mode : RMode) (x : FVal) : FRes :=
  let out := fun (neg : Bool) (c : Nat) => b2n neg * 128 + c
  match x with
  | .nan sig => if rdg = 0 then (0, flagNV) else (0x80, if sig then flagNV else 0)
  | .inf neg => (out neg 1, if rdg = 2 then 0 else flagSAT)
  | .num neg n d =>
    let dir : Nat := match mode with
      | .rn => 0
      | .rz => 1
      | .ru => if neg then 1 else 2
      | .rd => if neg then 2 else 1
    -- the magnitude is m / d in the units of the candidates
    let m := n * d8Unit
    if 1000000 * d8Unit * d < m then
      if rdg ≠ 2 then (out neg 1, flagSAT ||| flagNX)
      else if dir = 1 then (out neg 3, flagOF ||| flagNX)
      else (out neg 1, flagOF ||| flagNX)
    else
      let pick : (Nat × Nat × Int) × BitVec 7 :=
        match d8Cands.find? fun c => c.1 * d == m with
        | some c => (c, 0)
        | none =>
          let lo := d8Cands.foldl (fun (b : Nat × Nat × Int) c => if c.1 * d < m ∧ b.1 ≤ c.1 then c else b)
            (0, 0, -100)
          let hi := d8Cands.foldl (fun (b : Nat × Nat × Int) c => if m < c.1 * d ∧ c.1 ≤ b.1 then c else b)
            (1000000 * d8Unit, 1, 100)
          let below := m - lo.1 * d
          let above := hi.1 * d - m
          let q := if dir = 1 then lo
            else if dir = 2 then hi
            else if below < above then lo
            else if above < below then hi
            else if lo.2.2 = hi.2.2 then (if lo.2.1 % 2 = 0 then lo else hi)
            else lo
          (q, if m < 32 * d then flagNX ||| flagUF else flagNX)
      let c := pick.1.2.1
      if c = 1 ∧ rdg = 2 then (out neg 1, pick.2 ||| flagOF)
      else if c = 0 then (if neg ∧ rdg = 0 then 0x80 else 0, pick.2)
      else (out neg c, pick.2)

/-! ### Slot values -/

/-- The value of a 16-bit code under a reading (R40). -/
def halfValue (t : FFmt) (rdg x : Nat) : FVal :=
  let neg := bit x 15
  let ex := x / 2 ^ t.f % 2 ^ t.e
  if ex = 2 ^ t.e - 1 then
    match rdg with
    | 0 =>
      let p := scale2 (2 ^ t.f + x % 2 ^ t.f) 1 ((ex : Int) - t.bias - t.f)
      .num neg p.1 p.2
    | 1 => .nan false
    | _ => t.value x
  else t.value x

/-- A two's complement number of `n` bits as a value. -/
def intValue (n x : Nat) : FVal := if bit x (n - 1) then .num true (2 ^ n - x % 2 ^ n) 1 else .num false (x % 2 ^ n) 1

/-- The value of a code of a format under a reading (R39–R44). -/
def fmtValue (fmt rdg x : Nat) : FVal :=
  match fmt with
  | 0 => fp32.value x
  | 1 => halfValue bf16 rdg x
  | 2 => halfValue fp16 rdg x
  | 3 => d8Value rdg x
  | 4 => intValue 8 x
  | 5 => .num false (x % 256) 1
  | 6 => intValue 32 x
  | _ => fp64.value x

/-- A value put into a 16-bit format under a reading (R41). -/
def halfEncode (t : FFmt) (rdg : Nat) (mode : RMode) (x : FVal) : FRes :=
  if rdg = 2 then t.ofValue mode x
  else
    let limit := if rdg = 0 then 2 ^ (t.e + t.f) else t.infCode
    match x with
    | .nan sig => if rdg = 0 then (0, flagNV) else (0x7FFF, if sig then flagNV else 0)
    | .inf neg => (t.signed neg (limit - 1), flagSAT)
    | .num neg n d =>
      if n = 0 then (t.signed neg 0, 0)
      else
        let r := t.roundCode mode neg n d
        if limit ≤ r.1 then (t.signed neg (limit - 1), flagSAT ||| flagNX)
        else (t.signed neg r.1, roundFlags r.2.1 r.2.2)

/-- A value put into an integer format from `lo` (a magnitude) to `hi`, of `n` bits (R47). -/
def intEncode (n lo hi : Nat) (mode : RMode) (x : FVal) : FRes :=
  let code := fun (neg : Bool) (k : Nat) => if neg then (2 ^ n - k) % 2 ^ n else k
  match x with
  | .nan _ => (0, flagNV)
  | .inf neg => (if neg then code true lo else hi, flagSAT)
  | .num neg a d =>
    let k := roundInt mode neg a d
    if neg ∧ lo < k then (code true lo, flagSAT)
    else if !neg ∧ hi < k then (hi, flagSAT)
    else (code neg k, if a % d = 0 then 0 else flagNX)

/-- A value put into a format under a reading (R41, R46, R47, R37). -/
def fmtEncode (fmt rdg : Nat) (mode : RMode) (x : FVal) : FRes :=
  match fmt with
  | 0 => fp32.ofValue mode x
  | 1 => halfEncode bf16 rdg mode x
  | 2 => halfEncode fp16 rdg mode x
  | 3 => d8Encode rdg mode x
  | 4 => intEncode 8 128 127 mode x
  | 5 => intEncode 8 0 255 mode x
  | 6 => intEncode 32 (2 ^ 31) (2 ^ 31 - 1) mode x
  | _ => fp64.ofValue mode x

/-- x / scale, exactly. -/
def divExact (x scale : FVal) : FVal :=
  match x, scale with
  | .nan s, _ => .nan s
  | .inf s, y => .inf (s != y.sign)
  | .num s n d, .num u a b => .num (s != u) (n * b) (d * a)
  | y, _ => y

/-- A value into a slot, scaled (R50). -/
def slotIn (slot : BitVec 64) (x : FVal) : FRes :=
  fmtEncode (slotFmt slot) (slotRdg slot) (slotRnd slot) (divExact x (slotScale slot))

/-- A slot's code out to FP32, scaled (R50, R120). -/
def slotOut (slot : BitVec 64) (code : Nat) : FRes :=
  match mulExact (fmtValue (slotFmt slot) (slotRdg slot) code) (slotScale slot) with
  | some x => fp32.ofValue (slotRnd slot) x
  | none => (fp32.nan, flagNV)

/-! ### Exact sums of terms (R51, R52, R125) -/

/-- The signed sum of exact magnitudes as a numerator and a denominator. -/
def addRat (a b : Int × Nat) : Int × Nat :=
  if a.2 % b.2 = 0 then (a.1 + b.1 * (a.2 / b.2 : Nat), a.2)
  else if b.2 % a.2 = 0 then (a.1 * (b.2 / a.2 : Nat) + b.1, b.2)
  else (a.1 * b.2 + b.1 * a.2, a.2 * b.2)

/-- The sum of exact terms, none of them for 0 × ∞, rounded once to FP32 (R52, R125); an empty sum is +0. -/
def sumTerms (mode : RMode) (ts : List (Option FVal)) : FRes :=
  let vs := ts.filterMap id
  let zeroInf := ts.any Option.isNone
  let sig := vs.any FVal.isSig
  let pInf := vs.any fun x => x.isInf && !x.sign
  let nInf := vs.any fun x => x.isInf && x.sign
  if zeroInf || vs.any FVal.isNan || (pInf && nInf) then
    (fp32.nan, if zeroInf || sig || (pInf && nInf) then flagNV else 0)
  else if pInf then (fp32.infCode, 0)
  else if nInf then (fp32.signed true fp32.infCode, 0)
  else
    let s := vs.foldl (fun (a : Int × Nat) x => match x with
      | .num neg n d => addRat a (if neg then -(n : Int) else n, d)
      | _ => a) (0, 1)
    if s.1 = 0 then
      (fp32.signed (!vs.isEmpty && vs.all fun x => x.isZero && x.sign) 0, 0)
    else fp32.round mode (decide (s.1 < 0)) s.1.natAbs s.2

/-! ### Algebra tables (R54–R56) -/

/-- The dimension of a table. -/
def tableDim (t : List Byte) : Nat :=
  match (t.getD 0 0).toNat with
  | 2 => 2
  | 4 => 4
  | 8 => 8
  | _ => 1
/-- Entry T[i][j]. -/
def tableEntry (t : List Byte) (i j : Nat) : Nat := (t.getD (4 + 8 * i + j) 0).toNat

/-- The first byte for which a table is refused (R55). -/
def tableRefused (t : List Byte) : Option Nat :=
  let d := (t.getD 0 0).toNat
  if d ≠ 1 ∧ d ≠ 2 ∧ d ≠ 4 ∧ d ≠ 8 then some 0
  else if t.getD 2 0 ≠ 0 then some 2
  else if t.getD 3 0 ≠ 0 then some 3
  else (List.range 64).findSome? fun k =>
    let i := k / 8
    let j := k % 8
    let e := tableEntry t i j
    let sign := bits e 4 3
    if i < d ∧ j < d ∧ (sign = 3 ∨ bits e 7 5 ≠ 0 ∨ (sign ≠ 0 ∧ d ≤ bits e 2 0)) then some (4 + k) else none

/-- The index pairs that contribute to a component, with a minus sign or not (R56). -/
def tableTerms (t : List Byte) (k : Nat) : List (Nat × Nat × Bool) :=
  let d := tableDim t
  (List.range (d * d)).filterMap fun x =>
    let i := x / d
    let j := x % d
    let e := tableEntry t i j
    if bits e 4 3 ≠ 0 ∧ bits e 2 0 = k then some (i, j, bits e 4 3 != 1) else none

/-- The signed product terms of a component (R56). -/
def productTerms (t : List Byte) (a b : Nat → FVal) (k : Nat) : List (Option FVal) :=
  (tableTerms t k).map fun x => (mulExact (a x.1) (b x.2.1)).map fun p => if x.2.2 then p.neg else p

end Sys2Proof.Machine
end

