-- ==== Sys2Proof/Machine/FloatOps.lean ====
section
/-! DEFINITION. Floating-point instructions of row 0x4 and the packed halves (05 R111–R116, R124). -/

namespace Sys2Proof.Machine

/-- The rounding mode of a bundle: its own, or FRM (R111). -/
def Rnd.mode (r : Rnd) (frm : BitVec 2) : RMode :=
  match r with
  | .st m => m
  | .dyn => RMode.ofCode frm

/-- FP64 or FP32. -/
def fpFmt (f64 : Bool) : FFmt := if f64 then fp64 else fp32

/-- The code of a register operand. -/
def Wave.fcode (v : Wave) (e : Iss) (f64 : Bool) (r : Reg) (l : Nat) : Nat :=
  if f64 then (v.val64 e r l).toNat else (v.val e r l).toNat

/-- The source flags on a code: the absolute value first, then the negation; only the sign bit changes (R68, R111). -/
def signFlags (t : FFmt) (neg abs : Bool) (x : Nat) : Nat :=
  let s := bit x (t.e + t.f)
  let s := (s && !abs) != neg
  t.signed s (x % t.signBit)

/-- The code of a float source. -/
def Wave.fsrc (v : Wave) (e : Iss) (f64 : Bool) (x : FSrc) (l : Nat) : Nat :=
  signFlags (fpFmt f64) x.neg x.abs (v.fcode e f64 x.src.reg l)

/-- A code as the words of its registers. -/
def fwords (f64 : Bool) (x : Nat) : List Word :=
  if f64 then pairOf (BitVec.ofNat 64 x) else [BitVec.ofNat 32 x]

/-- A result as words with its flags. -/
def fresult (f64 : Bool) (r : FRes) : List Word × BitVec 7 := (fwords f64 r.1, r.2)

/-- The energy class of a format (R364). -/
def fpClass (f64 : Bool) : Nat := if f64 then clsFp64 else clsFp32

/-- A two-source operation with one rounding (R112). -/
def floatTwo (g : Guard) (f64 : Bool) (r : Rnd) (d : Reg) (a b : FSrc) (f : FFmt → RMode → FVal → FVal → FRes)
    (s : State) : Host.Outcome State Fault Refusal :=
  let n := fpRegs f64
  let t := fpFmt f64
  bundle g ⟨[useOf a.src n 0, useOf b.src n 1], some (d, n)⟩ false
    (writesF d (fpClass f64) fun e v l =>
      fresult f64 (f t (Rnd.mode r v.frm) (t.value (v.fsrc e f64 a l)) (t.value (v.fsrc e f64 b l)))) s

/-- FADD (R112). -/
def execFadd (g : Guard) (f64 : Bool) (r : Rnd) (d : Reg) (a b : FSrc) (s : State) : Host.Outcome State Fault Refusal :=
  floatTwo g f64 r d a b (fun t m x y => t.add m x y) s

/-- FSUB (R112). -/
def execFsub (g : Guard) (f64 : Bool) (r : Rnd) (d : Reg) (a b : FSrc) (s : State) : Host.Outcome State Fault Refusal :=
  floatTwo g f64 r d a b (fun t m x y => t.add m x y.neg) s

/-- FMUL (R112). -/
def execFmul (g : Guard) (f64 : Bool) (r : Rnd) (d : Reg) (a b : FSrc) (s : State) : Host.Outcome State Fault Refusal :=
  floatTwo g f64 r d a b (fun t m x y => t.mul m x y) s

/-- FFMA (R112): the addend is the destination register. -/
def execFfma (g : Guard) (f64 : Bool) (r : Rnd) (d : Reg) (negD absD : Bool) (a b : FSrc) (s : State) :
    Host.Outcome State Fault Refusal :=
  let n := fpRegs f64
  let t := fpFmt f64
  bundle g ⟨[useOf a.src n 0, useOf b.src n 1], some (d, n)⟩ false
    (writesF d (fpClass f64) fun e v l =>
      let c := signFlags t negD absD (v.fcode e f64 d l)
      fresult f64 (t.fma (Rnd.mode r v.frm) (t.value (v.fsrc e f64 a l)) (t.value (v.fsrc e f64 b l)) (t.value c))) s

/-- A two-source operation that does not round (R113). -/
def floatPick (g : Guard) (f64 : Bool) (d : Reg) (a b : FSrc) (isMax : Bool) (s : State) :
    Host.Outcome State Fault Refusal :=
  let n := fpRegs f64
  bundle g ⟨[useOf a.src n 0, useOf b.src n 1], some (d, n)⟩ false
    (writesF d (fpClass f64) fun e v l =>
      fresult f64 ((fpFmt f64).minMax isMax (v.fsrc e f64 a l) (v.fsrc e f64 b l))) s

/-- FMIN (R113). -/
def execFmin (g : Guard) (f64 : Bool) (d : Reg) (a b : FSrc) (s : State) : Host.Outcome State Fault Refusal :=
  floatPick g f64 d a b false s

/-- FMAX (R113). -/
def execFmax (g : Guard) (f64 : Bool) (d : Reg) (a b : FSrc) (s : State) : Host.Outcome State Fault Refusal :=
  floatPick g f64 d a b true s

/-- FSET (R114): a signalling NaN sets NV, and with .s a quiet one too. -/
def execFset (g : Guard) (f64 : Bool) (p : BitVec 3) (a b : FSrc) (cond : FCond) (sig : Bool) (s : State) :
    Host.Outcome State Fault Refusal :=
  let n := fpRegs f64
  let t := fpFmt f64
  bundle g ⟨[useOf a.src n 0, useOf b.src n 1], none⟩ false
    (fun e w =>
      let v := w.wave e.wid
      let x := fun l => t.value (v.fsrc e f64 a l)
      let y := fun l => t.value (v.fsrc e f64 b l)
      let nv := fun l => (x l).isSig || (y l).isSig || (sig && ((x l).isNan || (y l).isNan))
      let v' := v.putPred e p fun l => FCond.holds cond ((x l).cmp (y l))
      let v' := e.act.foldl (fun v l => v.orFlags l (if nv l then flagNV else 0)) v'
      ⟨w.setWave e.wid v', .next, fpClass f64, 1⟩) s

/-- FCLASS (R115). -/
def execFclass (g : Guard) (f64 : Bool) (d : Reg) (a : FSrc) (s : State) : Host.Outcome State Fault Refusal :=
  bundle g ⟨[useOf a.src (fpRegs f64) 0], some (d, 1)⟩ false
    (writes d (fpClass f64) fun e v l => [BitVec.ofNat 32 (2 ^ (fpFmt f64).classBit (v.fsrc e f64 a l))]) s

/-! ### Long functions (R116): producers -/

/-- FDIV (R116). -/
def execFdiv (g : Guard) (f64 : Bool) (r : Rnd) (d : Reg) (a b : FSrc) (s : State) : Host.Outcome State Fault Refusal :=
  let n := fpRegs f64
  let t := fpFmt f64
  bundle g ⟨[useOf a.src n 0, useOf b.src n 1], some (d, n)⟩ false
    (produces d n .long clsSfu fun e v l =>
      fresult f64 (t.div (Rnd.mode r v.frm) (t.value (v.fsrc e f64 a l)) (t.value (v.fsrc e f64 b l)))) s

/-- A long function of one source. -/
def longOne (g : Guard) (f64 : Bool) (r : Rnd) (d : Reg) (a : FSrc) (f : FFmt → RMode → FVal → FRes) (s : State) :
    Host.Outcome State Fault Refusal :=
  let n := fpRegs f64
  let t := fpFmt f64
  bundle g ⟨[useOf a.src n 0], some (d, n)⟩ false
    (produces d n .long clsSfu fun e v l =>
      fresult f64 (f t (Rnd.mode r v.frm) (t.value (v.fsrc e f64 a l)))) s

/-- FSQRT (R116). -/
def execFsqrt (g : Guard) (f64 : Bool) (r : Rnd) (d : Reg) (a : FSrc) (s : State) : Host.Outcome State Fault Refusal :=
  longOne g f64 r d a (fun t m x => t.sqrt m x) s

/-- FRCP (R116). -/
def execFrcp (g : Guard) (f64 : Bool) (r : Rnd) (d : Reg) (a : FSrc) (s : State) : Host.Outcome State Fault Refusal :=
  longOne g f64 r d a (fun t m x => t.rcp m x) s

/-- FRSQ (R116). -/
def execFrsq (g : Guard) (f64 : Bool) (r : Rnd) (d : Reg) (a : FSrc) (s : State) : Host.Outcome State Fault Refusal :=
  longOne g f64 r d a (fun t m x => t.rsq m x) s

/-- FEXP2 (R116). -/
def execFexp2 (g : Guard) (f64 : Bool) (r : Rnd) (d : Reg) (a : FSrc) (s : State) : Host.Outcome State Fault Refusal :=
  longOne g f64 r d a (fun t m x => t.exp2 m x) s

/-- FLOG2 (R116). -/
def execFlog2 (g : Guard) (f64 : Bool) (r : Rnd) (d : Reg) (a : FSrc) (s : State) : Host.Outcome State Fault Refusal :=
  longOne g f64 r d a (fun t m x => t.log2 m x) s

/-- FSIN (R116). -/
def execFsin (g : Guard) (f64 : Bool) (r : Rnd) (d : Reg) (a : FSrc) (s : State) : Host.Outcome State Fault Refusal :=
  longOne g f64 r d a (fun t m x => t.sinCos false m x) s

/-- FCOS (R116). -/
def execFcos (g : Guard) (f64 : Bool) (r : Rnd) (d : Reg) (a : FSrc) (s : State) : Host.Outcome State Fault Refusal :=
  longOne g f64 r d a (fun t m x => t.sinCos true m x) s

/-! ### Packed halves (R124) -/

/-- FP16 or BF16. -/
def halfFmt (bf : Bool) : FFmt := if bf then bf16 else fp16

/-- Element `i` of a register of two 16-bit values, after the source flags. -/
def halfAt (t : FFmt) (neg abs : Bool) (x : Word) (i : Nat) : FVal :=
  t.value (signFlags t neg abs (x.toNat / 2 ^ (16 * i) % 2 ^ 16))

/-- An operation on both elements of packed registers, its flags ORed (R124). -/
def halfPair (f : Nat → FRes) : List Word × BitVec 7 :=
  ([BitVec.ofNat 32 ((f 0).1 + (f 1).1 * 2 ^ 16)], (f 0).2 ||| (f 1).2)

/-- A packed operation on sources a and b, and on d as the addend. -/
def halfOp (g : Guard) (bf : Bool) (r : Rnd) (d : Reg) (negD absD : Bool) (a b : FSrc)
    (f : FFmt → RMode → FVal → FVal → FVal → FRes) (s : State) : Host.Outcome State Fault Refusal :=
  let t := halfFmt bf
  bundle g ⟨[useOf a.src 1 0, useOf b.src 1 1], some (d, 1)⟩ false
    (writesF d clsFp32 fun e v l =>
      halfPair fun i => f t (Rnd.mode r v.frm) (halfAt t a.neg a.abs (v.val e a.src.reg l) i)
        (halfAt t b.neg b.abs (v.val e b.src.reg l) i) (halfAt t negD absD (v.val e d l) i)) s

/-- HADD2 (R124). -/
def execHadd2 (g : Guard) (bf : Bool) (r : Rnd) (d : Reg) (a b : FSrc) (s : State) : Host.Outcome State Fault Refusal :=
  halfOp g bf r d false false a b (fun t m x y _ => t.add m x y) s

/-- HMUL2 (R124). -/
def execHmul2 (g : Guard) (bf : Bool) (r : Rnd) (d : Reg) (a b : FSrc) (s : State) : Host.Outcome State Fault Refusal :=
  halfOp g bf r d false false a b (fun t m x y _ => t.mul m x y) s

/-- HFMA2 (R124): the addend is the destination register. -/
def execHfma2 (g : Guard) (bf : Bool) (r : Rnd) (d : Reg) (negD absD : Bool) (a b : FSrc) (s : State) :
    Host.Outcome State Fault Refusal :=
  halfOp g bf r d negD absD a b (fun t m x y z => t.fma m x y z) s

end Sys2Proof.Machine
end

