-- ==== Sys2Proof/Machine/Convert.lean ====
section
/-! DEFINITION. Conversions: between register formats, and through format slots; TFENCE (05 R117–R123). -/

namespace Sys2Proof.Machine

/-- FRND (R117). -/
def execFrnd (g : Guard) (f64 : Bool) (r : Rnd) (d : Reg) (a : Src) (s : State) : Host.Outcome State Fault Refusal :=
  let n := fpRegs f64
  bundle g ⟨[useOf a n 0], some (d, n)⟩ false
    (writesF d clsFp32 fun e v l => fresult f64 ((fpFmt f64).integral (Rnd.mode r v.frm) (v.fcode e f64 a.reg l))) s

/-- Whether an integer type code is of 64 bits, and whether it is signed (R118). -/
def ityWide (ty : BitVec 2) : Bool := ty.getLsbD 1
def itySigned (ty : BitVec 2) : Bool := !ty.getLsbD 0

/-- A float as an integer of a type (R118): a NaN is 0 with NV, and a value outside the range its nearest end with NV and
SAT. -/
def floatToInt (ty : BitVec 2) (mode : RMode) (x : FVal) : FRes :=
  let n := if ityWide ty then 64 else 32
  let lo := if itySigned ty then 2 ^ (n - 1) else 0
  let hi := if itySigned ty then 2 ^ (n - 1) - 1 else 2 ^ n - 1
  let r := intEncode n lo hi mode x
  (r.1, if r.2 = flagSAT then flagNV ||| flagSAT else r.2)

/-- F2I (R118). -/
def execF2i (g : Guard) (f64 : Bool) (r : Rnd) (d : Reg) (a : Src) (ty : BitVec 2) (s : State) :
    Host.Outcome State Fault Refusal :=
  bundle g ⟨[useOf a (fpRegs f64) 0], some (d, ityRegs ty)⟩ false
    (writesF d clsFp32 fun e v l =>
      fresult (ityWide ty) (floatToInt ty (Rnd.mode r v.frm) ((fpFmt f64).value (v.fcode e f64 a.reg l)))) s

/-- An integer of a type as an exact value (R118). -/
def intOfType (ty : BitVec 2) (x : Nat) : FVal :=
  let n := if ityWide ty then 64 else 32
  if itySigned ty then intValue n x else .num false x 1

/-- I2F (R118). -/
def execI2f (g : Guard) (f64 : Bool) (r : Rnd) (d : Reg) (a : Src) (ty : BitVec 2) (s : State) :
    Host.Outcome State Fault Refusal :=
  bundle g ⟨[useOf a (ityRegs ty) 0], some (d, fpRegs f64)⟩ false
    (writesF d clsFp32 fun e v l =>
      fresult f64 ((fpFmt f64).ofValue (Rnd.mode r v.frm) (intOfType ty (v.fcode e (ityWide ty) a.reg l)))) s

/-- F2F (R119): widening is exact, narrowing rounds once. -/
def execF2f (g : Guard) (narrow : Bool) (r : Rnd) (d : Reg) (a : Src) (s : State) : Host.Outcome State Fault Refusal :=
  bundle g ⟨[useOf a (fpRegs narrow) 0], some (d, fpRegs (!narrow))⟩ false
    (writesF d clsFp32 fun e v l =>
      fresult (!narrow) ((fpFmt (!narrow)).ofValue (Rnd.mode r v.frm) ((fpFmt narrow).value (v.fcode e narrow a.reg l)))) s

/-! ### Through slots (R120–R122) -/

/-- Slot `n` of the launch of the current split. -/
def curSlot (s : State) (n : BitVec 3) : BitVec 64 :=
  match s.dev.sys.cur with
  | none => 0
  | some c =>
    let v := mget s.dev.waves c.wid Wave.blank
    (mget s.dev.launches v.lid Launch.blank).slots.getD n.toNat 0

/-- An issue check that fails: ILLEGAL/OPERAND, unless no lane is active. -/
def refuseOperand (g : Guard) (s : State) : Host.Outcome State Fault Refusal :=
  bundle g noUses false (fun e w => if e.act.isEmpty then ⟨w, .next, clsCtrl, 1⟩ else illegalOperand w) s

/-- CVT (R121). -/
def execCvt (g : Guard) (out : Bool) (d : Reg) (a : Src) (slot : BitVec 3) (s : State) :
    Host.Outcome State Fault Refusal :=
  let x := curSlot s slot
  let wide := slotFmt x == 7
  if wide ∧ !(if out then a.reg.aligned 2 else d.aligned 2) then refuseOperand g s
  else if out then
    bundle g ⟨[useOf a (fpRegs wide) 0], some (d, 1)⟩ false
      (writesF d clsFp32 fun e v l =>
        fresult false (slotOut x (v.fcode e wide a.reg l % 2 ^ slotBits x))) s
  else
    bundle g ⟨[useOf a 1 0], some (d, fpRegs wide)⟩ false
      (writesF d clsFp32 fun e v l => fresult wide (slotIn x (fp32.value (v.val e a.reg l).toNat))) s

/-- CVTP (R122): n FP32 registers packed into one. -/
def execCvtp (g : Guard) (d : Reg) (a : Src) (slot : BitVec 3) (s : State) : Host.Outcome State Fault Refusal :=
  let x := curSlot s slot
  let w := slotBits x
  let n := 32 / w
  if w = 64 ∨ !a.reg.aligned n then refuseOperand g s
  else
    bundle g ⟨[useOf a n 0], some (d, 1)⟩ false
      (writesF d clsFp32 fun e v l =>
        let rs := (v.vals e a.reg n l).map fun y => slotIn x (fp32.value y.toNat)
        let code := (rs.zipIdx).foldl (fun k r => k + r.1.1 * 2 ^ (w * r.2)) 0
        ([BitVec.ofNat 32 code], rs.foldl (fun f r => f ||| r.2) 0)) s

/-- CVTU (R122): one register unpacked into n FP32 registers. -/
def execCvtu (g : Guard) (d : Reg) (a : Src) (slot : BitVec 3) (s : State) : Host.Outcome State Fault Refusal :=
  let x := curSlot s slot
  let w := slotBits x
  let n := 32 / w
  if w = 64 ∨ !d.aligned n then refuseOperand g s
  else
    bundle g ⟨[useOf a 1 0], some (d, n)⟩ false
      (writesF d clsFp32 fun e v l =>
        let rs := (List.range n).map fun i => slotOut x ((v.val e a.reg l).toNat / 2 ^ (w * i) % 2 ^ w)
        (rs.map fun r => BitVec.ofNat 32 r.1, rs.foldl (fun f r => f ||| r.2) 0)) s

/-! ### TFENCE (R123) -/

/-- Whether a long producer of some lanes is still outstanding. -/
def Wave.longPending (v : Wave) (ls : List Nat) : Bool :=
  v.outs.any fun o => o.2.kind == .long && ls.contains o.2.lane

/-- TFENCE (R123): waits for the long producers of its lanes, then raises ARITH when an enabled flag is set, with the flags of the
lanes whose fault is not deferred. Lanes of speculative tasks without an enabled flag are not parked by those that have one
(R310). -/
def execTfence (g : Guard) (s : State) : Host.Outcome State Fault Refusal :=
  bundle g noUses false (fun e w =>
    let v := w.wave e.wid
    let hit := fun l => (v.lane l).fpsr &&& (v.lane l).fpen
    if v.longPending e.act then ⟨w, .stall, clsFp32, 0⟩
    else
      let later := w.anySpeculative e.wid e.act
      let all := (e.act.filter fun l => !later.contains l).foldl (fun x l => x ||| hit l) 0
      w.judge e (e.act.map fun l => (l, if hit l = 0 then .ok else .fail Cause.arith 0 all.toNat [])) .r clsFp32 1
        fun _ w => ⟨w, .next, clsFp32, 1⟩) s

end Sys2Proof.Machine
end

