-- ==== Sys2Proof/Machine/Algebra.lean ====
section
/-! DEFINITION. Algebra operations on registers (05 R125–R128). ALTAB is an array operation (Machine/Array.lean). -/

namespace Sys2Proof.Machine

/-- The algebra table al`t` of the core of the current split, at issue (R130). -/
def curTable (s : State) (t : BitVec 2) : List Byte :=
  match s.dev.sys.cur with
  | none => []
  | some c =>
    let v := mget s.dev.waves c.wid Wave.blank
    mget (mget s.dev.cores v.coreOf Core.reset).al t.toNat []

/-- A group's component in a lane as a value. -/
def Wave.comp (v : Wave) (e : Iss) (r : Reg) (l i : Nat) : FVal := fp32.value (v.val e (regAt r i) l).toNat

/-- Components with their flags as words. -/
def compWords (rs : List FRes) : List Word × BitVec 7 :=
  (rs.map fun r => BitVec.ofNat 32 r.1, rs.foldl (fun f r => f ||| r.2) 0)

/-- ALMUL (R126). -/
def execAlmul (g : Guard) (r : Rnd) (d : Reg) (a b : Src) (t : BitVec 2) (s : State) :
    Host.Outcome State Fault Refusal :=
  let tab := curTable s t
  let n := tableDim tab
  if !(d.aligned n && a.reg.aligned n && b.reg.aligned n) then refuseOperand g s
  else
    bundle g ⟨[useOf a n 0, useOf b n 1], some (d, n)⟩ false
      (writesF d clsFp32 fun e v l => compWords ((List.range n).map fun k =>
        sumTerms (Rnd.mode r v.frm) (productTerms tab (v.comp e a.reg l) (v.comp e b.reg l) k))) s

/-- ALMAC (R126): a component that receives no term keeps its code (R125). -/
def execAlmac (g : Guard) (r : Rnd) (d : Reg) (a b : Src) (t : BitVec 2) (s : State) :
    Host.Outcome State Fault Refusal :=
  let tab := curTable s t
  let n := tableDim tab
  if !(d.aligned n && a.reg.aligned n && b.reg.aligned n) then refuseOperand g s
  else
    bundle g ⟨[useOf a n 0, useOf b n 1], some (d, n)⟩ false
      (writesF d clsFp32 fun e v l => compWords ((List.range n).map fun k =>
        let ts := productTerms tab (v.comp e a.reg l) (v.comp e b.reg l) k
        if ts.isEmpty then ((v.val e (regAt d k) l).toNat, 0)
        else sumTerms (Rnd.mode r v.frm) (some (v.comp e d l k) :: ts))) s

/-- Whether a table's conjugation negates a component (R54). -/
def conjBit (tab : List Byte) (i : Nat) : Bool := (tab.getD 1 0).getLsbD i

/-- ALCONJ (R127): only sign bits change. -/
def execAlconj (g : Guard) (d : Reg) (a : Src) (t : BitVec 2) (s : State) : Host.Outcome State Fault Refusal :=
  let tab := curTable s t
  let n := tableDim tab
  if !(d.aligned n && a.reg.aligned n) then refuseOperand g s
  else
    bundle g ⟨[useOf a n 0], some (d, n)⟩ false
      (writes d clsFp32 fun e v l => (List.range n).map fun i =>
        let x := v.val e (regAt a.reg i) l
        if conjBit tab i then x ^^^ 0x80000000 else x) s

/-- ALNORM (R128): component 0 of a ⊗ conj(a), rounded once. -/
def execAlnorm (g : Guard) (r : Rnd) (d : Reg) (a : Src) (t : BitVec 2) (s : State) : Host.Outcome State Fault Refusal :=
  let tab := curTable s t
  let n := tableDim tab
  if !a.reg.aligned n then refuseOperand g s
  else
    bundle g ⟨[useOf a n 0], some (d, 1)⟩ false
      (writesF d clsFp32 fun e v l =>
        let x := v.comp e a.reg l
        let y := fun i => if conjBit tab i then (x i).neg else x i
        compWords [sumTerms (Rnd.mode r v.frm) (productTerms tab x y 0)]) s

end Sys2Proof.Machine
end

