-- ==== Sys2Proof/Machine/Access.lean ====
section
/-! DEFINITION. What every access of a lane shares: the address, the checks of R150, the colour step of R167 and R168, and
the read or write that follows (07, 08, 10 R198, R199, 17 R301–R307). -/

namespace Sys2Proof.Machine

/-! ### Addresses and checks -/

/-- The code of a space (R69). -/
def spaceCode : Space → Nat
  | .g => 0
  | .c => 1
  | .x => 2
  | .h => 3
  | .l => 4

/-- The effective address of a lane (R69): modulo 2⁶⁴ in global space, modulo 2³² elsewhere. -/
def Wave.ea (v : Wave) (e : Iss) (sp : Space) (a : Reg) (off : BitVec 16) (l : Nat) : Nat :=
  match sp with
  | .g => (v.val64 e a l + sextTo 64 off).toNat
  | _ => (v.val e a l + sextTo 32 off).toNat

/-- The access of one lane, once checked: its address, the memory key of its first byte, its length, and where it goes when
it is global. -/
structure Acs where
  lane : Nat
  ea : Nat
  key : Nat
  len : Nat
  phys : Option Phys
  deriving DecidableEq, Repr

/-- TINFO of MEMFAULT, PROTECT, ALIGN and BOUNDS of a program's access (R146). -/
def memInfo (l : Nat) (sp : Space) (acc : Acc) : Nat :=
  l * 2 ^ 8 + b2n (acc == .w || acc == .rw) * 2 ^ 4 + spaceCode sp

/-- Bytes of an explicit space that a lane may reach (R149, R150): the block's allocation, the cluster memory of its
logical cluster, the context's window, or the lane's bytes below HLOW. -/
def Work.spaceSize (w : Work) (e : Iss) (sp : Space) (l : Nat) : Nat :=
  let lc := w.launch e.lid
  match sp with
  | .g => 2 ^ 56
  | .c => lc.beta
  | .x => (lc.rolesOf ((w.block e.bid).lcore / 8)).length * lc.lend
  | .h => (w.ctx e.ctx).rec_.chipw
  | .l => min lc.l ((w.wave e.wid).lane l).hlow

/-- The memory key of an offset of an explicit space (log entry 8: DEDUCED). -/
def Work.spaceKey (w : Work) (e : Iss) (sp : Space) (l off : Nat) : Nat :=
  match sp with
  | .g => 0
  | .c => (PAddr.scratch e.bid off).key
  | .x => (PAddr.cluster e.lid ((w.block e.bid).lcore / 8) off).key
  | .h => (PAddr.chip e.ctx off).key
  | .l => (PAddr.lane e.wid l off).key

/-- Granules of a split whose record closed without a mapping (R339). -/
def Work.deniedOf (w : Work) (e : Iss) : List Nat := ((w.wave e.wid).split e.entry).denied

/-- Checks 1 to 4 of R150 for one lane's access of `n` bytes aligned to `al`. -/
def Work.aim (w : Work) (e : Iss) (sp : Space) (acc : Acc) (n al : Nat) (l ea : Nat) : (Motion × Acs) × Work :=
  let fail := fun (c : BitVec 8) (cs : List Chk) =>
    (Motion.fail c (BitVec.ofNat 64 ea) (memInfo l sp acc) cs, (⟨l, ea, 0, n, none⟩ : Acs))
  if ea % al ≠ 0 then (fail Cause.align [], w)
  else match sp with
    | .g =>
      let (c, w) := w.check e.ctx e.core ea acc
      match c with
      | .ok p => ((.ok, ⟨l, ea, p.key, n, some p⟩), w)
      | .fault k _ => (fail k [], w)
      | .refused t k p a => (fail Cause.protect [.refused t k p a], w)
      | .page g lv =>
        if (w.deniedOf e).contains g then (fail Cause.memfault [], w)
        else ((.pages [(g, lv)], ⟨l, ea, 0, n, none⟩), w)
    | _ =>
      if w.spaceSize e sp l < ea + n then (fail Cause.bounds [], w)
      else ((.ok, ⟨l, ea, w.spaceKey e sp l ea, n, none⟩), w)

/-- A check made for each lane of a list, ascending. -/
def Work.aims (w : Work) (ls : List Nat) (f : Work → Nat → (Motion × Acs) × Work) : List (Motion × Acs) × Work :=
  ls.foldl (fun (r : List (Motion × Acs) × Work) l =>
    let (m, w) := f r.2 l
    (r.1 ++ [m], w)) ([], w)

/-- The outcomes of checks by lane. -/
def outsOf (xs : List (Motion × Acs)) : List (Nat × Motion) := xs.map fun x => (x.2.lane, x.1)

/-- The accesses of lanes that are still active. -/
def acsOf (e : Iss) (xs : List (Motion × Acs)) : List Acs :=
  (xs.filter fun x => x.1 == .ok && e.act.contains x.2.lane).map (·.2)

/-- Accesses of lanes that are still active. -/
def keepActive (e : Iss) (xs : List Acs) : List Acs := xs.filter fun x => e.act.contains x.lane

/-- The tag of the line of an access (R162). -/
def Work.tagOf (w : Work) (x : Acs) : BitVec 12 :=
  match x.phys with
  | some p => w.tag p
  | none => 0

/-- Distinct 16-byte sectors of a list of accesses (R364). -/
def sectorCount (xs : List Acs) : Nat :=
  (xs.flatMap fun x => (List.range ((x.key / 8 % 16 + x.len + 15) / 16)).map fun i =>
    (x.key % 8, x.key / 128 + i)).eraseDups.length

/-! ### Ordered tasks -/

/-- Whether R301 marks an access as irrevocable. -/
def Work.irrevocable (w : Work) (sp : Space) (atomic : Bool) (x : Acs) : Bool :=
  match sp with
  | .c | .l => false
  | .x | .h => true
  | .g => match x.phys with
    | some p => p.kind != 0 || (atomic && w.tag p == 0)
    | none => false

/-- Speculative lanes whose access is irrevocable leave the split and park (R301, R308). -/
def Work.parkIrrevocable (w : Work) (e : Iss) (sp : Space) (atomic : Bool) (xs : List Acs) : Iss × Work :=
  w.parkFrontier e (w.anySpeculative e.wid ((xs.filter (w.irrevocable sp atomic)).map (·.lane)))

/-- Whether a lane's versioned write would take its write set past 512 sectors (R307). -/
def Work.pastWriteSet (w : Work) (e : Iss) (x : Acs) : Bool :=
  match ((w.wave e.wid).lane x.lane).ordered, x.phys with
  | some t, some p =>
    p.kind == 0 && w.speculative e.wid x.lane && decide (512 ≤ w.writeSet e.ctx t) &&
      !((w.ctx e.ctx).tasks.versions.any fun y => y.dom == t.dom && y.seq == t.seq && y.sector == p.pa / 16)
  | _, _ => false

/-! ### The colour step -/

/-- A lane outside a claiming domain, or of another, meets the claim: the tasks that keep it alive are aborted, the frontier
excepted (R177). -/
def Work.meetClaim (w : Work) (ctx wid l : Nat) (c : BitVec 12) : Work :=
  match ((w.ctx ctx).mon c).claim with
  | none => w
  | some d =>
    if (((w.wave wid).lane l).ordered.map (·.dom)) = some d then w
    else match w.domain ctx d with
      | none => w
      | some dm => (dm.tasks.filter fun t => t.colours.contains c).foldl (fun w t => w.abortTask ctx d t.task.seq) w

/-- Lanes wait for colours: they form a split at this PC, parked with REASON COLOUR, join their queues in lane order, and
meet the claims that stand (R167, R169, R177). -/
def Work.parkColour (w : Work) (e : Iss) (ws : List (Nat × BitVec 12)) : Iss × Work :=
  let (e, w) := w.parkAs e .colour (ws.map (·.1))
  let join := fun (w : Work) (x : Nat × BitVec 12) =>
    let n := if ((w.ctx e.ctx).mon x.2).queue.contains ⟨e.wid, x.1⟩ then 0 else 1
    (w.enqueue e.ctx e.wid x.1 x.2).count e.core e.ctx 0x0C n
  let w := ws.foldl join w
  (e, ws.foldl (fun w x => w.meetClaim e.ctx e.wid x.1 x.2) w)

/-- What the classification of a lane does before the access (R167, R177): it enters or claims, and every other lane that is
done waiting leaves the queues it stood in (R169). -/
def Work.settleColour (w : Work) (e : Iss) (p : Nat × Step1) : Work :=
  match p.2 with
  | .go => w.withdraw e.ctx e.wid p.1 []
  | .enter c => (w.withdraw e.ctx e.wid p.1 []).enterColour e.ctx e.core e.wid p.1 c
  | .claim c =>
    let w := w.withdraw e.ctx e.wid p.1 []
    match ((w.wave e.wid).lane p.1).ordered with
    | some t => w.claimColour e.ctx t c
    | none => w
  | .waits _ => w

/-- Checks 1 to 3 of R168 for a classified lane, as an outcome of the lane; TADDR is the address of the line (R144). -/
def Work.colourOut (w : Work) (e : Iss) (line : Nat) (p : Nat × Step1) : Nat × Motion :=
  (p.1, match w.colourCheck e.ctx e.wid p with
    | none => .ok
    | some (c, i) => .fail c (BitVec.ofNat 64 line) (i + p.1 * 2 ^ 24) [])

/-- The waits of a classification. -/
def waitsOf (cls : List (Nat × Step1)) : List (Nat × BitVec 12) := cls.filterMap fun p => match p.2 with
  | .waits c => some (p.1, c)
  | _ => none

/-- The line of an address. -/
def lineOf (ea : Nat) : Nat := ea / 128 * 128

/-- A colour step that raises a cause leaves no lane of the split queued (R174); a lane whose fault is deferred leaves the
queue of its earlier access too (R169, R310). -/
def Work.leaveQueues (w : Work) (e : Iss) (outs : List (Nat × Motion)) : Work :=
  let failing := (outs.filter fun x => x.2.failed).map (·.1)
  let gone := if (w.anySpeculative e.wid failing).length = failing.length then failing else e.act
  gone.foldl (fun w l => w.withdraw e.ctx e.wid l []) w

/-- The colour step of an instruction whose lanes each touch one line (R167, R168, R177); `go` performs the lanes that
proceed. -/
def Work.colourStep (w : Work) (e : Iss) (xs : List Acs) (cls : Nat) (go : Iss → Work → List Acs → Eff) : Eff :=
  let ps := w.classify e.ctx e.wid (xs.map fun x => (x.lane, w.tagOf x))
  let outs := (xs.zip ps).map fun y => w.colourOut e (lineOf y.1.ea) y.2
  let w := w.leaveQueues e outs
  w.judge e outs .r cls 0 fun e w =>
    let ps := ps.filter fun p => e.act.contains p.1
    let w := ps.foldl (fun w p => w.settleColour e p) w
    let (e, w) := w.parkColour e (waitsOf ps)
    if e.mask = 0 then ⟨w, .gone, cls, 0⟩ else go e w (keepActive e xs)

/-! ### Reading and writing in one lane -/

/-- The ordered task that an access of a lane is versioned for (R301). -/
def Work.versioned (w : Work) (e : Iss) (x : Acs) : Option (TaskRec × Phys) :=
  match ((w.wave e.wid).lane x.lane).ordered, x.phys with
  | some t, some p => if p.kind = 0 then some (t, p) else none
  | _, _ => none

/-- The bytes of a lane's access; and whether the memory that gave them is uncorrectable (R199): as the home is now, whichever copy
is read (log entry 89: DESIGN CHOICE). -/
def Work.readLane (w : Work) (e : Iss) (x : Acs) : (List Byte × Bool) × Work :=
  match x.phys with
  | none => ((w.bytes x.key x.len, w.badData x.key x.len), w)
  | some p =>
    match w.versioned e x with
    | some (t, p) =>
      let bad := w.badData x.key x.len && (w.versionFor e.ctx t (p.pa / 16)).isNone
      let (bs, w) := w.readVersion e.ctx e.core t p x.len
      ((bs, bad), w)
    | none =>
      let bad := w.badData x.key x.len
      let (bs, w) := w.readVia e.ctx e.core p x.len
      ((bs, bad), w)

/-- The bytes of a lane's load of a range at a place: a versioned one sector by sector, else by atomic units (R129, R160, R272,
R303). -/
def Work.readRange (w : Work) (e : Iss) (l key n : Nat) : List Byte × Work :=
  match ((w.wave e.wid).lane l).ordered, placeOf key with
  | none, some p => w.readVia e.ctx e.core p n
  | _, _ => (List.range ((n + 15) / 16)).foldl (fun (r : List Byte × Work) i =>
      let k := key + 128 * i
      let ((bs, _), w) := r.2.readLane e ⟨l, 0, k, min 16 (n - 16 * i), placeOf k⟩
      (r.1 ++ bs, w)) ([], w)

/-- The first of `n` bytes of a lane's load at a key that is uncorrectable: one that the lane's task reads of a version is not
(R199, R303). -/
def Work.badFor (w : Work) (e : Iss) (l key n : Nat) : Option Nat :=
  if w.dev.bad.isEmpty then none
  else
    let versioned := fun (k : Nat) => match ((w.wave e.wid).lane l).ordered with
      | some t => k % 8 == 0 && (w.versionFor e.ctx t (k / 128)).isSome
      | none => false
    (List.range n).find? fun i => w.dev.bad.contains (key + 8 * i) && !versioned (key + 8 * i)

/-- A lane's write. A lane that a shortage of version ways has aborted writes nothing (R306). -/
def Work.writeLane (w : Work) (e : Iss) (x : Acs) (bs : List Byte) : Work :=
  match x.phys with
  | none => (w.putBytes x.key bs).mend x.key bs.length
  | some p =>
    match w.versioned e x with
    | some (t, p) =>
      let w := w.versionSpace e.ctx t (p.pa / 16)
      if ((w.wave e.wid).lane x.lane).alive then (w.dirty p).writeVersion e.ctx t p bs else w
    | none => w.writeVia e.core p bs

/-- The L1 copy of the sector of an access performed at its home slice goes, on the issuing core. -/
def Work.atHomeOf (w : Work) (e : Iss) (x : Acs) : Work :=
  match x.phys with
  | some p => w.atHome e.core p
  | none => w

/-- The outbound target of an access that goes to host or peer memory. -/
def Acs.via (x : Acs) : Option Nat := x.phys.bind fun p => p.via
def Acs.ext (x : Acs) : Bool := x.via.isSome

/-- The bytes of a width (R69). -/
def widthBytes : Width → Nat
  | .u8 | .s8 => 1
  | .u16 | .s16 => 2
  | .b32 => 4
  | .b64 => 8
  | .b128 => 16

/-- The words that a load of a width writes (R200). -/
def loadWords (wd : Width) (bs : List Byte) : List Word :=
  let n := leNat bs
  match wd with
  | .s8 => [(BitVec.ofNat 8 n).signExtend 32]
  | .s16 => [(BitVec.ofNat 16 n).signExtend 32]
  | .b64 => [BitVec.ofNat 32 n, BitVec.ofNat 32 (n / 2 ^ 32)]
  | .b128 => (List.range 4).map fun i => BitVec.ofNat 32 (n / 2 ^ (32 * i))
  | _ => [BitVec.ofNat 32 n]

/-- The bytes that a store of a width writes from its registers (R201). -/
def storeBytes (wd : Width) (ws : List Word) : List Byte :=
  (ws.flatMap fun x => leBytes 4 x.toNat).take (widthBytes wd)

/-! ### Access instructions -/

/-- An instruction whose active lanes each access `n` bytes: checks 1 to 4 of R150 in every lane, the irrevocable rule of
R301, the colour step in global space, and the write-set rule of R307; then `go` performs the lanes that proceed. -/
def Work.access (w : Work) (e : Iss) (sp : Space) (acc : Acc) (n al : Nat) (atomic : Bool) (cls : Nat) (ea : Nat → Nat)
    (go : Iss → Work → List Acs → Eff) : Eff :=
  let (xs, w) := w.aims e.act fun w l => w.aim e sp acc n al l (ea l)
  w.judge e (outsOf xs) acc cls 0 fun e w =>
    let (e, w) := w.parkIrrevocable e sp atomic (acsOf e xs)
    if e.act.isEmpty then ⟨w, e.ends, cls, 0⟩
    else
      let full := fun (e : Iss) (w : Work) (xs : List Acs) =>
        let late := if acc == .r then [] else (xs.filter (w.pastWriteSet e)).map (·.lane)
        let (e, w) := w.parkFrontier e late
        if e.act.isEmpty then ⟨w, e.ends, cls, 0⟩ else go e w (keepActive e xs)
      match sp with
      | .g => w.colourStep e (acsOf e xs) cls full
      | _ => full e w (acsOf e xs)

/-- A lane that has been aborted by a lower lane of its own bundle performs nothing (R305). -/
def Work.lives (w : Work) (e : Iss) (x : Acs) : Bool := ((w.wave e.wid).lane x.lane).alive

/-- A load in one lane: a producer with the value read (R26, R199). -/
def Work.loadLane (w : Work) (e : Iss) (sp : Space) (d : Reg) (n : Nat) (f : List Byte → List Word) (x : Acs) : Work :=
  if !w.lives e x then w
  else
    let ((bs, bad), w) := w.readLane e x
    let poison := if bad then some (BitVec.ofNat 64 x.ea, BitVec.ofNat 3 (spaceCode sp)) else none
    w.begin_ e ⟨.load, x.lane, e.pc, e.fills (w.wave e.wid) d n x.lane, f bs, poison, 0, x.ea, x.via, none⟩

/-- PHIGH of a lane that has stored to its lane-private bytes: above the highest byte stored (R21). -/
def Lane.reach (y : Lane) (top : Nat) : Lane := { y with phigh := max y.phigh top }

/-- What an access to host or peer memory has changed there since a state before it. -/
def Work.undoOf (w before : Work) (x : Acs) : Undo := ⟨x.key, before.bytes x.key x.len, w.bytes x.key x.len⟩

/-- A write to peer memory, and an atomic to host memory, is outstanding until it is acknowledged (R353, R372); `before` is the
state that it found. -/
def Work.awaitAck (w before : Work) (e : Iss) (x : Acs) (posted : Bool) : Work :=
  match x.phys with
  | some p =>
    if p.kind = 1 ∨ (p.kind = 2 ∧ !posted) then
      w.begin_ e ⟨.ack, x.lane, e.pc, [], [], none, 0, x.ea, x.via, some (w.undoOf before x)⟩
    else w
  | none => w

/-- A store in one lane; one to lane-private space takes PHIGH with it (R21). -/
def Work.storeLane (w : Work) (e : Iss) (sp : Space) (x : Acs) (bs : List Byte) : Work :=
  if !w.lives e x then w
  else
    let w := (w.writeLane e x bs).awaitAck w e x true
    match sp with
    | .l => w.modLane e.wid x.lane fun y => y.reach (x.ea + x.len)
    | _ => w

end Sys2Proof.Machine
end

