-- ==== Sys2Proof/Machine/Loads.lean ====
section
/-! DEFINITION. Loads, stores, the read-only path, gathers and scatters, prefetch, and the delivery of producers
(10 R200–R204, 01 R26, R28). -/

namespace Sys2Proof.Machine

/-- The use of an address register: a pair in global space (R198). -/
def addrUse (a : Src) (sp : Space) : Use := useOf a sp.regs 0

/-- LD (R200). -/
def execLd (g : Guard) (d : Reg) (a : Src) (wd : Width) (sp : Space) (off : BitVec 16) (s : State) :
    Host.Outcome State Fault Refusal :=
  bundle g ⟨[addrUse a sp], some (d, wd.regs)⟩ false (fun e w =>
    let n := widthBytes wd
    let v := w.wave e.wid
    w.access e sp .r n n false clsLd (v.ea e sp a.reg off) fun e w xs =>
      ⟨xs.foldl (fun w x => w.loadLane e sp d wd.regs (loadWords wd) x) w, .next, clsLd, sectorCount xs⟩) s

/-- The bytes that each lane stores (R201). -/
def Wave.storeData (v : Wave) (e : Iss) (b : Reg) (wd : Width) (l : Nat) : List Byte :=
  storeBytes wd (v.vals e b wd.regs l)

/-- ST (R201). -/
def execSt (g : Guard) (a b : Src) (wd : Width) (sp : Space) (off : BitVec 16) (s : State) :
    Host.Outcome State Fault Refusal :=
  bundle g ⟨[addrUse a sp, useOf b wd.regs 1], none⟩ false (fun e w =>
    let n := widthBytes wd
    let v := w.wave e.wid
    w.access e sp .w n n false clsSt (v.ea e sp a.reg off) fun e w xs =>
      ⟨xs.foldl (fun w x => w.storeLane e sp x (v.storeData e b.reg wd x.lane)) w, .next, clsSt, sectorCount xs⟩) s

/-! ### The read-only path -/

/-- A read through the read-only cache: its copy or memory, whichever the spec still allows; HBM sectors fill it
(R158, R194, log entry 6: DESIGN CHOICE). The L1 keeps no copy that differs from what was read (R182). -/
def Work.readRo (w : Work) (ctx core : Nat) (p : Phys) (n : Nat) : List Byte × Work :=
  let now := w.bytesAt p n
  if p.kind ≠ 0 then (now, w)
  else
    let s := p.pa / 16
    let ro := (w.core core).ro
    let from_ := match mget? ro s with
      | some c => slice c.bytes (p.pa % 16) n
      | none => now
    let (r, w) := w.pick [from_, now] now
    let hit := (mget? ro s).isSome && r == from_
    let w := if hit then w
      else w.modCore core fun c => { c with ro := putSector c.ro s (w.homeSector s) Config.roLines }
    (r, (w.seen core p r).count core ctx 0x0B (b2n (!hit)))

/-- A checked access that refuses a coloured line: COLOURPATH, with the line's address (R150, R176). -/
def Work.plainLine (w : Work) (x : Motion × Acs) : Motion × Acs :=
  match x.1 with
  | .ok =>
    let c := w.tagOf x.2
    if c = 0 then x
    else (.fail Cause.colourpath (BitVec.ofNat 64 (lineOf x.2.ea)) (c.toNat + x.2.lane * 2 ^ 24) [], x.2)
  | _ => x

/-- LDR (R202). -/
def execLdr (g : Guard) (d : Reg) (a : Src) (wd : Width) (off : BitVec 16) (s : State) :
    Host.Outcome State Fault Refusal :=
  bundle g ⟨[addrUse a .g], some (d, wd.regs)⟩ false (fun e w =>
    let n := widthBytes wd
    let v := w.wave e.wid
    let (xs, w) := w.aims e.act fun w l =>
      let (x, w) := w.aim e .g .r n n l (v.ea e .g a.reg off l)
      (w.plainLine x, w)
    w.judge e (outsOf xs) .r clsLd 0 fun e w =>
      let (e, w) := w.parkIrrevocable e .g false (acsOf e xs)
      let ys := acsOf e xs
      let load := fun (w : Work) (x : Acs) => match x.phys with
        | none => w
        | some p =>
          let bad := w.badData x.key n
          let (bs, w) := w.readRo e.ctx e.core p n
          w.begin_ e ⟨.load, x.lane, e.pc, e.fills v d wd.regs x.lane, loadWords wd bs,
            if bad then some (BitVec.ofNat 64 x.ea, 0) else none, 0, x.ea, x.via, none⟩
      if e.mask = 0 then ⟨w, .gone, clsLd, 0⟩ else ⟨ys.foldl load w, .next, clsLd, sectorCount ys⟩) s

/-! ### GATH and SCAT -/

/-- The completion bit of a lane (R203). -/
def Wave.cbBit (v : Wave) (cb : BitVec 2) (l : Nat) : Bool := (mget v.cb cb.toNat 0).getLsbD l
/-- Set or clear the completion bit of a lane. -/
def Wave.setCb (v : Wave) (cb : BitVec 2) (l : Nat) (b : Bool) : Wave :=
  let x := mget v.cb cb.toNat 0
  { v with cb := mset v.cb cb.toNat (if b then x ||| (1#32 <<< l) else x &&& ~~~(1#32 <<< l)) 0 }

/-- The steps of GATH and SCAT (R203, R141): `perform` makes the access of one lane, and is told whether the instruction
traps afterwards. -/
def Work.partial_ (w : Work) (e : Iss) (sp : Space) (acc : Acc) (n : Nat) (cb : BitVec 2) (cls : Nat) (ea : Nat → Nat)
    (perform : Iss → Work → Bool → Acs → Work) : Eff :=
  let todo := e.act.filter fun l => !(w.wave e.wid).cbBit cb l
  let (xs, w) := w.aims todo fun w l => w.aim e sp acc n n l (ea l)
  let failed := (xs.filter fun x => x.1.failed).map fun x => x.2.lane
  let (e, w) := w.parkFrontier e (w.anySpeculative e.wid failed)
  let (e, w) := w.parkIrrevocable e sp false (acsOf e xs)
  let late := if acc == .r then [] else ((acsOf e xs).filter (w.pastWriteSet e)).map (·.lane)
  let (e, w) := w.parkFrontier e late
  if e.mask = 0 then ⟨w, .gone, cls, 0⟩
  else
    let go := fun (e : Iss) (w : Work) (ys : List Acs) =>
      let rest := xs.filter fun x => e.act.contains x.2.lane
      let pages := rest.flatMap fun x => match x.1 with
        | .pages gs => gs
        | _ => []
      let fails := outsOf (rest.filter fun x => x.1.failed)
      let traps := pages.isEmpty && !fails.isEmpty
      let one := fun (w : Work) (x : Acs) =>
        (perform e w traps x).modWave e.wid fun v => v.setCb cb x.lane true
      let w := ys.foldl one w
      if !pages.isEmpty then ⟨w.parkPages e pages acc, .gone, cls, sectorCount ys⟩
      else if traps then w.judge e fails acc cls 0 fun _ w => ⟨w, .next, cls, 0⟩
      else
        ⟨w.modWave e.wid fun v => e.act.foldl (fun v l => v.setCb cb l false) v, .next, cls, sectorCount ys⟩
    match sp with
    | .g => w.colourStep e (acsOf e xs) cls go
    | _ => go e w (acsOf e xs)

/-- GATH (R203). When it traps, the lanes that performed are full (R28). -/
def execGath (g : Guard) (d : Reg) (a : Src) (wd : Width) (sp : Space) (off : BitVec 16) (cb : BitVec 2) (s : State) :
    Host.Outcome State Fault Refusal :=
  bundle g ⟨[addrUse a sp], some (d, wd.regs)⟩ false (fun e w =>
    let v := w.wave e.wid
    w.partial_ e sp .r (widthBytes wd) cb clsLd (v.ea e sp a.reg off) fun e w traps x =>
      let i := w.dev.sys.nextId
      let w := w.loadLane e sp d wd.regs (loadWords wd) x
      if traps then w.complete e.wid i else w) s

/-- SCAT (R203). -/
def execScat (g : Guard) (a b : Src) (wd : Width) (sp : Space) (off : BitVec 16) (cb : BitVec 2) (s : State) :
    Host.Outcome State Fault Refusal :=
  bundle g ⟨[addrUse a sp, useOf b wd.regs 1], none⟩ false (fun e w =>
    let v := w.wave e.wid
    w.partial_ e sp .w (widthBytes wd) cb clsSt (v.ea e sp a.reg off) fun e w _ x =>
      w.storeLane e sp x (v.storeData e b.reg wd x.lane)) s

/-! ### PREF -/

/-- Fill a whole line into a core's L1 (R157). -/
def Work.fillLine (w : Work) (core : Nat) (pa : Nat) : Work :=
  let line := pa / 128 * 8
  w.modCore core fun c => { c with l1 := (List.range 8).foldl (fun m i =>
    putSector m (line + i) (w.homeSector (line + i)) Config.l1Lines) c.l1 }

/-- PREF (R204): the line is fetched or not, which is free (log entry 6: DESIGN CHOICE); a lane that fails a check, or does not hold the
line's colour, is ignored. Nothing below the L1 is modelled, so .l2 does nothing. -/
def execPref (g : Guard) (a : Src) (l2 : Bool) (off : BitVec 16) (s : State) : Host.Outcome State Fault Refusal :=
  bundle g ⟨[addrUse a .g], none⟩ false (fun e w =>
    let v := w.wave e.wid
    let one := fun (w : Work) (l : Nat) =>
      let (c, w) := w.check e.ctx e.core (v.ea e .g a.reg off l) .r
      match c with
      | .ok p =>
        let tag := w.tag p
        if l2 ∨ p.kind ≠ 0 ∨ (tag ≠ 0 ∧ (p.shrd ∨ !(v.lane l).holds tag)) then w
        else
          let (n, w) := w.draw
          if Config.choice n % 2 = 0 then w.fillLine e.core p.pa else w
      | _ => w
    ⟨e.act.foldl one w, .next, clsCtrl, 1⟩) s

/-! ### Delivery -/

/-- Whether a response of memory may bring an outstanding access: a load, an atomic, or a write to be acknowledged, through no
link that retrains (R372). -/
def Work.mayReturn (w : Work) (o : Out) : Bool :=
  (o.kind == .load || o.kind == .atom || o.kind == .ack) && !w.viaHeld o.via

/-- LOAD_DATA_RETURN (R26, R199): the value of an outstanding load or returning atomic is written, or its destination
poisoned. -/
def execLoadDataReturn (wid idx : Nat) (s : State) : Host.Outcome State Fault Refusal :=
  commit (fun w => match mget? (w.wave wid).outs idx with
    | some o => if w.mayReturn o then w.complete wid idx else w
    | none => w) s

/-- LONG_OP_COMPLETE (R88, R116). -/
def execLongOpComplete (wid idx : Nat) (s : State) : Host.Outcome State Fault Refusal :=
  commit (fun w => match mget? (w.wave wid).outs idx with
    | some o => if o.kind = .long then w.complete wid idx else w
    | none => w) s

/-- SLOW_CSR_RETURN (R33). -/
def execSlowCsrReturn (wid idx : Nat) (s : State) : Host.Outcome State Fault Refusal :=
  commit (fun w => match mget? (w.wave wid).outs idx with
    | some o => if o.kind = .csr then w.complete wid idx else w
    | none => w) s

end Sys2Proof.Machine
end

