-- ==== Sys2Proof/Machine/Atomics.lean ====
section
/-! DEFINITION. Atomics, fences and cache invalidations (10 R205–R209). -/

namespace Sys2Proof.Machine

/-- The new value of an atomic (R205): `n` bits, `m` the old value, `v` the operand, `c` the compare value. -/
def atomValue (op : AOp) (n m v c : Nat) : Nat :=
  let s := fun (x : Nat) => (BitVec.ofNat n x).toInt
  match op with
  | .add => (m + v) % 2 ^ n
  | .min => if s v < s m then v else m
  | .max => if s m < s v then v else m
  | .minu => min m v
  | .maxu => max m v
  | .and => m &&& v
  | .or => m ||| v
  | .xor => m ^^^ v
  | .exch => v
  | .cas => if m = c then v else m
  | .fadd =>
    let t := if n = 64 then fp64 else fp32
    (t.add .rn (t.value m) (t.value v)).1

/-- Scopes in order of width (R179). -/
def scopeRank : Scope → Nat
  | .wave => 0
  | .block => 1
  | .cluster => 2
  | .device => 3
  | .system => 4

/-- The widest scope that reaches a location of a space (R180): of a coloured line of a page that contexts share, the system. -/
def Work.widestScope (w : Work) (sp : Space) (x : Acs) : Scope :=
  match sp with
  | .c => .block
  | .x => .cluster
  | .h => .device
  | .l => .wave
  | .g => if x.ext ∨ (w.tagOf x ≠ 0 ∧ (x.phys.map (·.shrd)).getD false) then .system else .device

/-- The narrower of two scopes. -/
def narrower (a b : Scope) : Scope := if scopeRank a ≤ scopeRank b then a else b

/-- Host memory performs add, exch and cas alone (R207). -/
def hostRefuses (op : AOp) : Bool :=
  match op with
  | .add | .exch | .cas => false
  | _ => true

/-- The read-modify-write of one lane at its point of coherence (R206): the old value, and whether it is uncorrectable. A
task that holds a version of the sector updates its version (R301, log entry 36: DEDUCED). Uncorrectable bytes are taken as they stand,
and the write mends them (log entry 88: DESIGN CHOICE). -/
def Work.atomLane (w : Work) (e : Iss) (x : Acs) (f : Nat → Nat) : (Nat × Bool) × Work :=
  let own := match w.versioned e x with
    | some (t, p) => w.tagOf x != 0 || (w.ctx e.ctx).tasks.versions.any fun y =>
        y.dom == t.dom && y.seq == t.seq && y.sector == p.pa / 16
    | none => false
  let (r, w) :=
    if own then
      let ((bs, bad), w) := w.readLane e x
      let m := leNat bs
      ((m, bad), w.writeLane e x (leBytes x.len (f m)))
    else
      let m := w.num x.key x.len
      let bad := w.badData x.key x.len
      let bs := leBytes x.len (f m)
      match x.phys with
      | none => ((m, bad), (w.putBytes x.key bs).mend x.key x.len)
      | some p => ((m, bad), (w.dirty p).writeHome p.key p.kind p.pa bs none)
  (r, w.atHomeOf e x)

/-- The checks of an atomic in one lane: R150's, then R207's for host memory. -/
def Work.aimAtomic (w : Work) (e : Iss) (op : AOp) (sp : Space) (n l ea : Nat) : (Motion × Acs) × Work :=
  let (x, w) := w.aim e sp .rw n n l ea
  match x.1, x.2.phys with
  | .ok, some p =>
    if p.kind = 2 ∧ hostRefuses op then ((.fail Cause.protect (BitVec.ofNat 64 ea) (memInfo l sp .rw) [], x.2), w)
    else (x, w)
  | _, _ => (x, w)

/-- ATOM and RED (R205, R206); ATOM has a destination. Every earlier write to this part has reached its home when it performs
(log entry 5: DESIGN CHOICE), so a release waits for nothing but, at system scope, the acknowledgements of peers and hosts (R372). -/
def atomic (g : Guard) (op : AOp) (d : Option Reg) (a b : Src) (c : Option Src) (b64 : Bool) (scope : Scope) (acq rel : Bool)
    (sp : Space) (s : State) : Host.Outcome State Fault Refusal :=
  let k := if b64 then 2 else 1
  let n := 4 * k
  let us := [addrUse a sp, useOf b k 1] ++ (match c with
    | some c => [useOf c k 2]
    | none => [])
  bundle g ⟨us, d.map fun d => (d, k)⟩ false (fun e w =>
    let v := w.wave e.wid
    let num := fun (r : Reg) (l : Nat) => leNat ((v.vals e r k l).flatMap fun x => leBytes 4 x.toNat)
    let (xs, w) := w.aims e.act fun w l => w.aimAtomic e op sp n l (v.ea e sp a.reg 0 l)
    w.judge e (outsOf xs) .rw clsAtom 0 fun e w =>
      let (e, w) := w.parkIrrevocable e sp true (acsOf e xs)
      let one := fun (e : Iss) (w : Work) (x : Acs) =>
        if !w.lives e x then w
        else
          let cmp := (c.map fun c => num c.reg x.lane).getD 0
          let before := w
          let ((m, bad), w) := w.atomLane e x fun m => atomValue op (8 * n) m (num b.reg x.lane) cmp
          let w := match d with
            | some d =>
              let vals := (List.range k).map fun i => BitVec.ofNat 32 (m / 2 ^ (32 * i))
              let poison := if bad then some (BitVec.ofNat 64 x.ea, BitVec.ofNat 3 (spaceCode sp)) else none
              let kind := if x.ext then OutKind.atom else .load
              let undo := if x.ext then some (w.undoOf before x) else none
              w.begin_ e ⟨kind, x.lane, e.pc, e.fills v d k x.lane, vals, poison, 0, x.ea, x.via, undo⟩
            | none => w.awaitAck before e x false
          if acq then w.acquire e.core (narrower scope (w.widestScope sp x)) else w
      let full := fun (e : Iss) (w : Work) (ys : List Acs) =>
        let (e, w) := w.parkFrontier e ((ys.filter fun x => w.tagOf x != 0 && w.pastWriteSet e x).map (·.lane))
        let ys := keepActive e ys
        if e.mask = 0 then ⟨w, .gone, clsAtom, 0⟩
        else if rel ∧ ys.any fun x => narrower scope (w.widestScope sp x) == .system && (w.wave e.wid).unacked [x.lane] then
          ⟨w, .stall, clsAtom, 0⟩
        else ⟨ys.foldl (one e) w, .next, clsAtom, ys.length⟩
      if e.mask = 0 then ⟨w, .gone, clsAtom, 0⟩
      else match sp with
        | .g => w.colourStep e (acsOf e xs) clsAtom full
        | _ => full e w (acsOf e xs)) s

/-- ATOM (R205). -/
def execAtom (g : Guard) (op : AOp) (d : Reg) (a b : Src) (c : Option Src) (b64 : Bool) (scope : Scope) (ord : AOrd)
    (sp : Space) (s : State) : Host.Outcome State Fault Refusal :=
  atomic g op (some d) a b c b64 scope (ord == .acq || ord == .acqrel) (ord == .rel || ord == .acqrel) sp s

/-- RED (R205). -/
def execRed (g : Guard) (op : AOp) (a b : Src) (b64 : Bool) (scope : Scope) (rel : Bool) (sp : Space) (s : State) :
    Host.Outcome State Fault Refusal :=
  atomic g op none a b none b64 scope false rel sp s

/-- FENCE (R208): an acquire kind drops the core's colour-0 L1 lines at cluster scope and wider; writes have performed when
a release kind completes (log entry 5: DESIGN CHOICE), which at system scope waits for acknowledgements (R372). -/
def execFence (g : Guard) (kind : FenceKind) (scope : Scope) (s : State) : Host.Outcome State Fault Refusal :=
  bundle g ⟨[], none⟩ false (fun e w =>
    let acq := kind == .acq || kind == .full
    if kind ≠ .acq ∧ scope = .system ∧ (w.wave e.wid).unacked e.act then ⟨w, .stall, clsCtrl, 0⟩
    else ⟨if acq ∧ !e.act.isEmpty then w.acquire e.core scope else w, .next, clsCtrl, 1⟩) s

/-- IFENCE (R209). -/
def execIfence (g : Guard) (s : State) : Host.Outcome State Fault Refusal :=
  bundle g ⟨[], none⟩ true (fun e w =>
    ⟨if e.act.isEmpty then w else w.modCore e.core Core.dropCode, .next, clsCtrl, 1⟩) s

/-- ROINV (R209). -/
def execRoinv (g : Guard) (s : State) : Host.Outcome State Fault Refusal :=
  bundle g ⟨[], none⟩ true (fun e w =>
    ⟨if e.act.isEmpty then w else w.modCore e.core fun c => { c with ro := [] }, .next, clsCtrl, 1⟩) s

end Sys2Proof.Machine
end

