-- ==== Sys2Proof/Machine/ColourOps.lean ====
section
/-! DEFINITION. The colour instructions (08 R173, 10 R210–R212). -/

namespace Sys2Proof.Machine

/-- Put a colour into an ascending list without repeats. -/
def insColour (c : BitVec 12) : List (BitVec 12) → List (BitVec 12)
  | [] => [c]
  | x :: xs => if c < x then c :: x :: xs else if c = x then x :: xs else x :: insColour c xs

/-- What one lane of CLRSET asks for, once checked: `n` lines from a base, and the new colour. -/
structure Recolour where
  lane : Nat
  base : Nat
  n : Nat
  new : BitVec 12
  phys : Option Phys
  deriving DecidableEq, Repr

/-- The colour of line `i` of a range (R162). -/
def Work.lineTag (w : Work) (r : Recolour) (i : Nat) : BitVec 12 :=
  match r.phys with
  | some p => if p.kind = 0 then mget w.dev.tags (p.pa / 128 + i) 0 else 0
  | none => 0

/-- Checks of R210 in one lane. -/
def Work.aimClr (w : Work) (e : Iss) (l base n : Nat) (new : BitVec 12) : (Motion × Recolour) × Work :=
  let r : Recolour := ⟨l, base, n, new, none⟩
  let fail := fun (c : BitVec 8) (cs : List Chk) =>
    (Motion.fail c (BitVec.ofNat 64 base) (memInfo l .g .rw) cs, r)
  if n = 0 then ((.ok, r), w)
  else if base % 128 ≠ 0 then (fail Cause.align [], w)
  else if 512 < n ∨ base / 65536 ≠ (base + 128 * n - 1) / 65536 then (fail Cause.bounds [], w)
  else
    let (c, w) := w.check e.ctx e.core base .rw
    match c with
    | .ok p =>
      if p.kind ≠ 0 ∧ new ≠ 0 then (fail Cause.protect [], w) else ((.ok, { r with phys := some p }), w)
    | .fault k _ => (fail k [], w)
    | .refused t k p a => (fail Cause.protect [.refused t k p a], w)
    | .page g lv => if (w.deniedOf e).contains g then (fail Cause.memfault [], w) else ((.pages [(g, lv)], r), w)

/-- Whether two ranges share a line. -/
def Recolour.meets (a b : Recolour) : Bool := decide (a.base < b.base + 128 * b.n) && decide (b.base < a.base + 128 * a.n)

/-- N of R173: the range's colours and the new one without 0; and the new colours of lower lanes of the bundle that share a
line (log entry 38: DEDUCED). -/
def Work.needs (w : Work) (r : Recolour) (lower : List Recolour) : List (BitVec 12) :=
  let own := if r.n = 0 then [] else r.new :: (List.range r.n).map (w.lineTag r)
  let met := (lower.filter fun x => r.n ≠ 0 && x.n ≠ 0 && x.meets r).map (·.new)
  ((own ++ met).filter fun c => c ≠ 0).foldl (fun a c => insColour c a) []

/-- What the colour step finds for one lane of CLRSET. -/
structure ClrStep where
  r : Recolour
  enters : List (BitVec 12)
  waits : Option (BitVec 12)
  out : Motion
  deriving DecidableEq, Repr

/-- TADDR of a COLOURORDER or MONCAP of CLRSET (R210). -/
def Work.clrAddr (w : Work) (r : Recolour) (c : BitVec 12) : Nat :=
  match (List.range r.n).find? fun i => w.lineTag r i == c with
  | some i => r.base + 128 * i
  | none => r.base

/-- Members of N that a lane may enter, up to the first that another owns (R173). -/
def clrTake (free : BitVec 12 → Bool) (has : BitVec 12 → Bool) : List (BitVec 12) → List (BitVec 12) × Option (BitVec 12)
  | [] => ([], none)
  | c :: cs =>
    if has c then clrTake free has cs
    else if free c then
      let r := clrTake free has cs
      (c :: r.1, r.2)
    else ([], some c)

/-- The colour step of CLRSET (R167, R168, R173), lanes in ascending order. -/
def Work.clrClassify (w : Work) (e : Iss) (rs : List Recolour) : List ClrStep :=
  let v := w.wave e.wid
  (rs.foldl (fun (a : List ClrStep × List (BitVec 12)) r =>
    let x := v.lane r.lane
    let lower := (a.1.filter fun s => s.waits.isNone).map (·.r)
    let need := w.needs r lower
    let (en, wa) := clrTake (fun c => !w.owned e.ctx c x && !a.2.contains c) x.holds need
    let extra := need.filter fun c => !x.holds c
    let cap := x.ordered.isNone && decide (8 < x.held.length + extra.length)
    let h := w.highest e.ctx e.wid r.lane
    let fail := fun (c : BitVec 8) (k : BitVec 12) (i : Nat) =>
      Motion.fail c (BitVec.ofNat 64 (w.clrAddr r k)) (k.toNat + i + r.lane * 2 ^ 24) []
    let out :=
      if cap then fail 0x0A (extra.getD (8 - x.held.length) 0) 0
      else match wa with
        | some c => if c.toNat < h then fail 0x08 c (h * 2 ^ 12) else .ok
        | none => .ok
    (a.1 ++ [⟨r, en, wa, out⟩], en ++ a.2)) ([], [])).1

/-- The tags change at the home slices, and every L1 of the package drops the lines (R173); D of the leaf is set (log entry
39). -/
def Work.recolour (w : Work) (r : Recolour) : Work :=
  match r.phys with
  | none => w
  | some p =>
    if p.kind ≠ 0 then w
    else
      let first := p.pa / 128
      let set := fun (m : FMap (BitVec 12)) (i : Nat) => mset m (first + i) r.new 0
      let keep := fun (s : Nat × Sector) => decide (s.1 / 8 < first) || decide (first + r.n ≤ s.1 / 8)
      (w.dirty p).modDev fun d => { d with
        tags := (List.range r.n).foldl set d.tags
        cores := d.cores.map fun c => (c.1, { c.2 with l1 := c.2.l1.filter keep }) }

/-- CLRSET (R210). -/
def execClrset (g : Guard) (a b c : Src) (s : State) : Host.Outcome State Fault Refusal :=
  bundle g ⟨[useOf a 2 0, useOf b 1 1, useOf c 1 2], none⟩ true (fun e w =>
    let v := w.wave e.wid
    let (xs, w) := e.act.foldl (fun (r : List (Motion × Recolour) × Work) l =>
      let (x, w) := r.2.aimClr e l (v.val64 e a.reg l).toNat (v.val e c.reg l).toNat ((v.val e b.reg l).setWidth 12)
      (r.1 ++ [x], w)) ([], w)
    w.judge e (xs.map fun x => (x.2.lane, x.1)) .rw clsCtrl 1 fun e w =>
      let steps := w.clrClassify e ((xs.map (·.2)).filter fun r => e.act.contains r.lane)
      let outs := steps.map fun x => (x.r.lane, x.out)
      (w.leaveQueues e outs).judge e outs .rw clsCtrl 1 fun e w =>
        let steps := steps.filter fun x => e.act.contains x.r.lane
        let enter := fun (w : Work) (x : ClrStep) =>
          let w := w.withdraw e.ctx e.wid x.r.lane (x.waits.map fun c => [c]).toList.flatten
          x.enters.foldl (fun w c => match ((w.wave e.wid).lane x.r.lane).ordered with
            | some t => w.claimColour e.ctx t c
            | none => w.enterColour e.ctx e.core e.wid x.r.lane c) w
        let w := steps.foldl enter w
        let (e, w) := w.parkColour e (steps.filterMap fun x => x.waits.map fun c => (x.r.lane, c))
        let w := (steps.filter fun x => x.waits.isNone).foldl (fun w x => w.recolour x.r) w
        ⟨w, e.ends, clsCtrl, 1⟩) s

/-- CLRGET (R211). -/
def execClrget (g : Guard) (d : Reg) (a : Src) (off : BitVec 16) (s : State) : Host.Outcome State Fault Refusal :=
  bundle g ⟨[addrUse a .g], some (d, 1)⟩ false (fun e w =>
    let v := w.wave e.wid
    let (xs, w) := w.aims e.act fun w l => w.aim e .g .r 1 1 l (v.ea e .g a.reg off l)
    w.judge e (outsOf xs) .r clsCtrl 1 fun e w =>
      let ys := acsOf e xs
      let tag := fun (l : Nat) => ((ys.find? fun x => x.lane == l).map w.tagOf).getD 0
      ⟨w.modWave e.wid fun v => v.putAll e d fun l => [(tag l).setWidth 32], .next, clsCtrl, 1⟩) s

/-- The word that MONQ reads of a colour in a lane (R212). -/
def Work.monWord (w : Work) (e : Iss) (l : Nat) (c : BitVec 12) : Word :=
  if c = 0 then 0
  else
    let m := (w.ctx e.ctx).mon c
    let mine := (m.holder.map fun h => h.wid == e.wid).getD false
    BitVec.ofNat 32 (m.queue.length * 2 ^ 13 + b2n mine * 8 + b2n m.claim.isSome * 4 + b2n m.holder.isSome * 2 +
      b2n (((w.wave e.wid).lane l).holds c))

/-- MONQ (R212). -/
def execMonq (g : Guard) (d : Reg) (a : Src) (s : State) : Host.Outcome State Fault Refusal :=
  bundle g ⟨[useOf a 1 0], some (d, 1)⟩ false (fun e w =>
    let v := w.wave e.wid
    ⟨w.setWave e.wid (v.putAll e d fun l => [w.monWord e l ((v.val e a.reg l).setWidth 12)]), .next, clsCtrl, 1⟩) s

end Sys2Proof.Machine
end

