-- ==== Sys2Proof/Machine/Tables.lean ====
section
/-! DEFINITION. Page tables as the Headstock writes them, invalidation, reserved frames, and the allocation pool
(20 R329–R331, R334, R341–R344, 23 R375). -/

namespace Sys2Proof.Machine

/-! ### Reserved frames -/

/-- Whether a range of frames meets no reserved one. -/
def framesFree (rs : List FrameRun) (first n : Nat) : Bool :=
  rs.all fun r => decide (first + n ≤ r.first) || decide (r.first + r.count ≤ first)

/-- Frames of this part's HBM. -/
def hbmFrames : Nat := Config.hbmBytes / 65536

/-- Places at which `n` frames aligned to `al` frames could be reserved: the lowest of the HBM, and the lowest behind each
reserved run. -/
def framePlaces (rs : List FrameRun) (n al : Nat) : List Nat :=
  (roundUp 1 al :: rs.map fun r => roundUp (r.first + r.count) al).filter fun f =>
    decide (f + n ≤ hbmFrames) && framesFree rs f n

/-- Reserve `n` frames with a map byte; which of the places is free (log entry 14: DESIGN CHOICE). -/
def Work.reserveFrames (w : Work) (n al : Nat) (byte : Byte) : Option Nat × Work :=
  if n = 0 then (some 0, w)
  else match framePlaces w.dev.hub.frames n al with
    | [] => (none, w)
    | p :: ps =>
      let (f, w) := w.pick (p :: ps) p
      (some f, w.modHub fun h => { h with frames := ⟨f, n, byte⟩ :: h.frames })

/-- The context of a run of frames. -/
def FrameRun.ctx (r : FrameRun) : Nat := bits r.byte.toNat 5 0

/-- A run without some frames. -/
def FrameRun.without (r : FrameRun) (f k : Nat) : List FrameRun :=
  let left := { r with count := min (r.first + r.count) f - r.first }
  let right := { r with first := max r.first (f + k), count := r.first + r.count - max r.first (f + k) }
  [left, right].filter fun x => x.count ≠ 0

/-- The part of a run that lies in some frames. -/
def FrameRun.within (r : FrameRun) (f k : Nat) : List FrameRun :=
  [{ r with first := max r.first f, count := min (r.first + r.count) (f + k) - max r.first f }].filter fun x => x.count ≠ 0

/-- Colour tags of a range of lines go (R164). -/
def Work.dropTags (w : Work) (pa n : Nat) : Work :=
  w.modDev fun d => { d with tags := d.tags.filter fun t => decide (t.1 * 128 < pa) || decide (pa + n ≤ t.1 * 128) }

/-- Copies of a range of physical addresses leave the caches of every core: another page stands there now (R197). -/
def Work.dropCopies (w : Work) (pa n : Nat) : Work :=
  let out := fun (u x : Nat) => decide (x * u < pa) || decide (pa + n ≤ x * u)
  let drop := fun (c : Core) => { c with
    l1 := c.l1.filter fun s => out 16 s.1, ro := c.ro.filter fun s => out 16 s.1, icache := c.icache.filter fun b => out 1 b.1
    fbufs := c.fbufs.map fun q => (q.1, q.2.filter fun b => out 1 b.1) }
  w.modDev fun d => { d with cores := d.cores.map fun c => (c.1, drop c.2) }

/-- Frames that nobody has any longer lose their tags and their copies; those that another context maps keep them (R9, R164, R182,
log entry 67: DESIGN CHOICE). -/
def Work.wipeFrames (w : Work) (f k : Nat) : Work :=
  let free : List FrameRun := w.dev.hub.frames.foldl (fun xs r => xs.flatMap fun x => x.without r.first r.count) [⟨f, k, 0⟩]
  free.foldl (fun w r => (w.dropTags (r.first * 65536) (r.count * 65536)).dropCopies (r.first * 65536) (r.count * 65536)) w

/-- Release every frame of a context; frames that its reservation had taken from others go back (R358, R379). -/
def Work.releaseFrames (w : Work) (ctx : Nat) : Work :=
  let mine := fun (r : FrameRun) => r.ctx == ctx
  let (over7, kept) := if w.dev.hub.evac = some ctx then (w.dev.hub.lent, []) else ([], w.dev.hub.lent)
  let gone := w.dev.hub.frames.filter mine
  let w := w.modHub fun h => { h with frames := h.frames.filter fun r => !mine r }
  let w := gone.foldl (fun w r => w.wipeFrames r.first r.count) w
  w.modHub fun h => { h with
    frames := h.frames ++ over7.filter fun r => !mine r, lent := kept.filter fun r => !mine r }

/-! ### Page tables -/

/-- The Headstock writes an entry of a table: it is correctable again (R395). -/
def Work.putTableEntry (w : Work) (at_ e : Nat) : Work :=
  (w.putBytes (PAddr.hbm at_).key (leBytes 8 e)).mend (PAddr.hbm at_).key 8

/-- A new table of a level in the context's save area, zeroed and of colour 0 (R329, log entry 14: DESIGN CHOICE). -/
def Work.newTable (w : Work) (ctx level : Nat) : Option Nat × Work :=
  let m := (w.ctx ctx).mem
  let n := 2 ^ tableBits level
  let fresh := roundUp m.tabNext n
  let clear := fun (w : Work) (t : Nat) =>
    (some t, ((w.zero (PAddr.hbm t).key n).mend (PAddr.hbm t).key n).dropTags t n)
  match m.tabFree.find? fun t => t.2 == n with
  | some t => clear (w.modCtx ctx fun c => { c with mem := { c.mem with tabFree := c.mem.tabFree.filter fun x => x != t } }) t.1
  | none =>
    if (m.saveArea.1 + m.saveArea.2) * 65536 < fresh + n then (none, w)
    else clear (w.modCtx ctx fun c => { c with mem := { c.mem with tabNext := fresh + n } }) fresh

/-- The address of the entry of a level for an address, with the tables above it made as they are needed; none when a leaf
stands above, or when there is no room for a table. -/
def Work.entryFor (w : Work) (ctx va table level : Nat) : List Nat → Option Nat × Work
  | [] => (none, w)
  | l :: rest =>
    let at_ := table + 8 * vaIndex l va
    if l = level then (some at_, w)
    else
      let e := w.num (PAddr.hbm at_).key 8
      if tableEntryOk l e then w.entryFor ctx va (bits e 51 8 * 256) level rest
      else if bit e 0 then (none, w)
      else match w.newTable ctx (l + 1) with
        | (none, w) => (none, w)
        | (some t, w) =>
          (w.putTableEntry at_ (t + 1)).entryFor ctx va t level rest

/-- The entry of a level for an address as it stands: the address of the entry, when the tables above it exist. -/
def entryAt (w : Work) (va table level : Nat) : List Nat → Option Nat
  | [] => none
  | l :: rest =>
    let at_ := table + 8 * vaIndex l va
    if l = level then some at_
    else
      let e := w.num (PAddr.hbm at_).key 8
      if tableEntryOk l e then entryAt w (va := va) (bits e 51 8 * 256) level rest else none

/-- The five levels. -/
def tableLevels : List Nat := [0, 1, 2, 3, 4]

/-- The existing entry of a level in a context's tables, while they are here (R359). -/
def Work.entryOf (w : Work) (ctx va level : Nat) : Option Nat :=
  if (w.ctx ctx).mem.sysOut then none else entryAt w (va := va) (w.ctx ctx).rec_.root level tableLevels

/-- Write a leaf at a level; false when it cannot be written, or when the entry is a table. -/
def Work.writeLeaf (w : Work) (ctx va level : Nat) (leaf : Nat) : Bool × Work :=
  match w.entryFor ctx va (w.ctx ctx).rec_.root level tableLevels with
  | (none, w) => (false, w)
  | (some at_, w) =>
    let e := w.num (PAddr.hbm at_).key 8
    if bit e 0 ∧ !bit e 1 then (false, w) else (true, w.putTableEntry at_ leaf)

/-- Write a leaf's entry invalid, with what else it is to hold. -/
def Work.dropLeaf (w : Work) (ctx va level : Nat) (keep : Nat) : Work :=
  match w.entryOf ctx va level with
  | some at_ => w.putTableEntry at_ keep
  | none => w

/-- The tables above a leaf that has gone, from a level up: one of the Headstock's that holds nothing more is given back. -/
def Work.prune (w : Work) (ctx va : Nat) : Nat → Work
  | 0 => w
  | k + 1 =>
    match w.entryOf ctx va k with
    | none => w
    | some at_ =>
      let key := (PAddr.hbm at_).key
      let t := bits (w.num key 8) 51 8 * 256
      let n := 2 ^ tableBits (k + 1)
      let m := (w.ctx ctx).mem
      let ours := decide (m.saveArea.1 * 65536 ≤ t) && decide (t < m.tabNext)
      if tableEntryOk k (w.num key 8) ∧ ours ∧ (w.cellsIn (PAddr.hbm t).key n).isEmpty then
        ((w.putTableEntry at_ 0).modCtx ctx fun c => { c with mem := { c.mem with
          tabFree := (t, n) :: c.mem.tabFree } }).prune ctx va k
      else w

/-- The entry whose bundle waits for an operation. -/
def Wave.busyOn (v : Wave) (id : Nat) : Option Nat := (v.entries.find? fun x => x.2.busy == some id).map (·.1)

/-- The bytes that an EPIL or ALTAB loads, and the offset of the first uncorrectable one (R129, R199); those that it has read
already, where an invalidation made it read them (R334). -/
def Work.orderRead (w : Work) (e : Iss) (o : ArrOp) (n : Nat) : (List Byte × Option Nat) × Work :=
  match o.data with
  | some d => (d, w)
  | none =>
    let bad := w.badFor e o.lane o.key n
    let (bs, w) := w.readRange e o.lane o.key n
    ((bs, bad), w)

/-- The global bytes that an operation in a core's order has translated and is still to read: address and count. -/
def ArrOp.pending (o : ArrOp) : Option (Nat × Nat) :=
  match o.data, o.kind with
  | none, .epil false a => some (a.toNat, 256)
  | none, .altab _ a => some (a.toNat, 68)
  | _, _ => none

/-- Such an operation of a context reads now, when its bytes lie in a range; one of a saved core reads memory as it stands. -/
def Work.readNow (w : Work) (ctx va n : Nat) (saved : Bool) (o : ArrOp) : ArrOp × Work :=
  match o.pending, (w.wave o.wid).busyOn o.id with
  | some (a, k), some entry =>
    if (w.wave o.wid).ctx ≠ ctx ∨ a + k ≤ va ∨ va + n ≤ a then (o, w)
    else
      let e := w.issOf o.wid entry ((w.wave o.wid).split entry) (lanesOf o.act)
      if saved ∧ ((w.wave o.wid).lane o.lane).ordered.isNone then
        ({ o with data := some (w.bytes o.key k, w.firstBad o.key k) }, w)
      else
        let (d, w) := w.orderRead e o k
        ({ o with data := some d }, w)
  | _, _ => (o, w)

/-- What the operations of an order were still to read of a range, they read now. -/
def Work.readOrder (w : Work) (ctx va n : Nat) (saved : Bool) (os : List ArrOp) : List ArrOp × Work :=
  os.foldl (fun r o =>
    let (x, w) := r.2.readNow ctx va n saved o
    (r.1 ++ [x], w)) ([], w)

/-- Loads in the arrays' orders, on cores or in the image, perform before their translations go (R334, R343). -/
def Work.readEarly (w : Work) (ctx va n : Nat) : Work :=
  let live := fun (w : Work) (x : Nat × Core) =>
    if x.2.order.all fun o => o.pending.isNone then w
    else
      let (os, w) := w.readOrder ctx va n false x.2.order
      w.modCore x.1 fun c => { c with order := os }
  let w := w.dev.cores.foldl live w
  let saved := fun (r : List SavedCore × Work) (s : SavedCore) =>
    let (os, w) := r.2.readOrder ctx va n true s.core.order
    (r.1 ++ [{ s with core := { s.core with order := os } }], w)
  if (w.ctx ctx).saved.all fun s => s.core.order.all fun o => o.pending.isNone then w
  else
    let (ss, w) := (w.ctx ctx).saved.foldl saved ([], w)
    w.modCtx ctx fun c => { c with saved := ss }

/-- An invalidation (R334): every TLB of the package drops the context's entries that overlap the range. Accesses of the
model have performed when they issue (log entry 5: DESIGN CHOICE), engines translate element by element, and a load in an array's
order performs first. -/
def Work.invalidate (w : Work) (ctx va n : Nat) : Work :=
  (w.readEarly ctx va n).modTlbs fun l => l.filter fun t =>
    t.ctx != ctx || decide (va + n ≤ t.vpn * 2 ^ pageBits t.level) || decide ((t.vpn + 1) * 2 ^ pageBits t.level ≤ va)

/-! ### The allocation pool -/

/-- Base and size of the allocation window (R341). -/
def allocBase : Nat := 0xE0000000000000
def allocBytes : Nat := 2 ^ 52

/-- The leaf level of a page size (R213). -/
def pageLevel : PageSize → Nat
  | .k64 => 4
  | .m2 => 3
  | .m64 => 2

/-- Bytes of an allocation. -/
def Alloc.bytes (a : Alloc) : Nat := a.pages.length * 2 ^ pageBits a.level

/-- Whether two ranges share no byte. -/
def apart (a n b m : Nat) : Bool := decide (a + n ≤ b) || decide (b + m ≤ a)

/-- Whether an allocation may stand at an address: in the window, apart from the live ones, with an invalid entry for each
of its pages (R342). -/
def Work.vaOk (w : Work) (ctx level va pages : Nat) : Bool :=
  let z := 2 ^ pageBits level
  decide (allocBase ≤ va) && decide (va + pages * z ≤ allocBase + allocBytes) && va % z == 0 &&
    ((w.ctx ctx).mem.allocs.all fun a => apart va (pages * z) a.va a.bytes) &&
    (List.range pages).all fun i => match w.entryOf ctx (va + i * z) level with
      | some at_ => w.num (PAddr.hbm at_).key 8 % 2 == 0
      | none => true

/-- Virtual ranges for an allocation, tried in turn: any one first (R341, log entry 14: DESIGN CHOICE), and then every place behind a live
allocation, one of which serves if any place does. -/
def Work.chooseVa (w : Work) (ctx level pages : Nat) : List Nat × Work :=
  let z := 2 ^ pageBits level
  let (n, w) := w.draw
  let any := allocBase + Config.choice n % (allocBytes / z) * z
  let ends := (w.ctx ctx).mem.allocs.map fun a => roundUp (a.va + a.bytes) z
  ((any :: allocBase :: ends).filter fun va => w.vaOk ctx level va pages, w)

/-- Physical ranges in use: pages of live allocations and of mappings, those of them with a current host copy named twice. -/
def Work.usedRanges (w : Work) : List (Nat × Nat) :=
  w.dev.ctxs.flatMap fun c =>
    let mapped := c.2.mem.maps.filterMap fun m => match w.entryOf c.1 m.1 m.2 with
      | some at_ =>
        let e := w.num (PAddr.hbm at_).key 8
        if bit e 0 then some (bits e 51 16 * 65536, 2 ^ pageBits m.2) else none
      | none => none
    mapped ++ (c.2.mem.allocs.flatMap fun a => (a.pages.filterMap id).map fun p => (p, 2 ^ pageBits a.level)) ++
      (c.2.mem.pages.filter fun p => !p.out).map fun p => (p.pa, 2 ^ pageBits p.level)

/-- Frames that a context keeps for its pages that are out, so that each finds one at its return (R361). -/
def Work.keptSlots (w : Work) (ctx : Nat) : List (Nat × Nat) :=
  ((w.ctx ctx).mem.pages.filter fun p => p.out).map fun p => (p.slot, 2 ^ pageBits p.level)

/-- A physical page of the pool that nothing uses; which one is free (R341, log entry 14: DESIGN CHOICE). -/
def Work.choosePage (w : Work) (ctx level : Nat) (held : List (Nat × Nat)) : Option Nat × Work :=
  let z := 2 ^ pageBits level
  let pool := (w.ctx ctx).mem.pool
  let lo := pool.1 * 65536
  let hi := (pool.1 + pool.2) * 65536
  let used := held ++ w.usedRanges ++ w.keptSlots ctx
  let mine := BitVec.ofNat 8 (0x80 + ctx)
  let ok := fun (pa : Nat) => decide (lo ≤ pa) && decide (pa + z ≤ hi) && pa % z == 0 &&
    (used.all fun u => apart pa z u.1 u.2) && (List.range (z / 65536)).all fun i => w.dev.hub.frameByte (pa + 65536 * i) == mine
  let (n, w) := w.draw
  let any := lo + Config.choice n % ((hi - lo) / z + 1) * z
  ((any :: roundUp lo z :: (used.map fun u => roundUp (u.1 + u.2) z) ++
    w.dev.hub.frames.map fun r => roundUp (r.first * 65536) z).find? ok, w)

/-- Physical pages for an allocation, one at a time. -/
def Work.choosePages (w : Work) (ctx level : Nat) (held : List Nat) : Nat → Option (List Nat) × Work
  | 0 => (some held, w)
  | n + 1 =>
    match w.choosePage ctx level (held.map fun p => (p, 2 ^ pageBits level)) with
    | (none, w) => (none, w)
    | (some p, w) => w.choosePages ctx level (held ++ [p]) n

/-- The base dies zero a page with its tags (R164, R342). -/
def Work.zeroPage (w : Work) (pa n : Nat) : Work :=
  let k := (PAddr.hbm pa).key
  (((w.zero k n).mend k n).dropTags pa n).dropCopies pa n

/-- Leaves of an allocation's pages go, with the tables that then hold nothing. -/
def Work.dropLeaves (w : Work) (ctx va level pages : Nat) : Work :=
  (List.range pages).foldl (fun w i =>
    let a := va + i * 2 ^ pageBits level
    (w.dropLeaf ctx a level 0).prune ctx a level) w

/-- The leaves of an allocation (R342), at the first of some places at which there is room for its tables. -/
def Work.placePages (w : Work) (ctx level : Nat) (ps : List Nat) : List Nat → Option Nat × Work
  | [] => (none, w)
  | va :: vas =>
    let z := 2 ^ pageBits level
    let put := fun (r : Bool × Work) (x : Nat × Nat) =>
      let (ok, w) := r.2.writeLeaf ctx (va + x.2 * z) level (x.1 + 2 ^ 8 + 0xF)
      (r.1 && ok, w)
    let (ok, w) := ps.zipIdx.foldl put (true, w)
    if ok then (some va, w) else (w.dropLeaves ctx va level ps.length).placePages ctx level ps vas

/-- Whether an evacuation for a context is still to free frames (R358). -/
def Work.framesCome (w : Work) (ctx : Nat) : Bool :=
  w.dev.hub.evac == some ctx && w.dev.hub.evacOn && w.dev.ctxs.any fun c => c.2.state == .evacuating

/-- The request of one lane of ALLOC (R213, R342): the address, or 0; none while an evacuation is still to free the frames that an
override context lacks (R358). -/
def Work.allocate (w : Work) (ctx level bytes : Nat) : Option Nat × Work :=
  if bytes = 0 then (some 0, w)
  else
    let z := 2 ^ pageBits level
    let n := roundUp bytes z
    let pages := n / z
    let m := (w.ctx ctx).mem
    if (w.ctx ctx).rec_.q < m.quotaUsed + n ∨ 1048576 ≤ m.allocs.length then (some 0, w)
    else
      let (vas, w) := w.chooseVa ctx level pages
      match vas, w.choosePages ctx level [] pages with
      | [], _ => (some 0, w)
      | _, (none, w) => (if w.framesCome ctx then none else some 0, w)
      | vas, (some ps, w) =>
        let w := ps.foldl (fun w p => w.zeroPage p z) w
        match w.placePages ctx level ps vas with
        | (none, w) => (some 0, w)
        | (some va, w) =>
          (some va, w.modCtx ctx fun c => { c with mem := { c.mem with
            quotaUsed := c.mem.quotaUsed + n, allocs := ⟨va, level, ps.map some⟩ :: c.mem.allocs } })

/-- One allocation is removed (R343): its leaves, the translations, the tags of the pages that are here, and the range. -/
def Work.deallocate (w : Work) (ctx va : Nat) : Work :=
  match (w.ctx ctx).mem.allocs.find? fun a => a.va == va with
  | none => w
  | some a =>
    let z := 2 ^ pageBits a.level
    let leaves := (List.range a.pages.length).filterMap fun i => w.entryOf ctx (va + i * z) a.level
    let w := w.modCtx ctx fun c => { c with mem := { c.mem with pages := c.mem.pages.filter fun p => !leaves.contains p.leaf } }
    let w := (w.dropLeaves ctx va a.level a.pages.length).invalidate ctx va a.bytes
    let w := (a.pages.filterMap id).foldl (fun w p => w.dropTags p z) w
    w.modCtx ctx fun c => { c with mem := { c.mem with
      quotaUsed := c.mem.quotaUsed - a.bytes, allocs := c.mem.allocs.filter fun x => x.va != va } }

/-- The answers of the lanes of ALLOC in ascending order, or none while one of them has still to wait (R213). -/
def Work.allocLanes (w : Work) (ctx level : Nat) (bytes : Nat → Nat) : List Nat → Option (FMap Nat) × Work
  | [] => (some [], w)
  | l :: ls =>
    match w.allocate ctx level (bytes l) with
    | (none, w) => (none, w)
    | (some x, w) =>
      let (r, w) := w.allocLanes ctx level bytes ls
      (r.map fun m => mput m l x, w)

/-- ALLOC (R213): lanes in ascending order. -/
def execAlloc (g : Guard) (d : Reg) (a : Src) (pg : PageSize) (s : State) : Host.Outcome State Fault Refusal :=
  bundle g ⟨[useOf a 1 0], some (d, 2)⟩ true (fun e w =>
    let v := w.wave e.wid
    match w.allocLanes e.ctx (pageLevel pg) (fun l => (v.val e a.reg l).toNat) e.act with
    | (none, _) => ⟨w, .stall, clsCtrl, 0⟩
    | (some xs, w) =>
      let words := fun (l : Nat) =>
        let x : DWord := BitVec.ofNat 64 (mget xs l 0)
        [x.lo, x.hi]
      ⟨w.modWave e.wid fun v => v.putAll e d words, .next, clsCtrl, 1⟩) s

/-- FREE (R214): every lane is checked before any frees. -/
def execFree (g : Guard) (a : Src) (s : State) : Host.Outcome State Fault Refusal :=
  bundle g ⟨[useOf a 2 0], none⟩ true (fun e w =>
    let v := w.wave e.wid
    let addr := fun (l : Nat) => (v.val64 e a.reg l).toNat
    let live := fun (x : Nat) => (w.ctx e.ctx).mem.allocs.any fun y => y.va == x
    let out := fun (l : Nat) =>
      if addr l = 0 ∨ live (addr l) then Motion.ok
      else .fail Cause.memfault (BitVec.ofNat 64 (addr l)) (memInfo l .g .r) []
    w.judge e (e.act.map fun l => (l, out l)) .r clsCtrl 1 fun e w =>
      ⟨((e.act.map addr).eraseDups).foldl (fun w x => w.deallocate e.ctx x) w, .next, clsCtrl, 1⟩) s

end Sys2Proof.Machine
end

