-- ==== Sys2Proof/Machine/WaitOps.lean ====
section
/-! DEFINITION. WAIT and the barrier instructions (10 R215–R222). -/

namespace Sys2Proof.Machine

/-! ### Descriptors -/

/-- A descriptor that the encoding rules of R216 accept: its kind and operand fields. -/
inductive Desc where
  | none
  | tag (t : BitVec 2) (k : BitVec 5)
  | bar (b : BitVec 4) (phase : Bool)
  | fut (k : BitVec 5)
  | word (k v : BitVec 5) (equal : Bool)
  | array
  | chan (c : BitVec 2)
  deriving DecidableEq, Repr

/-- Read a descriptor; the refusal is FIELD or OPERAND (R216). -/
def descOf (x : Nat) : Except IllSub Desc :=
  let o := bits x 11 0
  let k := fun (hi lo : Nat) => BitVec.ofNat 5 (bits o hi lo)
  match bits x 15 12 with
  | 0 => if o = 0 then .ok .none else .error .field
  | 1 => if bits o 11 7 ≠ 0 then .error .field else .ok (.tag (BitVec.ofNat 2 o) (k 6 2))
  | 2 => if bits o 11 5 ≠ 0 then .error .field else .ok (.bar (BitVec.ofNat 4 o) (bit o 4))
  | 3 => if bits o 11 5 ≠ 0 then .error .field else if o % 2 = 1 then .error .operand else .ok (.fut (k 4 0))
  | 4 => if bits o 11 10 ≠ 0 then .error .field else if o % 2 = 1 then .error .operand else .ok (.word (k 4 0) (k 9 5) true)
  | 5 => if bits o 11 10 ≠ 0 then .error .field else if o % 2 = 1 then .error .operand else .ok (.word (k 4 0) (k 9 5) false)
  | 6 => if o = 0 then .ok .array else .error .field
  | 7 => if bits o 11 2 ≠ 0 then .error .field else .ok (.chan (BitVec.ofNat 2 o))
  | _ => .error .field

/-- The four descriptors of two registers, or the refusal: FIELD anywhere comes before OPERAND (R74). -/
def descsOf (a b : Word) : Except IllSub (List Desc) :=
  let xs := [bits a.toNat 15 0, bits a.toNat 31 16, bits b.toNat 15 0, bits b.toNat 31 16].map descOf
  let errs := xs.filterMap fun x => match x with
    | .error e => some e
    | .ok _ => none
  if errs.contains .field then .error .field
  else if errs.contains .operand then .error .operand
  else .ok (xs.filterMap fun x => x.toOption)

/-- The k registers that a descriptor names (R216). -/
def Desc.regs : Desc → List (BitVec 5)
  | .tag _ k => [k]
  | .fut k => [k, k + 1]
  | .word k v _ => [k, k + 1, v]
  | _ => []

/-- Descriptors whose WAIT is irrevocable (R308). -/
def Desc.irrevocable : Desc → Bool
  | .fut _ => true
  | .word _ _ _ => true
  | _ => false

/-- The word of a k register. -/
def Wave.kWord (v : Wave) (e : Iss) (k : BitVec 5) : Word := v.val e (.k k) 0

/-- The condition of a descriptor, with the checks of R216 for the lowest active lane `l`: an operand refusal, or the
outcome of the address checks. A future is checked as FUTGET checks it (log entry 40: DEDUCED). -/
def Work.condOf (w : Work) (e : Iss) (l : Nat) (d : Desc) : (Bool × Motion × Option Cond) × Work :=
  let v := w.wave e.wid
  let addr := fun (k : BitVec 5) => (v.val64 e (.k k) 0).toNat
  let ok := fun (w : Work) (c : Option Cond) => ((true, Motion.ok, c), w)
  let line := fun (w : Work) (al n : Nat) (isFut : Bool) (ea : Nat) (f : Nat → Cond) =>
    let (x, w) := w.aim e .g .r n al l ea
    let x := w.plainLine x
    match x.1, x.2.phys with
    | .ok, some p =>
      if isFut ∧ p.kind = 2 then
        ((true, Motion.fail Cause.protect (BitVec.ofNat 64 ea) (memInfo l .g .r) [], none), w)
      else ok w (some (f p.key))
    | m, _ => ((true, m, none), w)
  match d with
  | .none => ok w none
  | .tag t k => ok w (some (.tag t (v.kWord e k).toNat))
  | .bar b p => if (w.bar e.bid b).init then ok w (some (.bar b p)) else ((false, .ok, none), w)
  | .fut k => line w 16 16 true (addr k) fun key => .fut key (addr k)
  | .word k x eq => line w 4 4 false (addr k) fun key => .word key (v.kWord e x) eq
  | .array =>
    ok w (some (.array (((w.core e.core).order.filter fun o => o.wid == e.wid).map (·.id))))
  | .chan c => ok w (some (.chan c))

/-- A lane parked at an EMPTY future makes it WAITING (R288). -/
def Work.awaitFuture (w : Work) (key : Nat) : Work :=
  if bits (w.num key 8) 63 62 = 0 then w.putBytes key (leBytes 8 (w.num key 8 + 2 ^ 62)) else w

/-- The active lanes of a WAIT ask a peer's slice for its future, whose answer wakes them (R288, R290). -/
def Work.askPeer (w : Work) (e : Iss) (key ea : Nat) : Work :=
  if key % 8 ≠ 2 then w
  else e.act.foldl (fun w l =>
    let i := w.dev.sys.nextId
    let w := w.begin_ e ⟨.futget, l, e.pc, [], addrWords ea, none, 0, key, some (11 + key / 8 / 2 ^ 52), none⟩
    w.modTasks e.ctx fun t => { t with futWait := t.futWait ++ [(key, e.wid, some i)] }) w

/-- The split parks on a wait (R135, R217). -/
def Work.parkWait (w : Work) (e : Iss) (r : WaitRec) : Work :=
  let w := r.conds.foldl (fun w c => match c.2 with
    | .fut k a => if r.latched.getLsbD c.1 then w else (w.awaitFuture k).askPeer e k a
    | _ => w) w
  let (stamp, w) := w.newId
  w.modWave e.wid fun v => v.setSplit e.entry { v.split e.entry with
    state := .parked, reason := .wait, parkedAt := stamp, resumed := false
    wait := some { r with step := v.stepctl && e.level == 0 && !(v.split e.entry).handler } }

/-- A lane releases every colour that it holds, and the bits of its frame head go (R172). -/
def Work.releaseAll (w : Work) (wid l : Nat) : Work :=
  (w.release wid l (BitVec.allOnes 8)).modLane wid l fun x => { x with head := { x.head with entered := 0 } }

/-- The lane that a mark of uncorrectable data concerns: its own when it is active, else every active lane (log entry 78:
DEDUCED). -/
def markLanes (e : Iss) (l : Nat) : List Nat := if e.act.contains l then [l] else e.act

/-- The wait itself, from its release of colours on (R217): evaluated, completed or parked. A tag that would latch over uncorrectable
data raises DATAERR, which clears the mark (R237); a speculative lane whose mark it is waits to become the frontier (R310). -/
def Work.wait_ (w : Work) (e : Iss) (r : WaitRec) (rel : Bool) : Eff :=
  let w := w.waitReads e.wid r
  let marks := w.badTags e.wid r
  let (e, w) := w.parkFrontier e (w.anySpeculative e.wid (e.act.filter fun l =>
    marks.any fun b => (markLanes e b.2.1).contains l))
  if e.act.isEmpty then ⟨w, e.ends, clsCtrl, 1⟩
  else match w.badTag e.wid r with
    | some b =>
      let w := w.modWave e.wid fun v => { v with cpaBad := v.cpaBad.erase b }
      ⟨w, .raise Cause.dataerr b.2.2 (BitVec.ofNat 32 (b.2.1 * 2 ^ 8)), clsCtrl, 1⟩
    | none =>
      let r := { r with lanes := maskOf e.act }
      let w := if rel then e.act.foldl (fun w l => w.releaseAll e.wid l) w else w
      let r := w.latch e.wid r
      if r.done then
        let w := w.waitAcquire e.wid r
        let x := w.waitResult e.wid r false
        ⟨w.modWave e.wid fun v => v.putAll e r.dst fun _ => [x], .next, clsCtrl, 1⟩
      else ⟨w.parkWait e r, .gone, clsCtrl, 1⟩

/-- The k registers that the descriptors of a register name; a register that is not full names none yet (R27, R216). -/
def Wave.namedBy (v : Wave) (e : Iss) (a : BitVec 5) : List (BitVec 5) :=
  if (v.stat (v.loc e (.k a) 0)).isSome then []
  else
    let x := (v.kWord e a).toNat
    [bits x 15 0, bits x 31 16].flatMap fun h => match descOf h with
      | .ok d => d.regs
      | .error _ => []

/-- The registers of a WAIT: its three k registers, the registers that their descriptors name, as implicit operands, and the
result (R27, R216). -/
def waitUses (v : Wave) (e : Iss) (d : Reg) (a b c : VSrc) : Uses :=
  let use := fun (x : VSrc) (n : Nat) => useOf ⟨.k x.n, x.trap⟩ 1 n
  ⟨[use a 0, use b 1, use c 2] ++ (v.namedBy e a.n ++ v.namedBy e b.n).map fun k => ⟨.k k, 1, 4, false⟩, some (d, 1)⟩

/-- WAIT from its issue on (R215–R217). -/
def Work.waitIssue (w : Work) (e : Iss) (d : Reg) (a b c : VSrc) (all rel : Bool) : Eff :=
  if e.act.isEmpty then ⟨w, .next, clsCtrl, 1⟩
  else
    let v := w.wave e.wid
    let ill := fun (w : Work) (sub : IllSub) => (⟨w, .raise Cause.illegal 0 (illInfo sub false false 0), clsCtrl, 1⟩ : Eff)
    match descsOf (v.kWord e a.n) (v.kWord e b.n) with
    | .error sub => ill w sub
    | .ok ds =>
      let (e, w) := if ds.any Desc.irrevocable then w.parkSpec e else (e, w)
      match e.act with
      | [] => ⟨w, e.ends, clsCtrl, 1⟩
      | l :: _ =>
        let (xs, w) := ds.foldl (fun (r : List (Bool × Motion × Option Cond) × Work) d =>
          let (x, w) := r.2.condOf e l d
          (r.1 ++ [x], w)) ([], w)
        if xs.any fun x => !x.1 then ill w .operand
        else
          let pages := xs.flatMap fun x => match x.2.1 with
            | .pages gs => gs
            | _ => []
          let out := match xs.find? fun x => x.2.1.failed with
            | some x => x.2.1
            | none => if pages.isEmpty then .ok else .pages pages
          w.judge e [(l, out)] .r clsCtrl 1 fun e w =>
            let t := (v.kWord e c.n).toNat
            let conds := (xs.zipIdx.filterMap fun x => x.1.2.2.map fun c => (x.2, c))
            let r : WaitRec := ⟨false, conds, 0, all, if t = 0 then none else some (w.gtick + BitVec.ofNat 64 t), d,
              maskOf e.act, 0, false⟩
            w.wait_ e r rel

/-- WAIT (R215). -/
def execWait (g : Guard) (d : Reg) (a b c : VSrc) (all rel : Bool) (s : State) : Host.Outcome State Fault Refusal :=
  let w : Work := ⟨s.mem, [], s.dev⟩
  let e := w.iss (s.dev.sys.cur.getD ⟨0, 0⟩) g
  bundle g (waitUses (w.wave e.wid) e d a b c) false (fun e w => w.waitIssue e d a b c all rel) s

/-- The deadline of a parked wait passes (R217): a condition that is met in the same evaluation wins. -/
def Work.timeOut (w : Work) (wid lane : Nat) : Work :=
  match (w.wave wid).splitOf lane with
  | none => w
  | some s => match s.wait with
    | none => w
    | some r =>
      if (r.deadline.map w.reached) = some true then
        let w := w.waitReads wid r
        match w.badTag wid r with
        | some _ => w.latchWave wid
        | none =>
          let q := w.latch wid r
          (w.finishWait wid s r q (!q.done)).settle wid
      else w

/-- WAIT_TIMEOUT (R217). -/
def execWaitTimeout (wid lane : Nat) (s : State) : Host.Outcome State Fault Refusal :=
  commit (fun w => w.timeOut wid lane) s

/-- WAIT_WORD_REREAD (R216): the words of a wave's parked waits are read again. -/
def execWaitWordReread (wid lane : Nat) (s : State) : Host.Outcome State Fault Refusal :=
  commit (fun w => match (w.wave wid).splitOf lane with
    | some t => if t.wait.isSome then w.latchWave wid else w
    | none => w) s

/-! ### Barrier registers -/

/-- Living waves of a block, by wave index (R219). -/
def Work.livingWaves (w : Work) (bid : Nat) : BitVec 16 :=
  (w.block bid).waves.foldl (fun (m : BitVec 16) x =>
    if (w.wave x).living.isEmpty then m else m ||| (1#16 <<< (w.wave x).widx)) 0

/-- BARI's effect on a barrier register (R219). -/
def Work.initBar (w : Work) (e : Iss) (bn : BitVec 4) (mask : BitVec 16) (eng : Nat) : Eff :=
  let x := w.bar e.bid bn
  let m := mask &&& w.livingWaves e.bid
  let n := popcount m + eng
  if x.arrived ≠ 0 ∨ x.pend ≠ 0 ∨ n = 0 then illegalOperand w
  else
    ⟨w.setBar e.bid bn { x with members := m, eng := eng, expected := n, arrived := 0, wavesIn := 0, err := false,
                                init := true, engIn := 0, gone := 0, wide := false }, .next, clsCtrl, 1⟩

/-- BARI (R219). -/
def execBari (g : Guard) (bn : BitVec 4) (o : BariOpd) (s : State) : Host.Outcome State Fault Refusal :=
  let us := match o with
    | .reg a => [useOf a 1 0]
    | .imm _ _ => []
  bundle g ⟨us, none⟩ false (fun e w => match e.act with
    | [] => ⟨w, .next, clsCtrl, 1⟩
    | l :: _ => match o with
      | .imm m n => w.initBar e bn m n.toNat
      | .reg a =>
        let x := (w.wave e.wid).val e a.reg l
        w.initBar e bn (x.setWidth 16) (bits x.toNat 23 16)) s

/-- A wave's arrival (R220): counted once per phase; the phase completes when it was the last that was expected. -/
def Work.arrive (w : Work) (e : Iss) (bn : BitVec 4) : Work :=
  let x := w.bar e.bid bn
  let m : BitVec 16 := 1#16 <<< (w.wave e.wid).widx
  if x.wavesIn &&& m ≠ 0 then w
  else (w.setBar e.bid bn { x with wavesIn := x.wavesIn ||| m, arrived := x.arrived + 1 }).settleBar e.bid bn

/-- BARA (R220). -/
def execBara (g : Guard) (d : Reg) (bn : BitVec 4) (wt : Bool) (s : State) : Host.Outcome State Fault Refusal :=
  bundle g ⟨[], some (d, 1)⟩ false (fun e w =>
    let x := w.bar e.bid bn
    let m : BitVec 16 := 1#16 <<< (w.wave e.wid).widx
    if !x.init ∨ x.members &&& m = 0 then illegalOperand w
    else if e.act.isEmpty then ⟨w, .next, clsCtrl, 1⟩
    else
      let w := w.arrive e bn
      if wt then w.wait_ e ⟨true, [(0, .bar bn x.phase)], 0, true, none, d, maskOf e.act, 0, false⟩ false
      else
        let r : Word := BitVec.ofNat 32 (b2n x.phase + 2 * b2n (w.bar e.bid bn).err)
        ⟨w.modWave e.wid fun v => v.putAll e d fun _ => [r], .next, clsCtrl, 1⟩) s

/-- The word that BARQ reads (R222). -/
def Barrier.query (x : Barrier) : Word :=
  BitVec.ofNat 32 (b2n x.phase + 2 * b2n x.err + 4 * b2n x.lastErr + 8 * b2n x.init + 16 * b2n (x.pend != 0) +
    x.arrived * 2 ^ 8 + x.expected * 2 ^ 20)

/-- BARQ (R222). -/
def execBarq (g : Guard) (d : Reg) (bn : BitVec 4) (s : State) : Host.Outcome State Fault Refusal :=
  bundle g ⟨[], some (d, 1)⟩ false (fun e w =>
    let x := (w.bar e.bid bn).query
    ⟨w.modWave e.wid fun v => v.putAll e d fun _ => [x], .next, clsCtrl, 1⟩) s

end Sys2Proof.Machine
end

