-- ==== Sys2Proof/Machine/Futures.lean ====
section
/-! DEFINITION. Queues of tasks with reserved records, join records, and the resolution of futures (16 R282, R287–R295). -/

namespace Sys2Proof.Machine

/-! ### Reserved records -/

/-- Reserve the next record of a queue (R295): the segment's place and the index; none when a segment is needed and the pool
has none. -/
def CtxTasks.reserve (t : CtxTasks) (total cluster : Nat) (pri : BitVec 2) : Option ((Nat × Nat) × CtxTasks) :=
  let k := queueKey cluster pri
  let q := mget t.queues k []
  let grown : Option (List Segment × CtxTasks) :=
    if queueFull q then (t.takeSeg total).map fun x => (q ++ [⟨x.1, 0, [], []⟩], x.2) else some (q, t)
  match grown with
  | none => none
  | some (q, t) => match q.reverse with
    | [] => none
    | s :: before =>
      let s' := { s with tail := s.tail + 1, resv := s.tail :: s.resv }
      some ((s.off, s.tail), { t with queues := mput t.queues k (s' :: before).reverse })

/-- Fill a reserved record. -/
def CtxTasks.fill (t : CtxTasks) (slot : Nat × Nat) (r : TaskRec) : CtxTasks :=
  let put := fun (s : Segment) =>
    if s.off = slot.1 then { s with recs := mput s.recs slot.2 r, resv := s.resv.filter fun n => n ≠ slot.2 } else s
  let k := queueKey r.cluster r.pri
  { t with queues := mput t.queues k ((mget t.queues k []).map put) }

/-! ### Join records (R289) -/

/-- Free join records of a context: pool offsets in units of 64 bytes; offset 0, which ends a list, is never one. -/
def CtxTasks.freeJoins (t : CtxTasks) : List Nat :=
  (t.joinSegs.flatMap fun s => (List.range 32).map fun j => s * 64 + 2 * j).filter fun x =>
    x ≠ 0 && (mget? t.joins x).isNone

/-- Take a join record, with a fresh join segment when no record is free; which record is free (R289, log entry 19: DESIGN CHOICE). -/
def Work.takeJoin (w : Work) (ctx : Nat) : Option Nat × Work :=
  let t := (w.ctx ctx).tasks
  let w := if t.freeJoins.isEmpty then
      match t.takeSeg (w.ctx ctx).rec_.segments with
      | some (s, t) => w.modTasks ctx fun _ => { t with joinSegs := s :: t.joinSegs }
      | none => w
    else w
  match (w.ctx ctx).tasks.freeJoins with
  | [] => (none, w)
  | x :: xs =>
    let (j, w) := w.pick (x :: xs) x
    (some j, w)

/-- A join record is freed; a join segment whose records are all free returns to the pool (R289). -/
def CtxTasks.freeJoin (t : CtxTasks) (j : Nat) : CtxTasks :=
  let t := { t with joins := mdel t.joins j }
  let s := j / 64
  if t.joins.any fun x => x.1 / 64 == s then t
  else { t with joinSegs := t.joinSegs.filter fun x => x ≠ s, segFree := t.segFree ++ [s] }

/-- One joined future is counted as resolved; the step that brings COUNT to 0 enqueues the continuation (R290). -/
def Work.countJoin (w : Work) (ctx j n : Nat) (faulted : Bool) : Work :=
  match mget? (w.ctx ctx).tasks.joins j with
  | none => w
  | some x =>
    let m := if faulted then x.fmask ||| (1#4 <<< n) else x.fmask
    if 1 < x.count then
      w.modTasks ctx fun t => { t with joins := mput t.joins j { x with count := x.count - 1, fmask := m, links := mdel x.links n } }
    else
      let r : TaskRec := { x.task with fj := m != 0, fmask := m, enq := w.gtick.setWidth 48 }
      w.modTasks ctx fun t => (t.fill x.slot r).freeJoin j

/-! ### Futures (R287, R288) -/

/-- STATE of a future. -/
def Work.futState (w : Work) (key : Nat) : Nat := bits (w.num key 8) 63 62

/-- The two words of a future. -/
def futBytes (state waiters head value : Nat) : List Byte :=
  leBytes 8 (state * 2 ^ 62 + waiters * 2 ^ 48 + head) ++ leBytes 8 value

/-- Put an entry into a list that descends by (sequence number, future index). -/
def insJoin (x : Nat × Nat × Nat) : List (Nat × Nat × Nat) → List (Nat × Nat × Nat)
  | [] => [x]
  | y :: ys => if y.1 < x.1 ∨ (y.1 = x.1 ∧ y.2.1 < x.2.1) then x :: y :: ys else y :: insJoin x ys

/-- Join records on a future's list, newest first: (sequence number, future index, record). -/
def CtxTasks.waitersOf (t : CtxTasks) (key : Nat) : List (Nat × Nat × Nat) :=
  let found := t.joins.flatMap fun j => (j.2.links.filter fun l => j.2.futs[l.1]? == some key).map fun l =>
    (j.2.task.seq.toNat, l.1, j.1)
  found.foldl (fun a x => insJoin x a) []

/-- A FUTGET of a lane is filled with a future's value, as an acquire at device scope by the core of its block, where the
wave may be evicted (R294, R197). A saved wave will find empty caches (R355). -/
def Work.fillFutget (w : Work) (wid idx : Nat) (value : BitVec 64) : Work :=
  let w := w.modWave wid fun v => { v with outs := v.outs.map fun o =>
    if o.1 = idx then (o.1, { o.2 with vals := [DWord.lo value, DWord.hi value] }) else o }
  let w := w.complete wid idx
  match w.home? (w.wave wid) with
  | some c => w.acquire c .device
  | none => w

/-- The peers whose FUTGETs wait at a future are answered with its two words (R287, R288, log entry 54: DESIGN CHOICE). -/
def Work.servePeers (w : Work) (key : Nat) (faulted : Bool) (value : BitVec 64) : Work :=
  let told := w.dev.hub.links.flatMap fun l => (l.2.gets.filter fun k => k == key).map fun _ =>
    (72 + l.1, ExtResp.data (futBytes (if faulted then 3 else 2) 0 0 value.toNat))
  w.modHub fun h => { h with
    links := h.links.map fun l => (l.1, { l.2 with gets := l.2.gets.filter fun k => k != key }), replies := h.replies ++ told }

/-- Every waiter of a future is served (R290): join records, FUTGETs of lanes and of peers, and WAITs. -/
def Work.serve (w : Work) (key : Nat) (faulted : Bool) (value : BitVec 64) : Work :=
  let w := w.servePeers key faulted value
  let joins := w.dev.ctxs.flatMap fun c => (c.2.tasks.waitersOf key).map fun x => (c.1, x.2.2, x.2.1)
  let w := joins.foldl (fun w x => w.countJoin x.1 x.2.1 x.2.2 faulted) w
  let gets := w.dev.ctxs.flatMap fun c => c.2.tasks.futWait.filter fun x => x.1 == key
  let w := w.modDev fun d => { d with ctxs := d.ctxs.map fun c =>
    (c.1, { c.2 with tasks := { c.2.tasks with futWait := c.2.tasks.futWait.filter fun x => x.1 != key } }) }
  let w := gets.foldl (fun w x => match x.2.2 with
    | some i => w.fillFutget x.2.1 i value
    | none => w) w
  w.latchWhere fun v => v.splits.any fun s => match s.wait with
    | some r => r.conds.any fun c => match c.2 with
      | .fut k _ => k == key
      | _ => false
    | none => false

/-- Write a future at its home slice. -/
def Work.putFuture (w : Work) (p : Phys) (bs : List Byte) : Work := (w.dirty p).writeHome p.key p.kind p.pa bs none

/-- Resolve a future that is EMPTY or WAITING (R288); the state found otherwise. -/
def Work.resolve (w : Work) (p : Phys) (faulted : Bool) (value : BitVec 64) : Option Nat × Work :=
  let st := w.futState p.key
  if 2 ≤ st then (some st, w)
  else
    let w := w.putFuture p (futBytes (if faulted then 3 else 2) 0 0 value.toNat)
    (none, w.serve p.key faulted value)

/-- The oldest registration on its way lands (R290): pushed on the future's list, or counted at once. -/
def Work.landRegistration (w : Work) (ctx : Nat) : Work :=
  match (w.ctx ctx).tasks.regs with
  | [] => w
  | r :: rest =>
    let w := w.modTasks ctx fun t => { t with regs := rest }
    let st := w.futState r.fut
    if 2 ≤ st then w.countJoin ctx r.join r.n (st == 3)
    else
      let x := w.num r.fut 8
      let head := bits x 47 0
      let waiters := min 16383 (bits x 61 48 + 1)
      let push := fun (j : Nat × Join) =>
        if j.1 = r.join then (j.1, { j.2 with links := mput j.2.links r.n (BitVec.ofNat 48 head) }) else j
      let w := w.modTasks ctx fun t => { t with joins := t.joins.map push }
      w.writeHome r.fut 0 (r.fut / 8) (leBytes 8 (2 ^ 62 + waiters * 2 ^ 48 + r.join)) none

/-- Every registration of a context lands: those on their way perform before a save, or before their future's page leaves (R197,
R353, R360). -/
def Work.landAll (w : Work) (ctx : Nat) : Work :=
  (w.ctx ctx).tasks.regs.foldl (fun w _ => w.landRegistration ctx) w

/-- FUTURE_REGISTRATION (R290). -/
def execFutureRegistration (ctx : BitVec 6) (s : State) : Host.Outcome State Fault Refusal :=
  commit (fun w => w.landRegistration ctx.toNat) s

/-! ### FUTNEW, FUTRES, FUTGET -/

/-- The address checks of the future instructions in one lane (R292): host memory raises PROTECT, as does a peer where it is
not allowed, and a coloured line COLOURPATH. -/
def Work.aimFuture (w : Work) (e : Iss) (acc : Acc) (peer : Bool) (l ea : Nat) : (Motion × Acs) × Work :=
  let (x, w) := w.aim e .g acc 16 16 l ea
  match x.1, x.2.phys with
  | .ok, some p =>
    if p.kind = 2 ∨ (p.kind = 1 ∧ !peer) then
      ((.fail Cause.protect (BitVec.ofNat 64 ea) (memInfo l .g acc) [], x.2), w)
    else (w.plainLine x, w)
  | _, _ => (x, w)

/-- FUTNEW in the lanes, ascending, up to one that finds its future WAITING (R292). -/
def Work.newFutures (w : Work) (e : Iss) : List Acs → Option Nat × Work
  | [] => (none, w)
  | x :: xs => match x.phys with
    | none => w.newFutures e xs
    | some p =>
      if w.futState p.key = 1 then (some x.lane, w)
      else (((w.putFuture p (futBytes 0 0 0 0)).atHomeOf e x).awaitAck w e x true).newFutures e xs

/-- FUTNEW (R292). -/
def execFutnew (g : Guard) (a : Src) (off : BitVec 16) (s : State) : Host.Outcome State Fault Refusal :=
  bundle g ⟨[useOf a 2 0], none⟩ true (fun e w =>
    let v := w.wave e.wid
    let (xs, w) := w.aims e.act fun w l => w.aimFuture e .rw true l (v.ea e .g a.reg off l)
    w.judge e (outsOf xs) .rw clsAtom 0 fun e w =>
      let ys := acsOf e xs
      match w.newFutures e ys with
      | (none, w) => ⟨w, .next, clsAtom, ys.length⟩
      | (some _, w) => illegalOperand w) s

/-- FUTRES (R293): it waits for the acknowledgements of its lanes' earlier writes to peers; then lanes perform in ascending order,
and the lowest that finds its future resolved raises DOUBLERES after all have performed. -/
def execFutres (g : Guard) (faulted : Bool) (a b : Src) (off : BitVec 16) (s : State) : Host.Outcome State Fault Refusal :=
  bundle g ⟨[useOf a 2 0, useOf b 2 1], none⟩ true (fun e w =>
    let v := w.wave e.wid
    let (xs, w) := w.aims e.act fun w l => w.aimFuture e .rw true l (v.ea e .g a.reg off l)
    w.judge e (outsOf xs) .rw clsAtom 0 fun e w =>
      let ys := acsOf e xs
      let one := fun (r : Option (Nat × Nat) × Work) (x : Acs) => match x.phys with
        | none => r
        | some p =>
          let (f, w) := (r.2.atHome e.core p).resolve p faulted (v.val64 e b.reg x.lane)
          match f with
          | none => (r.1, w.awaitAck r.2 e x true)
          | some st => (some (r.1.getD (x.ea, st)), w)
      if (w.wave e.wid).unacked e.act then ⟨w, .stall, clsAtom, 0⟩
      else match ys.foldl one (none, w) with
      | (none, w) => ⟨w, .next, clsAtom, ys.length⟩
      | (some (ea, st), w) => ⟨w, .raise Cause.doubleres (BitVec.ofNat 64 ea) (BitVec.ofNat 32 st), clsCtrl, 1⟩) s

/-- FUTGET in one lane (R288, R294): filled at once, or parked at the future. -/
def Work.getFuture (w : Work) (e : Iss) (d : Reg) (x : Acs) : Work :=
  match x.phys with
  | none => w
  | some p =>
    let v := w.wave e.wid
    let dst := e.fills v d 2 x.lane
    let w := w.atHome e.core p
    if 2 ≤ w.futState p.key then
      let val := BitVec.ofNat 64 (w.num (p.key + 64) 8)
      let w := w.setWave e.wid ((dst.zip [DWord.lo val, DWord.hi val]).foldl (fun v y => v.wr y.1 y.2) v)
      w.acquire e.core .device
    else
      let i := w.dev.sys.nextId
      let w := (w.awaitFuture p.key).begin_ e ⟨.futget, x.lane, e.pc, dst, addrWords x.ea, none, 0, p.key, p.via, none⟩
      w.modTasks e.ctx fun t => { t with futWait := t.futWait ++ [(p.key, e.wid, some i)] }

/-- FUTGET (R294). -/
def execFutget (g : Guard) (d : Reg) (a : Src) (off : BitVec 16) (s : State) : Host.Outcome State Fault Refusal :=
  bundle g ⟨[useOf a 2 0], some (d, 2)⟩ true (fun e w =>
    let v := w.wave e.wid
    let (xs, w) := w.aims e.act fun w l => w.aimFuture e .r true l (v.ea e .g a.reg off l)
    w.judge e (outsOf xs) .r clsCtrl 1 fun e w =>
      ⟨(acsOf e xs).foldl (fun w x => w.getFuture e d x) w, .next, clsCtrl, 1⟩) s

end Sys2Proof.Machine
end

