-- ==== Sys2Proof/Machine/Shapes.lean ====
section
/-! DEFINITION. Shape registers: the record, its checks, and SHLD, SHST, SHSET and SHGET (13 R228–R235). -/

namespace Sys2Proof.Machine

/-! ### The record (R229) -/

/-- Word `n` of a record. -/
def shWord (r : BitVec 512) (n : Nat) : Nat := r.toNat / 2 ^ (64 * n) % 2 ^ 64
/-- A record with a field of `n` bits at `lo` replaced. -/
def shPut (r : BitVec 512) (lo n x : Nat) : BitVec 512 :=
  BitVec.ofNat 512 (r.toNat - r.toNat / 2 ^ lo % 2 ^ n * 2 ^ lo + x % 2 ^ n * 2 ^ lo)
/-- A record from its bytes, and its bytes. -/
def shOfBytes (bs : List Byte) : BitVec 512 := BitVec.ofNat 512 (leNat bs)
def shBytes (r : BitVec 512) : List Byte := leBytes 64 r.toNat

def shBase (r : BitVec 512) : Nat := bits (shWord r 0) 55 0
def shExt (r : BitVec 512) (k : Nat) : Nat := bits (shWord r (1 + k / 2)) (32 * (k % 2) + 31) (32 * (k % 2))
def shBox (r : BitVec 512) (k : Nat) : Nat := bits (shWord r (3 + k)) 63 48
def shStr (r : BitVec 512) (k : Nat) : BitVec 64 := sextTo 64 (BitVec.ofNat 48 (shWord r (3 + k)))
def shRing (r : BitVec 512) : Nat := bits (shWord r 7) 19 0
/-- SLOTB, in bytes. -/
def shSlotBytes (r : BitVec 512) : Nat := 128 * bits (shWord r 7) 31 20
def shRank (r : BitVec 512) : Nat := bits (shWord r 7) 41 40 + 1
def shFslot (r : BitVec 512) : Nat := bits (shWord r 7) 44 42
def shOob (r : BitVec 512) : Nat := bits (shWord r 7) 46 45
/-- Components of an element: d. -/
def shAlg (r : BitVec 512) : Nat := 2 ^ bits (shWord r 7) 48 47

/-- Dimensions below the rank. -/
def shDims (r : BitVec 512) : List Nat := List.range (shRank r)

/-! ### Derived quantities (R230) -/

def Work.slotOf (w : Work) (lid n : Nat) : BitVec 64 := (w.launch lid).slots.getD n 0
/-- Bytes of a component and of an element. -/
def Work.compBytes (w : Work) (lid : Nat) (r : BitVec 512) : Nat := slotBytes (w.slotOf lid (shFslot r))
def Work.elemBytes (w : Work) (lid : Nat) (r : BitVec 512) : Nat := shAlg r * w.compBytes lid r

def product (xs : List Nat) : Nat := xs.foldl (· * ·) 1
def shTiles (r : BitVec 512) (k : Nat) : Nat := (shExt r k + shBox r k - 1) / shBox r k
/-- N, the number of tiles. -/
def shCount (r : BitVec 512) : Nat := product ((shDims r).map (shTiles r))
/-- Elements of a box and of the tensor. -/
def shBoxElems (r : BitVec 512) : Nat := product ((shDims r).map (shBox r))
def shElems (r : BitVec 512) : Nat := product ((shDims r).map (shExt r))
/-- The end of the ring. -/
def shRingEnd (r : BitVec 512) : Nat := shRing r + shSlotBytes r * shapeSlots r

/-- The address of an element. -/
def shAddr (r : BitVec 512) (ix : List Nat) : Nat :=
  (ix.zipIdx.foldl (fun (a : BitVec 64) x => a + BitVec.ofNat 64 x.1 * shStr r x.2) (BitVec.ofNat 64 (shBase r))).toNat

/-- The coordinates of element `n` of a box whose sides are given, dimension 0 innermost. -/
def coords (n : Nat) : List Nat → List Nat
  | [] => []
  | s :: ss => n % s :: coords (n / s) ss

/-- Coordinates in the tensor of element `j` of tile `t`. -/
def tileCoords (r : BitVec 512) (t j : Nat) : List Nat :=
  let u := coords t ((shDims r).map (shTiles r))
  let v := coords j ((shDims r).map (shBox r))
  (shDims r).map fun k => u.getD k 0 * shBox r k + v.getD k 0

/-- Whether an element is out of bounds. -/
def outOfBounds (r : BitVec 512) (ix : List Nat) : Bool := ix.zipIdx.any fun x => decide (shExt r x.2 ≤ x.1)

/-- Where an element is read: its own place; under clamp the nearest element; nowhere under zero-fill (R231). -/
def readPlace (r : BitVec 512) (ix : List Nat) : Option Nat :=
  if !outOfBounds r ix then some (shAddr r ix)
  else if shOob r = 0 then none
  else some (shAddr r (ix.zipIdx.map fun x => min x.1 (shExt r x.2 - 1)))

/-! ### The checks (R231) -/

/-- ILLEGAL/OPERAND as an outcome of a check. -/
def illMotion : Motion := .fail Cause.illegal 0 (illInfo .operand false false 0).toNat []
/-- A cause with an address and TINFO of a lane and a space. -/
def atMotion (c : BitVec 8) (addr l sp : Nat) : Motion := .fail c (BitVec.ofNat 64 addr) (l * 2 ^ 8 + sp) []

/-- Check 1 of R231, without its last condition. -/
def shIll (r : BitVec 512) : Bool :=
  bits (shWord r 0) 63 56 != 0 || bits (shWord r 7) 63 49 != 0 || shRing r % 128 != 0 || shOob r == 3 ||
    (shDims r).any fun k => shExt r k == 0 || shBox r k == 0
/-- Check 3 of R231, for components of `wd` bytes. -/
def shMisaligned (r : BitVec 512) (wd : Nat) : Bool :=
  shBase r % wd != 0 || (shDims r).any fun k => (shStr r k).toNat % wd != 0
/-- Check 5 of R231. -/
def shRagged (r : BitVec 512) : Bool := shOob r == 2 && (shDims r).any fun k => shExt r k % shBox r k != 0

/-- Checks 1 and 3 of R231, in order, for a lane. -/
def Work.shapeBase (w : Work) (lid l : Nat) (r : BitVec 512) : Motion :=
  if shIll r then illMotion
  else if shMisaligned r (w.compBytes lid r) then atMotion Cause.align (shBase r) l 0
  else .ok

/-- The checks of R231, in order, for a lane: of BCOPY, or of STRM. -/
def Work.shapeCheck (w : Work) (e : Iss) (l : Nat) (r : BitVec 512) (strm : Bool) : Motion :=
  let box := w.elemBytes e.lid r * shBoxElems r
  let end_ := if strm then shRingEnd r else shRing r + w.elemBytes e.lid r * shElems r
  if shIll r ∨ (strm ∧ 2 ^ 32 ≤ shCount r) then illMotion
  else if strm ∧ (shapeSlots r = 0 ∨ shSlotBytes r = 0 ∨ shSlotBytes r < box) then illMotion
  else if shMisaligned r (w.compBytes e.lid r) then atMotion Cause.align (shBase r) l 0
  else if (w.launch e.lid).beta < end_ then atMotion Cause.bounds end_ l 1
  else if strm ∧ shRagged r then atMotion Cause.bounds (shBase r) l 0
  else .ok

/-! ### Instructions that act once for the wave (R228) -/

/-- What follows from the one check of an instruction that acts once, in a lane whose fault is not deferred. -/
def Work.judgeOne (w : Work) (e : Iss) (m : Motion) (acc : Acc) (cls units : Nat) (go : Work → Eff) : Eff :=
  match m with
  | .ok => go w
  | .wait => ⟨w, .stall, clsCtrl, 0⟩
  | .pages gs => ⟨w.parkPages e gs acc, .gone, cls, units⟩
  | .fail c a i cs =>
    ⟨(w.violations e.core e.ctx cs).takeTrap e.wid e.entry (trapOf e c a (BitVec.ofNat 32 i)), .trapped, clsCtrl, 1⟩
  | .halts a i =>
    ⟨(w.haltWave e.wid e.entry (trapOf e Cause.dataerr a (BitVec.ofNat 32 i))).settle e.wid, .trapped, clsCtrl, 1⟩

/-- The lane whose operands an instruction of R228 takes: the lowest active lane, but for those of speculative tasks that fail
the check on their own, which are listed first (R310). -/
def Work.electLane {α : Type} (w : Work) (e : Iss) (check : Work → Nat → (Motion × α) × Work) :
    List Nat → (List Nat × Option (Nat × Motion × α)) × Work
  | [] => (([], none), w)
  | l :: ls =>
    let (x, w) := check w l
    if x.1.failed ∧ w.speculative e.wid l then
      let (r, w) := w.electLane e check ls
      ((l :: r.1, r.2), w)
    else (([], some (l, x)), w)

/-- An instruction that acts once, with a check of the elected lane's own operands (R228, R310): lanes passed over park; with
no lane left it does nothing. A bundle in which no lane performs is charged `units` (R364). -/
def Work.actOnce {α : Type} (w : Work) (e : Iss) (acc : Acc) (cls units : Nat) (check : Work → Nat → (Motion × α) × Work)
    (go : Work → Nat → α → Eff) : Eff :=
  let (r, w) := w.electLane e check e.act
  let (e, w) := w.parkFrontier e r.1
  match r.2 with
  | none => ⟨w, e.ends, cls, units⟩
  | some (l, m, x) => w.judgeOne e m acc cls units fun w => go w l x

/-- The first failing motion of a list. -/
def firstMotion (ms : List Motion) : Motion := (ms.find? fun m => m != .ok).getD .ok

/-- A shape register of the issuing block. -/
def Work.shape (w : Work) (bid : Nat) (n : BitVec 4) : BitVec 512 := mget (w.block bid).sh n.toNat 0
def Work.setShape (w : Work) (bid : Nat) (n : BitVec 4) (r : BitVec 512) : Work :=
  w.modBlock bid fun b => { b with sh := mset b.sh n.toNat r 0 }

/-- Uncorrectable data that an instruction consumes itself, in a lane, from an offset on: DATAERR with the address of the first
bad byte (R141, R144). -/
def dataMotion (sp : Space) (l ea : Nat) (bad : Option Nat) : Motion :=
  match bad with
  | some i => .fail Cause.dataerr (BitVec.ofNat 64 (ea + i)) (spaceCode sp + l * 2 ^ 8) []
  | none => .ok

/-- The check of SHLD's and SHST's 64-byte access in a lane (R233): that of R150 with the refusal of a coloured line and, on a
load, of uncorrectable data. A lane whose access R301 calls irrevocable is passed over while it is speculative, as one that
fails. -/
def Work.shapeAim (w : Work) (e : Iss) (sp : Space) (acc : Acc) (l ea : Nat) : (Motion × Acs) × Work :=
  let (x, w) := w.aim e sp acc 64 64 l ea
  let x := w.plainLine x
  match x.1 with
  | .ok =>
    if w.irrevocable sp false x.2 ∧ w.speculative e.wid l then ((.fail 0 0 0 [], x.2), w)
    else if acc == .r then ((dataMotion sp l ea (w.firstBad x.2.key 64), x.2), w)
    else (x, w)
  | _ => (x, w)

/-- SHLD (R233). -/
def execShld (g : Guard) (sh : BitVec 4) (a : Src) (scratch : Bool) (off : BitVec 16) (s : State) :
    Host.Outcome State Fault Refusal :=
  let sp : Space := if scratch then .c else .g
  bundle g ⟨[addrUse a sp], none⟩ false (fun e w =>
    let v := w.wave e.wid
    w.actOnce e .r clsLd 0 (fun w l => w.shapeAim e sp .r l (v.ea e sp a.reg off l)) fun w _ x =>
      let (bs, w) := match x.phys with
        | some p => w.readVia e.ctx e.core p 64
        | none => (w.bytes x.key 64, w)
      ⟨w.setShape e.bid sh (shOfBytes bs), .next, clsLd, 4⟩) s

/-- SHST (R233). -/
def execShst (g : Guard) (sh : BitVec 4) (a : Src) (scratch : Bool) (off : BitVec 16) (s : State) :
    Host.Outcome State Fault Refusal :=
  let sp : Space := if scratch then .c else .g
  bundle g ⟨[addrUse a sp], none⟩ false (fun e w =>
    let v := w.wave e.wid
    w.actOnce e .w clsSt 0 (fun w l => w.shapeAim e sp .w l (v.ea e sp a.reg off l)) fun w _ x =>
      let bs := shBytes (w.shape e.bid sh)
      let w := match x.phys with
        | some p => (w.writeVia e.core p bs).awaitAck w e x true
        | none => (w.putBytes x.key bs).mend x.key 64
      ⟨w, .next, clsSt, 4⟩) s

/-! ### Fields (R234) -/

/-- Whether a field names a pair. -/
def ShField.regs (f : ShField) : Nat := if f.wide then 2 else 1

/-- The record with a field written from a register's value; none when the value is out of range (R234). -/
def shSetField (r : BitVec 512) (f : ShField) (x : Nat) : Option (BitVec 512) :=
  match f with
  | .base => if bits x 63 56 = 0 then some (shPut r 0 56 x) else none
  | .ext k => some (shPut r (64 * (1 + k.toNat / 2) + 32 * (k.toNat % 2)) 32 x)
  | .str k => if bits x 63 47 = 0 ∨ bits x 63 47 = 2 ^ 17 - 1 then some (shPut r (64 * (3 + k.toNat)) 48 x) else none
  | .box k => if x < 65536 then some (shPut r (64 * (3 + k.toNat) + 48) 16 x) else none
  | .ring => if x % 128 = 0 ∧ x < 2 ^ 20 then some (shPut r 448 20 x) else none
  | .slotb => if x % 128 = 0 ∧ x ≤ 524160 then some (shPut r 468 12 (x / 128)) else none
  | .slots => if x < 256 then some (shPut r 480 8 x) else none
  | .rank => if 1 ≤ x ∧ x ≤ 4 then some (shPut r 488 2 (x - 1)) else none
  | .fslot => if x < 8 then some (shPut r 490 3 x) else none
  | .oob => if x < 3 then some (shPut r 493 2 x) else none
  | .alg => match x with
    | 1 => some (shPut r 495 2 0)
    | 2 => some (shPut r 495 2 1)
    | 4 => some (shPut r 495 2 2)
    | 8 => some (shPut r 495 2 3)
    | _ => none

/-- A field in its register's form (R234). -/
def shGetField (r : BitVec 512) (f : ShField) : Nat :=
  match f with
  | .base => shBase r
  | .ext k => shExt r k.toNat
  | .str k => (shStr r k.toNat).toNat
  | .box k => shBox r k.toNat
  | .ring => shRing r
  | .slotb => shSlotBytes r
  | .slots => shapeSlots r
  | .rank => shRank r
  | .fslot => shFslot r
  | .oob => shOob r
  | .alg => shAlg r

/-- The check of SHSET in a lane (R234, R235), with the record that it would leave. -/
def Work.shsetCheck (w : Work) (e : Iss) (sh : BitVec 4) (f : ShField) (l x : Nat) : Motion × BitVec 512 :=
  let old := w.shape e.bid sh
  match shSetField old f x with
  | none => (illMotion, old)
  | some r =>
    if shapeSlots r ≠ 0 ∧ shSlotBytes r ≠ 0 ∧ (w.launch e.lid).beta < shRingEnd r then
      (atMotion Cause.bounds (shRingEnd r) l 1, old)
    else (.ok, r)

/-- SHSET (R234, R235). -/
def execShset (g : Guard) (sh : BitVec 4) (f : ShField) (a : Src) (s : State) : Host.Outcome State Fault Refusal :=
  bundle g ⟨[useOf a (ShField.regs f) 0], none⟩ false (fun e w =>
    let v := w.wave e.wid
    let x := fun (l : Nat) => if f.wide then (v.val64 e a.reg l).toNat else (v.val e a.reg l).toNat
    w.actOnce e .r clsCtrl 1 (fun w l => (w.shsetCheck e sh f l (x l), w)) fun w _ r =>
      ⟨w.setShape e.bid sh r, .next, clsCtrl, 1⟩) s

/-- SHGET (R234). -/
def execShget (g : Guard) (d : Reg) (sh : BitVec 4) (f : ShField) (s : State) : Host.Outcome State Fault Refusal :=
  bundle g ⟨[], some (d, ShField.regs f)⟩ false (fun e w =>
    let x : DWord := BitVec.ofNat 64 (shGetField (w.shape e.bid sh) f)
    let ws := if f.wide then [x.lo, x.hi] else [x.lo]
    ⟨w.modWave e.wid fun v => v.putAll e d fun _ => ws, .next, clsCtrl, 1⟩) s

end Sys2Proof.Machine
end

