-- ==== Sys2Proof/Machine/Engine.lean ====
section
/-! DEFINITION. What every engine shares: its accesses to global memory, moves of elements, arrivals, and the resolution of
futures (13 R240, R241, 16 R291). -/

namespace Sys2Proof.Machine

/-- What an engine's access meets (R240). -/
inductive EngChk where
  | ok (ps : List (Phys × Nat))
  /-- waits on a fault record -/
  | wait
  /-- stops, with a cause code and the failing line -/
  | stop (code : BitVec 8) (line : Nat)
  deriving DecidableEq, Repr

/-- One piece of an engine's access, within a line. A miss joins the granule's record; a record that closed without a mapping
stops the engine (R339). `reads` says that uncorrectable data stops it. -/
def Work.enginePiece (w : Work) (ctx core : Nat) (e : EngineId) (acc : Acc) (reads : Bool) (va n : Nat) :
    EngChk × Work :=
  let (c, w) := w.check ctx core va acc
  match c with
  | .ok p =>
    if w.tag p ≠ 0 then (.stop Cause.colourpath (lineOf va), w)
    else if reads && w.badData p.key n then (.stop Cause.dataerr (lineOf va), w)
    else (.ok [(p, n)], w)
  | .fault k _ => (.stop k (lineOf va), w)
  | .refused t k p _ => (.stop Cause.protect (lineOf va), w.violation core ctx t k p)
  | .page g lv =>
    let d : EngineDenied := ⟨core, e, g⟩
    if w.dev.mmu.denied.contains d then
      (.stop Cause.memfault (lineOf va), w.modMmu fun m => { m with denied := m.denied.filter fun x => x ≠ d })
    else (.wait, w.joinRecord (dieOf core) ctx g lv acc true (.engine core e g))

/-- An engine's access of a range: every piece is checked before any byte moves. -/
def Work.engineRange (w : Work) (ctx core : Nat) (e : EngineId) (acc : Acc) (reads : Bool) (va n : Nat) : EngChk × Work :=
  (linePieces va n).foldl (fun (r : EngChk × Work) x => match r.1 with
    | .ok ps =>
      let (c, w) := r.2.enginePiece ctx core e acc reads x.1 x.2
      match c with
      | .ok qs => (.ok (ps ++ qs), w)
      | _ => (c, w)
    | _ => r) (.ok [], w)

/-- The bytes of checked pieces. -/
def Work.readPieces (w : Work) (ps : List (Phys × Nat)) : List Byte := ps.flatMap fun p => w.bytes p.1.key p.2
/-- Bytes written to checked pieces, through their home slices and no L1 (R240). -/
def Work.writePieces (w : Work) (ps : List (Phys × Nat)) (bs : List Byte) : Work :=
  match ps with
  | [] => w
  | p :: ps =>
    ((w.dirty p.1).writeHome p.1.key p.1.kind p.1.pa (bs.take p.2) none).writePieces ps (bs.drop p.2)

/-! ### Work that ends (R257, R325) -/

/-- The blocks that are resident on a core. -/
def Work.blocksOn (w : Work) (core : Nat) : List (Nat × Block) := w.dev.blocks.filter fun b => b.2.core == some core

/-- Launches whose next block found no room search again (R326): once a block retires, and whenever cores or slots become free in
another way (log entry 85: DEDUCED). -/
def Work.searchAgain (w : Work) : Work :=
  w.modDev fun d => { d with launches := d.launches.map fun x => (x.1, { x.2 with waits := false }) }

/-- A core returns to the free pool (R325); the counter of its context is folded with all that this tick still adds to it
(R367). -/
def Work.returnCore (w : Work) (core : Nat) : Work :=
  match (w.core core).owner with
  | none => w
  | some lid =>
    let w := w.searchAgain.modHub fun h => { h with folds := h.folds ++ [((w.launch lid).ctx, core)] }
    w.modCore core fun c => { c with owner := none, idleSince := w.gtick.toNat }

/-- Engine or array work on a core (R250, R259). -/
def Core.atWork (c : Core) : Bool :=
  !c.order.isEmpty || !c.xfers.isEmpty || !c.mcasts.isEmpty || !c.resolves.isEmpty ||
    c.chans.any fun x => x.2.state == .run && x.2.owner.isSome

/-- A launch that lends nothing returns a core that holds none of its blocks and does none of its work (R325). -/
def Work.tryReturn (w : Work) (core : Nat) : Work :=
  match (w.core core).owner with
  | none => w
  | some lid =>
    if (w.launch lid).lend = 0 ∧ (w.blocksOn core).isEmpty ∧ !(w.core core).atWork then w.returnCore core else w

/-- Whether an operation holds both arrays of a pair. -/
def ArrKind.isPair : ArrKind → Bool
  | .mma _ p _ _ _ _ _ => p
  | .mzero p _ => p
  | .mdrain p _ _ _ _ _ _ => p
  | _ => false

/-- An operation retires from the orders that hold it: waits on it are evaluated again (R216), and its cores may return (R325). -/
def Work.retireOp (w : Work) (core : Nat) (o : ArrOp) : Work :=
  let gone := fun (c : Core) => { c with order := c.order.filter fun x => x.id != o.id }
  let w := w.modCore core gone
  let w := if o.kind.isPair then w.modCore (partnerOf core) gone else w
  ((w.latchWhere fun v => v.coreOf == core).tryReturn core).tryReturn (partnerOf core)

/-! ### Futures of engines (R291) -/

/-- Resolve an engine's future, unless a translation miss makes it wait: true when it is done with. A resolution that fails is
dropped with a class-12 record; one that finds the future resolved leaves a class-2 record. -/
def Work.tryResolve (w : Work) (core : Nat) (x : EngRes) : Bool × Work :=
  let drop := fun (w : Work) (code : BitVec 8) =>
    (true, w.report 12 code.toNat 0 x.addr.toNat (Subject.ofCore core x.ctx) true)
  let (c, w) := w.enginePiece x.ctx core x.e .w true x.addr.toNat 16
  match c with
  | .wait => (false, w)
  | .stop code _ => drop w code
  | .ok ps => match ps with
    | [] => (true, w)
    | p :: _ =>
      if p.1.kind = 2 then drop w Cause.protect
      else match w.resolve p.1 x.faulted x.value with
        | (none, w) => (true, w)
        | (some st, w) =>
          (true, w.report 2 Cause.doubleres.toNat st x.addr.toNat (Subject.ofCore core x.ctx) true)

/-- An engine resolves its future, now or when the record it waits on closes; an array operation then retires (R257). -/
def Work.engineResolve (w : Work) (core : Nat) (x : EngRes) : Work :=
  match w.tryResolve core x with
  | (true, w) => match x.op with
    | some o => w.retireOp core o
    | none => w
  | (false, w) => w.modCore core fun c => { c with resolves := c.resolves ++ [x] }

/-- Resolutions that waited are tried again, oldest first. -/
def Work.retryResolves (w : Work) (core : Nat) : Work :=
  let xs := (w.core core).resolves
  xs.foldl (fun w x => w.engineResolve core x) (w.modCore core fun c => { c with resolves := [] })

/-- What an engine does at its end: it arrives at its barrier, then resolves its future (R239–R241); `op` is the array operation
that retires with that (R257). -/
def Work.engineEnd (w : Work) (core ctx bid : Nat) (e : EngineId) (bar : Option (BitVec 4)) (fut : Option (BitVec 64))
    (err wide : Bool) (value : Nat) (op : Option ArrOp := none) : Work :=
  let w := match bar with
    | some b => w.engineArrive bid b err wide
    | none => w
  match fut with
  | some a => w.engineResolve core ⟨e, ctx, a, err, BitVec.ofNat 64 value, bid, op⟩
  | none => match op with
    | some o => w.retireOp core o
    | none => w

/-- The error code of a stop: the address of the failing line, or the cause code (R240). -/
def stopCode (code : BitVec 8) (line : Nat) : Nat := line ||| code.toNat

/-- An engine operation toward a barrier is issued: PEND rises (R218). -/
def Work.pendUp (w : Work) (bid : Nat) (bar : Option (BitVec 4)) : Work :=
  match bar with
  | none => w
  | some b => let x := w.bar bid b; w.setBar bid b { x with pend := x.pend + 1 }
/-- One is discarded without arriving: PEND falls. -/
def Work.pendDown (w : Work) (bid : Nat) (bar : Option (BitVec 4)) : Work :=
  match bar with
  | none => w
  | some b => let x := w.bar bid b; w.setBar bid b { x with pend := x.pend - 1 }

/-! ### Elements -/

/-- What a run of element moves ends with. -/
inductive MoveEnd where
  | all | wait
  | stop (code : BitVec 8) (line : Nat)
  deriving DecidableEq, Repr

/-- One element between its global place, if it has one, and an offset of the block's scratchpad: `st` moves it out. -/
structure ElemMove where
  va : Option Nat
  off : Nat
  n : Nat
  st : Bool
  deriving DecidableEq, Repr

/-- One element moves (R240): nothing of an element that meets a stop is written. -/
def Work.moveElem (w : Work) (ctx core bid : Nat) (e : EngineId) (m : ElemMove) : MoveEnd × Work :=
  let k := (PAddr.scratch bid m.off).key
  match m.va with
  | none => if m.st then (.all, w) else (.all, (w.putBytes k (List.replicate m.n 0)).mend k m.n)
  | some va =>
    if m.st ∧ w.badData k m.n then (.stop Cause.dataerr (lineOf m.off), w)
    else
      let (c, w) := w.engineRange ctx core e (if m.st then .w else .r) (!m.st) va m.n
      match c with
      | .wait => (.wait, w)
      | .stop code line => (.stop code line, w)
      | .ok ps =>
        if m.st then (.all, w.writePieces ps (w.bytes k m.n))
        else (.all, (w.putBytes k (w.readPieces ps)).mend k m.n)

/-- Elements move in order: how many did, and how the run ended. -/
def Work.moveElems (w : Work) (ctx core bid : Nat) (e : EngineId) (f : Nat → ElemMove) (i : Nat) :
    Nat → (Nat × MoveEnd) × Work
  | 0 => ((i, .all), w)
  | n + 1 =>
    match w.moveElem ctx core bid e (f i) with
    | (.all, w) => w.moveElems ctx core bid e f (i + 1) n
    | (x, w) => ((i, x), w)

/-- COPY units of a move from `a` to `b` bytes of one operation (R364). -/
def Work.chargeCopy (w : Work) (ctx core a b : Nat) : Work := w.charge ctx core clsCopy ((b + 31) / 32 - (a + 31) / 32)

/-- Whether the engines of a core move: its clocks run, and the context whose launch owns it is resident (R364). -/
def Work.enginesRun (w : Work) (core : Nat) : Bool :=
  w.runs core && (match (w.core core).owner with
    | some lid => (w.ctx (w.launch lid).ctx).state == .running
    | none => false)

/-! ### Checks that engine instructions share -/

/-- The barrier and future checks of R238, in that order: a barrier without INIT or engine members, a future that is not
aligned to 16. -/
def Work.engineNames (w : Work) (e : Iss) (l : Nat) (bar : Option (BitVec 4)) (fut : Option (BitVec 64)) : Motion :=
  let barOk := match bar with
    | none => true
    | some b => let x := w.bar e.bid b; x.init && x.eng != 0
  if !barOk then illMotion
  else match fut with
    | none => .ok
    | some a => if a.toNat % 16 ≠ 0 then .fail Cause.align a (memInfo l .g .r) [] else .ok

/-- The future that an instruction names, from the pair of a lane. -/
def Work.futArg (w : Work) (e : Iss) (l : Nat) (fut : Option Src) : Option (BitVec 64) :=
  fut.map fun b => (w.wave e.wid).val64 e b.reg l

/-- The use of a named future's pair, as field b. -/
def futUse (fut : Option Src) (field : Nat) : List Use := match fut with
  | some b => [useOf b 2 field]
  | none => []

end Sys2Proof.Machine
end

