-- ==== Sys2Proof/Machine/Copies.lean ====
section
/-! DEFINITION. Copies: CPA, BCOPY, MCAST and SLOTF, and how they land (07 R161, 13 R236–R244). -/

namespace Sys2Proof.Machine

/-! ### CPA (R236, R237) -/

/-- The valid bytes of a lane (R236). -/
def cpaCount (c : Option Word) : Nat :=
  match c with
  | none => 32
  | some x => min 32 (bits x.toNat 5 0)

/-- The checks of R236 in one lane: the destination, then every piece of the source; TADDR of a later piece is its own address (log
entry 94: DEDUCED). -/
def Work.aimCpa (w : Work) (e : Iss) (l dst src n : Nat) : (Motion × Acs × List (Phys × Nat)) × Work :=
  let (d, w) := w.aim e .c .w 32 32 l dst
  match d.1 with
  | .ok =>
    let (xs, w) := (linePieces src n).foldl (fun (r : List (Motion × Acs) × Work) p =>
      let (x, w) := r.2.aim e .g .r p.2 1 l p.1
      (r.1 ++ [w.plainLine x], w)) ([], w)
    let ps := xs.filterMap fun x => x.2.phys.map fun p => (p, x.2.len)
    ((joinMotions (xs.map (·.1)), d.2, ps), w)
  | m => ((m, d.2, []), w)

/-- One lane's share of a copy in flight: its bytes as read at issue (log entry 5: DESIGN CHOICE). -/
def Work.cpaLane (w : Work) (d : Acs) (src : Nat) (ps : List (Phys × Nat)) : CpaLane where
  lane := d.lane
  dst := d.key
  bytes := let bs := w.readPieces ps; bs ++ List.replicate (32 - bs.length) 0
  bad := if ps.any fun p => w.badData p.1.key p.2 then some (BitVec.ofNat 64 src) else none
  src := BitVec.ofNat 64 src
  via := firstSome ps fun p => p.1.via

/-- Copies that have landed fall from their tag's counter, behind every earlier one of the tag (R161). -/
def fallCpas (open_ : List (BitVec 2)) : List CpaOp → List CpaOp
  | [] => []
  | o :: os =>
    if o.lanes.isEmpty ∧ !open_.contains o.tag then fallCpas open_ os
    else o :: fallCpas (o.tag :: open_) os

/-- CPA (R236). -/
def execCpa (g : Guard) (a b : Src) (c : Option Src) (tag : BitVec 2) (off : BitVec 16) (s : State) :
    Host.Outcome State Fault Refusal :=
  let us := [useOf a 1 0, useOf b 2 1] ++ (match c with
    | some c => [useOf c 1 2]
    | none => [])
  bundle g ⟨us, none⟩ true (fun e w =>
    let v := w.wave e.wid
    if v.tagCount tag = 63 then ⟨w, .stall, clsCopy, 0⟩
    else
      let src := fun (l : Nat) => (v.val64 e b.reg l).toNat
      let aimOne := fun (r : List (Motion × Acs × List (Phys × Nat)) × Work) (l : Nat) =>
        let n := cpaCount (c.map fun c => v.val e c.reg l)
        let (x, w) := r.2.aimCpa e l (v.ea e .c a.reg off l) (src l) n
        (r.1 ++ [x], w)
      let (xs, w) := e.act.foldl aimOne ([], w)
      w.judge e (xs.map fun x => (x.2.1.lane, x.1)) .r clsCopy 0 fun e w =>
        let ys := xs.filter fun x => e.act.contains x.2.1.lane
        let op : CpaOp := ⟨tag, ys.map fun x => w.cpaLane x.2.1 (src x.2.1.lane) x.2.2⟩
        ⟨w.modWave e.wid fun v => { v with cpas := fallCpas [] (v.cpas ++ [op]) }, .next, clsCopy, ys.length⟩) s

/-- Whether the destinations of two lanes' copies overlap. -/
def CpaLane.meets (x y : CpaLane) : Bool := decide (x.dst < y.dst + 256) && decide (y.dst < x.dst + 256)

/-- The lanes of a copy that may land: ascending, up to one whose bytes have not come, or that overlaps an earlier copy (R237). -/
def CpaOp.landable (o : CpaOp) (before : List CpaOp) (come : CpaLane → Bool) : List CpaLane :=
  o.lanes.takeWhile fun y => come y && !before.any fun x => x.lanes.any y.meets

/-- The bytes of lanes of a copy reach the scratchpad, ascending (log entry 44: DESIGN CHOICE); a lane whose source is uncorrectable writes nothing and marks
its tag (R237). -/
def Work.landCpa (w : Work) (wid : Nat) (tag : BitVec 2) (xs : List CpaLane) : Work :=
  xs.foldl (fun w x => match x.bad with
    | some a => w.modWave wid fun v => { v with cpaBad := v.cpaBad ++ [(tag, x.lane, a)] }
    | none => (w.putBytes x.dst x.bytes).mend x.dst 32) w

/-- The first lanes of copy `n` of a wave land; what has landed whole falls out of the counters, and waits on the tag are
evaluated again (R161, R237). -/
def Work.landAt (w : Work) (wid n k : Nat) : Work :=
  match (w.wave wid).cpas[n]? with
  | none => w
  | some o =>
    let w := w.landCpa wid o.tag (o.lanes.take k)
    (w.modWave wid fun v => { v with cpas := fallCpas [] (v.cpas.set n { o with lanes := o.lanes.drop k }) }).latchWave wid

/-- What may land under a tag: a copy's place and how many of its lanes, the first copy whole first. -/
def Work.landings (w : Work) (wid : Nat) (tag : BitVec 2) : List (Nat × Nat) :=
  let cs := (w.wave wid).cpas
  cs.zipIdx.flatMap fun o =>
    let m := if o.1.tag = tag then (o.1.landable (cs.take o.2) fun y => !w.viaHeld y.via).length else 0
    (List.range m).map fun i => (o.2, m - i)

/-- CPA_LAND (R161, R237): lanes of a copy of a tag land; of which, and how many, is free (log entry 44: DESIGN CHOICE). -/
def execCpaLand (wid : Nat) (tag : BitVec 2) (s : State) : Host.Outcome State Fault Refusal :=
  commit (fun w => match w.landings wid tag with
    | [] => w
    | x :: xs =>
      let (c, w) := w.pick (x :: xs) x
      w.landAt wid c.1 c.2) s

/-! ### BCOPY (R238, R239) -/

/-- The pending transfer of a block's shape register. -/
def Block.pendingOf (b : Block) (sh : BitVec 4) : Option Transfer := b.pending.find? fun t => t.sh == sh

/-- A slice arrives at a transfer (R239): the transfer is opened or joined, and starts when it has every slice. -/
def Work.addSlice (w : Work) (e : Iss) (t : Transfer) (isNew : Bool) (idx : Nat) : Work :=
  let t := { t with slices := idx :: t.slices }
  let w := if isNew then w.pendUp e.bid t.bar else w
  let others := (w.block e.bid).pending.filter fun x => x.sh != t.sh
  if t.slices.length = t.count then
    (w.modBlock e.bid fun b => { b with pending := others }).modCore e.core fun c => { c with xfers := c.xfers ++ [t] }
  else w.modBlock e.bid fun b => { b with pending := others ++ [t] }

/-- BCOPY (R238, R239). -/
def execBcopy (g : Guard) (st : Bool) (sh : BitVec 4) (cnt idx : BitVec 4) (bar : Option (BitVec 4)) (fut : Option Src)
    (s : State) : Host.Outcome State Fault Refusal :=
  bundle g ⟨futUse fut 1, none⟩ true (fun e w => match e.act with
    | [] => ⟨w, .next, clsCopy, 0⟩
    | l :: _ =>
      let f := w.futArg e l fut
      let old := (w.block e.bid).pendingOf sh
      let t := old.getD ⟨sh, e.bid, w.shape e.bid sh, st, cnt.toNat + 1, [], bar, f, 0⟩
      w.judgeOne e (firstMotion [w.shapeCheck e l t.shape false, w.engineNames e l bar f]) .r clsCopy 0 fun w =>
        if t.st ≠ st ∨ t.count ≠ cnt.toNat + 1 ∨ t.bar ≠ bar ∨ t.fut ≠ f ∨ t.slices.contains idx.toNat then illegalOperand w
        else ⟨w.addSlice e t old.isNone idx.toNat, .next, clsCopy, 0⟩) s

/-- The context and launch of a block. -/
def Work.bctx (w : Work) (bid : Nat) : Nat := (w.block bid).ctx
def Work.blid (w : Work) (bid : Nat) : Nat := (w.block bid).lid

/-- Element `i` of a transfer in dense-image order, which is the order of the slices too (R230, R239). -/
def Work.denseMove (w : Work) (x : Transfer) (i : Nat) : ElemMove :=
  let n := w.elemBytes (w.blid x.bid) x.shape
  ⟨some (shAddr x.shape (coords i ((shDims x.shape).map (shExt x.shape)))), shRing x.shape + n * i, n, x.st⟩

/-- The transfer unit moves the elements of a core's oldest transfer, as far as it gets. -/
def Work.moveTransfer (w : Work) (core : Nat) (x : Transfer) : (Nat × MoveEnd) × Work :=
  let ctx := w.bctx x.bid
  let total := shElems x.shape
  let n := w.elemBytes (w.blid x.bid) x.shape
  let (r, w) := w.moveElems ctx core x.bid .transfer (w.denseMove x) x.done (total - x.done)
  (r, w.chargeCopy ctx core (n * x.done) (n * r.1))

/-- A core's oldest transfer is put back, or dropped. -/
def Work.putTransfer (w : Work) (core : Nat) (x : Option Transfer) : Work :=
  w.modCore core fun c => { c with xfers := x.toList ++ c.xfers.drop 1 }

/-- Whether a core's transfer unit may move on: the transfer before has resolved its future, since transfers complete in the order
in which they start (R239). -/
def Core.transferFree (c : Core) : Bool := !c.resolves.any fun x => x.e == .transfer

/-- A core's oldest transfer moves the elements that it has left (R239): after the last one, or at a stop (R240), the unit arrives
at its barrier and then resolves its future. With `only`, nothing happens but a stop that it meets. -/
def Work.runTransfer (w : Work) (core : Nat) (only : Bool) : Work :=
  match (w.core core).xfers with
  | [] => w
  | x :: _ => if !(w.core core).transferFree then w else
    let ((i, m), w') := w.moveTransfer core x
    let end_ := (w'.putTransfer core none).engineEnd core (w.bctx x.bid) x.bid .transfer x.bar x.fut
    match m with
    | .stop code line => (end_ true x.st (stopCode code line)).tryReturn core
    | .all => if only then w else (end_ false x.st (w.elemBytes (w.blid x.bid) x.shape * shElems x.shape)).tryReturn core
    | .wait => if only then w else w'.putTransfer core (some { x with done := i })

/-- BCOPY_TRANSFER_COMPLETE (R239): a transfer that waits keeps what it has moved. -/
def execBcopyTransferComplete (core : Nat) (s : State) : Host.Outcome State Fault Refusal :=
  commit (fun w => if w.enginesRun core then w.runTransfer core false else w) s

/-! ### MCAST and SLOTF (R242–R244) -/

/-- The block of a launch that is resident on the core bound to a role of the cluster of another block of the launch: the one
with the lowest index (R243). -/
def Work.roleBlock (w : Work) (bid role : Nat) : Option Nat :=
  let b := w.block bid
  let at_ := 8 * (b.lcore / 8) + role
  let found := w.dev.blocks.filter fun x => x.2.lid == b.lid && x.2.lcore == at_ && x.2.core.isSome
  (found.foldl (fun (m : Option (Nat × Block)) x => match m with
    | none => some x
    | some y => if x.2.idx < y.2.idx then some x else some y) none).map (·.1)

/-- The roles of a mask, ascending. -/
def rolesIn (mask : BitVec 8) : List Nat := (List.range 8).filter fun q => mask.getLsbD q

/-- MCAST (R242). -/
def execMcast (g : Guard) (a b : Src) (mask : BitVec 8) (bar : Option (BitVec 4)) (s : State) :
    Host.Outcome State Fault Refusal :=
  bundle g ⟨[useOf a 1 0, useOf b 1 1], none⟩ true (fun e w => match e.act with
    | [] => ⟨w, .next, clsCopy, 0⟩
    | l :: _ =>
      let v := w.wave e.wid
      let off := (v.val e a.reg l).toNat
      let n := (v.val e b.reg l).toNat
      let blk := w.block e.bid
      let at_ := fun (c : BitVec 8) => (⟨w, .raise c (BitVec.ofNat 64 off) (BitVec.ofNat 32 (l * 2 ^ 8 + 1)), clsCtrl, 1⟩ : Eff)
      if off % 16 ≠ 0 then at_ Cause.align
      else if n % 16 ≠ 0 ∨ n < 16 ∨ 65536 < n ∨ mask.getLsbD (blk.lcore % 8) then illegalOperand w
      else if (w.launch e.lid).beta < off + n then at_ Cause.bounds
      else
        let roles := rolesIn mask
        let recv := roles.filterMap (w.roleBlock e.bid)
        if recv.length ≠ roles.length ∨ roles.any (fun q => mget blk.free q 0 == 0) then ⟨w, .stall, clsCopy, 0⟩
        else
          let k := (PAddr.scratch e.bid off).key
          let bad := (List.range (n / 16)).find? fun i => w.badData (k + 128 * i) 16
          let m : Mcast := ⟨e.bid, recv, off, w.bytes k n, bad.map fun i => 16 * i, bar⟩
          let w := w.modBlock e.bid fun x => { x with
            free := roles.foldl (fun f q => mset f q (mget f q 0 - 1) 0) x.free }
          let w := recv.foldl (fun w r => w.pendUp r bar) w
          ⟨w.modCore e.core fun c => { c with mcasts := c.mcasts ++ [m] }, .next, clsCopy, 0⟩) s

/-- A core's oldest multicast is written in every receiver, which its engine then arrives at, as a release at cluster scope (R190,
R242, R243). A receiver that has retired meanwhile gets nothing (log entry 94: DESIGN CHOICE). -/
def Work.deliver (w : Work) (core : Nat) (m : Mcast) : Work :=
  let ctx := w.bctx m.bid
  let bs := match m.bad with
    | some n => m.bytes.take n
    | none => m.bytes
  let w := w.modCore core fun c => { c with mcasts := c.mcasts.drop 1 }
  m.receivers.foldl (fun w r =>
    if (mget? w.dev.blocks r).isNone then w
    else
      let k := (PAddr.scratch r m.off).key
      let w := ((w.putBytes k bs).mend k bs.length).chargeCopy ctx core 0 bs.length
      w.engineEnd core ctx r .mcast m.bar none m.bad.isSome true 0) w

/-- MCAST_DELIVERY (R242): of a multicast whose source was sound. -/
def execMcastDelivery (core : Nat) (s : State) : Host.Outcome State Fault Refusal :=
  commit (fun w => match (w.core core).mcasts with
    | [] => w
    | m :: _ => if w.enginesRun core ∧ m.bad.isNone then w.deliver core m else w) s

/-- A multicast that met uncorrectable data stops (R243). -/
def Work.stopMcast (w : Work) (core : Nat) : Work :=
  match (w.core core).mcasts with
  | [] => w
  | m :: _ => if m.bad.isSome then w.deliver core m else w

/-- SLOTF (R244). -/
def execSlotf (g : Guard) (role : BitVec 3) (n : BitVec 4) (s : State) : Host.Outcome State Fault Refusal :=
  bundle g ⟨[], none⟩ true (fun e w =>
    if e.act.isEmpty then ⟨w, .next, clsCtrl, 1⟩
    else match w.roleBlock e.bid role.toNat with
      | none => ⟨w, .stall, clsCtrl, 0⟩
      | some r =>
        let me := (w.block e.bid).lcore % 8
        let put := fun (x : BitVec 4) => BitVec.ofNat 4 (min 15 (x.toNat + n.toNat))
        ⟨w.modBlock r fun b => { b with free := mset b.free me (put (mget b.free me 0)) 0 }, .next, clsCtrl, 1⟩) s

end Sys2Proof.Machine
end

