-- ==== Sys2Proof/Machine/Streams.lean ====
section
/-! DEFINITION. Gouge channels: STRM, RSIG, STRMQ and the tiles that a channel moves (13 R245–R249). -/

namespace Sys2Proof.Machine

def Work.chan (w : Work) (core n : Nat) : Channel := mget (w.core core).chans n Channel.blank
def Work.setChan (w : Work) (core n : Nat) (c : Channel) : Work :=
  w.modCore core fun k => { k with chans := mput k.chans n c }

/-- Waits on a block's channels are evaluated again (R216). -/
def Work.latchBlock (w : Work) (bid : Nat) : Work := w.latchWhere fun v => v.bid == bid

/-- STRM (R246). -/
def execStrm (g : Guard) (st : Bool) (ch : BitVec 2) (sh : BitVec 4) (bar : Option (BitVec 4)) (fut : Option Src)
    (s : State) : Host.Outcome State Fault Refusal :=
  bundle g ⟨futUse fut 1, none⟩ true (fun e w => match e.act with
    | [] => ⟨w, .next, clsCtrl, 1⟩
    | l :: _ =>
      let f := w.futArg e l fut
      let r := w.shape e.bid sh
      w.judgeOne e (firstMotion [w.shapeCheck e l r true, w.engineNames e l bar f]) .r clsCtrl 1 fun w =>
        let c := w.chan e.core ch.toNat
        let mine := c.owner == some e.bid
        if mine ∧ c.state = .run then illegalOperand w
        else if !mine ∧ c.state ≠ .idle then ⟨w, .stall, clsCtrl, 0⟩
        else
          let c : Channel := ⟨some e.bid, r, st, shCount r, 0, 0, .run, bar, f⟩
          ⟨((w.pendUp e.bid bar).setChan e.core ch.toNat c).latchBlock e.bid, .next, clsCtrl, 1⟩) s

/-- The state of a running channel whose counts have changed (R245). -/
def Channel.settle (c : Channel) : Channel :=
  if c.state = .run ∧ c.f = c.n ∧ (c.st ∨ c.q = c.n) then { c with state := .idle } else c

/-- RSIG (R247). -/
def execRsig (g : Guard) (ch : BitVec 2) (s : State) : Host.Outcome State Fault Refusal :=
  bundle g ⟨[], none⟩ false (fun e w =>
    if e.act.isEmpty then ⟨w, .next, clsCtrl, 1⟩
    else
      let c := w.chan e.core ch.toNat
      if c.owner ≠ some e.bid then illegalOperand w
      else match c.state with
        | .err => ⟨w, .next, clsCtrl, 1⟩
        | .idle => illegalOperand w
        | .run =>
          if c.ready (shapeSlots c.shape) = 0 then illegalOperand w
          else
            let w := w.setChan e.core ch.toNat { c with q := c.q + 1 }.settle
            ⟨w, .next, clsCtrl, 1⟩) s

/-- The word that STRMQ reads (R248). -/
def Channel.query (c : Channel) (bid : Nat) : Word :=
  let st := match c.state with
    | .idle => 0
    | .run => 1
    | .err => 2
  BitVec.ofNat 32 (c.q % 65536 * 2 ^ 16 + c.ready (shapeSlots c.shape) % 256 * 2 ^ 8 + b2n (c.owner == some bid) * 8 +
    b2n (c.state == .err) * 4 + st)

/-- STRMQ (R248). -/
def execStrmq (g : Guard) (d : Reg) (ch : BitVec 2) (s : State) : Host.Outcome State Fault Refusal :=
  bundle g ⟨[], some (d, 1)⟩ false (fun e w =>
    let x := (w.chan e.core ch.toNat).query e.bid
    ⟨w.modWave e.wid fun v => v.putAll e d fun _ => [x], .next, clsCtrl, 1⟩) s

/-! ### Tiles -/

/-- Whether a channel may act on its next tile (R245). -/
def Channel.mayMove (c : Channel) : Bool :=
  c.state == .run && decide (c.f < c.n) &&
    (if c.st then decide (c.f < c.q) else decide (c.f - c.q < shapeSlots c.shape))

/-- The elements that a channel moves for its next tile: all of the box on a load, those in bounds on a store (R231). -/
def tileElems (c : Channel) : List Nat :=
  let all := List.range (shBoxElems c.shape)
  if c.st then all.filter fun j => !outOfBounds c.shape (tileCoords c.shape c.f j) else all

/-- One element of a channel's next tile. -/
def Work.tileMove (w : Work) (c : Channel) (lid j : Nat) : ElemMove :=
  let n := w.elemBytes lid c.shape
  let slot := shRing c.shape + shSlotBytes c.shape * (c.f % shapeSlots c.shape)
  let ix := tileCoords c.shape c.f j
  ⟨if c.st then some (shAddr c.shape ix) else readPlace c.shape ix, slot + n * j, n, c.st⟩

/-- A channel moves its next tile, as far as it gets (R245, R251). -/
def Work.moveTile (w : Work) (core : Nat) (n : BitVec 2) (c : Channel) : (Nat × MoveEnd) × Work :=
  let bid := c.owner.getD 0
  let js := tileElems c
  w.moveElems (w.bctx bid) core bid (.channel n) (fun i => w.tileMove c (w.blid bid) (js.getD i 0)) 0 js.length

/-- A channel moves its next tile (R245): after the last one it arrives and resolves its future with N. A tile that meets a miss is
not counted; one that meets a stop puts the channel into ERR, with its elements before that moved (R240), and wakes its
waiters. With `only`, nothing happens but a stop that it meets. -/
def Work.runChannel (w : Work) (core : Nat) (ch : BitVec 2) (only : Bool) : Work :=
  let c := w.chan core ch.toNat
  if !c.mayMove then w
  else
    let bid := c.owner.getD 0
    let ctx := w.bctx bid
    let ((i, m), w') := w.moveTile core ch c
    let x := w'.chargeCopy ctx core 0 (i * w.elemBytes (w.blid bid) c.shape)
    let end_ := fun (w : Work) => w.engineEnd core ctx bid (.channel ch) c.bar c.fut
    match m with
    | .stop code line => (end_ (x.setChan core ch.toNat { c with state := .err }) true c.st (stopCode code line)).latchBlock bid
    | .all =>
      if only then w
      else
        let d := { c with f := c.f + 1 }
        let x := x.setChan core ch.toNat d.settle
        (if d.f = d.n then end_ x false c.st c.n else x).latchBlock bid
    | .wait => if only then w else w'

/-- CHANNEL_TILE (R245): a whole tile moves. -/
def execChannelTile (core : Nat) (ch : BitVec 2) (s : State) : Host.Outcome State Fault Refusal :=
  commit (fun w => if w.enginesRun core then w.runChannel core ch false else w) s

end Sys2Proof.Machine
end

