-- ==== Sys2Proof/Machine/Array.lean ====
section
/-! DEFINITION. The matrix array: its order, MMA, MZERO, BLD and MQ (15 R254–R267, R279, 02 R51–R53). -/

namespace Sys2Proof.Machine

/-! ### The array order (R257, R258) -/

/-- The core that leads an operation: that of its block. -/
def Work.leader (w : Work) (o : ArrOp) : Nat := ((w.block o.bid).core).getD 0

/-- Whether a .pair operation is refused (R258): an odd position, a retired partner, or no block of the launch there. -/
def Work.pairRefused (w : Work) (e : Iss) : Bool :=
  let p := partnerOf e.core
  posOf e.core % 2 == 1 || w.dev.sec.retired.getLsbD p ||
    !(w.dev.blocks.any fun b => b.2.lid == e.lid && b.2.core == some p)

/-- Whether an operation finds no place in an order of eight (R257). -/
def Work.orderFull (w : Work) (core : Nat) (pair : Bool) : Bool :=
  decide (8 ≤ (w.core core).order.length) || (pair && decide (8 ≤ (w.core (partnerOf core)).order.length))

/-- An operation enters the order of its core, and of the partner when it is a pair operation; `key` is where the bytes
stand that an EPIL or ALTAB loads, and `step` whether STEP follows its bundle. -/
def Work.enter (w : Work) (e : Iss) (l : Nat) (k : ArrKind) (key : Nat := 0) (step : Bool := false) : Nat × Work :=
  let (i, w) := w.newId
  let o : ArrOp := ⟨i, e.wid, e.bid, l, maskOf e.act, key, none, step, k⟩
  let w := w.modCore e.core fun c => { c with order := c.order ++ [o] }
  (i, if k.isPair then w.modCore (partnerOf e.core) fun c => { c with order := c.order ++ [o] } else w)

/-- The operation whose turn it is on a core, if the core leads it (R257, R258): everything ahead of it has retired, on the
partner too for a pair operation. -/
def Work.turnOp (w : Work) (core : Nat) : Option ArrOp :=
  match (w.core core).order with
  | [] => none
  | o :: _ =>
    let resolving := (w.core core).resolves.any fun x => (x.op.map fun y => y.id) == some o.id
    if !w.enginesRun core ∨ w.leader o ≠ core ∨ resolving then none
    else if o.kind.isPair then
      match (w.core (partnerOf core)).order with
      | p :: _ => if p.id = o.id ∧ w.runs (partnerOf core) then some o else none
      | [] => none
    else some o

/-- The format and reading of a component's code. -/
def slotDecode (slot : BitVec 64) (x : Nat) : FVal := fmtValue (slotFmt slot) (slotRdg slot) x

/-- The value with which an operand enters the array: exact, but of a D8 code the nearest FP32 value (R45, R51). -/
def operandValue (slot : BitVec 64) (x : Nat) : FVal :=
  match slotFmt slot, slotDecode slot x with
  | 3, .num s n d => fp32.value (fp32.round .rn s n d).1
  | _, y => y

/-- An algebra table of a core. -/
def Work.table (w : Work) (core : Nat) (t : BitVec 2) : List Byte := mget (w.core core).al t.toNat []

/-- The table of an MMA (R261): the named al register, or the real table. -/
def Work.mmaTable (w : Work) (core : Nat) (slot : BitVec 64) : List Byte :=
  match slotAl slot with
  | some t => w.table core t
  | none => [1, 0, 0, 0, 8]

/-! ### MMA (R260–R265) -/

/-- K and M of an MMA's record (R261). -/
def mmaK (r : BitVec 512) : Nat := shExt r 0
def rows (r : BitVec 512) : Nat := if shRank r = 1 then 1 else shExt r 1

/-- Whether a format is an 8-bit integer. -/
def fmtInt8 (f : Nat) : Bool := f == 4 || f == 5

/-- The checks of R261, in order. -/
def Work.mmaCheck (w : Work) (e : Iss) (l : Nat) (pair : Bool) (r : BitVec 512) (o : Nat) (a b : BitVec 64) : Motion :=
  let d := tableDim (w.mmaTable e.core a)
  let end_ := shRing r + d * slotBytes a * mmaK r * rows r
  let bad := fun (s : BitVec 64) => slotFmt s == 6 || slotFmt s == 7
  if pair ∧ w.pairRefused e then illMotion
  else if shIll r then illMotion
  else if 2 < shRank r ∨ 65536 < mmaK r ∨ 64 / d < rows r then illMotion
  else if bad a ∨ bad b ∨ fmtInt8 (slotFmt a) ≠ fmtInt8 (slotFmt b) ∨ slotAl a ≠ slotAl b ∨ shAlg r ≠ d then illMotion
  else if o % 16 ≠ 0 ∨ 65536 < o + slotBytes b * mmaK r then illMotion
  else if (w.launch e.lid).beta < end_ then atMotion Cause.bounds end_ l 1
  else .ok

/-- Whether an ALTAB of an al register stands in a core's order (R261). -/
def Work.altabAhead (w : Work) (core : Nat) (t : BitVec 2) : Bool := (w.core core).order.any fun o => match o.kind with
  | .altab al _ => al == t
  | _ => false

/-- MMA (R260, R261). -/
def execMma (g : Guard) (z pair acc : Bool) (sh : BitVec 4) (b : Src) (slot : BitVec 3) (s : State) :
    Host.Outcome State Fault Refusal :=
  bundle g ⟨[useOf b 1 1], none⟩ true (fun e w => match e.act with
    | [] => ⟨w, .next, clsMma, 0⟩
    | l :: _ =>
      let r := w.shape e.bid sh
      let sa := w.slotOf e.lid (shFslot r)
      let sb := w.slotOf e.lid slot.toNat
      let o := ((w.wave e.wid).val e b.reg l).toNat
      let ahead := match slotAl sa, slotAl sb with
        | some i, some j => w.altabAhead e.core i || w.altabAhead e.core j
        | _, _ => false
      if ahead then ⟨w, .stall, clsMma, 0⟩
      else w.judgeOne e (w.mmaCheck e l pair r o sa sb) .r clsMma 0 fun w =>
        if w.orderFull e.core pair then ⟨w, .stall, clsMma, 0⟩
        else ⟨(w.enter e l (.mma z pair acc r o sa sb)).2, .next, clsMma, mmaK r * (if pair then 2 else 1)⟩) s

/-- The key of an accumulator cell. -/
def accKey (set : Bool) (row col : Nat) : Nat := 8192 * b2n set + 128 * row + col

def Work.cell (w : Work) (core : Nat) (set : Bool) (row col : Nat) : Word := mget (w.core core).acc (accKey set row col) 0
def Work.setCell (w : Work) (core : Nat) (set : Bool) (row col : Nat) (x : Word) : Work :=
  w.modCore core fun c => { c with acc := mset c.acc (accKey set row col) x 0 }

/-- An error mark of a set (R265). -/
def Work.accErr (w : Work) (core : Nat) (set : Bool) : Bool := if set then (w.core core).accErr1 else (w.core core).accErr0
def Work.markAcc (w : Work) (core : Nat) (set err : Bool) : Work :=
  w.modCore core fun c => if set then { c with accErr1 := err } else { c with accErr0 := err }

/-- Every cell of a set becomes zero. -/
def Work.zeroAcc (w : Work) (core : Nat) (set : Bool) : Work :=
  w.modCore core fun c => { c with acc := c.acc.filter fun x => x.1 / 8192 != b2n set }

/-- A(i, kk, p) of R262. -/
def Work.aVal (w : Work) (bid : Nat) (r : BitVec 512) (slot : BitVec 64) (d i kk p : Nat) : Nat :=
  let wa := slotBytes slot
  w.num (PAddr.scratch bid (shRing r + d * wa * (kk + mmaK r * i) + wa * p)).key wa

/-- Bs(c, kk) of R262 on a core. -/
def Work.bVal (w : Work) (core o : Nat) (slot : BitVec 64) (c kk : Nat) : Nat :=
  let wb := slotBytes slot
  leNat ((List.range wb).map fun n => mget (w.core core).bstore (65536 * c + o + wb * kk + n) 0)

/-- Groups of up to 16 positions of a list (R51). -/
def groups16 {α : Type} (xs : List α) : Nat → List (List α)
  | 0 => []
  | n + 1 => if xs.isEmpty then [] else xs.take 16 :: groups16 (xs.drop 16) n

/-- Floating accumulation (R51, R52): the exact sum of each group of 16 positions with the accumulator, rounded once. -/
def accumulateF (start : Nat) (ts : List (List (Option FVal))) : Nat :=
  (groups16 ts ts.length).foldl (fun x g => (sumTerms .rn (some (fp32.value x) :: g.flatten)).1) start

/-- A code of an 8-bit integer format as an integer. -/
def intCode (fmt x : Nat) : Int := if fmt = 4 then (BitVec.ofNat 8 x).toInt else (x % 256 : Nat)

/-- Integer accumulation (R53): exact, wrapping. -/
def accumulateI (start : Word) (ts : List Int) : Word := ts.foldl (fun x t => x + BitVec.ofInt 32 t) start

/-- The value of one cell (R262): `j` and `t` are its element column and component. -/
def Work.mmaCell (w : Work) (bid core o d K : Nat) (r : BitVec 512) (sa sb : BitVec 64) (tab : List Byte) (i j t : Nat)
    (start : Word) : Word :=
  let ps := tableTerms tab t
  let at_ := fun (q : Nat) =>
    let c := d * j + q
    if c < 128 then (core, c) else (partnerOf core, c - 128)
  if fmtInt8 (slotFmt sa) then
    accumulateI start ((List.range K).flatMap fun kk => ps.map fun p =>
      let x := intCode (slotFmt sa) (w.aVal bid r sa d i kk p.1)
      let y := intCode (slotFmt sb) (w.bVal (at_ p.2.1).1 o sb (at_ p.2.1).2 kk)
      if p.2.2 then -(x * y) else x * y)
  else
    BitVec.ofNat 32 (accumulateF start.toNat ((List.range K).map fun kk => ps.map fun p =>
      let x := operandValue sa (w.aVal bid r sa d i kk p.1)
      let y := operandValue sb (w.bVal (at_ p.2.1).1 o sb (at_ p.2.1).2 kk)
      (mulExact x y).map fun v => if p.2.2 then v.neg else v))

/-- An MMA at its turn (R262, R265). -/
def Work.runMma (w : Work) (core : Nat) (bid : Nat) (z pair acc : Bool) (r : BitVec 512) (o : Nat) (sa sb : BitVec 64) :
    Work :=
  let tab := w.mmaTable core sa
  let d := tableDim tab
  let K := mmaK r
  let M := rows r
  let C := if pair then 256 else 128
  let home := fun (c : Nat) => if c < 128 then (core, c) else (partnerOf core, c - 128)
  let badB := fun (c : Nat) => (w.core c).bstoreBad.any fun k =>
    decide (o ≤ k % 65536) && decide (k % 65536 < o + slotBytes sb * K)
  let bad := w.badData (PAddr.scratch bid (shRing r)).key (d * slotBytes sa * K * M) || badB core ||
    (pair && badB (partnerOf core))
  let nan : Word := if fmtInt8 (slotFmt sa) then 0x80000000 else BitVec.ofNat 32 fp32.nan
  let cellOf := fun (i c : Nat) =>
    if bad then nan
    else
      let h := home c
      w.mmaCell bid core o d K r sa sb tab i (c / d) (c % d) (if z then 0 else w.cell h.1 acc i h.2)
  let sets := if pair then [core, partnerOf core] else [core]
  let w' := if z then sets.foldl (fun x c => x.zeroAcc c acc) w else w
  let put := fun (x : Work) (i c : Nat) => let h := home c; x.setCell h.1 acc i h.2 (cellOf i c)
  let w' := (List.range M).foldl (fun x i => (List.range C).foldl (fun x c => put x i c) x) w'
  if bad then sets.foldl (fun x c => x.markAcc c acc true) w'
  else if z then sets.foldl (fun x c => x.markAcc c acc false) w'
  else w'

/-- The K steps of an MMA are counted on every core whose array it occupies (R264, R392; log entry 71: DEDUCED for a pair). -/
def Work.countSteps (w : Work) (core bid : Nat) (pair : Bool) (k : Nat) : Work :=
  (if pair then [core, partnerOf core] else [core]).foldl (fun w c => w.count c (w.bctx bid) 0x0E k) w

/-- MMA_RUN (R257, R262). -/
def execMmaRun (core : Nat) (s : State) : Host.Outcome State Fault Refusal :=
  commit (fun w => match w.turnOp core with
    | none => w
    | some o => match o.kind with
      | .mma z pair acc r off sa sb => ((w.runMma core o.bid z pair acc r off sa sb).countSteps core o.bid pair (mmaK r)).retireOp core o
      | _ => w) s

/-! ### MZERO (R266) -/

/-- MZERO (R266). -/
def execMzero (g : Guard) (pair acc : Bool) (s : State) : Host.Outcome State Fault Refusal :=
  bundle g ⟨[], none⟩ true (fun e w => match e.act with
    | [] => ⟨w, .next, clsCtrl, 1⟩
    | l :: _ =>
      if pair ∧ w.pairRefused e then illegalOperand w
      else if w.orderFull e.core pair then ⟨w, .stall, clsCtrl, 0⟩
      else ⟨(w.enter e l (.mzero pair acc)).2, .next, clsCtrl, 1⟩) s

/-- MZERO_RUN (R266). -/
def execMzeroRun (core : Nat) (s : State) : Host.Outcome State Fault Refusal :=
  commit (fun w => match w.turnOp core with
    | none => w
    | some o => match o.kind with
      | .mzero pair acc =>
        let sets := if pair then [core, partnerOf core] else [core]
        (sets.foldl (fun w c => (w.zeroAcc c acc).markAcc c acc false) w).retireOp core o
      | _ => w) s

/-! ### BLD (R267) -/

/-- The checks of R267, in order. -/
def Work.bldCheck (w : Work) (e : Iss) (l : Nat) (r : BitVec 512) (o : Nat) (bar : Option (BitVec 4))
    (fut : Option (BitVec 64)) : Motion :=
  let wd := w.compBytes e.lid r
  let base := w.shapeBase e.lid l r
  if base ≠ .ok then base
  else if 2 < shRank r ∨ 128 < shExt r 0 * shAlg r ∨ o % 16 ≠ 0 ∨ 65536 < o + wd * rows r then illMotion
  else if w.engineNames e l bar fut ≠ .ok then illMotion
  else .ok

/-- BLD (R267). -/
def execBld (g : Guard) (sh : BitVec 4) (b : Src) (bar : Option (BitVec 4)) (fut : Option Src) (s : State) :
    Host.Outcome State Fault Refusal :=
  bundle g ⟨useOf b 1 1 :: futUse fut 2, none⟩ true (fun e w => match e.act with
    | [] => ⟨w, .next, clsCopy, 0⟩
    | l :: _ =>
      let r := w.shape e.bid sh
      let o := ((w.wave e.wid).val e b.reg l).toNat
      let f := w.futArg e l fut
      w.judgeOne e (w.bldCheck e l r o bar f) .r clsCopy 0 fun w =>
        if w.orderFull e.core false then ⟨w, .stall, clsCopy, 0⟩
        else ⟨((w.pendUp e.bid bar).enter e l (.bld r o bar f)).2, .next, clsCopy, 0⟩) s

/-- One element of a BLD: its components, as raw codes, go to their slices. -/
def Work.bldElem (w : Work) (ctx core lid : Nat) (r : BitVec 512) (o i : Nat) : MoveEnd × Work :=
  let wd := w.compBytes lid r
  let d := shAlg r
  let j := i % shExt r 0
  let kk := i / shExt r 0
  let (c, w) := w.engineRange ctx core .bld .r true (shAddr r ((coords i [shExt r 0, rows r]).take (shRank r))) (d * wd)
  match c with
  | .wait => (.wait, w)
  | .stop code line => (.stop code line, w)
  | .ok ps =>
    let key := fun (n : Nat) => 65536 * (d * j + n / wd) + o + wd * kk + n % wd
    let put := fun (m : FMap Byte) (x : Byte × Nat) => mset m (key x.2) x.1 0
    let bs := w.readPieces ps
    let mended := fun (k : Nat) => (List.range bs.length).any fun n => key n == k
    (.all, w.modCore core fun c => { c with
      bstore := bs.zipIdx.foldl put c.bstore, bstoreBad := c.bstoreBad.filter fun k => !mended k })

/-- The elements of a BLD in its order: how many moved, and how it ended. -/
def Work.bldElems (w : Work) (ctx core lid : Nat) (r : BitVec 512) (o i : Nat) : Nat → (Nat × MoveEnd) × Work
  | 0 => ((i, .all), w)
  | n + 1 =>
    match w.bldElem ctx core lid r o i with
    | (.all, w) => w.bldElems ctx core lid r o (i + 1) n
    | (x, w) => ((i, x), w)

/-- The state in which an operation that met a miss waits: only the translation unit has changed; it starts over when the
record has closed. -/
def Work.onlyWaits (w after : Work) : Work := w.modMmu fun _ => after.dev.mmu

/-- A BLD at its turn; with `only`, nothing happens but a stop that its next element meets (R240, R267). -/
def Work.runBld (w : Work) (core : Nat) (o : ArrOp) (r : BitVec 512) (off : Nat) (bar : Option (BitVec 4))
    (fut : Option (BitVec 64)) (only : Bool) : Work :=
  let ctx := w.bctx o.bid
  let lid := w.blid o.bid
  let n := w.elemBytes lid r
  let ((i, m), w') := w.bldElems ctx core lid r off 0 (shExt r 0 * rows r)
  let done := (w'.chargeCopy ctx core 0 (n * i)).retireOp core o
  match m with
  | .stop code line => done.engineEnd core ctx o.bid .bld bar fut true false (stopCode code line)
  | .all => if only then w else done.engineEnd core ctx o.bid .bld bar fut false false (n * i)
  | .wait => if only then w else w.onlyWaits w'

/-- BLD_RUN (R267). -/
def execBldRun (core : Nat) (s : State) : Host.Outcome State Fault Refusal :=
  commit (fun w => match w.turnOp core with
    | none => w
    | some o => match o.kind with
      | .bld r off bar fut => w.runBld core o r off bar fut false
      | _ => w) s

/-! ### MQ (R279) -/

/-- The word that MQ reads. -/
def Work.arrayWord (w : Work) (core : Nat) : Word :=
  let c := w.core core
  let led := fun (x : Nat) => c.order.any fun o => o.kind.isPair && w.leader o == x
  BitVec.ofNat 32 (c.order.length * 2 ^ 12 + b2n (led (partnerOf core)) * 2 ^ 11 + b2n (led core) * 2 ^ 10 +
    b2n c.accErr1 * 2 ^ 9 + b2n c.accErr0 * 2 ^ 8)

/-- MQ (R279). -/
def execMq (g : Guard) (d : Reg) (s : State) : Host.Outcome State Fault Refusal :=
  bundle g ⟨[], some (d, 1)⟩ false (fun e w =>
    let x := w.arrayWord e.core
    ⟨w.modWave e.wid fun v => v.putAll e d fun _ => [x], .next, clsCtrl, 1⟩) s

end Sys2Proof.Machine
end

