-- ==== Sys2Proof/Machine/Skew.lean ====
section
/-! DEFINITION. The Skew: its words, one run, EPIL, MDRAIN, and ALTAB, which loads in the array's order (15 R268–R278,
05 R129, R130). -/

namespace Sys2Proof.Machine

/-! ### Words (R269, R270) -/

def skOp (x : Word) : Nat := bits x.toNat 31 28
def skN (x : Word) : Nat := bits x.toNat 27 26
def skM (x : Word) : Nat := bits x.toNat 25 24
def skFl (x : Word) : Bool := x.getLsbD 23
def skArg (x : Word) : Nat := bits x.toNat 19 0

/-- Whether a word is refused by EPIL (R272): an operation that does not exist, a field that its operation does not use, or
an offset that is not a multiple of 4. -/
def skRefused (x : Word) : Bool :=
  let n := skN x
  let m := skM x
  let fl := skFl x
  let a := skArg x
  let noRegs := n == 0 && m == 0
  bits x.toNat 22 20 != 0 || !(match skOp x with
    | 0 => noRegs && !fl && a == 0
    | 1 => if fl then m == 0 && a == 0 else noRegs && decide (a < 8)
    | 2 => noRegs && !fl && a % 4 == 0
    | 3 => noRegs && !fl && a == 0
    | 4 => noRegs && !fl && a == 0
    | 5 => !fl && a == 0
    | 6 => !fl && a % 4 == 0
    | 7 => noRegs && !fl && decide (a < 4)
    | 8 => m == 0 && !fl && a == 0
    | 9 => m == 0 && a == 0
    | 10 => noRegs && !fl && a == 0
    | 11 => if fl then m == 0 && a % 4 == 0 else noRegs && a == 0
    | _ => false)

/-- The index of the first refused word among words 0–59, or 60 when END is missing (R272). -/
def skCheck (ws : List Word) (i : Nat) : Nat → Option Nat
  | 0 => some 60
  | n + 1 =>
    let x := ws.getD i 0
    if skRefused x then some i else if skOp x = 0 then none else skCheck ws (i + 1) n

/-! ### A run (R268, R270, R271) -/

/-- What a run works on: the machine, x, e0–e3, the output bytes stored so far and their addresses. -/
structure SkSt where
  w : Work
  x : Nat
  e : List Nat
  moved : Nat
  seen : List Nat
  deriving DecidableEq, Repr

/-- Where a drain stands, and what its runs need (R276, R277). -/
structure Drain where
  ctx : Nat
  core : Nat
  bid : Nat
  lid : Nat
  d : Nat
  out : BitVec 512
  res : Option (BitVec 512)
  row : Nat
  col : Nat
  comp : Nat
  /-- the value is the row's last -/
  last : Bool
  /-- stores are checked and not made: the value is known to stop -/
  dry : Bool
  deriving DecidableEq, Repr

/-- A NaN is canonical in every rounded result (R268). -/
def skCanon (x : Nat) : Nat := if (fp32.value x).isNan then fp32.nan else x

/-- A word of the block's scratchpad (R270, R278): BOUNDS beyond β, DATAERR for uncorrectable data; a stop names the 128 bytes of
the offset (log entry 46: DEDUCED). -/
def Work.skWord (w : Work) (z : Drain) (off : Nat) : Nat × MoveEnd :=
  let k := (PAddr.scratch z.bid off).key
  if (w.launch z.lid).beta < off + 4 then (0, .stop Cause.bounds (lineOf off))
  else if w.badData k 4 then (0, .stop Cause.dataerr (lineOf off))
  else (w.num k 4, .all)

/-- TBL (R271): the result, or a stop. -/
def Work.skTable (w : Work) (z : Drain) (arg x lo hi : Nat) : Nat × MoveEnd :=
  let vl := fp32.value lo
  let vh := fp32.value hi
  let bad := (fp32.value x).isNan || vl.isNan || vh.isNan || vl.isInf || vh.isInf || vl.cmp vh != some (-1)
  if bad then (fp32.nan, .all)
  else
    let one := fun (n : Nat) =>
      let (y, m) := w.skWord z (arg + 4 * n)
      let v := fp32.value y
      (if v.isNan || v.isInf then fp32.nan else y, m)
    match fp32.value x, vl, vh with
    | .inf neg, _, _ => one (if neg then 0 else 63)
    | .num sx nx dx, .num sl nl dl, .num sh nh dh =>
      let q := fun (s : Bool) (n : Nat) => if s then -(n : Int) else (n : Int)
      -- u = 63 × (x − lo) / (hi − lo), over the common denominator of the three
      let a : Int := 63 * ((q sx nx) * dl - (q sl nl) * dx) * dh
      let b : Int := ((q sh nh) * dl - (q sl nl) * dh) * dx
      if a ≤ 0 then one 0
      else if 63 * b ≤ a then one 63
      else
        let n := (a / b).toNat
        let (y, m) := w.skWord z (arg + 4 * n)
        let (y', m') := w.skWord z (arg + 4 * (n + 1))
        if m ≠ .all then (0, m)
        else if m' ≠ .all then (0, m')
        else match fp32.value y, fp32.value y' with
          | .num s1 n1 d1, .num s2 n2 d2 =>
            let r : Int := a % b
            -- T[n] + (r / b) × (T[n+1] − T[n])
            let num : Int := (q s1 n1) * d2 * b + r * ((q s2 n2) * d1 - (q s1 n1) * d2)
            ((fp32.round .rn (decide (num < 0)) num.natAbs (d1 * d2 * b.toNat)).1, .all)
          | _, _ => (fp32.nan, .all)
    | _, _, _ => (fp32.nan, .all)

/-- The residual value of R277, exact; a stop where it may not be read. -/
def Work.skResidual (w : Work) (z : Drain) (r : BitVec 512) : (FVal × MoveEnd) × Work :=
  let wd := w.compBytes z.lid r
  let ext := [shExt r 0, rows r]
  let ix := [z.col, z.row]
  let beyond := ix.zip ext |>.any fun x => decide (x.2 ≤ x.1)
  let at_ := fun (ix : List Nat) => shAddr r (ix.take (shRank r)) + z.comp * wd
  if beyond ∧ shOob r = 0 then ((.num false 0 1, .all), w)
  else if beyond ∧ shOob r = 2 then ((.num false 0 1, .stop Cause.bounds (lineOf (at_ ix))), w)
  else
    let va := at_ ((ix.zip ext).map fun x => min x.1 (x.2 - 1))
    let (c, w) := w.engineRange z.ctx z.core .mdrain .r true (va % 2 ^ 64) wd
    match c with
    | .wait => ((.num false 0 1, .wait), w)
    | .stop code line => ((.num false 0 1, .stop code line), w)
    | .ok ps => ((slotDecode (w.slotOf z.lid (shFslot r)) (leNat (w.readPieces ps)), .all), w)

/-- The larger of two codes, as FMAX. -/
def skMax (a b : Nat) : Nat := (fp32.minMax true a b).1

/-- CLMP (R270). -/
def skClamp (x lo hi : Nat) : Nat :=
  let v := fp32.value x
  if v.isNan then fp32.nan
  else if v.cmp (fp32.value hi) = some 1 then skCanon hi
  else if v.cmp (fp32.value lo) = some (-1) then skCanon lo
  else x

/-- One word other than END. -/
def skStep (z : Drain) (c : Word) (s : SkSt) : MoveEnd × SkSt :=
  let n := skN c
  let m := skM c
  let arg := skArg c
  let e := fun (i : Nat) => s.e.getD i 0
  let setE := fun (i v : Nat) => { s with e := s.e.set i v }
  let col := z.d * z.col + z.comp
  let add := fun (v : FVal) => (fp32.add .rn (fp32.value s.x) v).1
  match skOp c with
  | 1 =>
    let k := if skFl c then fp32.value (e n) else slotScale (s.w.slotOf z.lid arg)
    (.all, { s with x := (fp32.mul .rn (fp32.value s.x) k).1 })
  | 2 => match s.w.skWord z (arg + 4 * col) with
    | (v, .all) => (.all, { s with x := add (fp32.value v) })
    | (_, k) => (k, s)
  | 3 => match z.res with
    | none => (.all, s)
    | some r => match s.w.skResidual z r with
      | ((v, .all), w) => (.all, { s with w := w, x := add v })
      | ((_, k), w) => (k, { s with w := w })
  | 4 =>
    let v := fp32.value s.x
    (.all, { s with x := if v.isNan then fp32.nan else if v.sign then 0 else s.x })
  | 5 => (.all, { s with x := skClamp s.x (e n) (e m) })
  | 6 => match s.w.skTable z arg s.x (e n) (e m) with
    | (v, .all) => (.all, { s with x := v })
    | (_, k) => (k, s)
  | 7 =>
    let t := s.w.table z.core (BitVec.ofNat 2 arg)
    let i := col % tableDim t
    (.all, if (t.getD 1 0).getLsbD i then { s with x := s.x ^^^ 0x80000000 } else s)
  | 8 => (.all, setE n (skMax (e n) s.x))
  | 9 => (.all, if skFl c then { s with x := e n } else setE n s.x)
  | 10 => (.all, { s with x := (slotIn (s.w.slotOf z.lid (shFslot z.out)) (fp32.value s.x)).1 })
  | _ =>
    if skFl c then
      let off := arg + 4 * z.row
      if !z.last then (.all, s)
      else if (s.w.launch z.lid).beta < off + 4 then (.stop Cause.bounds (lineOf off), s)
      else
        let k := (PAddr.scratch z.bid off).key
        (.all, if z.dry then s else { s with w := (s.w.putBytes k (leBytes 4 (e n))).mend k 4 })
    else
      let wd := s.w.compBytes z.lid z.out
      let va := (shAddr z.out ([z.col, z.row].take (shRank z.out)) + z.comp * wd) % 2 ^ 64
      let (r, w) := s.w.engineRange z.ctx z.core .mdrain .w false va wd
      match r with
      | .wait => (.wait, { s with w := w })
      | .stop code line => (.stop code line, { s with w := w })
      | .ok ps =>
        if z.dry then (.all, { s with w := w })
        else
          let new := ((List.range wd).map fun i => va + i).filter fun a => !s.seen.contains a
          (.all, { s with w := w.writePieces ps (leBytes wd s.x), moved := s.moved + wd, seen := new ++ s.seen })

/-- A run: words from a list until END (R268). -/
def skRun (z : Drain) (s : SkSt) : List Word → MoveEnd × SkSt
  | [] => (.all, s)
  | c :: cs =>
    if skOp c = 0 then (.all, s)
    else match skStep z c s with
      | (.all, s) => skRun z s cs
      | (m, s) => (m, s)

/-! ### MDRAIN (R274–R278) -/

/-- Rows and element columns of a drain (R276). -/
def drainRows (r : BitVec 512) : Nat := if shRank r = 1 then 1 else min (shBox r 1) (shExt r 1)
def drainCols (r : BitVec 512) : Nat := min (shBox r 0) (shExt r 0)

/-- The checks of R275, in order. -/
def Work.mdrainCheck (w : Work) (e : Iss) (l : Nat) (pair : Bool) (out : BitVec 512) (res : Option (BitVec 512))
    (bar : Option (BitVec 4)) (fut : Option (BitVec 64)) : Motion :=
  let d := shAlg out
  let both := out :: res.toList
  let base := firstMotion (both.map fun r => w.shapeBase e.lid l r)
  let box1 := if shRank out = 1 then 1 else shBox out 1
  if pair ∧ w.pairRefused e then illMotion
  else if base ≠ .ok then base
  else if both.any (fun r => decide (2 < shRank r)) ∨ slotFmt (w.slotOf e.lid (shFslot out)) = 7 ∨ 64 / d < box1 ∨
      (if pair then 256 else 128) < shBox out 0 * d ∨ res.toList.any (fun r => shAlg r != d) then illMotion
  else match res.toList.find? shRagged with
    | some r => atMotion Cause.bounds (shBase r) l 0
    | none => w.engineNames e l bar fut

/-- MDRAIN (R274, R275). -/
def execMdrain (g : Guard) (pair i acc : Bool) (sh : BitVec 4) (res : Option (BitVec 4)) (bar : Option (BitVec 4))
    (fut : Option Src) (s : State) : Host.Outcome State Fault Refusal :=
  bundle g ⟨futUse fut 2, none⟩ true (fun e w => match e.act with
    | [] => ⟨w, .next, clsCopy, 0⟩
    | l :: _ =>
      let out := w.shape e.bid sh
      let r := res.map (w.shape e.bid)
      let f := w.futArg e l fut
      w.judgeOne e (w.mdrainCheck e l pair out r bar f) .r clsCopy 0 fun w =>
        if w.orderFull e.core pair then ⟨w, .stall, clsCopy, 0⟩
        else ⟨((w.pendUp e.bid bar).enter e l (.mdrain pair i acc out r bar f)).2, .next, clsCopy, 0⟩) s

/-- The input of a value (R276). -/
def Work.drainInput (w : Work) (core : Nat) (acc i : Bool) (row c : Nat) : Nat :=
  let x := if c < 128 then w.cell core acc row c else w.cell (partnerOf core) acc row (c - 128)
  if i then (fp32.round .rn x.msb x.toInt.natAbs 1).1 else x.toNat

/-- The values of a drain, in order: a value that stops or waits leaves nothing (R240, R278). -/
def drainVals (acc i : Bool) (prog : List Word) (init : List Nat) (z : Drain) (s : SkSt) :
    List (Nat × Nat × Nat × Bool) → MoveEnd × SkSt
  | [] => (.all, s)
  | v :: vs =>
    let z := { z with row := v.1, col := v.2.1, comp := v.2.2.1, last := v.2.2.2 }
    let s' := { s with
      x := s.w.drainInput z.core acc i z.row (z.d * z.col + z.comp)
      e := if z.col = 0 ∧ z.comp = 0 then init else s.e }
    match skRun z s' prog with
    | (.all, t) => drainVals acc i prog init z t vs
    | (.wait, t) => (.wait, { s with w := s.w.onlyWaits t.w })
    | (m, _) => (m, { s with w := (skRun { z with dry := true } s' prog).2.w })

/-- A drain at its turn; with `only`, nothing happens but a stop that it meets (R240). It retires once its arrival is made and its
future resolved (R257). The Skew and the tables of a pair's leader serve every column (log entry 47: DEDUCED). -/
def Work.runMdrain (w : Work) (core : Nat) (o : ArrOp) (pair i acc : Bool) (out : BitVec 512) (res : Option (BitVec 512))
    (bar : Option (BitVec 4)) (fut : Option (BitVec 64)) (only : Bool) : Work :=
  let ctx := w.bctx o.bid
  let lid := w.blid o.bid
  let d := shAlg out
  let end_ := fun (w : Work) (err : Bool) (v : Nat) => w.engineEnd core ctx o.bid .mdrain bar fut err true v (some o)
  let marked := w.accErr core acc || (pair && w.accErr (partnerOf core) acc)
  if marked then end_ w true Cause.dataerr.toNat
  else
    let word := fun (n : Nat) => mget (w.core core).skew n 0
    let prog := (List.range 60).map word
    let init := (List.range 4).map fun n => (word (60 + n)).toNat
    let n := drainCols out * d
    let vals := (List.range (drainRows out * n)).map fun k => (k / n, k % n / d, k % d, decide (k % n + 1 = n))
    let z : Drain := ⟨ctx, core, o.bid, lid, d, out, res, 0, 0, 0, false, false⟩
    let (m, t) := drainVals acc i prog init z ⟨w, 0, init, 0, []⟩ vals
    match m with
    | .stop code line => end_ (t.w.chargeCopy ctx core 0 t.moved) true (stopCode code line)
    | .all => if only then w else end_ (t.w.chargeCopy ctx core 0 t.moved) false t.seen.length
    | .wait => if only then w else w.onlyWaits t.w

/-- MDRAIN_RUN (R276–R278). -/
def execMdrainRun (core : Nat) (s : State) : Host.Outcome State Fault Refusal :=
  commit (fun w => match w.turnOp core with
    | none => w
    | some o => match o.kind with
      | .mdrain pair i acc out res bar fut => w.runMdrain core o pair i acc out res bar fut false
      | _ => w) s

/-- ENGINE_STOP (R240): the engine whose next element meets a stop ends with its error flag set; one that meets none is left
to its own event. -/
def execEngineStop (core : Nat) (e : EngineId) (s : State) : Host.Outcome State Fault Refusal :=
  commit (fun w =>
    if !w.enginesRun core then w
    else match e with
      | .transfer => w.runTransfer core true
      | .channel n => w.runChannel core n true
      | .mcast => w.stopMcast core
      | .bld => match w.turnOp core with
        | none => w
        | some o => match o.kind with
          | .bld r off bar fut => w.runBld core o r off bar fut true
          | _ => w
      | .mdrain => match w.turnOp core with
        | none => w
        | some o => match o.kind with
          | .mdrain pair i acc out res bar fut => w.runMdrain core o pair i acc out res bar fut true
          | _ => w) s

/-! ### EPIL and ALTAB: loads in the array's order -/

/-- The checks of a load of `n` bytes in the array's order, made at its issue (R129, R272): R150's, and a
coloured line of any of its lines. -/
def Work.aimOrder (w : Work) (e : Iss) (sp : Space) (n al l ea : Nat) : (Motion × Acs) × Work :=
  let (x, w) := w.aim e sp .r n al l ea
  let lines : List (Nat × BitVec 12) := match x.2.phys with
    | some p => (List.range ((n + 127) / 128)).map fun i => (i, mget w.dev.tags (p.pa / 128 + i) 0)
    | none => []
  let hit := match x.1, x.2.phys with
    | .ok, some p => if p.kind = 0 then lines.find? (fun (t : Nat × BitVec 12) => t.2 != 0) else none
    | _, _ => none
  match hit with
  | some t => ((.fail Cause.colourpath (BitVec.ofNat 64 (ea + 128 * t.1)) (t.2.toNat + l * 2 ^ 24) [], x.2), w)
  | none => (x, w)

/-- Issue of EPIL or ALTAB: the operation takes its place, and the split's bundle waits for it. It is charged at its turn, for the
sectors it reads or for its trap (R364). -/
def Work.issueOrder (w : Work) (e : Iss) (sp : Space) (n al ea l : Nat) (k : ArrKind) : Eff :=
  let (x, w) := w.aimOrder e sp n al l ea
  w.judgeOne e x.1 .r clsLd 0 fun w =>
    if w.orderFull e.core false then ⟨w, .stall, clsLd, 0⟩
    else
      let v := w.wave e.wid
      let (i, w) := w.enter e l k x.2.key (v.stepctl && e.level == 0 && !(v.split e.entry).handler)
      ⟨w.modWave e.wid fun v => v.setSplit e.entry { v.split e.entry with busy := some i }, .gone, clsLd, 0⟩

/-- EPIL (R272). -/
def execEpil (g : Guard) (a : Src) (scratch : Bool) (off : BitVec 16) (s : State) : Host.Outcome State Fault Refusal :=
  let sp : Space := if scratch then .c else .g
  bundle g ⟨[addrUse a sp], none⟩ true (fun e w => match e.act with
    | [] => ⟨w, .next, clsLd, 0⟩
    | l :: _ =>
      let ea := (w.wave e.wid).ea e sp a.reg off l
      w.issueOrder e sp 256 256 ea l (.epil scratch (BitVec.ofNat 64 ea))) s

/-- ALTAB (R129). -/
def execAltab (g : Guard) (al : BitVec 2) (a : Src) (off : BitVec 16) (s : State) : Host.Outcome State Fault Refusal :=
  bundle g ⟨[addrUse a .g], none⟩ true (fun e w => match e.act with
    | [] => ⟨w, .next, clsLd, 0⟩
    | l :: _ =>
      let ea := (w.wave e.wid).ea e .g a.reg off l
      w.issueOrder e .g 68 128 ea l (.altab al (BitVec.ofNat 64 ea))) s

/-- The bundle that waited is done: its split goes on; STEP falls due behind it when it issued with STEPCTL 1 (R142). -/
def Wave.unstall (v : Wave) (n : Nat) (step : Bool) : Wave :=
  v.setSplit n ((v.split n).event fun s =>
    let on := { s with pc := s.pc + 8, busy := none, denied := [], resumed := false }
    if step then { on with state := .trapped, trap := some ⟨Cause.step, s.pc + 8, s.mask, s.pc.setWidth 64, 0⟩ } else on)

/-- A load in the array's order at its turn, of the place that its checks at issue found (R129, R176): uncorrectable data raises
DATAERR; `refuse` gives the detail of ILLEGAL/OPERAND, `write` stores what was loaded. -/
def Work.runOrder (w : Work) (core : Nat) (o : ArrOp) (sp : Space) (n ea : Nat) (refuse : List Byte → Option Nat)
    (write : Core → List Byte → Core) : Work :=
  match (w.wave o.wid).busyOn o.id with
  | none => w.retireOp core o
  | some entry =>
    let s := (w.wave o.wid).split entry
    let e := w.issOf o.wid entry s (lanesOf o.act)
    let w := w.retireOp core o
    let trap := fun (w : Work) (c : BitVec 8) (a : BitVec 64) (i : Word) =>
      let w := w.modWave o.wid fun v => v.setSplit entry { v.split entry with busy := none }
      ((w.raise e c a i).charge e.ctx core clsCtrl 1).settle o.wid
    let ((bs, bad), w) := w.orderRead e o n
    match dataMotion sp o.lane ea bad with
    | .fail c a i _ => trap w c a (BitVec.ofNat 32 i)
    | _ => match refuse bs with
      | some i => trap w Cause.illegal 0 (illInfo .operand false false i)
      | none =>
        let w := (w.modCore core fun c => write c bs).charge e.ctx core clsLd ((n + 15) / 16)
        ((w.modWave o.wid fun v => v.unstall entry o.step).settle o.wid).tryTrap o.wid

/-- The words of a program image. -/
def skWords (bs : List Byte) : List Word := (List.range 64).map fun i => BitVec.ofNat 32 (leNat (slice bs (4 * i) 4))

/-- EPIL_RUN (R272). -/
def execEpilRun (core : Nat) (s : State) : Host.Outcome State Fault Refusal :=
  commit (fun w => match w.turnOp core with
    | none => w
    | some o => match o.kind with
      | .epil scratch addr =>
        w.runOrder core o (if scratch then .c else .g) 256 addr.toNat (fun bs => skCheck (skWords bs) 0 60)
          fun c bs => { c with skew := (skWords bs).zipIdx.foldl (fun m x => mset m x.2 x.1 0) [] }
      | _ => w) s

/-- ALTAB_TABLE_READ (R129). -/
def execAltabTableRead (core : Nat) (s : State) : Host.Outcome State Fault Refusal :=
  commit (fun w => match w.turnOp core with
    | none => w
    | some o => match o.kind with
      | .altab al addr =>
        w.runOrder core o .g 68 addr.toNat tableRefused fun c bs => { c with al := mput c.al al.toNat bs }
      | _ => w) s

end Sys2Proof.Machine
end

