-- ==== Sys2Proof/Machine/Distribute.lean ====
section
/-! DEFINITION. Cores and their owners, room for blocks, placement and the fold of counters (06 R132, R133, 07 R151–R153,
19 R324–R326, 22 R367). -/

namespace Sys2Proof.Machine

/-! ### Waves as placement makes them -/

/-- A lane at placement (R16, R18, R21): depth 0, an empty stack, its task's arguments in v0–v7. -/
def Lane.fresh (l : Nat) (task : Option TaskRec) : Lane := { Lane.blank with alive := true, hlow := l, task := task }

/-- A wave at placement (R16, R132): some living lanes, kernel arguments in k0–k7, one split at the entry PC. -/
def Wave.fresh (ctx lid bid widx core slot : Nat) (l : Nat) (entry : Pc) (lanes : List (Nat × Option TaskRec))
    (kargs : List Word) : Wave :=
  let ls := lanes.foldl (fun (m : FMap Lane) x => mput m x.1 (Lane.fresh l x.2)) []
  let args := lanes.foldl (fun (m : FMap Word) x => match x.2 with
    | some t => (t.args.zipIdx).foldl (fun m a => mset m (1024 * x.1 + a.2) a.1 0) m
    | none => m) []
  let ks := (kargs.zipIdx).foldl (fun (m : FMap Word) a => mset m a.2 a.1 0) []
  { Wave.blank with
    ctx := ctx, lid := lid, bid := bid, widx := widx, place := some (core, slot), slot := slot, lanes := ls, vregs := args
    kregs := ks, entries := [(0, { Split.blank with mask := maskOf (lanes.map (·.1)), pc := entry })] }

/-! ### Owners -/

/-- Whether a core is retired for this boot (R403). -/
def Work.isRetired (w : Work) (core : Nat) : Bool := w.dev.sec.retired.getLsbD core
/-- A core of the package that nobody owns (R325). -/
def Work.coreFree (w : Work) (core : Nat) : Bool :=
  decide (core < Config.cores) && (w.core core).owner.isNone && (w.core core).stopped.isNone && !w.isRetired core
/-- The cores that a launch owns. -/
def Work.coresOfLaunch (w : Work) (lid : Nat) : List Nat :=
  (w.dev.cores.filter fun c => c.2.owner == some lid).map (·.1)
/-- The cores that a context owns. -/
def Work.coresOf (w : Work) (ctx : Nat) : List Nat :=
  (w.dev.cores.filter fun c => match c.2.owner with
    | some lid => (w.launch lid).ctx == ctx
    | none => false).map (·.1)
/-- Whether a context may take `n` more cores (R347). -/
def Work.mayTake (w : Work) (ctx n : Nat) : Bool := decide ((w.coresOf ctx).length + n ≤ (w.ctx ctx).rec_.maxc)

/-- The blocks and the waves on a core. -/

def Work.wavesOn (w : Work) (core : Nat) : List (Nat × Wave) := w.dev.waves.filter fun v => v.2.core? == some core

/-- Waves of a launch that a quarter holds (R133). -/
def perQuarter (s : Nat) : Nat := min 16 (2048 / s)

/-- The free wave slots of a quarter, ascending. -/
def Work.freeSlots (w : Work) (core s q : Nat) : List Nat :=
  ((List.range (perQuarter s)).map fun n => 16 * q + n).filter fun n =>
    !(w.dev.waves.any fun v => v.2.place == some (core, n))
/-- The free wave slots of the four quarters. -/
def Work.slotsFree (w : Work) (core s : Nat) : List (List Nat) := (List.range 4).map fun q => w.freeSlots core s q

/-- The quarter with the most free slots, the lowest among equals (R132). -/
def bestQuarter (qs : List (List Nat)) : Nat :=
  (List.range qs.length).foldl (fun b q => if (qs.getD b []).length < (qs.getD q []).length then q else b) 0

/-- Slots for the waves of a block, one at a time (R132). -/
def takeSlots (qs : List (List Nat)) : Nat → Option (List Nat)
  | 0 => some []
  | n + 1 =>
    let q := bestQuarter qs
    match qs.getD q [] with
    | [] => none
    | s :: rest => (takeSlots (qs.set q rest) n).map fun ss => s :: ss

/-- Slots for `n` waves of one more block of a launch on a core, if the core holds the whole block (R326). -/
def Work.room (w : Work) (lid core n : Nat) : Option (List Nat) :=
  let l := w.launch lid
  let lane := 32 * ((w.wavesOn core).foldl (fun a v => a + (w.launch v.2.lid).l) 0)
  let beta := (w.blocksOn core).foldl (fun a b => a + (w.launch b.2.lid).beta) 0
  if Config.laneBytes < lane + 32 * l.l * n ∨ Config.scratchBytes < beta + l.beta + l.lend then none
  else takeSlots (w.slotsFree core l.s) n

/-- The cores that a launch takes with a logical core: the core, or every existing role of its cluster (R325). -/
def Launch.taken (l : Launch) (lcore : Nat) : List Nat :=
  if l.lend = 0 then [l.physical lcore]
  else (l.rolesOf (lcore / 8)).map fun r => l.physical (8 * (lcore / 8) + r)

/-- Whether a logical core qualifies as owned by its launch or free (R326). -/
def Work.qualifies (w : Work) (lid lcore : Nat) : Bool :=
  let l := w.launch lid
  let core := l.physical lcore
  if (w.core core).owner = some lid then true
  else
    let free := if l.lend = 0 then w.coreFree core
      else !(l.clusters.contains (lcore / 8)) && (l.taken lcore).all w.coreFree &&
        ((List.range 8).all fun p => (w.core (8 * clusterOf core + p)).owner.isNone)
    free && w.mayTake l.ctx (l.taken lcore).length

/-- A core is given to a launch (R325): its tables are loaded, its read-only and instruction caches emptied; a gated core
wakes (R402). -/
def Work.giveCore (w : Work) (lid core : Nat) : Work :=
  let l := w.launch lid
  w.modCore core fun c => { c.dropCode with
    owner := some lid, al := l.tables.zipIdx.map fun x => (x.2, x.1), ro := [], gated := false }

/-- A logical core becomes its launch's, with its cluster and a zeroed cluster memory when the launch lends (R325); the
residency of a context that owned no core begins (R351). -/
def Work.assign (w : Work) (lid lcore : Nat) : Work :=
  let l := w.launch lid
  if (w.core (l.physical lcore)).owner = some lid then w
  else
    let w := if (w.coresOf l.ctx).isEmpty then w.modCtx l.ctx fun c => { c with since := w.gtick, expired := false } else w
    let w := (l.taken lcore).foldl (fun w c => w.giveCore lid c) w
    if l.lend = 0 then w
    else
      let q := lcore / 8
      let k := (PAddr.cluster lid q 0).key
      ((w.zero k (8 * l.lend)).mend k (8 * l.lend)).modLaunch lid fun l => { l with clusters := q :: l.clusters }

/-- A wake of a core that is gated (R402): it runs at once (log entry 60: DESIGN CHOICE). A retired core stays gated (R365). -/
def Work.wakeCore (w : Work) (core : Nat) : Work :=
  if (w.core core).gated ∧ !w.isRetired core then
    w.modCore core fun c => { c with gated := false, idleSince := w.gtick.toNat }
  else w

/-- A core's static power of this tick is shared by a context whose waves have just come onto it, unless another's stood there at its
start (R365, R369, log entry 98: DEDUCED). -/
def Core.joins (c : Core) (ctx : Nat) : Core :=
  { c with resident := if c.resident.all fun x => x == ctx then ctx :: c.resident else c.resident }

/-- A block is placed (R132, R285, R326): its waves take the slots, its scratchpad and lane-private bytes are zero, its shape
and barrier registers start at zero. `lanes` gives each wave's living lanes with their tasks. -/
def Work.putBlock (w : Work) (lid lcore : Nat) (idx : BitVec 64) (slots : List Nat) (task : Bool)
    (lanes : List (Nat × Option TaskRec)) (entry : Pc) (kargs : List Word) : Nat × Work :=
  let w := w.assign lid lcore
  let l := w.launch lid
  let core := l.physical lcore
  let w := (w.wakeCore core).modCore core fun c => c.joins l.ctx
  let (bid, w) := w.newId
  let k := (PAddr.scratch bid 0).key
  let w := (w.zero k l.beta).mend k l.beta
  let add := fun (r : List Nat × Work) (x : Nat × Nat) =>
    let (wid, w) := r.2.newId
    let k := (PAddr.lane wid 0 0).key
    let w := (w.zero k (32 * 4096)).mend k (32 * 4096)
    (r.1 ++ [wid], w.setWave wid (Wave.fresh l.ctx lid bid x.2 core x.1 l.l entry lanes kargs))
  let (ws, w) := slots.zipIdx.foldl add ([], w)
  (bid, w.setBlock bid { Block.blank with
    ctx := l.ctx, lid := lid, idx := idx, core := some core, lcore := lcore, waves := ws, task := task })

/-! ### Folding counters -/

/-- The 80-bit sum of a total and a rise, saturating (R366). -/
def addTotal (t : BitVec 80) (u : Nat) : BitVec 80 :=
  if 2 ^ 80 ≤ t.toNat + u then BitVec.allOnes 80 else t + BitVec.ofNat 80 u

/-- A context's counter on a core is folded into its total (R366, R367). -/
def Context.fold (c : Context) (core : Nat) : Context :=
  let x := (c.energyOn core).settle
  { c with etot := addTotal c.etot (x.e.toNat - x.base.toNat), energy := mput c.energy core { x with base := x.e } }

end Sys2Proof.Machine
end

