-- ==== Sys2Proof/Machine/Tasks.lean ====
section
/-! DEFINITION. Tasks: SPAWN, SPAWNF and what lanes do with their own tasks, the queues' upkeep, the Chucks, and commits
(16 R280–R286, R295, R296, 17 R297–R315). -/

namespace Sys2Proof.Machine

/-! ### SPAWN and SPAWNF -/

/-- The entry that a lane spawns at (R286). -/
def Wave.spawnEntry (v : Wave) (e : Iss) (a : Reg) (l : Nat) : BitVec 64 := v.val64 e a l

/-- The check of a task's entry (R286): aligned to 8, and below 2⁵⁶. -/
def checkEntryPc (t : BitVec 64) (l : Nat) : Motion :=
  if t.toNat % 8 ≠ 0 then .fail Cause.align t (l * 2 ^ 8) []
  else if 2 ^ 56 ≤ t.toNat then .fail Cause.memfault t (l * 2 ^ 8) []
  else .ok

/-- Records that a queue of a context can still take (R282). -/
def CtxTasks.queueRoom (t : CtxTasks) (total cluster : Nat) (pri : BitVec 2) : Nat :=
  let q := mget t.queues (queueKey cluster pri) []
  let last := match q.getLast? with
    | some s => 63 - s.tail
    | none => 0
  last + 63 * t.segLeft total

/-- The floor of a spawned timestamp (R298): the parent's, or that of the domain's frontier, or of its last commit. -/
def Work.tsFloor (w : Work) (ctx : Nat) (dom : BitVec 4) (parent : Option TaskRec) : BitVec 64 :=
  match parent with
  | some p => p.ts
  | none => match w.domain ctx dom with
    | none => 0
    | some d => match d.frontier with
      | some f => f.task.ts
      | none => d.lastTs

/-- The larger of two timestamps. -/
def tsMax (a b : BitVec 64) : BitVec 64 := if a < b then b else a

/-- One lane's task is recorded and enqueued (R280, R281, R286, R298). -/
def Work.spawnLane (w : Work) (e : Iss) (pri : BitVec 2) (dom : BitVec 4) (entry : Pc) (ts : BitVec 64) (args : List Word)
    (l : Nat) : Work :=
  let parent := match ((w.wave e.wid).lane l).ordered with
    | some t => if t.dom = dom then some t else none
    | none => none
  let t := (w.ctx e.ctx).tasks
  let r : TaskRec :=
    { fj := false, cont := false, pri := pri, dom := dom, entry := entry
      ts := if dom = 0 then 0 else tsMax ts (w.tsFloor e.ctx dom parent)
      seq := t.nextSeq, lid := e.lid, enq := w.gtick.setWidth 48, args := args, spri := pri, fmask := 0
      parent := parent.map (·.seq), cluster := clusterOf e.core }
  let total := (w.ctx e.ctx).rec_.segments
  let w := w.modTasks e.ctx fun t => { t.enqueue total r with nextSeq := t.nextSeq + 1 }
  if dom = 0 then w
  else w.modDomain e.ctx dom fun d => { d with tasks := d.tasks ++ [⟨r, .queued, 0, 0, [], false⟩] }

/-- Whether a wave may spawn into a domain: its launch opened it (R286, R297). -/
def Work.mayEnterDomain (w : Work) (e : Iss) (dom : BitVec 4) : Bool :=
  dom == 0 || (match w.domain e.ctx dom with
    | some d => d.lid == e.lid
    | none => false)

/-- Speculative lanes whose task is not of a domain (R308). -/
def Work.otherDomain (w : Work) (e : Iss) (dom : BitVec 4) : List Nat :=
  (w.anySpeculative e.wid e.act).filter fun l => match ((w.wave e.wid).lane l).ordered with
    | some t => t.dom != dom
    | none => false

/-- The lanes from one on that a pool has no room for raise QUEUE (R282), with TADDR 0 (R144, log entry 52: DEDUCED). -/
def queueFails (e : Iss) (pri : BitVec 2) (room : Nat) : List (Nat × Motion) :=
  e.act.zipIdx.map fun x => (x.1, if x.2 < room then Motion.ok else .fail Cause.queue 0 pri.toNat [])

/-- SPAWN (R286). -/
def execSpawn (g : Guard) (pri : BitVec 2) (a b : Src) (dom : Option (BitVec 4 × Src)) (s : State) :
    Host.Outcome State Fault Refusal :=
  let d := (dom.map (·.1)).getD 0
  let ts := match dom with
    | some x => [useOf x.2 2 2]
    | none => []
  bundle g ⟨useOf a 2 0 :: useOf b 8 1 :: ts, none⟩ false (fun e w =>
    if e.act.isEmpty then ⟨w, .next, clsCtrl, 1⟩
    else if !w.mayEnterDomain e d then illegalOperand w
    else
      let (e, w) := w.parkFrontier e (w.otherDomain e d)
      if e.act.isEmpty then ⟨w, e.ends, clsCtrl, 1⟩
      else
        let v := w.wave e.wid
        w.judge e (e.act.map fun l => (l, checkEntryPc (v.spawnEntry e a.reg l) l)) .x clsCtrl 1 fun e w =>
          let room := (w.ctx e.ctx).tasks.queueRoom (w.ctx e.ctx).rec_.segments (clusterOf e.core) pri
          w.judge e (queueFails e pri room) .x clsCtrl 1 fun e w =>
            let one := fun (w : Work) (l : Nat) =>
              let t := match dom with
                | some x => v.val64 e x.2.reg l
                | none => 0
              w.spawnLane e pri d ((v.spawnEntry e a.reg l).setWidth 56) t (v.vals e b.reg 8 l) l
            ⟨e.act.foldl one w, .next, clsCtrl, 1⟩) s

/-- The checks of one lane of SPAWNF (R295): its entry, then its futures in ascending order. -/
def Work.aimSpawnf (w : Work) (e : Iss) (a c : Reg) (n : Nat) (l : Nat) : (Motion × List Acs) × Work :=
  let v := w.wave e.wid
  match checkEntryPc (v.spawnEntry e a l) l with
  | .ok =>
    (List.range n).foldl (fun (r : (Motion × List Acs) × Work) m =>
      let (x, w) := r.2.aimFuture e .rw false l (v.val64 e (regAt c (2 * m)) l).toNat
      let out := match r.1.1, x.1 with
        | .ok, y => y
        | .pages gs, .pages hs => .pages (gs ++ hs)
        | y, _ => y
      ((out, r.1.2 ++ [x.2]), w)) ((.ok, []), w)
  | m => ((m, []), w)

/-- One lane of SPAWNF: a join record and a queue record are taken, and the registrations are sent (R289, R295); false when
the pool is short. -/
def Work.spawnfLane (w : Work) (e : Iss) (pri : BitVec 2) (entry : Pc) (args : List Word) (xs : List Acs) : Bool × Work :=
  match w.takeJoin e.ctx with
  | (none, w) => (false, w)
  | (some j, w) =>
    let c := w.ctx e.ctx
    match c.tasks.reserve c.rec_.segments (clusterOf e.core) pri with
    | none => (false, w)
    | some (slot, t) =>
      let r : TaskRec :=
        { fj := false, cont := true, pri := pri, dom := 0, entry := entry, ts := 0, seq := t.nextSeq, lid := e.lid
          enq := w.gtick.setWidth 48, args := args, spri := pri, fmask := 0, parent := none, cluster := clusterOf e.core }
      let regs := xs.zipIdx.map fun x => (⟨x.1.key, j, x.2⟩ : Registration)
      let w := w.modTasks e.ctx fun _ => { t with
        nextSeq := t.nextSeq + 1, joins := mput t.joins j ⟨r, xs.length, 0, xs.map (·.key), slot, []⟩, regs := t.regs ++ regs }
      (true, xs.foldl (fun w x => match x.phys with
        | some p => (w.dirty p).atHome e.core p
        | none => w) w)

/-- SPAWNF in the lanes, ascending, and whether the pool held them all. -/
def Work.spawnfLanes (w : Work) (e : Iss) (pri : BitVec 2) (v : Wave) (a b : Reg) : List (Nat × List Acs) → Bool × Work
  | [] => (true, w)
  | (l, xs) :: rest =>
    match w.spawnfLane e pri ((v.spawnEntry e a l).setWidth 56) (v.vals e b 8 l) xs with
    | (true, w) => w.spawnfLanes e pri v a b rest
    | (false, w) => (false, w)

/-- SPAWNF (R295): nothing is enqueued when the pool is short. -/
def execSpawnf (g : Guard) (pri : BitVec 2) (a b c : Src) (n : BitVec 2) (s : State) : Host.Outcome State Fault Refusal :=
  bundle g ⟨[useOf a 2 0, useOf b 8 1, useOf c (2 * (n.toNat + 1)) 2], none⟩ true (fun e w =>
    let v := w.wave e.wid
    let (xs, w) := e.act.foldl (fun (r : List (Nat × Motion × List Acs) × Work) l =>
      let (x, w) := r.2.aimSpawnf e a.reg c.reg (n.toNat + 1) l
      (r.1 ++ [(l, x)], w)) ([], w)
    w.judge e (xs.map fun x => (x.1, x.2.1)) .rw clsCtrl 1 fun e w =>
      let ys := (xs.filter fun x => e.act.contains x.1).map fun x => (x.1, x.2.2)
      match w.spawnfLanes e pri v a.reg b.reg ys with
      | (true, w) => ⟨w, .next, clsCtrl, 1⟩
      | (false, _) => ⟨w, .raise Cause.queue 0 (BitVec.ofNat 32 pri.toNat), clsCtrl, 1⟩) s

/-! ### The lane's own task -/

/-- TSELF's word (R296). -/
def selfWord (t : Option TaskRec) : Word :=
  match t with
  | none => 0
  | some t => BitVec.ofNat 32 (2 ^ 13 + t.fmask.toNat * 2 ^ 9 + b2n t.cont * 2 ^ 8 + t.spri.toNat * 2 ^ 6 +
      t.pri.toNat * 2 ^ 4 + t.dom.toNat)

/-- TSELF (R296). -/
def execTself (g : Guard) (d : Reg) (s : State) : Host.Outcome State Fault Refusal :=
  bundle g ⟨[], some (d, 1)⟩ false (writes d clsCtrl fun _ v l => [selfWord (v.lane l).task]) s

/-- TABORT without .drop in one lane (R314): nothing for the frontier, else an abort (R305). -/
def Work.abortLane (w : Work) (e : Iss) (l : Nat) : Work :=
  let x := (w.wave e.wid).lane l
  match x.ordered with
  | some t => if x.alive ∧ !w.isFrontier e.ctx t then w.abortTask e.ctx t.dom t.seq else w
  | none => w

/-- TABORT.drop in the lane of a frontier task (R314): the task finishes with no writes, and the lane ends. -/
def Work.dropLane (w : Work) (e : Iss) (l : Nat) : Work :=
  match ((w.wave e.wid).lane l).ordered with
  | some t => ((w.dropTask e.ctx t.dom t.seq).finishTask e.ctx t true).endLane e.wid l
  | none => w

/-- TABORT (R314). -/
def execTabort (g : Guard) (drop : Bool) (s : State) : Host.Outcome State Fault Refusal :=
  bundle g noUses drop (fun e w =>
    let v := w.wave e.wid
    if e.act.any fun l => (v.lane l).ordered.isNone then illegalOperand w
    else if drop then (e.act.foldl (fun w l => w.dropLane e l) w).transfer e []
    else ⟨e.act.foldl (fun w l => w.abortLane e l) w, .next, clsCtrl, 1⟩) s

/-- TIRREV (R315): an irrevocable action with no other effect. -/
def execTirrev (g : Guard) (s : State) : Host.Outcome State Fault Refusal :=
  bundle g noUses true (fun e w => ⟨w, if e.act.isEmpty then e.ends else .next, clsCtrl, 1⟩) s

/-- A finished frontier commits, and those behind it (R311, R312). -/
def execTaskCommit (ctx : BitVec 6) (dom : BitVec 4) (s : State) : Host.Outcome State Fault Refusal :=
  commit (fun w => match w.domain ctx.toNat dom with
    | some d => w.commitDomain ctx.toNat dom (d.tasks.length + 1)
    | none => w) s

/-! ### The queues' upkeep -/

/-- QUEUE_SEGMENT_LINK (R282): a queue whose last segment is full gets a fresh one, if the pool has one. -/
def execQueueSegmentLink (ctx : BitVec 6) (cluster : Nat) (pri : BitVec 2) (s : State) : Host.Outcome State Fault Refusal :=
  commit (fun w =>
    let c := w.ctx ctx.toNat
    let k := queueKey cluster pri
    match mget? c.tasks.queues k with
    | none => w
    | some q =>
      if q.isEmpty ∨ !queueFull q then w
      else match c.tasks.takeSeg c.rec_.segments with
        | none => w
        | some (off, t) => w.modTasks ctx.toNat fun _ => { t with queues := mput t.queues k (q ++ [⟨off, 0, [], []⟩]) }) s

/-- A queued record changes wherever the part keeps it beside its queue: in groups and in its domain. -/
def CtxTasks.mapTask (t : CtxTasks) (seq : BitVec 64) (f : TaskRec → TaskRec) : CtxTasks :=
  let f := fun (r : TaskRec) => if r.seq = seq then f r else r
  { t with
    groups := t.groups.map fun g => (g.1, g.2.map fun x => { x with tasks := x.tasks.map f })
    doms := t.doms.map fun d => (d.1, { d.2 with tasks := d.2.tasks.map fun y => { y with task := f y.task } }) }

/-- Whether a queued record is due for promotion (R283). -/
def Work.promotionDue (w : Work) (ctx : Nat) (r : TaskRec) : Bool :=
  decide (r.pri.toNat < 3) && decide ((w.ctx ctx).tasks.age.toNat ≤ (w.gtick.setWidth 48 - r.enq : BitVec 48).toNat)

/-- The queued records of a context. -/
def CtxTasks.queued (t : CtxTasks) : List TaskRec := t.queues.flatMap fun q => queueRecs q.2

/-- TASK_PROMOTE (R283): the record moves up one queue, with ENQ at the tick of the promotion. -/
def execTaskPromote (ctx : BitVec 6) (seq : Nat) (s : State) : Host.Outcome State Fault Refusal :=
  commit (fun w =>
    let c := w.ctx ctx.toNat
    match c.tasks.queued.find? fun r => r.seq.toNat == seq with
    | none => w
    | some r =>
      if c.state ≠ .running ∨ !w.promotionDue ctx.toNat r then w
      else
        let up := fun (r : TaskRec) => { r with pri := r.pri + 1, enq := w.gtick.setWidth 48 }
        w.modTasks ctx.toNat fun t => ((t.remove r.seq).enqueue c.rec_.segments (up r)).mapTask r.seq up) s

/-- TASK_MOVE (R280): the first `n` queued records of a queue that stand in no group go to the queue of the same priority in
another cluster, unchanged but for the cluster. -/
def execTaskMove (ctx : BitVec 6) (pri : BitVec 2) (src dst n : Nat) (s : State) : Host.Outcome State Fault Refusal :=
  commit (fun w =>
    let c := w.ctx ctx.toNat
    let grouped := c.tasks.groups.flatMap fun g => g.2.flatMap fun x => x.tasks.map (·.seq)
    let rs := ((queueRecs (mget c.tasks.queues (queueKey src pri) [])).filter fun r => !grouped.contains r.seq).take n
    if 24 ≤ dst ∨ src = dst ∨ c.tasks.queueRoom c.rec_.segments dst pri < rs.length then w
    else
      let move := fun (t : CtxTasks) (r : TaskRec) =>
        let moved := fun (r : TaskRec) => { r with cluster := dst }
        ((t.remove r.seq).enqueue c.rec_.segments (moved r)).mapTask r.seq moved
      w.modTasks ctx.toNat fun t => rs.foldl move t) s

/-! ### Gathering (R284) -/

/-- A queued task as the Chuck scans it: its context, its record, and whether it is its domain's frontier. -/
structure Scanned where
  ctx : Nat
  task : TaskRec
  front : Bool
  deriving DecidableEq, Repr

/-- The age of a queued record at a tick, modulo 2⁴⁸ (R283). -/
def TaskRec.ageAt (r : TaskRec) (now : BitVec 64) : Nat := (now.setWidth 48 - r.enq : BitVec 48).toNat

/-- The order of scanning (R284): higher priority first, a frontier ahead of its priority, then the oldest. -/
def Scanned.before (now : BitVec 64) (a b : Scanned) : Bool :=
  if a.task.pri ≠ b.task.pri then decide (b.task.pri < a.task.pri)
  else if a.front ≠ b.front then a.front
  else if a.task.enq ≠ b.task.enq then decide (b.task.ageAt now < a.task.ageAt now)
  else decide (a.task.seq < b.task.seq)

/-- Put a task into a list in scanning order. -/
def insScanned (now : BitVec 64) (x : Scanned) : List Scanned → List Scanned
  | [] => [x]
  | y :: ys => if x.before now y then x :: y :: ys else y :: insScanned now x ys

/-- The contexts whose tasks the Chucks gather. -/
def Work.gathering (w : Work) : List (Nat × Context) := w.dev.ctxs.filter fun c => c.2.state == .running

/-- The tasks that a cluster's Chuck finds in its queues, in no group yet, in scanning order. -/
def Work.scanned (w : Work) (cluster : Nat) : List Scanned :=
  let all := w.gathering.flatMap fun c =>
    let t := c.2.tasks
    let grouped := t.groups.flatMap fun q => q.2.flatMap fun x => x.tasks.map (·.seq)
    let recs := t.queued.filter fun r => r.cluster == cluster && !grouped.contains r.seq
    recs.map fun r => (⟨c.1, r, r.dom != 0 && w.isFrontier c.1 r⟩ : Scanned)
  all.foldl (fun a x => insScanned w.gtick x a) []

/-- Open groups of a cluster, over the contexts that are not in an image (R354). -/
def Work.openGroups (w : Work) (cluster : Nat) : Nat :=
  w.gathering.foldl (fun n c => n + (mget c.2.tasks.groups cluster []).length) 0

/-- A group gathers what has its key (R284). -/
def Group.keyOf (g : Group) (r : TaskRec) : Bool := g.lid == r.lid && g.entry == r.entry && g.dom == r.dom && g.pri == r.pri

/-- A scanned task joins the open group of its key, or opens one; a group is ready at 32 tasks, or at once under a window of
0 (R284). -/
def Work.gather (w : Work) (cluster : Nat) (x : Scanned) : Work :=
  let c := w.ctx x.ctx
  let gs := mget c.tasks.groups cluster []
  let full := fun (n : Nat) => n == 32 || c.rec_.gwin == 0
  let put := fun (gs : List Group) => w.modTasks x.ctx fun t => { t with groups := mput t.groups cluster gs }
  match gs.find? fun g => g.keyOf x.task with
  | some g =>
    if g.ready then w
    else put (replaceFirst gs (fun g => g.keyOf x.task) fun g =>
      { g with tasks := g.tasks ++ [x.task], ready := full (g.tasks.length + 1) })
  | none =>
    if 8 ≤ w.openGroups cluster then w
    else put (gs ++ [⟨x.task.lid, x.task.entry, x.task.dom, x.task.pri, w.gtick, [x.task], full 1⟩])

/-- CHUCK_SCAN (R284). -/
def execChuckScan (cluster : Nat) (s : State) : Host.Outcome State Fault Refusal :=
  commit (fun w => (w.scanned cluster).foldl (fun w x => w.gather cluster x) w) s

/-- The groups of a cluster with their contexts, by context and age. -/
def Work.groupsOf (w : Work) (cluster : Nat) : List (Nat × Group) :=
  w.gathering.flatMap fun c => (mget c.2.tasks.groups cluster []).map fun g => (c.1, g)

/-- Whether a group's gather window has passed (R284); ticks for which its context is frozen count (log entry 81: DESIGN CHOICE). -/
def Work.windowPassed (w : Work) (ctx : Nat) (g : Group) : Bool := decide ((w.ctx ctx).rec_.gwin ≤ w.age g.opened)

/-- CHUCK_WINDOW_EXPIRE (R284): the group is ready. -/
def execChuckWindowExpire (cluster idx : Nat) (s : State) : Host.Outcome State Fault Refusal :=
  commit (fun w => match (w.groupsOf cluster)[idx]? with
    | none => w
    | some (ctx, g) =>
      if !w.windowPassed ctx g then w
      else
        let set := fun (gs : List Group) => replaceFirst gs (fun x => x == g) fun x => { x with ready := true }
        w.modTasks ctx fun t => { t with groups := mmod t.groups cluster [] set }) s

/-! ### Placement of groups (R285) -/

/-- The logical core that takes a group's wave (R285): of the launch's roles on the cluster that qualify and have room, the one
with the most free slots, the lowest role among equals. -/
def Work.groupCore (w : Work) (lid cluster : Nat) : Option (Nat × List Nat) :=
  let l := w.launch lid
  let here := l.lcores.filter fun c => clusterOf (l.physical c) == cluster
  let fits := here.filterMap fun c =>
    if w.qualifies lid c then (w.room lid (l.physical c) 1).map fun ss => (c, ss) else none
  let free : Nat → Nat := fun c => (w.slotsFree (l.physical c) l.s).flatten.length
  let better := fun (a b : Nat × List Nat) =>
    decide (free b.1 < free a.1) || (free a.1 == free b.1 && decide (a.1 % 8 < b.1 % 8))
  fits.foldl (fun (m : Option (Nat × List Nat)) x => match m with
    | none => some x
    | some y => if better x y then some x else some y) none

/-- The order of ready groups (R283): the highest PRI among their tasks, then their oldest task. -/
def Group.before (now : BitVec 64) (a b : Group) : Bool :=
  let pri : Group → Nat := fun g => g.tasks.foldl (fun m t => max m t.pri.toNat) 0
  let age : Group → Nat := fun g => g.tasks.foldl (fun m t => max m (t.ageAt now)) 0
  if pri a ≠ pri b then decide (pri b < pri a) else decide (age b < age a)

/-- A group becomes a wave of a one-wave block (R285): tasks take lanes in the order in which they joined. The start of a
task's lane acquires at device scope (R184). -/
def Work.placeGroup (w : Work) (cluster ctx : Nat) (g : Group) : Work :=
  match w.groupCore g.lid cluster with
  | none => w
  | some (lcore, slots) =>
    let ts := g.tasks.zipIdx
    let (bid, w) := w.putBlock g.lid lcore (BitVec.allOnes 64) slots true (ts.map fun x => (x.2, some x.1)) g.entry []
    let wid := (w.block bid).waves.headD 0
    let w := w.acquire ((w.wave wid).coreOf) .device
    let w := w.modTasks ctx fun t =>
      let t := { t with groups := mput t.groups cluster ((mget t.groups cluster []).filter fun x => x != g) }
      g.tasks.foldl (fun t r => t.remove r.seq) t
    let run := fun (y : DomTask) => match ts.find? fun x => x.1.seq == y.task.seq with
      | some x => { y with state := .running, wid := wid, lane := x.2 }
      | none => y
    if g.dom = 0 then w else w.modDomain ctx g.dom fun d => { d with tasks := d.tasks.map run }

/-! ### Ends of waves -/

/-- WAVE_END (R107, R221): the last lane has ended and every access has performed, so the wave departs its barriers and is
gone. -/
def execWaveEnd (wid : Nat) (s : State) : Host.Outcome State Fault Refusal :=
  commit (fun w => match mget? w.dev.waves wid with
    | none => w
    | some v =>
      if !v.living.isEmpty ∨ !v.outs.isEmpty ∨ !v.cpas.isEmpty then w
      else
        let w := (w.discardPoison v v.poisonedK).depart v.bid v.widx
        let w := w.modDev fun d => { d with waves := mdel d.waves wid }
        w.modBlock v.bid fun b => { b with waves := b.waves.filter fun x => x ≠ wid }) s

end Sys2Proof.Machine
end

