-- ==== Sys2Proof/Machine/Launches.lean ====
section
/-! DEFINITION. Launches: the ring's entries, acceptance, distribution, retirement and the end (19 R318–R328, 09 R196,
13 R250). -/

namespace Sys2Proof.Machine

/-! ### What the Headstock finds at an address of a context -/

/-- Outcome of the Headstock's own access (R321, R328). -/
inductive HeadChk where
  | ok (p : Phys)
  | page (granule level : Nat)
  | fail (cause : BitVec 8)
  deriving DecidableEq, Repr

/-- The Headstock's access of `n` bytes of one line, for a context; access tables do not check it (R374). -/
def Work.headAim (w : Work) (ctx va n : Nat) (wr : Bool) : HeadChk :=
  if 2 ^ 56 ≤ va then .fail Cause.memfault
  else match walk w ctx va with
    | .bad lv => .page (va / 65536) lv
    | .leaf e at_ lv =>
      if !(if wr then e.getLsbD 3 else e.getLsbD 2) then .fail Cause.protect
      else
        let p := physOf e at_ lv va
        let works := match p.kind with
          | 0 => true
          | 1 => w.linkUp (bits e.toNat 55 52)
          | _ => w.portUp (bits e.toNat 52 52)
        if !works then .fail Cause.memfault
        else if w.tag p ≠ 0 then .fail Cause.colourpath
        else if w.badData p.key n then .fail Cause.dataerr
        else .ok p

/-- Bytes that the Headstock reads through a context's mappings, or the cause for which it cannot. -/
def Work.headRead (w : Work) (ctx va n : Nat) : Except (BitVec 8) (List Byte) :=
  (linePieces va n).foldl (fun (r : Except (BitVec 8) (List Byte)) x => match r with
    | .error c => .error c
    | .ok bs => match w.headAim ctx x.1 x.2 false with
      | .ok p => .ok (bs ++ w.bytes p.key x.2)
      | .page _ _ => .error Cause.memfault
      | .fail c => .error c) (.ok [])

/-! ### Acceptance (R318, R322, R324) -/

/-- A failure: class and record offset (R328). -/
abbrev Fail := Nat × Nat

/-- The table of the reals, which a pointer of 0 stands for (R57, R318). -/
def realTable : List Byte := [1, 0, 0, 0, 8] ++ List.replicate 63 0

/-- A slot that a launch may not bind (R49). -/
def slotRefused (x : BitVec 64) : Bool :=
  let scale := bits x.toNat 63 32
  decide (8 ≤ bits x.toNat 3 0) || bits x.toNat 5 4 == 3 || bits x.toNat 31 11 != 0 || scale == 0x80000000 ||
    bits scale 30 23 == 255

/-- The identity table: every cluster with its non-retired cores (R324). -/
def Work.identityRoles (w : Work) : List (BitVec 64) :=
  (List.range 24).map fun q =>
    let ren := (List.range 8).foldl (fun n r => if w.isRetired (8 * q + r) then n else n + 2 ^ (32 + r)) 0
    let pos := (List.range 8).foldl (fun n r => n + r * 2 ^ (8 + 3 * r)) 0
    BitVec.ofNat 64 (ren + pos + 32 + q)

/-- A role table that is refused (R324); only that no two entries name one cluster is asked of used entries alone (log entry 85:
DEDUCED). -/
def Work.rolesRefused (w : Work) (t : List (BitVec 64)) : Bool :=
  let used := t.filter fun e => e.getLsbD 5
  let pcl := fun (e : BitVec 64) => bits e.toNat 4 0
  let places := fun (e : BitVec 64) => ((List.range 8).filter fun r => e.getLsbD (32 + r)).map fun r =>
    bits e.toNat (10 + 3 * r) (8 + 3 * r)
  (t.any fun e => bits e.toNat 63 40 != 0 || bits e.toNat 7 6 != 0) || used.isEmpty ||
    (used.map pcl).eraseDups.length != used.length || (t.any fun e => decide (23 < pcl e)) ||
    (t.any fun e => (places e).eraseDups.length != (places e).length) ||
    t.any fun e => (places e).any fun p => w.isRetired (8 * pcl e + p)

/-- A table pointer's target, at acceptance: the table that 0 stands for, or what is read. -/
def Work.target (w : Work) (ctx ptr al n ofs : Nat) (zero : List Byte) : Except Fail (List Byte) :=
  if ptr = 0 then .ok zero
  else if ptr % al ≠ 0 then .error (1, ofs)
  else match w.headRead ctx ptr n with
    | .ok bs => .ok bs
    | .error _ => .error (6, ofs)

/-- A check of acceptance. -/
def ensure (b : Bool) (f : Fail) : Except Fail Unit := if b then .ok () else .error f

/-- The checks of a record up to its slots, in ascending offset (R322). Scratchpad that no core has is a failure of residency
(R328, log entry 52: DEDUCED). -/
def acceptShape (q : Nat → Nat) : Except Fail Unit := do
  ensure (bits (q 0) 63 56 == 0 && q 0 % 8 == 0) (1, 0)
  ensure (bits (q 1) 31 0 != 0 && bits (q 1) 47 32 != 0 && bits (q 1) 63 48 != 0) (1, 8)
  let f := q 2
  let s := 32 * bits f 15 8
  let l := bits f 31 16
  let wpb := bits f 7 0
  ensure (bits f 63 35 == 0 && !bit f 33 && decide (1 ≤ wpb) && decide (wpb ≤ 16) && decide (64 ≤ s) && decide (s ≤ 1024) &&
    l % 16 == 0 && decide (l ≤ 2048)) (1, 0x10)
  ensure (decide (wpb ≤ 4 * perQuarter s) && decide (32 * l * wpb ≤ Config.laneBytes)) (7, 0x10)
  let beta := bits (q 3) 31 0
  let lend := bits (q 3) 63 32
  ensure ([0, 65536, 131072, 196608, 262144].contains lend && beta % 256 == 0) (1, 0x18)
  ensure (decide (beta + lend ≤ Config.scratchBytes)) (7, 0x18)

/-- The four tables of a record (R322). -/
def Work.acceptTables (w : Work) (ctx : Nat) (q : Nat → Nat) : Except Fail (List (List Byte)) :=
  (List.range 4).foldlM (fun ts n => do
    let ofs := 0x60 + 8 * n
    let t ← w.target ctx (q (12 + n)) 128 68 ofs realTable
    ensure (tableRefused t).isNone (3, ofs)
    return ts ++ [t]) []

/-- The role table of a record (R322, R324). -/
def Work.acceptRoles (w : Work) (ctx : Nat) (q : Nat → Nat) : Except Fail (List (BitVec 64)) := do
  if q 16 = 0 then return w.identityRoles
  else
    let bs ← w.target ctx (q 16) 64 192 0x80 []
    let t := (List.range 24).map fun n => le64 bs (8 * n)
    ensure (!w.rolesRefused t) (4, 0x80)
    return t

/-- The rest of a record: pointers, domain, class and arguments (R322). -/
def Work.acceptRest (w : Work) (ctx : Nat) (q : Nat → Nat) : Except Fail (List Byte) := do
  ensure (q 17 % 8 == 0) (1, 0x88)
  ensure (q 18 % 16 == 0) (1, 0x90)
  ensure (q 19 % 16 == 0) (1, 0x98)
  let a := q 20
  let c := w.ctx ctx
  let dom := bits a 39 36
  ensure (bits a 63 40 == 0 && !bit a 35 && bits a 31 0 % 16 == 0 && decide (bits a 34 32 ≤ c.rec_.cls.toNat)) (1, 0xA0)
  ensure (dom == 0 || ((mget? c.tasks.doms dom).isNone && w.dev.hub.vways != 0)) (5, 0xA0)
  ensure (q 21 % 8 == 0) (1, 0xA8)
  let k ← match w.headRead ctx (q 21) 32 with
    | .ok bs => .ok bs
    | .error _ => .error ((6, 0xA8) : Fail)
  match (List.range 10).find? fun n => q (22 + n) != 0 with
  | some n => .error (1, 8 * (22 + n))
  | none => .ok k

/-- A record that passes (R322). -/
def Work.accept (w : Work) (ctx : Nat) (t : BitVec 32) (q : Nat → Nat) : Except Fail Launch := do
  acceptShape q
  match (List.range 8).find? fun n => slotRefused (BitVec.ofNat 64 (q (4 + n))) with
  | some n => Except.error ((2, 0x20 + 8 * n) : Fail)
  | none => pure ()
  let tables ← w.acceptTables ctx q
  let roles ← w.acceptRoles ctx q
  let k ← w.acceptRest ctx q
  let f := q 2
  let x := bits (q 1) 31 0
  let y := bits (q 1) 47 32
  return { Launch.blank with
    ctx := ctx, ring := t, entry := BitVec.ofNat 56 (q 0), grid := x * y * bits (q 1) 63 48, gx := x, gy := y
    ser := bit f 34, sys := bit f 32, l := bits f 31 16, s := 32 * bits f 15 8, wpb := bits f 7 0
    lend := bits (q 3) 63 32, beta := bits (q 3) 31 0, slots := (List.range 8).map fun n => BitVec.ofNat 64 (q (4 + n))
    tables := tables, roles := roles, siga := BitVec.ofNat 64 (q 17), futa := BitVec.ofNat 64 (q 18)
    spill := BitVec.ofNat 64 (q 19), g := bits (q 20) 31 0, dom := BitVec.ofNat 4 (bits (q 20) 39 36)
    pclass := BitVec.ofNat 3 (bits (q 20) 34 32)
    kargs := (List.range 8).map fun n => BitVec.ofNat 32 (leNat (slice k (4 * n) 4)), state := .running }

/-! ### Distribution (R323, R326) -/

/-- The logical core that receives a launch's next block, with the slots of its waves (R326). -/
def Work.findPlace (w : Work) (lid : Nat) : Option (Nat × List Nat) :=
  let l := w.launch lid
  let order := (l.lcores.filter fun c => decide (l.search ≤ c)) ++ l.lcores.filter fun c => decide (c < l.search)
  firstSome order fun c => if w.qualifies lid c then (w.room lid (l.physical c) l.wpb).map fun ss => (c, ss) else none

/-- Launches of a context that have blocks to place, in the order in which they are tried (R323). -/
def Work.distributing (w : Work) (ctx : Nat) : List Nat :=
  let ls := w.dev.launches.filter fun l => l.2.ctx == ctx && l.2.state == .running && decide (l.2.next < l.2.grid)
  (List.range 8).flatMap fun k => (ls.filter fun l => l.2.pclass.toNat == 7 - k).map (·.1)

/-- The next block of a context: its launch, its logical core and its slots. A launch that waits for a block to retire is passed
over (R323, R326). -/
def Work.nextBlock (w : Work) (ctx : Nat) : Option (Nat × Nat × List Nat) :=
  firstSome ((w.distributing ctx).filter fun lid => !(w.launch lid).waits) fun lid => (w.findPlace lid).map fun x => (lid, x.1, x.2)

/-- The launches whose next block finds no room now wait for a block to retire (R326). -/
def Work.searched (w : Work) : Work :=
  let short := (w.dev.ctxs.filter fun c => c.2.state == .running).flatMap fun c =>
    (w.distributing c.1).filter fun lid => (w.findPlace lid).isNone
  short.foldl (fun w lid => w.modLaunch lid fun l => { l with waits := true }) w

/-! ### The end of a launch (R196, R327, R328) -/

/-- The signal value (R328). -/
def signalValue (ring : BitVec 32) (f : Fail) : BitVec 64 :=
  BitVec.ofNat 64 (2 ^ 63 + ring.toNat * 2 ^ 16 + f.1 * 2 ^ 8 + f.2)

/-- Write the signal word (R328); false when it waits on a fault record. -/
def Work.writeSignal (w : Work) (lid : Nat) : Bool × Work :=
  let l := w.launch lid
  let drop := fun (c : BitVec 8) => (true, w.report 6 c.toNat l.ring.toNat l.siga.toNat (Subject.ofCtx l.ctx) true)
  if l.siga = 0 then (true, w)
  else if l.siga.toNat % 8 ≠ 0 then drop Cause.align
  else match w.headAim l.ctx l.siga.toNat 8 true with
    | .ok p => (true, (w.dirty p).writeHome p.key p.kind p.pa (leBytes 8 l.result.toNat) none)
    | .fail c => drop c
    | .page g lv =>
      if l.denied then drop Cause.memfault else (false, w.joinRecord 0 l.ctx g lv .w false (.launch lid g))

/-- Resolve the launch's future (R291, R328); false when it waits on a fault record. -/
def Work.resolveLaunch (w : Work) (lid : Nat) : Bool × Work :=
  let l := w.launch lid
  let drop := fun (c : BitVec 8) => (true, w.report 12 c.toNat l.ring.toNat l.futa.toNat (Subject.ofCtx l.ctx) true)
  if l.futa = 0 then (true, w)
  else if l.futa.toNat % 16 ≠ 0 then drop Cause.align
  else match w.headAim l.ctx l.futa.toNat 16 true with
    | .fail c => drop c
    | .page g lv =>
      if l.denied then drop Cause.memfault else (false, w.joinRecord 0 l.ctx g lv .w false (.launch lid g))
    | .ok p =>
      if p.kind = 2 then drop Cause.protect
      else match w.resolve p l.failed l.result with
        | (none, w) => (true, w)
        | (some st, w) =>
          (true, w.report 2 Cause.doubleres.toNat st l.futa.toNat (Subject.ofCtx l.ctx) true)

/-- The signal word has been written: the domain closes, the cores return, and a launch that waited for it starts (R297, R323,
R325). -/
def Work.closeLaunch (w : Work) (lid : Nat) : Work :=
  let l := w.launch lid
  let w := w.modTasks l.ctx fun t => { t with doms := t.doms.filter fun d => d.2.lid != lid }
  let w := (w.coresOfLaunch lid).foldl (fun w c => w.returnCore c) w
  let start := fun (x : Nat × Launch) =>
    if x.2.ctx = l.ctx ∧ x.2.state = .waiting ∧ x.2.ring = l.ring + 1 then (x.1, { x.2 with state := .running }) else x
  w.modDev fun d => { d with launches := d.launches.map start }

/-- A launch goes on with its end, as far as it can: the signal word, then the future. -/
def Work.endLaunch (w : Work) (lid : Nat) : Work :=
  let w := if (w.launch lid).state = .signalling then
      match w.writeSignal lid with
      | (false, w) => w.modLaunch lid fun l => { l with parked := true }
      | (true, w) =>
        (w.closeLaunch lid).modLaunch lid fun l => { l with state := .resolving, parked := false, denied := false }
    else w
  if (w.launch lid).state = .resolving then
    match w.resolveLaunch lid with
    | (false, w) => w.modLaunch lid fun l => { l with parked := true }
    | (true, w) => w.modDev fun d => { d with launches := mdel d.launches lid }
  else w

/-- Whether a running launch has come to its end (R327). -/
def Work.launchDone (w : Work) (lid : Nat) : Bool :=
  let l := w.launch lid
  let t := (w.ctx l.ctx).tasks
  l.state == .running && l.retired.toNat == l.grid && !(w.dev.blocks.any fun b => b.2.lid == lid) &&
    (w.dev.cores.all fun c => c.2.owner != some lid || c.2.resolves.isEmpty) &&
    !(t.queued.any fun r => r.lid == lid) && !(t.joins.any fun j => j.2.task.lid == lid) &&
    t.doms.all fun d => d.2.lid != lid || d.2.tasks.isEmpty

/-- LAUNCH_END (R196, R327, R328). -/
def execLaunchEnd (lid : Nat) (s : State) : Host.Outcome State Fault Refusal :=
  commit (fun w =>
    let l := w.launch lid
    if (w.ctx l.ctx).state ≠ .running then w
    else if w.launchDone lid then
      ((w.modLaunch lid fun l => { l with state := .signalling, result := signalValue l.ring (0, 0) }).endLaunch lid).searched
    else if l.parked then w
    else (w.endLaunch lid).searched) s

/-! ### The ring (R319–R321) -/

/-- Launches of a context that have not written their signal words (R320). -/
def Work.inFlight (w : Work) (ctx : Nat) : Nat :=
  (w.dev.launches.filter fun l => l.2.ctx == ctx &&
    (l.2.state == .waiting || l.2.state == .running || l.2.state == .signalling)).length

/-- The virtual address of ring entry `t` (R321). -/
def CtxRec.entryVa (r : CtxRec) (t : BitVec 32) : Nat := r.ringva.toNat + 256 * (t.toNat % 2 ^ r.rlog)

/-- Whether the launch that a SER record waits for has still to write its signal word (R318, R323). -/
def Work.behind (w : Work) (ctx : Nat) (t : BitVec 32) : Bool :=
  w.dev.launches.any fun l => l.2.ctx == ctx && l.2.ring == t - 1 &&
    (l.2.state == .waiting || l.2.state == .running || l.2.state == .signalling)

/-- An accepted record becomes a launch, whose domain opens (R297, R322, R323). -/
def Work.addLaunch (w : Work) (ctx : Nat) (t : BitVec 32) (l : Launch) : Work :=
  let l := { l with state := if l.ser ∧ w.behind ctx t then .waiting else .running }
  let (lid, w) := w.newId
  let w := w.setLaunch lid l
  if l.dom = 0 then w else w.modTasks ctx fun x => { x with doms := mput x.doms l.dom.toNat ⟨lid, 0, 0, []⟩ }

/-- A record that fails ends at once (R322, R328). -/
def Work.failLaunch (w : Work) (ctx : Nat) (t : BitVec 32) (q : Nat → Nat) (f : Fail) : Work :=
  let (lid, w) := w.newId
  (w.setLaunch lid { Launch.blank with
    ctx := ctx, ring := t, siga := BitVec.ofNat 64 (q 17), futa := BitVec.ofNat 64 (q 18), state := .signalling
    result := signalValue t f, failed := true }).endLaunch lid

/-- RING_ENTRY_TAKE (R320–R322). -/
def execRingEntryTake (ctx : BitVec 6) (s : State) : Host.Outcome State Fault Refusal :=
  commit (fun w => match mget? w.dev.ctxs ctx.toNat with
    | none => w
    | some c =>
      if c.state ≠ .running ∨ c.head = c.tail ∨ c.ringStuck ∨ 16 ≤ w.inFlight ctx.toNat then w
      else
        let t := c.head
        let va := c.rec_.entryVa t
        match w.headRead ctx.toNat va 256 with
        | .error k =>
          (w.modCtx ctx.toNat fun c => { c with ringStuck := true }).report 11 k.toNat t.toNat va (Subject.ofCtx ctx.toNat) true
        | .ok bs =>
          let w := w.modCtx ctx.toNat fun c => { c with head := c.head + 1 }
          let q := fun (n : Nat) => (le64 bs (8 * n)).toNat
          match w.accept ctx.toNat t q with
          | .ok l => (w.addLaunch ctx.toNat t l).searched
          | .error f => w.failLaunch ctx.toNat t q f) s

/-! ### Blocks (R326, R327) -/

/-- Whether a block may retire: its waves have ended and its engine and array work is complete (R250, R259, R327). -/
def Work.retirable (w : Work) (bid : Nat) : Bool :=
  let b := w.block bid
  match b.core with
  | none => false
  | some core =>
    let c := w.core core
    b.waves.isEmpty && !(c.resolves.any fun x => x.bid == bid) && !(c.order.any fun o => o.bid == bid) && !(c.xfers.any fun x => x.bid == bid) &&
      !(c.mcasts.any fun m => m.bid == bid) && !(c.chans.any fun x => x.2.owner == some bid && x.2.st && x.2.mayMove)

/-- A channel of a block that retires stops without an arrival; its future is resolved FAULTED with 0 (R250). A load channel whose
last tile the waves have not all taken is still running, and finds its future resolved (log entry 94: DEDUCED). -/
def Work.endChannel (w : Work) (core ctx n : Nat) : Work :=
  let ch := w.chan core n
  let w := w.setChan core n Channel.blank
  if ch.state ≠ .run then w
  else match ch.fut with
    | some a => w.engineResolve core ⟨.channel (BitVec.ofNat 2 n), ctx, a, true, 0, ch.owner.getD 0, none⟩
    | none => w

/-- BLOCK_RETIRE (R250, R327): the counter rises, and a core that holds nothing more of its launch may return (R325). -/
def execBlockRetire (bid : Nat) (s : State) : Host.Outcome State Fault Refusal :=
  commit (fun w => match mget? w.dev.blocks bid with
    | none => w
    | some b =>
      if !w.retirable bid then w
      else
        let core := b.core.getD 0
        let mine := ((w.core core).chans.filter fun x => x.2.owner == some bid).map (·.1)
        let w := mine.foldl (fun w n => w.endChannel core b.ctx n) w
        let w := w.modDev fun d => { d with blocks := mdel d.blocks bid }
        let w := if b.task then w else w.modLaunch b.lid fun l => { l with retired := l.retired + 1 }
        (w.tryReturn core).searchAgain.searched) s

end Sys2Proof.Machine
end

