-- ==== Sys2Proof/Machine/Records.lean ====
section
/-! DEFINITION. The records of the Headstock, the slices and the dies in the layouts that the debugger and the save image read
(08 R165, 16 R281, R282, R289, 17 R300, 20 R337). -/

namespace Sys2Proof.Machine

/-- The words of a record as its bytes. -/
def wordBytes (ws : List Nat) : List Byte := ws.flatMap (leBytes 8)

/-- A count that saturates at all ones of 32 bits. -/
def satWord (n : Nat) : Nat := min n 0xFFFFFFFF

/-! ### Tasks, queues and joins -/

/-- The eight words of a task record (R281). -/
def TaskRec.words (r : TaskRec) : List Nat :=
  [b2n r.fj * 2 ^ 63 + b2n r.cont * 2 ^ 62 + r.pri.toNat * 2 ^ 60 + r.dom.toNat * 2 ^ 56 + r.entry.toNat,
   if r.dom = 0 then 0 else r.ts.toNat, r.seq.toNat, r.lid % 2 ^ 16 * 2 ^ 48 + r.enq.toNat] ++
  (List.range 4).map fun i => (r.args.getD (2 * i) 0).toNat + (r.args.getD (2 * i + 1) 0).toNat * 2 ^ 32

/-- HEAD of a segment (R282): the first record that is still to be dispatched. -/
def Segment.head (s : Segment) : Nat := (s.recs.map (·.1)).foldl min s.tail

/-- The 4,096 bytes of a queue segment (R282), with the pool offset of the next one: its 63 records and its trailer. -/
def Segment.bytes (s : Segment) (next : Nat) : List Byte :=
  let rec_ := fun (n : Nat) => ((mget? s.recs n).map fun r => wordBytes r.words).getD (List.replicate 64 0)
  ((List.range 63).map rec_).flatten ++ wordBytes ([next, s.tail * 2 ^ 8 + s.head] ++ List.replicate 6 0)

/-- The segments of a queue with their bytes, by pool offset. -/
def queueBytes : List Segment → List (Nat × List Byte)
  | [] => []
  | s :: rest => (4096 * s.off, s.bytes ((rest.head?.map fun n => 4096 * n.off).getD 0)) :: queueBytes rest

/-- The 128 bytes of a join record (R289). -/
def Join.bytes (j : Join) : List Byte :=
  wordBytes (j.task.words ++ [j.fmask.toNat * 2 ^ 4 + j.count % 8] ++
    ((List.range 4).map fun i => (mget j.links i 0).toNat) ++ [0, 0, 0])

/-- The 4,096 bytes of a join segment (R289): a free record reads as zeros. -/
def CtxTasks.joinBytes (t : CtxTasks) (seg : Nat) : List Byte :=
  ((List.range 32).map fun n => ((mget? t.joins (64 * seg + 2 * n)).map Join.bytes).getD (List.replicate 128 0)).flatten

/-- The segments of a context's pool in use, with their bytes, by pool offset (R282, R289). -/
def CtxTasks.poolBytes (t : CtxTasks) : List (Nat × List Byte) :=
  (t.queues.flatMap fun q => queueBytes q.2) ++ t.joinSegs.map fun s => (4096 * s, t.joinBytes s)

/-! ### Domains, colours and fault records -/

/-- The four words of a domain record (R300). -/
def Domain.words (d : Domain) (n : Nat) : List Nat :=
  let fin := (d.tasks.filter fun t => t.state == .finished).length
  [d.lastTs.toNat, d.lastSeq.toNat, ((d.frontier.map fun (t : DomTask) => t.task.seq).getD 0).toNat,
   satWord d.tasks.length * 2 ^ 32 + fin % 2 ^ 15 * 2 ^ 16 + n * 2 ^ 4 + 2 ^ 3]

/-- The two words of a directory entry (R165): the holder's core and slot as it is placed now; CORE 0xFF marks one that is evicted or
saved (log entry 90: DESIGN CHOICE). -/
def Work.monWords (w : Work) (ctx colour : Nat) : List Nat :=
  let m := mget (w.ctx ctx).dir colour Mon.blank
  let at_ := fun (h : Waiter) =>
    let p := ((w.wave h.wid).place).getD (0xFF, 0)
    2 ^ 63 + p.1 * 2 ^ 11 + p.2 * 2 ^ 5 + h.lane
  let claim := (m.claim.map fun d => 2 ^ 62 + d.toNat * 2 ^ 58).getD 0
  [(m.holder.map at_).getD claim + ctx * 2 ^ 52 + colour * 2 ^ 40, m.queue.length * 2 ^ 45]

/-- STATE of a fault record (R337). -/
def FaultState.code : FaultState → Nat
  | .open_ => 0
  | .servicing => 1
  | .closedMapped => 2
  | .closedNone => 3

/-- The four words of a fault record (R337). -/
def FaultRec.words (r : FaultRec) : List Nat :=
  [r.vpage * 2 ^ 16 + r.ctx * 2 ^ 10 + r.state.code * 2 ^ 8 + b2n r.xs * 2 ^ 7 + b2n r.ws * 2 ^ 6 + b2n r.rs * 2 ^ 5 +
     b2n r.eng * 2 ^ 4 + r.level,
   satWord r.waiters.length * 2 ^ 32, r.opened.toNat, 0]

end Sys2Proof.Machine
end

