-- ==== Sys2Proof/Machine/Mapping.lean ====
section
/-! DEFINITION. Mappings that system software asks for, the return of evacuated pages, invalidations, and the service of fault
records (20 R331, R334, R339, 21 R348, R359, R361). -/

namespace Sys2Proof.Machine

/-! ### Leaves -/

/-- Bytes of a page of a level. -/
def pageSize (level : Nat) : Nat := 2 ^ pageBits level

/-- The leaf that a request asks for (R331). -/
def leafWord (f : LeafReq) (shrd : Bool) : Nat :=
  f.link.toNat * 2 ^ 52 + f.pa.toNat + b2n shrd * 2 ^ 10 + f.kind.toNat * 2 ^ 6 + b2n f.x * 16 + b2n f.w * 8 + b2n f.r * 4 + 3

/-- A request that system software may make (R329, R331, R341, R344): its page is aligned, of this part's HBM when it names
it, and outside the allocation window. -/
def leafReqOk (f : LeafReq) : Bool :=
  let z := pageSize f.level
  decide (2 ≤ f.level) && decide (f.level ≤ 4) && leafOk f.level (leafWord f false) && f.va.toNat % z == 0 &&
    apart f.va.toNat z allocBase allocBytes && (f.kind != 0 || decide (f.pa.toNat + z ≤ Config.hbmBytes))

/-- A context's HBM footprint H (R348). -/
def Context.footprint (c : Context) : Nat :=
  65536 * (c.mem.saveArea.2 + c.mem.seg.2 + c.mem.pool.2) + c.mem.maps.foldl (fun n m => n + pageSize m.2) 0

/-- The leaf that a context's tables hold for a page, if its entry exists. -/
def Work.leafAt (w : Work) (ctx va level : Nat) : Option Nat :=
  (w.entryOf ctx va level).map fun at_ => w.num (PAddr.hbm at_).key 8

/-- The physical address in a leaf. -/
def leafPa (e : Nat) : Nat := bits e 51 16 * 65536

/-- System software's KIND 0 pages that meet a physical range: context, address and level. -/
def Work.mappers (w : Work) (pa n : Nat) : List (Nat × Nat × Nat) :=
  w.dev.ctxs.flatMap fun c => (c.2.mem.maps.filter fun m => match w.leafAt c.1 m.1 m.2 with
    | some e => bit e 0 && !apart (leafPa e) (pageSize m.2) pa n
    | none => false).map fun m => (c.1, m.1, m.2)

/-- Set or clear SHRD in the leaf of a page, and in the TLBs' copies of it (R331). -/
def Work.setShrd (w : Work) (ctx va level : Nat) (b : Bool) : Work :=
  match w.entryOf ctx va level with
  | none => w
  | some at_ =>
    let k := (PAddr.hbm at_).key
    let set := fun (e : Nat) => if b then e ||| 1024 else e - (e &&& 1024)
    (w.putTableEntry at_ (set (w.num k 8))).modTlbs fun l => l.map fun t =>
      if t.at_ = at_ then { t with leaf := BitVec.ofNat 64 (set t.leaf.toNat) } else t

/-- Coloured lines of a frame that becomes shared are kept in no L1 any more (R189). -/
def Work.dropColoured (w : Work) (pa n : Nat) : Work :=
  let keep := fun (s : Nat × Sector) => s.2.colour == 0 || decide (s.1 * 16 < pa) || decide (pa + n ≤ s.1 * 16)
  w.modDev fun d => { d with cores := d.cores.map fun c => (c.1, { c.2 with l1 := c.2.l1.filter keep }) }

/-- The frames of a KIND 0 page that a context is to map: reserved for it when they are free, reserved for it too when they are
another's (log entry 67: DEDUCED), and refused when the Headstock or an allocation pool holds them (R341, R375). -/
def Work.claimFrames (w : Work) (ctx pa n : Nat) : Bool × Work :=
  let f := pa / 65536
  let k := n / 65536
  let rs := w.dev.hub.frames
  let mine : FrameRun := ⟨f, k, BitVec.ofNat 8 (0x80 + ctx)⟩
  let pooled := w.dev.ctxs.any fun c => !apart f k c.2.mem.pool.1 c.2.mem.pool.2
  if framesFree rs f k then (true, w.modHub fun h => { h with frames := mine :: h.frames })
  else if pooled ∨ !framesFree (rs.filter fun r => r.byte.getLsbD 6) f k then (false, w)
  else
    let own := rs.filter fun r => r.byte == mine.byte
    let fresh : List FrameRun := own.foldl (fun xs r => xs.flatMap fun x => x.without r.first r.count) [mine]
    (true, w.modHub fun h => { h with frames := h.frames ++ fresh })

/-- A page that carries SHRD loses it, with an invalidation, once no other context maps any frame of it (R331). -/
def Work.unshare (w : Work) (ctx va level : Nat) : Work :=
  let e := (w.leafAt ctx va level).getD 0
  if bit e 10 ∧ ((w.mappers (leafPa e) (pageSize level)).all fun m => m.1 == ctx) then
    (w.setShrd ctx va level false).invalidate ctx va (pageSize level)
  else w

/-- The frames of a page that a context no longer maps anywhere are its no longer; pages of one context alone that lie there lose
SHRD (R331). -/
def Work.unmapped (w : Work) (ctx pa n : Nat) : Work :=
  let f := pa / 65536
  let k := n / 65536
  let ms := w.mappers pa n
  let kept := (ms.filter fun m => m.1 == ctx).map fun m => (leafPa ((w.leafAt m.1 m.2.1 m.2.2).getD 0) / 65536, pageSize m.2.2 / 65536)
  let gone : List FrameRun := kept.foldl (fun xs x => xs.flatMap fun r => r.without x.1 x.2) [⟨f, k, BitVec.ofNat 8 (0x80 + ctx)⟩]
  let cut := fun (r : FrameRun) => if r.byte = BitVec.ofNat 8 (0x80 + ctx) then
      gone.foldl (fun xs g => xs.flatMap fun x => x.without g.first g.count) [r] else [r]
  let w := if w.dev.ctxs.any fun c => !apart f k c.2.mem.pool.1 c.2.mem.pool.2 then w
    else gone.foldl (fun w g => w.wipeFrames g.first g.count) (w.modHub fun h => { h with frames := h.frames.flatMap cut })
  ms.foldl (fun w m => w.unshare m.1 m.2.1 m.2.2) w

/-- The Headstock ends a mapping of system software (R331): the entry is invalid, with an invalidation when that clears D (R336), and
a host copy of the page is none any more. -/
def Work.unmapLeaf (w : Work) (ctx va level : Nat) : Work :=
  let was := (w.leafAt ctx va level).getD 0
  let here := w.entryOf ctx va level
  let w := (w.dropLeaf ctx va level 0).prune ctx va level
  let w := w.modCtx ctx fun c => { c with mem := { c.mem with
    maps := c.mem.maps.filter fun m => m != (va, level), pages := c.mem.pages.filter fun p => some p.leaf != here } }
  let w := if bit was 0 ∧ bit was 5 then w.invalidate ctx va (pageSize level) else w
  if bit was 0 ∧ bits was 7 6 = 0 then w.unmapped ctx (leafPa was) (pageSize level) else w

/-- The Headstock writes a mapping for system software (R331, R348): false when the request is refused, as it is while the
context's tables are away. D of a leaf that it replaces goes with an invalidation (R336). -/
def Work.mapLeaf (w : Work) (ctx : Nat) (f : LeafReq) : Bool × Work :=
  let z := pageSize f.level
  let va := f.va.toNat
  let c := w.ctx ctx
  let old := (c.mem.maps.filter fun m => m == (va, f.level)).length * z
  if !leafReqOk f ∨ c.mem.sysAway then (false, w)
  else if !f.v then (true, w.unmapLeaf ctx va f.level)
  else if f.kind = 0 ∧ c.rec_.evsz * 256 < (c.footprint - old + z) * 259 then (false, w)
  else
    let (ok, w) := if f.kind = 0 then w.claimFrames ctx f.pa.toNat z else (true, w)
    if !ok then (false, w)
    else
      let was := (w.leafAt ctx va f.level).getD 0
      let others := if f.kind = 0 then (w.mappers f.pa.toNat z).filter fun m => m.1 != ctx else []
      let (ok, w) := w.writeLeaf ctx va f.level (leafWord f (!others.isEmpty))
      if !ok then (false, w)
      else
        let w := if others.isEmpty then w else w.dropColoured f.pa.toNat z
        let same := if f.kind = 0 then w.mappers f.pa.toNat z else []
        let w := if others.isEmpty then w else same.foldl (fun w m => w.setShrd m.1 m.2.1 m.2.2 true) w
        let kept := c.mem.maps.filter fun m => m != (va, f.level)
        let here := w.entryOf ctx va f.level
        let w := w.modCtx ctx fun c => { c with mem := { c.mem with
          maps := if f.kind = 0 then (va, f.level) :: kept else kept
          pages := c.mem.pages.filter fun p => some p.leaf != here } }
        let w := if bit was 0 ∧ bit was 5 then w.invalidate ctx va z else w
        (true, if bit was 0 ∧ bits was 7 6 = 0 ∧ (leafPa was ≠ f.pa.toNat ∨ f.kind ≠ 0) then w.unmapped ctx (leafPa was) z else w)

/-- MAP_REQUEST (R331, R344, R348). -/
def execMapRequest (ctx : BitVec 6) (leaf : LeafReq) (s : State) : Host.Outcome State Fault Refusal :=
  commit (fun w => if (mget? w.dev.ctxs ctx.toNat).isNone then w else (w.mapLeaf ctx.toNat leaf).2) s

/-- INVALIDATION (R334). -/
def execInvalidation (ctx : BitVec 6) (va : BitVec 56) (bytes : Nat) (s : State) : Host.Outcome State Fault Refusal :=
  commit (fun w => w.invalidate ctx.toNat va.toNat bytes) s

/-! ### Evacuated pages (R359, R361, R378) -/

/-- The key under which a confidential context's lines are encrypted. -/
def Work.xtsKey (w : Work) (ctx : Nat) : Option Nat := mget? w.dev.sec.keys ctx

/-- The bytes of a line as the base die of an address holds them: ciphertext under that address for a confidential context
(R378). -/
def Work.sealLine (w : Work) (ctx pa : Nat) (bs : List Byte) : List Byte :=
  match w.xtsKey ctx with
  | some k => leBytes 128 ((Config.xtsLine k pa).enc (BitVec.ofNat 1024 (leNat bs))).toNat
  | none => bs
/-- The reverse. -/
def Work.openLine (w : Work) (ctx pa : Nat) (bs : List Byte) : List Byte :=
  match w.xtsKey ctx with
  | some k => leBytes 128 ((Config.xtsLine k pa).dec (BitVec.ofNat 1024 (leNat bs))).toNat
  | none => bs

/-- A line's tag as the base die holds it: a data unit of its own, with bit 63 of the tweak set (R378). -/
def Work.sealTag (w : Work) (ctx pa : Nat) (t : BitVec 12) : BitVec 12 :=
  match w.xtsKey ctx with
  | some k => (Config.xtsTag k (2 ^ 63 + pa)).enc t
  | none => t
/-- The reverse. -/
def Work.openTag (w : Work) (ctx pa : Nat) (t : BitVec 12) : BitVec 12 :=
  match w.xtsKey ctx with
  | some k => (Config.xtsTag k (2 ^ 63 + pa)).dec t
  | none => t

/-- The 768 tag bytes of a frame of 512 lines (R164): twelve bits a line, the first line lowest (log entry 53: DESIGN CHOICE). -/
def Work.tagBlock (w : Work) (ctx pa : Nat) : List Byte :=
  leBytes 768 ((List.range 512).foldl (fun n i =>
    n + (w.sealTag ctx (pa + 128 * i) (mget w.dev.tags (pa / 128 + i) 0)).toNat * 2 ^ (12 * i)) 0)

/-- The tags of a frame, from its block; they were sealed under the address `old`. -/
def Work.putTags (w : Work) (ctx pa old : Nat) (bs : List Byte) : Work :=
  let x := leNat bs
  let tag := fun (i : Nat) => w.openTag ctx (old + 128 * i) (BitVec.ofNat 12 (x / 2 ^ (12 * i)))
  w.modDev fun d => { d with tags := (List.range 512).foldl (fun m i => mset m (pa / 128 + i) (tag i) 0) d.tags }

/-- Whether some line of a range has a tag. -/
def Work.anyTag (w : Work) (pa n : Nat) : Bool := w.dev.tags.any fun t => decide (pa ≤ t.1 * 128) && decide (t.1 * 128 < pa + n)

/-- A page's bytes and tags go to the evacuation area; without encryption only listed bytes and tags need a move. -/
def Work.sendBytes (w : Work) (ctx pa n host : Nat) : Work :=
  let w := match w.xtsKey ctx with
    | none => w.copyRange (PAddr.hbm pa).key (PAddr.host host).key n
    | some _ => (List.range (n / 128)).foldl (fun w i =>
        w.putBytes (PAddr.host (host + 128 * i)).key
          (w.sealLine ctx (pa + 128 * i) (w.bytes (PAddr.hbm (pa + 128 * i)).key 128))) w
  if (w.xtsKey ctx).isNone ∧ !w.anyTag pa n then w.zero (PAddr.host (host + n)).key (n / 65536 * 768)
  else (List.range (n / 65536)).foldl (fun w i =>
    w.putBytes (PAddr.host (host + n + 768 * i)).key (w.tagBlock ctx (pa + 65536 * i))) w

/-- They come back, to a frame that may be another: the lines are deciphered under their former addresses. -/
def Work.fetchBytes (w : Work) (ctx old pa n host : Nat) : Work :=
  let w := (match w.xtsKey ctx with
    | none => w.copyRange (PAddr.host host).key (PAddr.hbm pa).key n
    | some _ => (List.range (n / 128)).foldl (fun w i =>
        w.putBytes (PAddr.hbm (pa + 128 * i)).key
          (w.openLine ctx (old + 128 * i) (w.bytes (PAddr.host (host + 128 * i)).key 128))) w).mend (PAddr.hbm pa).key n
  if (w.xtsKey ctx).isNone ∧ (w.cellsIn (PAddr.host (host + n)).key (n / 65536 * 768)).isEmpty then w.dropTags pa n
  else (List.range (n / 65536)).foldl (fun w i =>
    w.putTags ctx (pa + 65536 * i) (old + 65536 * i) (w.bytes (PAddr.host (host + n + 768 * i)).key 768)) w

/-- Bytes that a page takes in the evacuation area. -/
def sentSize (level : Nat) : Nat := pageSize level * 259 / 256

/-! ### What stands at the bytes of a page follows it -/

/-- Where the model keeps the places of a page that is away: beyond the HBM, one for each context and virtual address. -/
def awayAddr (ctx va : Nat) : Nat := 2 ^ 64 + ctx * 2 ^ 56 + va

/-- An address of a range of `n` bytes that moves. -/
def movedAddr (old n new a : Nat) : Nat := if old ≤ a ∧ a < old + n then a - old + new else a
/-- A memory key of HBM that moves with its address. -/
def movedKey (old n new k : Nat) : Nat := if k % 8 = 0 then 8 * movedAddr old n new (k / 8) else k

/-- A condition of a parked WAIT whose word or future has moved. -/
def Cond.moved (c : Cond) (go : Nat → Nat) : Cond :=
  match c with
  | .fut k a => .fut (go k) a
  | .word k v eq => .word (go k) v eq
  | .tag _ _ | .bar _ _ | .array _ | .chan _ => c

/-- What of a wave names bytes of a page that moves: futures and words that it waits for. -/
def Wave.moved (v : Wave) (go : Nat → Nat) : Wave :=
  let split := fun (s : Split) => { s with wait := s.wait.map fun r => { r with conds := r.conds.map fun c => (c.1, c.2.moved go) } }
  let out := fun (o : Out) => if o.kind = .futget then { o with fut := go o.fut } else o
  { v.mapSplits split with outs := v.outs.map fun o => (o.1, out o.2) }

/-- What of the tasks names them: registrations and their futures, versions and dependences. -/
def CtxTasks.moved (t : CtxTasks) (go : Nat → Nat) : CtxTasks :=
  let sector := fun (s : Nat) => go (128 * s) / 128
  { t with
    joins := t.joins.map fun j => (j.1, { j.2 with futs := j.2.futs.map go })
    regs := t.regs.map fun r => { r with fut := go r.fut }
    futWait := t.futWait.map fun x => (go x.1, x.2)
    versions := t.versions.map fun v => { v with sector := sector v.sector }
    deps := t.deps.map fun d => { d with sector := sector d.sector } }

/-- Places of an EPIL or ALTAB in a saved core's order. -/
def SavedCore.moved (s : SavedCore) (go : Nat → Nat) : SavedCore :=
  { s with core := { s.core with order := s.core.order.map fun o => { o with key := go o.key } } }

/-- A context's page moves from one range of `n` bytes to another: everything that the part keeps by the place of its bytes
follows (R288, R302, R361). -/
def Work.follow (w : Work) (ctx old n new : Nat) : Work :=
  let go := movedKey old n new
  let w := w.modCtx ctx fun c => { c with tasks := c.tasks.moved go, saved := c.saved.map fun s => s.moved go }
  let w := w.modDev fun d => { d with waves := d.waves.map fun v => (v.1, if v.2.ctx = ctx then v.2.moved go else v.2) }
  w.modHub fun h => { h with links := h.links.map fun l => (l.1, { l.2 with gets := l.2.gets.map go }) }

/-! ### Requests that are held (R360) -/

/-- The address that an outside request names. -/
def reqAddr : ExtReq → Nat
  | .read a _ | .write a _ | .atomic _ _ a _ _ | .futres a _ _ | .futget a | .futnew a | .cas128 a => a.toNat

/-- A sent page of a context that an address falls into. -/
def Context.sentAt (c : Context) (pa : Nat) : Option SentPage :=
  c.mem.pages.find? fun p => p.out && decide (p.pa ≤ pa) && decide (pa < p.pa + pageSize p.level)

/-- Whether a request of link peer `n` to an address is one to HBM of a context that is away: evacuated, about to be, or with that
page still out (R360). When the frame has a new owner, the peer's entry at the target says whose HBM it means (log entry 55: DESIGN CHOICE). -/
def Work.holdsOff (w : Work) (n pa ctx : Nat) : Bool :=
  let e := mget w.dev.hub.access (88 * hbmTarget pa + 72 + n) 0
  let c := w.ctx ctx
  let owner := w.dev.hub.frameByte pa
  let owns := owner.getLsbD 7 && bits owner.toNat 5 0 == ctx
  e.getLsbD 15 && (e.getLsbD 14 || bits e.toNat 13 8 == ctx) &&
    ((owns && (c.state == .evacuating || c.state == .evacuated)) || (c.sentAt pa).isSome)

/-- The request with its address moved, when it stands in a range. -/
def moveReq (old n new : Nat) (r : ExtReq) : ExtReq :=
  let go := fun (a : BitVec 64) => if old ≤ a.toNat ∧ a.toNat < old + n then a - BitVec.ofNat 64 old + BitVec.ofNat 64 new else a
  match r with
  | .read a k => .read (go a) k
  | .write a bs => .write (go a) bs
  | .atomic op b a v c => .atomic op b (go a) v c
  | .futres a f v => .futres (go a) f v
  | .futget a => .futget (go a)
  | .futnew a => .futnew (go a)
  | .cas128 a => .cas128 (go a)

/-- Held requests to a page of a context follow it to its new frame (R360, log entry 55: DESIGN CHOICE). -/
def Work.readdress (w : Work) (ctx old n new : Nat) : Work :=
  let move := fun (k : Nat) (h : HeldReq) =>
    if w.holdsOff k (reqAddr h.req) ctx then (⟨moveReq old n new h.req⟩ : HeldReq) else h
  w.modHub fun h => { h with links := h.links.map fun x => (x.1, { x.2 with held := x.2.held.map (move x.1) }) }

/-- Whether some host port works. -/
def Work.anyPort (w : Work) : Bool := w.portUp 0 || w.portUp 1

/-- Frames of the save area that hold page tables. -/
def CtxMem.tabFrames (m : CtxMem) : Nat := roundUp (m.tabNext - m.saveArea.1 * 65536) 65536 / 65536

/-- Whether a frame holds page tables of a context. -/
def CtxMem.holdsTable (m : CtxMem) (f : Nat) : Bool := decide (m.saveArea.1 ≤ f) && decide (f < m.saveArea.1 + m.tabFrames)

/-- The place of a frame of the save area or of the segment pool in the evacuation area: in that order, frame by frame, each with its
tag bytes; they return to the frames that they left (R361, log entry 55: DESIGN CHOICE). -/
def CtxMem.areaOf (m : CtxMem) (f : Nat) : Nat :=
  sentSize 4 * if m.saveArea.1 ≤ f ∧ f < m.saveArea.1 + m.saveArea.2 then f - m.saveArea.1 else m.saveArea.2 + (f - m.seg.1)

/-- Bytes of the evacuation area below which no page of a program goes. -/
def Work.sysBytes (w : Work) (ctx : Nat) : Nat :=
  let m := (w.ctx ctx).mem
  (m.saveArea.2 + m.seg.2) * sentSize 4

/-- A frame of a context's tables, save area or segment pool goes to the evacuation area with its tag bytes (R359), as its base die
holds it, which has no ciphertext of tables (R378); a segment's frame holds the records (R281, R282, R289). -/
def Work.sendFrame (w : Work) (ctx f : Nat) : Work :=
  let c := w.ctx ctx
  let host := c.rec_.eva + c.mem.areaOf f
  let seg := decide (c.mem.seg.1 ≤ f) && decide (f < c.mem.seg.1 + c.mem.seg.2)
  let recs := if seg then c.tasks.poolBytes.filter fun x => x.1 / 65536 == f - c.mem.seg.1 else []
  let w := if seg then w.zero (PAddr.hbm (f * 65536)).key 65536 else w
  let w := recs.foldl (fun w x => w.putBytes (PAddr.hbm (c.mem.seg.1 * 65536 + x.1)).key x.2) w
  if c.mem.holdsTable f then
    (w.copyRange (PAddr.hbm (f * 65536)).key (PAddr.host host).key 65536).zero (PAddr.host (host + 65536)).key 768
  else w.sendBytes ctx (f * 65536) 65536 host

/-- It comes back. -/
def Work.fetchFrame (w : Work) (ctx f : Nat) : Work :=
  let c := w.ctx ctx
  let host := c.rec_.eva + c.mem.areaOf f
  let w := if c.mem.holdsTable f then
      (w.copyRange (PAddr.host host).key (PAddr.hbm (f * 65536)).key 65536).mend (PAddr.hbm (f * 65536)).key 65536
    else w.fetchBytes ctx (f * 65536) (f * 65536) 65536 host
  w.dropCopies (f * 65536) 65536

/-- Whether page tables, save area and segment pool, as far as they are away, may come back: no frame of theirs is lent (R361). -/
def Work.sysBack (w : Work) (ctx : Nat) : Bool :=
  (w.ctx ctx).mem.sysAway && w.dev.hub.lent.all fun r => r.byte != BitVec.ofNat 8 (0xC0 + ctx)

/-- Page tables, save area and segment pool come back (R361). -/
def Work.returnSystem (w : Work) (ctx : Nat) : Work :=
  let frames := (w.ctx ctx).mem.sysSent.flatMap fun r => (List.range r.count).map fun i => r.first + i
  let w := frames.foldl (fun w f => w.fetchFrame ctx f) w
  w.modCtx ctx fun c => { c with mem := { c.mem with sysOut := false, sysSent := [] } }

/-- Whether frames are reserved for a context and hold nothing. -/
def Work.slotFree (w : Work) (ctx pa n : Nat) : Bool :=
  let mine := BitVec.ofNat 8 (0x80 + ctx)
  ((List.range (n / 65536)).all fun i => (w.dev.hub.frameBytes (pa + 65536 * i)).contains mine) &&
    w.usedRanges.all fun u => apart pa n u.1 u.2

/-- Frames of a context's reservation that are kept for no page, one place for each gap into which a page of a level fits. -/
def Work.freePlaces (w : Work) (ctx level : Nat) : List Nat :=
  let z := pageSize level
  let kept := w.keptSlots ctx
  let mine := w.dev.hub.frames.filter fun r => r.byte == BitVec.ofNat 8 (0x80 + ctx)
  let starts := (mine.map fun r => roundUp (r.first * 65536) z) ++ (w.usedRanges ++ kept).map fun u => roundUp (u.1 + u.2) z
  starts.filter fun a => w.slotFree ctx a z && kept.all fun u => apart a z u.1 u.2

/-- The frames to which a sent page may return (R361): those that are kept for pages of its size, of the pool or of mappings as it is,
or else others of the reservation that are free, an allocation's in the pool (R341; log entry 55: DESIGN CHOICE). -/
def Work.returnSlots (w : Work) (ctx : Nat) (p : SentPage) : List Nat :=
  let m := (w.ctx ctx).mem
  let pooled := fun (a : Nat) => !apart (a / 65536) 1 m.pool.1 m.pool.2
  let kept := m.pages.filter fun q =>
    q.out && q.level == p.level && pooled q.slot == pooled p.slot && w.slotFree ctx q.slot (pageSize q.level)
  if kept.isEmpty then (w.freePlaces ctx p.level).filter fun a => pooled a || !pooled p.slot else kept.map (·.slot)

/-- A context's pages after one has returned to a place; a page for which that was kept takes the place that was kept for it. -/
def swapSlots (ps : List SentPage) (p : SentPage) (slot : Nat) : List SentPage :=
  ps.map fun x =>
    if x.leaf = p.leaf then { x with pa := slot, slot := slot, out := false }
    else if x.out ∧ x.slot = slot then { x with slot := p.slot } else x

/-- The page of an allocation at an address stands at a place, or is away. -/
def Alloc.setPage (a : Alloc) (va : Nat) (p : Option Nat) : Alloc :=
  if a.va ≤ va ∧ va < a.va + a.bytes then { a with pages := a.pages.set ((va - a.va) / pageSize a.level) p } else a

/-- A sent page returns to a free frame of the context's reservation (R361), which one is free (log entry 55: DESIGN CHOICE): its leaf
is valid again, clean and without the mark; false when no port works or no frame is free. -/
def Work.returnPage (w : Work) (ctx va : Nat) (p : SentPage) : Bool × Work :=
  let n := pageSize p.level
  match w.anyPort, w.returnSlots ctx p with
  | false, _ | _, [] => (false, w)
  | true, q :: qs =>
    let (pa, w) := w.pick (q :: qs) q
    let w := (w.fetchBytes ctx p.pa pa n ((w.ctx ctx).rec_.eva + p.off)).dropCopies pa n
    let key := (PAddr.hbm p.leaf).key
    let e := w.num key 8
    let flags := bits e 15 0 - b2n (bit e 9) * 2 ^ 9 - b2n (bit e 5) * 2 ^ 5 - b2n (bit e 0)
    let w := w.putTableEntry p.leaf (bits e 63 52 * 2 ^ 52 + pa + flags + 1)
    let w := (w.readdress ctx p.pa n pa).follow ctx (awayAddr ctx va) n pa
    (true, w.modCtx ctx fun c => { c with mem := { c.mem with
      pages := swapSlots c.mem.pages p pa, allocs := c.mem.allocs.map fun a => a.setPage va (some pa) } })

/-- The pages of a context that are out, with their virtual addresses. -/
def Work.pagesOut (w : Work) (ctx : Nat) : List (Nat × SentPage) :=
  let m := (w.ctx ctx).mem
  let z := fun (a : Alloc) => pageSize a.level
  let vas := m.maps ++ m.allocs.flatMap fun a => (List.range a.pages.length).map fun i => (a.va + i * z a, a.level)
  vas.filterMap fun v => match w.entryOf ctx v.1 v.2 with
    | some at_ => (m.pages.find? fun p => p.out && p.leaf == at_).map fun p => (v.1, p)
    | none => none

/-- The sent page with the lowest virtual address (R361) of those for which a frame is free. -/
def Work.nextReturn (w : Work) (ctx : Nat) : Option (Nat × SentPage) :=
  ((w.pagesOut ctx).filter fun x => !(w.returnSlots ctx x.2).isEmpty).foldl (fun (a : Option (Nat × SentPage)) x => match a with
    | none => some x
    | some y => if x.1 < y.1 then some x else some y) none

/-! ### Fault records (R339) -/

/-- The record that is served next: the oldest, across the dies. -/
def Work.oldestRecord (w : Work) : Option FaultRec :=
  w.dev.mmu.faults.foldl (fun (m : Option FaultRec) r => match m with
    | none => some r
    | some x => if w.age x.opened < w.age r.opened then some r else some x) none

/-- One waiter of a closed record is woken: a split retries its bundle, an engine its element, the end of a launch its
write. -/
def Work.wakeWaiter (w : Work) (r : FaultRec) (mapped : Bool) (x : PageWaiter) : Work :=
  match x with
  | .split wid _ g =>
    let gone := !mapped && g == r.vpage
    let drop := fun (s : Split) =>
      if s.pages.contains (r.die, g) then { s with
        pages := s.pages.filter fun p => p != (r.die, g)
        denied := if gone then g :: s.denied else s.denied }
      else s
    (w.modWave wid fun v => (v.mapSplits drop).wake fun s =>
      s.state == .parked && s.reason == .page && s.pages.isEmpty).settle wid
  | .engine core e g =>
    let w := if !mapped ∧ g = r.vpage then w.modMmu fun m => { m with denied := ⟨core, e, g⟩ :: m.denied } else w
    (w.retryResolves core).tryReturn core
  | .launch lid g => w.modLaunch lid fun l => { l with parked := false, denied := !mapped && g == r.vpage }

/-- A record of a die has become free: who waits for one walks again (R338). -/
def Work.wakeShort (w : Work) (r : FaultRec) : Work :=
  let hits := w.dev.mmu.short.filter fun x => x.1 == r.die
  let w := w.modMmu fun m => { m with short := m.short.filter fun x => x.1 != r.die }
  hits.foldl (fun w x => w.wakeWaiter r true x.2) w

/-- A record closes: every waiter is woken, and it is freed (R339, log entry 16: DEDUCED). -/
def Work.closeRecord (w : Work) (r : FaultRec) (mapped : Bool) : Work :=
  let closed := { r with state := if mapped then FaultState.closedMapped else .closedNone }
  let w := w.modMmu fun m => { m with faults := m.faults.filter fun x => x != r }
  (closed.waiters.foldl (fun w x => w.wakeWaiter closed (closed.state == .closedMapped) x) w).wakeShort closed

/-- The Headstock has begun to serve a record that it cannot close yet (R339). -/
def Work.serving (w : Work) (r : FaultRec) : Work :=
  w.modMmu fun m => { m with faults := m.faults.map fun x => if x = r then { x with state := .servicing } else x }

/-- Whether a leaf request covers a granule. -/
def covers (f : LeafReq) (granule : Nat) : Bool :=
  decide (f.va.toNat ≤ granule * 65536) && decide (granule * 65536 < f.va.toNat + pageSize f.level)

/-- The sent page that a walk of an address meets a return mark of. -/
def Work.markedPage (w : Work) (ctx va : Nat) : Option (Nat × SentPage) :=
  firstSome [2, 3, 4] fun level => match w.entryOf ctx va level with
    | some at_ => ((w.ctx ctx).mem.pages.find? fun p => p.out && p.leaf == at_).map fun p => (va / pageSize level * pageSize level, p)
    | none => none

/-- Whether the entry at which a walk ends is uncorrectable (R395 code 9). -/
def Work.badEntry (w : Work) (ctx va : Nat) : Bool :=
  match walk w ctx va with
  | .bad level => match w.entryOf ctx va level with
    | some at_ => w.badData (PAddr.hbm at_).key 8
    | none => false
  | _ => false

/-- FAULT_RECORD_SERVICE (R339, R361, R395): the oldest record is served. A mapping that stands by now closes it, a page that
was sent comes back first, and else the mapping is written that system software gives, if it gives one that covers the
granule. -/
def execFaultRecordService (map : Option LeafReq) (s : State) : Host.Outcome State Fault Refusal :=
  commit (fun w => match w.oldestRecord with
    | none => w
    | some r =>
      let va := r.vpage * 65536
      match walk w r.ctx va with
      | .leaf _ _ _ => w.closeRecord r true
      | .bad _ =>
        if w.badEntry r.ctx va then w.closeRecord r false
        else match w.markedPage r.ctx va with
          | some p =>
            let (ok, w) := w.returnPage r.ctx p.1 p.2
            if ok then w.closeRecord r true else w.serving r
          | none => match map with
            | none => w.closeRecord r false
            | some f =>
              if !f.v ∨ !covers f r.vpage then w.closeRecord r false
              else
                let (ok, w) := w.mapLeaf r.ctx f
                w.closeRecord r ok) s

end Sys2Proof.Machine
end

