-- ==== Sys2Proof/Machine/Contexts.lean ====
section
/-! DEFINITION. Contexts: the mailbox commands, pre-emption and its save, and time slicing (21 R346–R356, R360–R362, R366,
08 R175, 20 R340, 23 R379). -/

namespace Sys2Proof.Machine

/-! ### Commands (R350) -/

/-- A command ends (R349). -/
def Work.commandEnd (w : Work) (op res : Nat) : Work :=
  w.modHub fun h => { h with busy := false, res := BitVec.ofNat 8 res, lastop := BitVec.ofNat 8 op }

/-- A command runs and ends with its code; a part whose image was refused answers 6 (R398). -/
def Work.command (w : Work) (op : Nat) (f : Work → Nat × Work) : Work :=
  if w.dev.sec.boot ≠ 0 then w.commandEnd op 6
  else
    let (r, w) := f w
    w.commandEnd op r

/-- A command on a context; an id that names none answers 2. -/
def Work.onCtx (w : Work) (op ctx : Nat) (f : Context → Work → Nat × Work) : Work :=
  w.command op fun w => match mget? w.dev.ctxs ctx with
    | none => (2, w)
    | some c => f c w

/-! ### CREATE (R347, R348) -/

/-- A context record as CREATE reads it; sizes in bytes. -/
def recordOf (b : List Byte) : CtxRec :=
  let q := fun (n : Nat) => (le64 b (8 * n)).toNat
  let x := q 1
  { root := q 0, gwin := bits x 63 48, chipw := bits x 39 32 * 2 ^ 21, maxc := bits x 15 8, conf := bit x 7, rmode := bit x 6
    cls := BitVec.ofNat 3 x, quant := q 2, q := q 3, ringva := BitVec.ofNat 64 (q 4), rlog := bits (q 5) 4 0, segb := q 6
    eva := q 7, evsz := q 8, eseed := BitVec.ofNat 48 (q 9)
    ewt := (List.range 10).map fun n => BitVec.ofNat 32 (leNat (slice b (0x50 + 4 * n) 4)), bytes := b }

/-- A record whose fields are in their ranges and whose zero fields are zero (R347). -/
def recordOk (b : List Byte) : Bool :=
  let q := fun (n : Nat) => (le64 b (8 * n)).toNat
  let x := q 1
  bits (q 0) 63 52 == 0 && bits (q 0) 14 0 == 0 && decide (q 0 + 2 ^ 15 ≤ Config.hbmBytes) && bits x 47 40 == 0 &&
    bits x 31 16 == 0 && bits x 5 3 == 0 && decide (bits x 39 32 ≤ 64) && decide (1 ≤ bits x 15 8) &&
    decide (bits x 15 8 ≤ 192) && bits (q 2) 63 32 == 0 && decide (1000 ≤ q 2) && q 3 % 2 ^ 26 == 0 && q 4 % 256 == 0 &&
    bits (q 4) 63 56 == 0 && bits (q 5) 63 5 == 0 && decide (4 ≤ q 5) && decide (q 5 ≤ 16) && q 6 % 4096 == 0 &&
    decide (65536 ≤ q 6) && q 7 % 65536 == 0 && q 8 % 65536 == 0 && bits (q 9) 63 48 == 0 && q 15 == 0

/-- Frames of the save area (R348). -/
def CtxRec.saveFrames (r : CtxRec) : Nat := r.maxc * 168 + r.chipw / 65536 + 1024

/-- Whether the evacuation area can take what is reserved, and a host port reaches it (R348). -/
def Work.evacAreaOk (w : Work) (r : CtxRec) : Bool :=
  decide ((r.saveFrames * 65536 + r.segb + r.q) * 259 ≤ r.evsz * 256) && decide (r.eva + r.evsz ≤ 2 ^ 64) &&
    w.dev.hub.ports.any fun p => p.2.up && p.2.bme

/-- Whether a run is the frame of a context's level-0 table, which stays (R329, log entry 55: DEDUCED). -/
def Work.isRoot (w : Work) (r : FrameRun) : Bool :=
  r.byte.getLsbD 6 && r.count == 1 && w.dev.ctxs.any fun c => c.2.rec_.root / 65536 == r.first

/-- The pool of an override context for which too few frames are free: a run that its evacuation will empty, of which it has what
is free; one without tables, save areas and segment pools if there is one (R358, R359, log entry 80: DEDUCED). -/
def Work.promiseFrames (w : Work) (n : Nat) (byte : Byte) : Option Nat × Work :=
  let fs := w.dev.hub.frames
  let clear := framePlaces (fs.filter fun r => r.byte.getLsbD 6) n 1024
  match if clear.isEmpty then framePlaces (fs.filter w.isRoot) n 1024 else clear with
  | [] => (none, w)
  | p :: ps =>
    let (f, w) := w.pick (p :: ps) p
    let cut := fun (xs : List FrameRun) (r : FrameRun) => xs.flatMap fun x => x.without r.first r.count
    (some f, w.modHub fun h => { h with frames := h.frames.foldl cut [⟨f, n, byte⟩] ++ h.frames })

/-- The frames of an allocation pool. -/
def Work.reservePool (w : Work) (n : Nat) (byte : Byte) (override_ : Bool) : Option Nat × Work :=
  match w.reserveFrames n 1024 byte, override_ with
  | (none, _), true => w.promiseFrames n byte
  | x, _ => x

/-- The reservations of CREATE, all or none: save area, segment pool and pool frames (R348, R375). -/
def Work.reserveAll (w : Work) (ctx : Nat) (r : CtxRec) : Option CtxMem × Work :=
  let sys := BitVec.ofNat 8 (0xC0 + ctx)
  let seg := roundUp r.segb 65536 / 65536
  let chips := w.dev.ctxs.foldl (fun n c => n + c.2.rec_.chipw) 0
  if Config.chipBytes < chips + r.chipw then (none, w)
  else match w.reserveFrames r.saveFrames 1 sys with
    | (none, _) => (none, w)
    | (some a, x) => match x.reserveFrames seg 1 sys with
      | (none, _) => (none, w)
      | (some b, x) => match x.reservePool (r.q / 65536) (BitVec.ofNat 8 (0x80 + ctx)) (r.cls == 7) with
        | (none, _) => (none, w)
        | (some p, x) =>
          (some { CtxMem.blank with
            saveArea := (a, r.saveFrames), seg := (b, seg), pool := (p, r.q / 65536), tabNext := a * 65536 }, x)

/-- The targets at which a context's own requests are made (R374, log entry 57: DEDUCED). -/
def ctxTargets : List Nat := List.range 8 ++ (List.range 18).map fun n => 9 + n

/-- A context's entries of the access tables, set at CREATE and cleared at DESTROY (R374). -/
def Work.setAccess (w : Work) (ctx : Nat) (e : BitVec 16) : Work :=
  w.modHub fun h => { h with access := ctxTargets.foldl (fun m t => mset m (88 * t + ctx) e 0) h.access }

/-- Whether the frame of a level-0 table is free, or the Headstock's: no program reaches it (R329, log entry 57: DEDUCED). -/
def Work.rootOk (w : Work) (root : Nat) : Bool :=
  framesFree w.dev.hub.frames (root / 65536) 1 || (w.dev.hub.frameBytes root).all fun b => b.getLsbD 6

/-- The frame of a context's level-0 table is the Headstock's from CREATE to DESTROY, whoever else has tables there, and its lines are
of colour 0 (R329, R375, log entry 57: DEDUCED). -/
def Work.takeRoot (w : Work) (ctx root : Nat) : Work :=
  (w.dropTags root 32768).modHub fun h => { h with frames := h.frames ++ [⟨root / 65536, 1, BitVec.ofNat 8 (0xC0 + ctx)⟩] }

/-- The chip scratchpad window of a new context holds zero (R149). -/
def Work.zeroChip (w : Work) (ctx n : Nat) : Work :=
  let k := (PAddr.chip ctx 0).key
  (w.zero k n).mend k n

/-- A new context starts fresh (R348). -/
def Work.newContext (w : Work) (ctx : Nat) (r : CtxRec) (m : CtxMem) : Work :=
  let w := (w.setCtx ctx { Context.blank with rec_ := r, mem := m, since := w.gtick }).zeroChip ctx r.chipw
  let w := w.setAccess ctx (BitVec.ofNat 16 (0x8007 + 256 * ctx))
  if r.conf then w.modSec fun s => { s with keys := mput s.keys ctx s.keyNext, keyNext := s.keyNext + 1 } else w

/-- The effect of CREATE, with its code (R348). -/
def Work.createCtx (w : Work) (ctx : Nat) : Nat × Work :=
  let cmda := w.dev.hub.cmda.toNat
  let b := w.bytes (PAddr.host cmda).key 128
  let r := recordOf b
  if cmda % 128 ≠ 0 ∨ !recordOk b then (1, w)
  else if (mget? w.dev.ctxs ctx).isSome then (2, w)
  else if r.cls = 7 ∧ w.dev.ctxs.any (fun c => c.2.rec_.cls == 7) then (5, w)
  else if !w.rootOk r.root then (3, w)
  else match (w.takeRoot ctx r.root).reserveAll ctx r with
    | (none, _) => (3, w)
    | (some m, x) =>
      if w.evacAreaOk r then (0, (x.newContext ctx r m).modHub fun h => { h with created := true }) else (4, w)

/-- CREATE (R348). -/
def execCreate (ctx : BitVec 6) (s : State) : Host.Outcome State Fault Refusal :=
  commit (fun w => w.command 0x01 fun w => w.createCtx ctx.toNat) s

/-! ### STATUS and SETVW -/

/-- The code of a state (R366). -/
def CtxState.code : CtxState → Nat
  | .running => 1
  | .frozen => 2
  | .evacuating => 3
  | .evacuated => 4
  | .returning => 5

/-- The block of STATUS (R366). -/
def Context.statusBlock (c : Context) : List Byte :=
  let word1 := c.state.code * 2 ^ 17 + b2n (c.energy.any fun x => x.2.sat) * 2 ^ 16 + c.etot.toNat % 65536
  leBytes 8 (c.etot.toNat / 65536) ++ leBytes 8 word1 ++ leBytes 8 c.runt.toNat ++ leBytes 8 c.evb.toNat ++
    List.replicate 32 0

/-- STATUS (R350, R366). -/
def execStatus (ctx : BitVec 6) (s : State) : Host.Outcome State Fault Refusal :=
  commit (fun w => w.onCtx 0x05 ctx.toNat fun c w =>
    let cmda := w.dev.hub.cmda.toNat
    if c.broken then (6, w)
    else if cmda % 128 ≠ 0 then (1, w) else (0, w.putBytes (PAddr.host cmda).key c.statusBlock)) s

/-- SETVW (R350, R352). -/
def execSetvw (arg : BitVec 2) (s : State) : Host.Outcome State Fault Refusal :=
  commit (fun w => w.command 0x10 fun w =>
    if arg = 3 then (1, w)
    else if w.dev.ctxs.any fun c => !c.2.tasks.doms.isEmpty then (6, w)
    else (0, w.modHub fun h => { h with vways := arg })) s

/-! ### The save (R353, R354) -/

/-- Producers complete, but those that wait for a future or for host and peer memory (R28, R353). -/
def Work.drainOuts (w : Work) (wid : Nat) : Work :=
  (w.wave wid).outs.foldl (fun w o => if o.2.ext ∨ o.2.kind = .futget then w else w.complete wid o.1) w

/-- Copies in flight land, but what waits for host or peer memory and what must land behind that (R237, R353; lanes of one copy in
ascending order, log entry 44: DESIGN CHOICE). -/
def Work.drainCpas (w : Work) (wid : Nat) : Work :=
  let land := fun (r : List CpaOp × Work) (o : CpaOp) =>
    let now := o.landable r.1 fun x => x.via.isNone
    (r.1 ++ [{ o with lanes := o.lanes.drop now.length }], r.2.landCpa wid o.tag now)
  let (kept, w) := (w.wave wid).cpas.foldl land ([], w)
  (w.modWave wid fun v => { v with cpas := fallCpas [] kept }).latchWave wid

/-- Under which key a logical core's counter is kept while its context is frozen, and the counters that a core kept (R367) while
restored ones stand on it, the oldest first. -/
def savedKey (lid lcore : Nat) : Nat := 1000 + 2 * (192 * lid + lcore)
def keptKey (core n : Nat) : Nat := 1001 + 2 * (192 * n + core)

/-- A counter moves to another key. -/
def moveEnergy (m : FMap Energy) (from_ to_ : Nat) : FMap Energy :=
  match mget? m from_ with
  | some x => mput (mdel m from_) to_ x
  | none => m

/-- How many counters wait aside for a core. -/
def keptCount (m : FMap Energy) (core : Nat) : Nat :=
  ((List.range m.length).takeWhile fun n => (mget? m (keptKey core n)).isSome).length

/-- A restored counter takes a core: the one that the core had kept waits aside. -/
def keepAside (m : FMap Energy) (core : Nat) : FMap Energy := moveEnergy m core (keptKey core (keptCount m core))

/-- The counter that a core kept last stands on it again. -/
def takeKept (m : FMap Energy) (core : Nat) : FMap Energy :=
  match keptCount m core with
  | 0 => m
  | n + 1 => moveEnergy m (keptKey core n) core

/-- A core as a save leaves it: its work and its caches are gone; what persists on a core stays (R256, R355). A core that a
violation has stopped stays its launch's (R376). -/
def Core.vacate (c : Core) (ctx now : Nat) : Core := { c.dropCaches with
  owner := if c.stopped.isSome then c.owner else none, order := []
  tlb := c.tlb.filter fun t => t.ctx ≠ ctx
  chans := [], xfers := [], mcasts := [], resolves := [], idleSince := now
  resident := c.resident.filter fun x => x ≠ ctx }

/-- The state of one core goes to the image, its counter is folded and kept with it (R354, R366). -/
def Work.saveCore (w : Work) (ctx core : Nat) : Work :=
  match (w.core core).owner with
  | none => w
  | some lid =>
    let lcore := ((w.launch lid).logical? core).getD 0
    let c := w.core core
    let keep := fun (x : Context) =>
      let x := x.fold core
      { x with
        energy := takeKept (moveEnergy x.energy core (savedKey lid lcore)) core
        saved := x.saved ++ [⟨lid, lcore, c, core, (w.dev.mmu.denied.filter fun d => d.core == core).map fun d => (d.e, d.granule)⟩] }
    (w.modCtx ctx keep).modCore core fun c => c.vacate ctx w.gtick.toNat

/-- Whether a waiter on a record belongs to a context, which has some cores. -/
def Work.waitsFor (w : Work) (ctx : Nat) (cores : List Nat) : PageWaiter → Bool
  | .split wid _ _ => (w.wave wid).ctx == ctx
  | .launch lid _ => (w.launch lid).ctx == ctx
  | .engine c _ _ => cores.contains c

/-- A context's fault records leave the dies with their waiters (R340), and those that wait there for a record may open one (R338);
its own of these walk again after the restore. -/
def Work.saveFaults (w : Work) (ctx : Nat) (cores : List Nat) : Work :=
  let mine := w.dev.mmu.faults.filter fun r => r.ctx == ctx
  let again := fun (w : Work) (x : Nat × PageWaiter) => match x.2 with
    | .launch lid _ => if (w.launch lid).ctx = ctx then w.modLaunch lid fun l => { l with parked := false } else w
    | .split _ _ _ | .engine _ _ _ => w
  let w := w.dev.mmu.short.foldl again w
  let w := w.modMmu fun m => { m with
    faults := m.faults.filter fun r => r.ctx ≠ ctx, denied := m.denied.filter fun d => !cores.contains d.core
    short := m.short.filter fun x => !w.waitsFor ctx cores x.2 }
  mine.foldl (fun w r => w.wakeShort r) (w.modCtx ctx fun c => { c with faults := c.faults ++ mine })

/-- A context stops at its issue boundaries, drains, and goes to its save area (R353); its cores are free then. -/
def Work.freeze (w : Work) (ctx : Nat) (st : CtxState) : Work :=
  let mine := (w.dev.waves.filter fun v => v.2.ctx == ctx).map (·.1)
  let cores := w.coresOf ctx
  let w := mine.foldl (fun w i => (w.drainOuts i).drainCpas i) w
  let w := cores.foldl (fun w c => (w.core c).mcasts.foldl (fun w m => w.deliver c m) w) w
  let w := cores.foldl (fun w c => w.saveCore ctx c) (w.landAll ctx)
  let w := (w.saveFaults ctx cores).modTlbs fun l => l.filter fun t => t.ctx ≠ ctx
  let off := fun (v : Wave) => if v.ctx = ctx then { v with place := none } else v
  let out := fun (b : Block) => if b.ctx = ctx then { b with core := none } else b
  let w := w.modDev fun d => { d with
    waves := d.waves.map fun x => (x.1, off x.2), blocks := d.blocks.map fun x => (x.1, out x.2) }
  w.searchAgain.modCtx ctx fun c => { c with state := st, frozenAt := w.gtick }

/-- A context is frozen as SUSPEND does it (R350). -/
def Work.suspendCtx (w : Work) (ctx : Nat) : Work :=
  let w := if (w.ctx ctx).state = .running then w.freeze ctx .frozen else w
  w.modCtx ctx fun c => { c with suspended := true }

/-- SUSPEND (R350). -/
def execSuspend (ctx : BitVec 6) (s : State) : Host.Outcome State Fault Refusal :=
  commit (fun w => w.onCtx 0x03 ctx.toNat fun c w => if c.broken then (6, w) else (0, w.suspendCtx ctx.toNat)) s

/-- What was sent, or was to be, comes back (R361). -/
def Context.comeBack (c : Context) : Context :=
  { c with state := if c.state = .evacuating ∨ c.state = .evacuated then .returning else c.state }

/-- RESUME (R350, R395). -/
def execResume (ctx : BitVec 6) (s : State) : Host.Outcome State Fault Refusal :=
  commit (fun w => w.onCtx 0x04 ctx.toNat fun c w =>
    if c.state = .running ∨ c.broken then (6, w)
    else (0, w.modCtx ctx.toNat fun c => { c.comeBack with suspended := false })) s

/-! ### DESTROY (R350, R360, R376, R379) -/

/-- The context whose HBM an address is: the owner of its frame, or of the page that left it (R360, R375). -/
def Work.ctxOfPa (w : Work) (pa : Nat) : Option Nat :=
  let b := w.dev.hub.frameByte pa
  if b.getLsbD 7 then some (bits b.toNat 5 0)
  else (w.dev.ctxs.find? fun c => (c.2.sentAt pa).isSome).map (·.1)

/-- Held requests to a context's pages that are gone complete as accesses to an unmapped address (R362). -/
def Work.failHeld (w : Work) (ctx : Nat) : Work :=
  let hits := fun (n : Nat) (h : HeldReq) => w.holdsOff n (reqAddr h.req) ctx
  let gone := w.dev.hub.links.flatMap fun l => (l.2.held.filter (hits l.1)).map fun _ => (72 + l.1, ExtResp.linkError)
  let strip := fun (n : Nat) (l : Link) => { l with held := l.held.filter fun h => !hits n h }
  w.modHub fun h => { h with links := h.links.map fun l => (l.1, strip l.1 l.2), replies := h.replies ++ gone }

/-- A core of a destroyed context: its state is discarded, and a stopped core runs again (R376). -/
def Core.release (c : Core) (ctx now : Nat) : Core :=
  { c.vacate ctx now with owner := none, stopped := none }

/-- The dies lose what concerns a context: its fault records, and its waves' places in the records of others. -/
def Work.dropFaults (w : Work) (ctx : Nat) : Work :=
  let mine := w.waitsFor ctx (w.coresOf ctx)
  let strip := fun (r : FaultRec) => { r with waiters := r.waiters.filter fun x => !mine x }
  let w := w.modMmu fun m => { m with
    faults := m.faults.map strip, denied := m.denied.filter fun d => !(w.coresOf ctx).contains d.core
    short := m.short.filter fun x => !mine x.2 }
  (w.dev.mmu.faults.filter fun r => r.ctx == ctx).foldl (fun w r => w.closeRecord r true) w

/-- Evacuated contexts return once no class-7 context exists (R361). -/
def Work.endEvacuation (w : Work) : Work :=
  let back := fun (c : Context) => if c.suspended then c else c.comeBack
  (w.modHub fun h => { h with evac := none, evacOn := false }).modDev fun d => { d with
    ctxs := d.ctxs.map fun c => (c.1, back c.2) }

/-- The pages that a context shares with others: physical address and size (R331). -/
def Work.sharedPages (w : Work) (ctx : Nat) : List (Nat × Nat) :=
  (w.ctx ctx).mem.maps.filterMap fun m => match w.leafAt ctx m.1 m.2 with
    | some e => if bit e 0 ∧ bit e 10 then some (leafPa e, pageSize m.2) else none
    | none => none

/-- A context and everything of it is gone (R350, R379). -/
def Work.destroyCtx (w : Work) (ctx : Nat) : Work :=
  let shared := w.sharedPages ctx
  let w := w.modSec fun s => { s with keys := mdel s.keys ctx }
  let halted := (w.dev.cores.filter fun c => c.2.stopped == some ctx).map (·.1)
  let cores := (w.coresOf ctx ++ halted).eraseDups
  let w := (w.failHeld ctx).dropFaults ctx
  let w := cores.foldl (fun w c => w.modCore c fun k => k.release ctx w.gtick.toNat) w
  let w := w.modTlbs fun l => l.filter fun t => t.ctx ≠ ctx
  let w := w.modDev fun d => { d with
    waves := d.waves.filter fun v => v.2.ctx ≠ ctx, blocks := d.blocks.filter fun b => b.2.ctx ≠ ctx
    launches := d.launches.filter fun l => l.2.ctx ≠ ctx, ctxs := mdel d.ctxs ctx }
  let w := (w.releaseFrames ctx).setAccess ctx 0
  let w := shared.foldl (fun w p => w.unmapped ctx p.1 p.2) w
  if w.dev.hub.evac = some ctx then w.searchAgain.endEvacuation else w.searchAgain

/-- DESTROY (R350, R379). -/
def execDestroy (ctx : BitVec 6) (s : State) : Host.Outcome State Fault Refusal :=
  commit (fun w => w.onCtx 0x02 ctx.toNat fun _ w => (0, w.destroyCtx ctx.toNat)) s

end Sys2Proof.Machine
end

