-- ==== Sys2Proof/Machine/CrossLane.lean ====
section
/-! DEFINITION. Cross-lane operations: SHFL, VOTE and REDUX (04 R98–R100). -/

namespace Sys2Proof.Machine

/-- The lane that SHFL reads for a lane, within segments of `w` lanes; none keeps the lane's own value (R99). -/
def shflSource (mode : ShMode) (w n l : Nat) : Option Nat :=
  let pos := l % w
  let base := l - pos
  match mode with
  | .idx => some (base + n % w)
  | .up => if n ≤ pos then some (l - n) else none
  | .down => if pos + n < w then some (l + n) else none
  | .xor => some (base + (pos ^^^ n) % w)

/-- The lane number that a lane's operand gives. -/
def Wave.laneOpd (v : Wave) (e : Iss) (n : LaneOpd) (l : Nat) : Nat :=
  match n with
  | .reg s => (v.val e s.reg l).toNat % 32
  | .imm n => n.toNat

/-- Whether a lane's own operand register is full. -/
def Wave.laneOpdFull (v : Wave) (e : Iss) (n : LaneOpd) (l : Nat) : Bool :=
  match n with
  | .reg s => (v.stat (v.loc e s.reg l)).isNone
  | .imm _ => true

/-- The lane whose register a lane's SHFL reads; a lane number that is still empty names no register yet. -/
def shflLane (v : Wave) (e : Iss) (n : LaneOpd) (w : Nat) (mode : ShMode) (l : Nat) : Nat :=
  if v.laneOpdFull e n l then (shflSource mode w (v.laneOpd e n l) l).getD l else 32

/-- SHFL (R99): w = 32 >> C[2:0]. -/
def execShfl (g : Guard) (d : Reg) (a : VSrc) (n : LaneOpd) (w : BitVec 3) (mode : ShMode) (s : State) :
    Host.Outcome State Fault Refusal :=
  let seg := 32 >>> w.toNat
  let uses : List Use := match n with
    | .reg b => [useOf b 1 1]
    | .imm _ => []
  runBundle g ⟨useOf a.src 1 0 :: uses, some (d, 1)⟩ false 
    (fun e w f l => if f = 0 then shflLane (w.wave e.wid) e n seg mode l else l)
    (writes d clsInt fun e v l => [v.cross e a.src.reg (shflLane v e n seg mode l)]) 1 s

/-- The lanes whose predicate, negated or not, is true. -/
def Wave.votes (v : Wave) (e : Iss) (p : BitVec 3) (neg : Bool) : List Nat :=
  e.act.filter fun l => (v.lane l).pred p != neg

/-- VOTE (R100). -/
def execVote (g : Guard) (dst : VoteDst) (pa : BitVec 3) (neg : Bool) (s : State) : Host.Outcome State Fault Refusal :=
  match dst with
  | .all p => bundle g ⟨[], none⟩ false (writesP p clsInt fun e v _ => (v.votes e pa neg).length == e.act.length) s
  | .any p => bundle g ⟨[], none⟩ false (writesP p clsInt fun e v _ => !(v.votes e pa neg).isEmpty) s
  | .ballot d => bundle g ⟨[], some (d, 1)⟩ false (writes d clsInt fun e v _ => [maskOf (v.votes e pa neg)]) s

/-- One combination of REDUX (R100). -/
def redOp (op : RedOp) (a b : Word) : Word :=
  match op with
  | .add => a + b
  | .min => minWord false a b
  | .max => maxWord false a b
  | .minu => minWord true a b
  | .maxu => maxWord true a b
  | .and => a &&& b
  | .or => a ||| b
  | .xor => a ^^^ b

/-- The active lanes' values combined. -/
def reduce (op : RedOp) (xs : List Word) : Word :=
  match xs with
  | [] => 0
  | x :: xs => xs.foldl (redOp op) x

/-- REDUX (R100). -/
def execRedux (g : Guard) (d : Reg) (a : VSrc) (op : RedOp) (s : State) : Host.Outcome State Fault Refusal :=
  bundle g ⟨[useOf a.src 1 0], some (d, 1)⟩ false
    (writes d clsInt fun e v _ => [reduce op (e.act.map fun j => v.val e a.src.reg j)]) s

end Sys2Proof.Machine
end

