-- ==== Sys2Proof/Machine/Residency.lean ====
section
/-! DEFINITION. Which contexts have cores: time slicing, pre-emption, restores, and eviction of single waves (21 R351, R355–R357,
R366, 16 R283). -/

namespace Sys2Proof.Machine

/-! ### Needs (R351) -/

/-- Physical cores that a launch does not own and that would serve its next block, or a group on one cluster. -/
def Work.couldUse (w : Work) (lid : Nat) (cluster : Option Nat) : List Nat :=
  let l := w.launch lid
  let fits := fun (c : Nat) =>
    (w.core (l.physical c)).owner != some lid && (l.lend == 0 || !l.clusters.contains (c / 8)) &&
      (match cluster with
       | some q => clusterOf (l.physical c) == q
       | none => true) && w.mayTake l.ctx (l.taken c).length
  let whole := fun (c : Nat) =>
    if l.lend = 0 then [l.physical c] else (List.range 8).map fun p => 8 * clusterOf (l.physical c) + p
  (l.lcores.filter fits).flatMap whole

/-- Physical cores that would serve the blocks and groups of a running context that find no place. -/
def Work.wants (w : Work) (ctx : Nat) : List Nat :=
  let blocks := ((w.distributing ctx).filter fun lid => (w.findPlace lid).isNone).flatMap fun lid => w.couldUse lid none
  let groups := (w.ctx ctx).tasks.groups.flatMap fun q => (q.2.filter fun g =>
    g.ready && !g.tasks.isEmpty && (w.groupCore g.lid q.1).isNone).flatMap fun g => w.couldUse g.lid (some q.1)
  blocks ++ groups

/-- Whether a context waits to be restored: it is frozen and nobody holds it, or its pages have returned as far as its mode
asks (R351, R361). -/
def Context.restorable (c : Context) : Bool :=
  !c.suspended && !c.broken &&
    (c.state == .frozen || (c.state == .returning && !c.mem.sysAway && (c.rec_.rmode || !(c.mem.pages.any fun p => p.out))))

/-! ### Cores by class (R351) -/

/-- Whether a running context has a block or a group that finds a place. -/
def Work.hasPlace (w : Work) (ctx : Nat) : Bool :=
  (w.nextBlock ctx).isSome || (w.ctx ctx).tasks.groups.any fun q => q.2.any fun g =>
    g.ready && !g.tasks.isEmpty && (w.groupCore g.lid q.1).isSome

/-- Whether a context of a higher class comes first where free cores are given (R351): one that waits to be restored, that has
something to place, or that wants one of these cores. -/
def Work.outranked (w : Work) (ctx : Nat) (cores : List Nat) : Bool :=
  let cls := (w.ctx ctx).rec_.cls
  w.dev.ctxs.any fun c => decide (cls < c.2.rec_.cls) && (c.2.restorable ||
    (c.2.state == .running && (w.hasPlace c.1 || (w.wants c.1).any cores.contains)))

/-- Whether a logical core may be given to its launch now: it is the launch's, or no higher class comes first (R351). -/
def Work.mayGive (w : Work) (lid lcore : Nat) : Bool :=
  let l := w.launch lid
  (w.core (l.physical lcore)).owner == some lid || !w.outranked l.ctx (l.taken lcore)

/-- All 32 lanes of a launched wave. -/
def allLanes : List (Nat × Option TaskRec) := (List.range 32).map fun l => (l, none)

/-- BLOCK_PLACE (R326). -/
def execBlockPlace (ctx : BitVec 6) (s : State) : Host.Outcome State Fault Refusal :=
  commit (fun w =>
    if (w.ctx ctx.toNat).state ≠ .running then w
    else match w.nextBlock ctx.toNat with
      | none => w
      | some (lid, lcore, slots) =>
        if !w.mayGive lid lcore then w
        else
          let l := w.launch lid
          let (_, w) := w.putBlock lid lcore (BitVec.ofNat 64 l.next) slots false allLanes l.entry l.kargs
          (w.modLaunch lid fun l => { l with next := l.next + 1, search := lcore + 1 }).searched) s

/-- The ready group of a cluster that is placed next: the first in order that can be placed, as its index. -/
def Work.nextGroup (w : Work) (cluster : Nat) : Option Nat :=
  let fit := (w.groupsOf cluster).zipIdx.filter fun x =>
    x.1.2.ready && !x.1.2.tasks.isEmpty && match w.groupCore x.1.2.lid cluster with
      | some p => w.mayGive x.1.2.lid p.1
      | none => false
  (fit.foldl (fun (m : Option ((Nat × Group) × Nat)) x => match m with
    | none => some x
    | some y => if x.1.2.before w.gtick y.1.2 then some x else some y) none).map (·.2)

/-- TASK_WAVE_PLACE (R285). -/
def execTaskWavePlace (cluster idx : Nat) (s : State) : Host.Outcome State Fault Refusal :=
  commit (fun w =>
    if w.nextGroup cluster ≠ some idx then w
    else match (w.groupsOf cluster)[idx]? with
      | none => w
      | some (ctx, g) => (w.placeGroup cluster ctx g).searched) s

/-! ### Restores (R356) -/

/-- Orders of four things. -/
def orders : List (List Nat) :=
  let r := List.range 4
  (r.flatMap fun a => r.flatMap fun b => r.flatMap fun c => r.map fun d => [a, b, c, d]).filter fun l =>
    l.eraseDups.length == 4

/-- Maps of the eight positions of a cluster that keep pair partners together. -/
def pairMaps : List (List Nat) :=
  orders.flatMap fun o => (List.range 16).map fun s =>
    (List.range 8).map fun p => 2 * o.getD (p / 2) 0 + (p % 2 + s / 2 ^ (p / 2) % 2) % 2

/-- Where a logical cluster of a launch goes: the physical cluster, and the place of each former position. -/
structure Fit where
  lid : Nat
  q : Nat
  cl : Nat
  map : List Nat
  deriving DecidableEq, Repr

/-- The core at which a former position stands. -/
def Fit.at_ (f : Fit) (pos : Nat) : Nat := 8 * f.cl + f.map.getD pos 0

/-- Whether a place suits the saved cores of a logical cluster (R356): free cores, whole clusters where the launch lends, no
retired core under a role; a core that a violation stopped keeps its place. -/
def Work.suits (w : Work) (busy : List Nat) (done : List Fit) (ss : List SavedCore) (f : Fit) : Bool :=
  let l := w.launch f.lid
  let free := fun (c : Nat) => w.coreFree c && !busy.contains c
  let own := fun (c : Nat) => (w.core c).owner == some f.lid
  let mine := ss.filter fun s => s.lid == f.lid && s.lcore / 8 == f.q
  !(done.any fun d => d.lid == f.lid && d.cl == f.cl) &&
    (mine.all fun s => let c := f.at_ (s.phys % 8); if s.core.stopped.isSome then c == s.phys else free c) &&
    ((l.rolesOf f.q).all fun r => !w.isRetired (f.at_ (l.physical (8 * f.q + r) % 8))) &&
    (l.lend == 0 || (List.range 8).all fun p =>
      let c := 8 * f.cl + p
      (own c || (w.core c).owner.isNone) && !busy.contains c)

/-- The cores that a placed logical cluster takes. -/
def Work.coresOfFit (w : Work) (ss : List SavedCore) (f : Fit) : List Nat :=
  if (w.launch f.lid).lend ≠ 0 then (List.range 8).map fun p => 8 * f.cl + p
  else (ss.filter fun s => s.lid == f.lid && s.lcore / 8 == f.q).map fun s => f.at_ (s.phys % 8)

/-- A list turned by some places. -/
def turned {α : Type} (l : List α) (n : Nat) : List α := l.drop (n % l.length) ++ l.take (n % l.length)

/-- Whether two candidates take the same cores of the same cluster. -/
def Work.sameFit (w : Work) (ss : List SavedCore) (a b : Fit) : Bool :=
  let x := w.coresOfFit ss a
  let y := w.coresOfFit ss b
  a.cl == b.cl && x.all y.contains && y.all x.contains

/-- Places for logical clusters, one after another: the first choice of candidates that suits them all. A candidate that takes the
cores of one which has led nowhere is passed over. -/
def Work.fitAll (w : Work) (ss : List SavedCore) (cands : Nat → Nat → List Fit) (busy : List Nat) (done : List Fit) :
    List (Nat × Nat) → Option (List Fit)
  | [] => some done
  | g :: gs =>
    let try_ := fun (r : Option (List Fit) × List Fit) (f : Fit) =>
      if r.1.isSome ∨ !w.suits busy done ss f ∨ r.2.any (w.sameFit ss f) then r
      else (w.fitAll ss cands (busy ++ w.coresOfFit ss f) (done ++ [f]) gs, f :: r.2)
    ((cands g.1 g.2).foldl try_ (none, [])).1

/-- The logical clusters that hold saved cores, those of lending launches first. -/
def Work.savedClusters (w : Work) (ss : List SavedCore) : List (Nat × Nat) :=
  let gs := (ss.map fun s => (s.lid, s.lcore / 8)).eraseDups
  (gs.filter fun g => (w.launch g.1).lend ≠ 0) ++ gs.filter fun g => (w.launch g.1).lend = 0

/-- Cores that running contexts of no lower class want (R351). -/
def Work.claimed (w : Work) (ctx : Nat) : List Nat :=
  let cls := (w.ctx ctx).rec_.cls
  let above := w.dev.ctxs.filter fun c => c.1 != ctx && c.2.state == .running && decide (cls ≤ c.2.rec_.cls)
  above.flatMap fun c => w.wants c.1

/-- Where a context's logical cores go: which places are tried first is free (R356, log entry 21: DESIGN CHOICE). -/
def Work.plan (w : Work) (ctx : Nat) : Option (List Fit) :=
  let ss := (w.ctx ctx).saved
  let gs := w.savedClusters ss
  let busy := w.claimed ctx
  let n := Config.choice w.dev.sys.fresh
  let any := fun (lid q : Nat) =>
    (turned (List.range 24) n).flatMap fun cl => (turned pairMaps (n / 24)).map fun m => (⟨lid, q, cl, m⟩ : Fit)
  w.fitAll ss any busy [] gs

/-- A role table's entry at a new place (R324, R356). -/
def moveRole (e : BitVec 64) (cl : Nat) (m : List Nat) : BitVec 64 :=
  let pos := (List.range 8).foldl (fun n r =>
    n + m.getD (bits e.toNat (10 + 3 * r) (8 + 3 * r)) 0 * 2 ^ (8 + 3 * r)) 0
  BitVec.ofNat 64 (bits e.toNat 63 32 * 2 ^ 32 + pos + bits e.toNat 7 5 * 32 + cl)

/-- An entry without saved cores makes room when its cluster is taken within its launch. -/
def Work.giveWay (w : Work) (l : Launch) (fs : List Fit) (roles : List (BitVec 64)) (q : Nat) : List (BitVec 64) :=
  let e := roles.getD q 0
  let cl := bits e.toNat 4 0
  if !e.getLsbD 5 ∨ (fs.any fun f => f.q == q) ∨ !(fs.any fun f => f.cl == cl) then roles
  else
    let used := (roles.filter fun x => x.getLsbD 5).map fun x => bits x.toNat 4 0
    let ok := fun (c : Nat) (m : List Nat) => (l.rolesOf q).all fun r =>
      !w.isRetired (8 * c + m.getD (bits e.toNat (10 + 3 * r) (8 + 3 * r)) 0)
    match firstSome ((List.range 24).filter fun c => !used.contains c) fun c =>
        (pairMaps.find? fun m => ok c m).map fun m => moveRole e c m with
    | some x => roles.set q x
    | none => roles

/-- The role table of a launch after its logical clusters have moved (R356). -/
def Work.rebind (w : Work) (lid : Nat) (fs : List Fit) : Work :=
  let mine := fs.filter fun f => f.lid == lid
  let l := w.launch lid
  let roles := mine.foldl (fun rs f => rs.set f.q (moveRole (l.role f.q) f.cl f.map)) l.roles
  let roles := (List.range 24).foldl (fun rs q => w.giveWay l mine rs q) roles
  w.modLaunch lid fun l => { l with roles := roles }

/-- A logical core's state comes back on a core, with empty caches (R354, R355); its counter comes with it (R366), and one that
the core had kept waits aside (R367). -/
def Work.returnState (w : Work) (ctx : Nat) (s : SavedCore) : Work :=
  let core := (w.launch s.lid).physical s.lcore
  let w := w.modCore core fun k => { s.core with
    owner := some s.lid, l1 := [], ro := [], icache := [], fbufs := [], tlb := k.tlb, missed := k.missed, statp := k.statp, pmcs := k.pmcs
    pmovf := k.pmovf, errs := k.errs, sampled := k.sampled, resident := k.resident, idleSince := k.idleSince, gated := false }
  let back := fun (c : Context) =>
    let x := mget c.energy (savedKey s.lid s.lcore) ⟨0, false, 0, 0⟩
    let m := mdel (keepAside c.energy core) (savedKey s.lid s.lcore)
    { c with energy := mput m core { x with base := x.e } }
  w.modCtx ctx back

/-- ENQ of queued tasks advances by the time that the context was frozen (R283). -/
def CtxTasks.delayed (t : CtxTasks) (by_ : BitVec 48) : CtxTasks :=
  let late := fun (r : TaskRec) => { r with enq := r.enq + by_ }
  let seg := fun (s : Segment) => { s with recs := s.recs.map fun x => (x.1, late x.2) }
  let dom := fun (y : DomTask) => if y.state = .queued then { y with task := late y.task } else y
  { t with
    queues := t.queues.map fun q => (q.1, q.2.map seg)
    groups := t.groups.map fun g => (g.1, g.2.map fun x => { x with tasks := x.tasks.map late })
    doms := t.doms.map fun d => (d.1, { d.2 with tasks := d.2.tasks.map dom }) }

/-- Blocks and waves of a context stand on cores again, in their slots (R356); splits parked on pages retry (R147). -/
def Work.standUp (w : Work) (ctx : Nat) : Work :=
  let core := fun (b : Block) => (w.launch b.lid).physical b.lcore
  let block := fun (b : Block) => if b.ctx = ctx then { b with core := some (core b) } else b
  let again := fun (v : Wave) => (v.wake fun s => s.state == .parked && s.reason == .page).mapSplits fun s =>
    if s.state = .ready then { s with pages := [] } else s
  let wave := fun (v : Wave) =>
    if v.ctx ≠ ctx then v
    else if v.evicted then again v
    else { again v with place := some (core (w.block v.bid), v.slot) }
  w.modDev fun d => { d with
    blocks := d.blocks.map fun x => (x.1, block x.2), waves := d.waves.map fun x => (x.1, wave x.2) }

/-- The waves of a restored context are resident in the tick in which the restore completes (R365). -/
def Work.enterTick (w : Work) (ctx : Nat) : Work :=
  w.dev.waves.foldl (fun w x => match x.2.place with
    | some (core, _) => if x.2.ctx = ctx then w.modCore core fun c => { c with resident := ctx :: c.resident } else w
    | none => w) w

/-- The cluster to which the roles that stood on cluster `c` in a role table went in another. -/
def followOf (old new_ : List (BitVec 64)) (c : Nat) : Nat :=
  match (List.range 24).find? fun q => (old.getD q 0).getLsbD 5 && bits (old.getD q 0).toNat 4 0 == c with
  | some q => bits (new_.getD q 0).toNat 4 0
  | none => c

/-- The launches that have records in a queue, queued or reserved (R282, R295). -/
def CtxTasks.launchesIn (t : CtxTasks) (q : List Segment) : List Nat :=
  (queueRecs q).map (·.lid) ++
    ((t.joins.filter fun j => q.any fun s => s.off == j.2.slot.1).map fun j => j.2.task.lid)

/-- The queues and groups of a context follow its launches to the clusters on which they stand now (R280, log entry 69: DEDUCED). Whole
queues go with the launch of their first record; records of another launch then go where that launch went, as far as there
is room. A group for which its Chuck has no room is none any more, and its tasks stay queued (R284). -/
def CtxTasks.follow (t : CtxTasks) (total : Nat) (room : Nat → Nat) (dest : Nat → Nat → Nat) : CtxTasks :=
  let goal := fun (k : Nat) (q : List Segment) => match t.launchesIn q with
    | [] => k / 4
    | l :: _ => dest l (k / 4)
  let moved := t.queues.map fun x => (goal x.1 x.2, x)
  let placed := fun (d : Nat) (q : List Segment) => q.map fun s => { s with recs := s.recs.map fun r => (r.1, { r.2 with cluster := d }) }
  let queues := moved.foldl (fun (m : FMap (List Segment)) x =>
    let k := 4 * x.1 + x.2.1 % 4
    mput m k (mget m k [] ++ placed x.1 x.2.2)) []
  let home := fun (j : Join) => match moved.find? fun x => x.2.2.any fun s => s.off == j.slot.1 with
    | some x => { j with task := { j.task with cluster := x.1 } }
    | none => j
  let rehome := fun (r : TaskRec) => { r with cluster := dest r.lid r.cluster }
  let go := fun (g : Group) => { g with tasks := g.tasks.map rehome }
  let groups := t.groups.foldl (fun (m : FMap (List Group)) x => x.2.foldl (fun m g =>
    mmod m (dest g.lid x.1) [] fun gs => gs ++ [go g]) m) []
  let u : CtxTasks := { t with
    queues := queues, groups := groups.map fun x => (x.1, x.2.take (room x.1)), joins := t.joins.map fun j => (j.1, home j.2)
    doms := t.doms.map fun d => (d.1, { d.2 with tasks := d.2.tasks.map fun y => { y with task := rehome y.task } }) }
  (t.queued.map rehome).foldl (fun u r =>
    if (queueRecs (mget u.queues (queueKey r.cluster r.pri) [])).any (fun x => x.seq == r.seq) ∨
        u.queueRoom total r.cluster r.pri = 0 then u
    else (u.remove r.seq).enqueue total r) u.freeSegs

/-- A waiter of a saved record, with its engine on the core where it stands now (R340, R356). -/
def PageWaiter.onCore (x : PageWaiter) (now : Nat → Nat) : PageWaiter :=
  match x with
  | .engine c e g => .engine (now c) e g
  | .split _ _ _ | .launch _ _ => x

/-- The fault records of a context come back, with what closed ones have told its engines (R339, R340); where a die has no record free,
the waiters of one wait for one (R337, R338). -/
def Work.reopenFaults (w : Work) (c : Context) : Work :=
  let place := fun (s : SavedCore) => (w.launch s.lid).physical s.lcore
  let now := fun (core : Nat) => ((c.saved.find? fun s => s.phys == core).map place).getD core
  let told := c.saved.flatMap fun s => s.denied.map fun d => (⟨place s, d.1, d.2⟩ : EngineDenied)
  let add := fun (m : Mmu) (r : FaultRec) =>
    let r := { r with waiters := r.waiters.map fun x => x.onCore now }
    if (m.faults.filter fun x => x.die == r.die).length < Config.faultRecords then { m with faults := m.faults ++ [r] }
    else { m with short := m.short ++ (r.waiters.map fun x => (r.die, x)).filter fun x => !m.short.contains x }
  w.modMmu fun m => c.faults.foldl add { m with denied := m.denied ++ told }

/-- A context is restored (R356): bit for bit, on other cores perhaps. Waits that its waves are parked on are looked at. -/
def Work.restoreAt (w : Work) (ctx : Nat) (fs : List Fit) : Work :=
  let (_, w) := w.draw
  let c := w.ctx ctx
  let old := w
  let room := fun (cl : Nat) => 8 - old.openGroups cl
  let w := (fs.map (·.lid)).eraseDups.foldl (fun w lid => w.rebind lid fs) w
  let dest := fun (lid cl : Nat) => followOf (old.launch lid).roles (w.launch lid).roles cl
  let w := c.saved.foldl (fun w s => w.returnState ctx s) w
  let w := ((w.reopenFaults c).standUp ctx).enterTick ctx
  let w := w.modCtx ctx fun c => { c with
    state := .running, saved := [], faults := [], since := w.gtick, expired := false
    tasks := (c.tasks.follow c.rec_.segments room dest).delayed ((w.gtick - c.frozenAt).setWidth 48) }
  let w := w.latchWhere fun v => v.ctx == ctx
  (c.saved.map fun s => (w.launch s.lid).physical s.lcore).foldl (fun w core => w.retryResolves core) w

/-- Put an element into a list in an order, behind its equals. -/
def insBy {α : Type} (before : α → α → Bool) (x : α) : List α → List α
  | [] => [x]
  | y :: ys => if before x y then x :: y :: ys else y :: insBy before x ys

/-- The waiting contexts, by class and then in order of waiting (R351). -/
def Work.waiting (w : Work) : List (Nat × Context) :=
  let before := fun (a b : Nat × Context) =>
    decide (b.2.rec_.cls < a.2.rec_.cls) || (a.2.rec_.cls == b.2.rec_.cls && decide (w.age b.2.frozenAt < w.age a.2.frozenAt))
  (w.dev.ctxs.filter fun c => c.2.restorable).foldl (fun l c => insBy before c l) []

/-- The context that is restored next: the first that waits, once it fits. -/
def Work.nextRestore (w : Work) : Option (Nat × List Fit) :=
  match w.waiting with
  | [] => none
  | c :: _ => (w.plan c.1).map fun fs => (c.1, fs)

/-- CONTEXT_RESTORE (R356). -/
def execContextRestore (ctx : BitVec 6) (s : State) : Host.Outcome State Fault Refusal :=
  commit (fun w => match w.nextRestore with
    | some (c, fs) => if c = ctx.toNat then (w.restoreAt c fs).searchAgain.searched else w
    | none => w) s

/-! ### Pre-emption (R351) -/

/-- Whether a context has used up its quantum in its residency. -/
def Work.quantumPassed (w : Work) (ctx : Nat) : Bool :=
  let c := w.ctx ctx
  c.state == .running && !(w.coresOf ctx).isEmpty && decide (c.rec_.quant ≤ w.age c.since)

/-- QUANTUM_EXPIRE (R351). -/
def execQuantumExpire (ctx : BitVec 6) (s : State) : Host.Outcome State Fault Refusal :=
  commit (fun w =>
    if w.quantumPassed ctx.toNat then w.modCtx ctx.toNat fun c => { c with expired := true } else w) s

/-- The cores that would serve a context that lacks some: those that its blocks and groups want, or any for one that waits to
be restored. -/
def Work.lacks (w : Work) (ctx : Nat) : List Nat :=
  let c := w.ctx ctx
  if c.state = .running then w.wants ctx
  else if c.restorable ∧ (w.plan ctx).isNone then List.range Config.cores
  else []

/-- Whether a context may pre-empt another (R351). -/
def mayPreempt (x y : Context) : Bool :=
  y.state == .running && (decide (y.rec_.cls < x.rec_.cls) || (y.rec_.cls == x.rec_.cls && y.expired))

/-- The victim for one context's need: the lowest class, the longest residency, the lowest id (R351). -/
def Work.victimFor (w : Work) (ctx : Nat) : Option Nat :=
  let cores := w.lacks ctx
  let ok := fun (y : Nat × Context) =>
    y.1 != ctx && mayPreempt (w.ctx ctx) y.2 && (w.coresOf y.1).any fun c => cores.contains c && (w.core c).stopped.isNone
  let before := fun (a b : Nat × Context) =>
    decide (a.2.rec_.cls < b.2.rec_.cls) || (a.2.rec_.cls == b.2.rec_.cls && decide (w.age b.2.since < w.age a.2.since))
  ((w.dev.ctxs.filter ok).foldl (fun (m : Option (Nat × Context)) y => match m with
    | none => some y
    | some x => if before y x then some y else some x) none).map (·.1)

/-- The context that is pre-empted next: needs are met from class 7 down. -/
def Work.nextVictim (w : Work) : Option Nat :=
  firstSome (List.range 8) fun k =>
    firstSome (w.dev.ctxs.filter fun c => c.2.rec_.cls.toNat == 7 - k) fun c => w.victimFor c.1

/-- PREEMPT (R351, R353). -/
def execPreempt (ctx : BitVec 6) (s : State) : Host.Outcome State Fault Refusal :=
  commit (fun w => if w.nextVictim = some ctx.toNat then w.freeze ctx.toNat .frozen else w) s

/-! ### Eviction of one wave (R357) -/

/-- Logical cores on which a block or a task wave of a launch waits for a slot or for lane-private bytes. -/
def Work.shortOf (w : Work) (lid : Nat) : List Nat :=
  let l := w.launch lid
  let block := (w.distributing l.ctx).contains lid && (w.findPlace lid).isNone
  let group := fun (q : Nat) => (mget (w.ctx l.ctx).tasks.groups q []).any fun g =>
    g.lid == lid && g.ready && !g.tasks.isEmpty && (w.groupCore lid q).isNone
  let beta := fun (core : Nat) => (w.blocksOn core).foldl (fun a b => a + (w.launch b.2.lid).beta) 0
  l.lcores.filter fun c =>
    let core := l.physical c
    (w.core core).owner == some lid && (block || group (clusterOf core)) &&
      decide (beta core + l.beta + l.lend ≤ Config.scratchBytes)

/-- The global spill bytes of a lane, read for an eviction; none when they cannot be read. -/
def Work.spillBytes (w : Work) (wid l : Nat) : Option (List Byte) :=
  let v := w.wave wid
  let n := (v.lane l).gUsed
  if n = 0 then some []
  else match w.headRead v.ctx (spillArea (w.launch v.lid) (w.block v.bid).lcore v.slot l) n with
    | .ok bs => some bs
    | .error _ => none

/-- Whether a wave may be evicted (R357). -/
def Work.evictable (w : Work) (wid : Nat) : Bool :=
  let v := w.wave wid
  let resident := fun (x : Waiter) => (w.wave x.wid).place.isSome
  let waited := fun (l : Nat) => (v.lane l).held.any fun h => ((w.ctx v.ctx).mon h.2).queue.any resident
  v.place.isSome && !v.halted && v.entering.isNone && !v.splits.isEmpty &&
    (v.splits.all fun s => s.state == .parked || s.hold == .merge) && !(v.living.any waited) &&
    v.living.all fun l => (w.spillBytes wid l).isSome

/-- The order of eviction (R357): parked for colours alone, then parked earliest, then the lowest slot. -/
def evictFirst (a b : Wave) : Bool :=
  let colours : Wave → Bool := fun v => v.splits.all fun s => s.state == .parked && s.reason == .colour
  let last : Wave → Nat := fun v => v.splits.foldl (fun m s => max m s.parkedAt) 0
  if colours a ≠ colours b then colours a
  else if last a ≠ last b then decide (last a < last b) else decide (a.slot < b.slot)

/-- The wave that is evicted next. -/
def Work.nextEvict (w : Work) : Option Nat :=
  firstSome w.dev.launches fun x =>
    if (w.ctx x.2.ctx).state ≠ .running then none
    else firstSome (w.shortOf x.1) fun c =>
      let vs := (w.wavesOn (x.2.physical c)).filter fun v => w.evictable v.1
      (vs.foldl (fun (m : Option (Nat × Wave)) v => match m with
        | none => some v
        | some y => if evictFirst v.2 y.2 then some v else some y) none).map (·.1)

/-- A wave leaves its slot, with its entries of the global spill area (R357). -/
def Work.evict (w : Work) (wid : Nat) : Work :=
  let v := w.wave wid
  let spill := v.living.foldl (fun (m : FMap (List Byte)) l => match w.spillBytes wid l with
    | some bs => if bs.isEmpty then m else mput m l bs
    | none => m) []
  w.setWave wid { v with place := none, evicted := true, spillSave := spill }

/-- WAVE_EVICT (R357). -/
def execWaveEvict (wid : Nat) (s : State) : Host.Outcome State Fault Refusal :=
  commit (fun w => if w.nextEvict = some wid then (w.evict wid).searchAgain else w) s

/-- The slot to which an evicted wave returns, once it has a READY split (R357). -/
def Work.returnSlot (w : Work) (wid : Nat) : Option (Nat × Nat) :=
  let v := w.wave wid
  match (w.block v.bid).core with
  | none => none
  | some core =>
    let l := w.launch v.lid
    let lane := 32 * ((w.wavesOn core).foldl (fun a x => a + (w.launch x.2.lid).l) 0)
    let ready := v.splits.any fun s => s.state == .ready && s.hold == .none
    if !v.evicted ∨ !ready ∨ Config.laneBytes < lane + 32 * l.l then none
    else ((takeSlots (w.slotsFree core l.s) 1).bind fun ss => ss.head?).map fun s => (core, s)

/-- Bytes that the Headstock writes through a context's mappings, as far as they let it. -/
def Work.headWrite (w : Work) (ctx va : Nat) (bs : List Byte) : Work :=
  (linePieces va bs.length).foldl (fun w x => match w.headAim ctx x.1 x.2 true with
    | .ok p => (w.dirty p).writeHome p.key p.kind p.pa (slice bs (x.1 - va) x.2) none
    | _ => w) w

/-- An evicted wave stands on its core again, with its spill entries in the area of its new slot (R21, R357). -/
def Work.unevict (w : Work) (wid core slot : Nat) : Work :=
  let v := w.wave wid
  let w := v.spillSave.foldl (fun w x =>
    w.headWrite v.ctx (spillArea (w.launch v.lid) (w.block v.bid).lcore slot x.1) x.2) w
  let w := w.wakeCore core
  w.setWave wid { w.wave wid with place := some (core, slot), slot := slot, evicted := false, spillSave := [] }

/-- WAVE_RETURN (R357). -/
def execWaveReturn (wid : Nat) (s : State) : Host.Outcome State Fault Refusal :=
  commit (fun w => match w.returnSlot wid with
    | some (core, slot) => w.unevict wid core slot
    | none => w) s

end Sys2Proof.Machine
end

