-- ==== Sys2Proof/Machine/Evacuation.lean ====
section
/-! DEFINITION. Doorbells, the evacuation for an override context, and responses to outstanding accesses of host and peer memory
(19 R319, R320, 21 R353, R358–R362). -/

namespace Sys2Proof.Machine

/-! ### Doorbells and the start of an evacuation -/

/-- What an evacuation freezes (R358): contexts of class 0–6, each of which owns HBM pages; those that wait or return among them. -/
def Context.evacuates (c : Context) : Bool :=
  decide (c.rec_.cls.toNat < 7) && c.state != .evacuated && c.state != .evacuating

/-- A context is frozen for evacuation; one that is frozen already keeps its image (R358, R362). -/
def Work.freezeForEvac (w : Work) (ctx : Nat) : Work :=
  let w := if (w.ctx ctx).state = .running then w.freeze ctx .evacuating else w
  w.modCtx ctx fun c => { c with state := .evacuating, evb := 0 }

/-- Frames of a context that hold nothing any longer, or whose part of its tables, save area or segment pool has been sent, and that
lie in what the override context's reservation needs become that context's (R358, R359, log entry 80: DEDUCED). -/
def Work.lend (w : Work) (ctx : Nat) : Work :=
  match w.dev.hub.evac with
  | none => w
  | some top =>
    let pool := (w.ctx top).mem.pool
    let sys := BitVec.ofNat 8 (0xC0 + ctx)
    let own := BitVec.ofNat 8 (0x80 + ctx)
    let spared := fun (xs : List FrameRun) (u : Nat × Nat) => xs.flatMap fun x => x.without (u.1 / 65536) (u.2 / 65536)
    let inPool := fun (b : Byte) => (w.dev.hub.frames.filter fun r => r.byte == b).flatMap fun r => r.within pool.1 pool.2
    let sent := (inPool sys).flatMap fun r => (w.ctx ctx).mem.sysSent.flatMap fun s => r.within s.first s.count
    let pieces := w.usedRanges.foldl spared (inPool own) ++ sent
    let cut := fun (r : FrameRun) => (pieces.filter fun p => p.byte == r.byte).foldl (fun (xs : List FrameRun) p =>
      xs.flatMap fun x => x.without p.first p.count) [r]
    let w := w.modHub fun h => { h with
      frames := h.frames.flatMap cut ++ pieces.map fun p => { p with byte := BitVec.ofNat 8 (0x80 + top) }, lent := h.lent ++ pieces }
    sent.foldl (fun w p => (w.dropTags (p.first * 65536) (p.count * 65536)).dropCopies (p.first * 65536) (p.count * 65536)) w

/-- Contexts that are to leave are frozen, and what they have free may be lent (R358, R362). -/
def Work.sendAway (w : Work) (leaves : Context → Bool) : Work :=
  let hit := (w.dev.ctxs.filter fun c => leaves c.2).map (·.1)
  let w := hit.foldl (fun w c => w.freezeForEvac c) w
  hit.foldl (fun w c => w.lend c) w

/-- An evacuation starts for a class-7 context (R358). -/
def Work.startEvacuation (w : Work) (ctx : Nat) : Work :=
  (w.modHub fun h => { h with evac := some ctx, evacOn := true }).sendAway Context.evacuates

/-- Whether a context is returning pages (R362): before its restore, or after it on demand. -/
def Context.comesBack (c : Context) : Bool :=
  decide (c.rec_.cls.toNat < 7) &&
    (c.state == .returning || (c.state == .running && (c.mem.sysAway || c.mem.pages.any fun p => p.out)))

/-- Whether an evacuation has pages still to send. -/
def Work.evacRuns (w : Work) : Bool := w.dev.hub.evacOn && w.dev.ctxs.any fun c => c.2.state == .evacuating

/-- A doorbell write of a context (R320, R321): the first of a class-7 context starts an evacuation (R358), and a later one stops the
return of contexts (R362); a unit that has stopped for want of a port stays so (R359). -/
def Work.doorbell (w : Work) (ctx : Nat) (t : BitVec 32) : Work :=
  match mget? w.dev.ctxs ctx with
  | none => w
  | some c =>
    let w := w.modCtx ctx fun c => { c with ringStuck := false }
    if 2 ^ c.rec_.rlog < (t - c.head).toNat then w.report 3 0 t.toNat 0 (Subject.ofCtx ctx) true
    else
      let w := w.modCtx ctx fun c => { c with tail := t }
      if c.rec_.cls ≠ 7 ∨ t = c.head then w
      else if w.dev.hub.evac.isNone then w.startEvacuation ctx
      else if w.evacRuns then w
      else w.sendAway Context.comesBack

/-! ### Pages that leave (R359) -/

/-- A page that a context's tables map, with its leaf. -/
structure Page where
  ctx : Nat
  va : Nat
  level : Nat
  at_ : Nat
  leaf : BitVec 64
  deriving DecidableEq, Repr

/-- Physical address of a page. -/
def Page.pa (p : Page) : Nat := leafPa p.leaf.toNat

/-- The pages of a context: those that system software mapped, and those of live allocations. -/
def Work.pagesOf (w : Work) (ctx : Nat) : List Page :=
  let m := (w.ctx ctx).mem
  let vas := m.maps ++ m.allocs.flatMap fun a => (List.range a.pages.length).map fun i => (a.va + i * pageSize a.level, a.level)
  vas.filterMap fun v => (w.entryOf ctx v.1 v.2).map fun at_ =>
    ⟨ctx, v.1, v.2, at_, BitVec.ofNat 64 (w.num (PAddr.hbm at_).key 8)⟩

/-- Whether a page is skipped (R359): clean with a current host copy, or not written since ALLOC zeroed it. -/
def Work.skipped (w : Work) (p : Page) : Bool :=
  !p.leaf.getLsbD 5 &&
    (((w.ctx p.ctx).mem.pages.any fun q => q.leaf == p.at_ && !q.out) ||
     (p.leaf.getLsbD 8 && (w.cellsIn (PAddr.hbm p.pa).key (pageSize p.level)).isEmpty))

/-- Whether a page is still to be sent. -/
def Work.toSend (w : Work) (p : Page) : Bool := p.leaf.getLsbD 0 && bits p.leaf.toNat 7 6 == 0 && !w.skipped p

/-- The order of contexts in an evacuation (R359): ascending class, then ascending id. -/
def Work.evacOrder (w : Work) : List Nat :=
  let cs := w.dev.ctxs.filter fun c => c.2.state == .evacuating
  let before := fun (a b : Nat × Context) => decide (a.2.rec_.cls < b.2.rec_.cls)
  (cs.foldl (fun l c => insBy before c l) []).map (·.1)

/-- The page with the lowest physical address. -/
def lowestPage (ps : List Page) : Option Page :=
  ps.foldl (fun (m : Option Page) p => match m with
    | none => some p
    | some q => if p.pa < q.pa then some p else some q) none

/-- Whether a page stands in frames that the override context's reservation needs (R359). -/
def Work.needed (w : Work) (p : Page) : Bool :=
  match w.dev.hub.evac with
  | none => false
  | some top => let pool := (w.ctx top).mem.pool; !apart p.pa (pageSize p.level) (pool.1 * 65536) (pool.2 * 65536)

/-- The pages of a context that are still to be sent. -/
def Work.pagesLeft (w : Work) (ctx : Nat) : List Page := (w.pagesOf ctx).filter w.toSend

/-- The frames of a context's save area and segment pool, and of its page tables, that are still to be sent. -/
def Work.sysLeft (w : Work) (ctx : Nat) (tables : Bool) : List FrameRun :=
  let m := (w.ctx ctx).mem
  let all : List FrameRun := if tables then [⟨m.saveArea.1, m.tabFrames, 0⟩]
    else [⟨m.saveArea.1 + m.tabFrames, m.saveArea.2 - m.tabFrames, 0⟩, ⟨m.seg.1, m.seg.2, 0⟩]
  (m.sysSent.foldl (fun xs r => xs.flatMap fun x => x.without r.first r.count) all).filter fun x => x.count ≠ 0

/-- The lowest frame of some runs. -/
def lowestFrame (rs : List FrameRun) : Option Nat :=
  rs.foldl (fun (m : Option Nat) r => some (min (m.getD r.first) r.first)) none

/-- What the evacuation unit sends in one step: a page, or a frame of a context's tables, save area or segment pool. -/
inductive Sent where
  | page (p : Page)
  | frame (ctx f : Nat)
  deriving DecidableEq, Repr

/-- What of a context is next by ascending physical address: its pages and the frames of its save area and segment pool; its page
tables come behind all of them, since each page's leaf is written as it goes (R359, log entry 55: DESIGN CHOICE). -/
def Work.nextOf (w : Work) (ctx : Nat) (only : Page → Bool) (part : List FrameRun → List FrameRun) : Option Sent :=
  match lowestPage ((w.pagesLeft ctx).filter only), lowestFrame (part (w.sysLeft ctx false)) with
  | some p, some f => if p.pa < f * 65536 then some (.page p) else some (.frame ctx f)
  | some p, none => some (.page p)
  | none, some f => some (.frame ctx f)
  | none, none => if (w.pagesLeft ctx).isEmpty ∧ (w.sysLeft ctx false).isEmpty then
      (lowestFrame (part (w.sysLeft ctx true))).map fun f => .frame ctx f
    else none

/-- What is sent next (R359): what the override context needs first, and of either kind in the order of the contexts and then by
ascending physical address. -/
def Work.nextSent (w : Work) : Option Sent :=
  let pool := match w.dev.hub.evac with
    | none => (0, 0)
    | some top => (w.ctx top).mem.pool
  match firstSome w.evacOrder fun c => w.nextOf c w.needed fun rs => rs.flatMap fun r => r.within pool.1 pool.2 with
  | some x => some x
  | none => firstSome w.evacOrder fun c => w.nextOf c (fun _ => true) id

/-- Whether everything of a context has been sent. -/
def Work.allSent (w : Work) (ctx : Nat) : Bool :=
  (w.pagesLeft ctx).isEmpty && (w.sysLeft ctx false).isEmpty && (w.sysLeft ctx true).isEmpty

/-- A page's frames are free, unless another context maps them: its tags leave with it, and the override context may take them. -/
def Work.freePage (w : Work) (ctx pa n : Nat) : Work :=
  if w.usedRanges.any fun u => !apart pa n u.1 u.2 then w else (w.dropTags pa n).lend ctx

/-- The place of a page in the evacuation area, beyond what page tables, save area and segment pool take: the one it had, or the
lowest that is free (log entry 55: DESIGN CHOICE). -/
def Context.areaFor (c : Context) (base leaf level : Nat) : Nat :=
  match c.mem.pages.find? fun p => p.leaf == leaf with
  | some p => p.off
  | none =>
    let free := fun (o : Nat) => c.mem.pages.all fun p => apart o (sentSize level) p.off (sentSize p.level)
    let ends := c.mem.pages.map fun p => p.off + sentSize p.level
    ((base :: ends).find? free).getD (ends.foldl max base)

/-- One page goes to the evacuation area (R359, R331, R334); what the part keeps by the place of its bytes goes along. -/
def Work.sendPage (w : Work) (p : Page) : Work :=
  let n := pageSize p.level
  let w := w.dev.ctxs.foldl (fun w c => w.landAll c.1) w
  let c := w.ctx p.ctx
  let off := c.areaFor (w.sysBytes p.ctx) p.at_ p.level
  let w := w.sendBytes p.ctx p.pa n (c.rec_.eva + off)
  let w := w.putTableEntry p.at_ ((p.leaf &&& ~~~0x21) ||| 0x200).toNat
  let sent : SentPage := ⟨p.at_, p.pa, p.level, off, true, p.pa⟩
  let w := (w.invalidate p.ctx p.va n).modCtx p.ctx fun c => { c with
    evb := c.evb + BitVec.ofNat 64 (sentSize p.level)
    mem := { c.mem with
      pages := sent :: c.mem.pages.filter fun q => q.leaf ≠ p.at_, allocs := c.mem.allocs.map fun a => a.setPage p.va none } }
  (w.freePage p.ctx p.pa n).follow p.ctx p.pa n (awayAddr p.ctx p.va)

/-- A frame joins those that have been sent. -/
def CtxMem.sent (m : CtxMem) (f : Nat) : CtxMem :=
  { m with
    sysOut := m.sysOut || m.holdsTable f
    sysSent := match m.sysSent with
      | r :: rs => if r.first + r.count = f then { r with count := r.count + 1 } :: rs else ⟨f, 1, 0⟩ :: r :: rs
      | [] => [⟨f, 1, 0⟩] }

/-- One frame of a context's tables, save area or segment pool goes, and the override context may take it (R359). Of the save image
the spec gives no layout, so in a repeated evacuation it is free which of its frames count as sent again (log entry 55: DESIGN
CHOICE). -/
def Work.sendSystem (w : Work) (ctx f : Nat) : Work :=
  let (n, w) := w.draw
  let c := w.ctx ctx
  let again := !c.mem.holdsTable f && c.mem.pages.any fun p => !p.out
  let size := if again ∧ Config.choice n % 2 = 0 then 0 else sentSize 4
  ((w.sendFrame ctx f).modCtx ctx fun c => { c with
    evb := c.evb + BitVec.ofNat 64 size, mem := c.mem.sent f }).lend ctx

/-- A context of which everything has been sent (R359). -/
def Work.evacuated (w : Work) (ctx : Nat) : Work :=
  w.modCtx ctx fun c => { c with state := .evacuated, mem := { c.mem with sysOut := true } }

/-- The unit stops for want of a port (R359). -/
def Work.stopEvacuation (w : Work) : Work :=
  let sent := w.dev.ctxs.foldl (fun n c =>
    if c.2.state = .evacuating ∨ c.2.state = .evacuated then n + c.2.evb.toNat else n) 0
  (w.modHub fun h => { h with evacOn := false }).report 7 0 0 sent Subject.none false

/-- EVACUATION_PAGE_SEND (R359): a context whose pages have all been sent is EVACUATED; else the next page goes. -/
def execEvacuationPageSend (s : State) : Host.Outcome State Fault Refusal :=
  commit (fun w =>
    if !w.evacRuns then w
    else if !w.anyPort then w.stopEvacuation
    else match w.evacOrder.find? w.allSent with
      | some c => w.evacuated c
      | none => match w.nextSent with
        | some (.page p) => w.sendPage p
        | some (.frame c f) => w.sendSystem c f
        | none => w) s

/-! ### Outstanding accesses (R353) -/

/-- The trap that a lane's failed access raises at its bundle (R345, log entry 54: DEDUCED). -/
def lateTrap (o : Out) (cause : BitVec 8) : TrapVals :=
  ⟨cause, o.pc, 1#32 <<< o.lane, BitVec.ofNat 64 o.addr,
    BitVec.ofNat 32 (memInfo o.lane .g (if o.undo.isSome then .w else .r))⟩

/-- What a failed access did to host or peer memory goes back, where nothing has been written since (log entry 15: DESIGN
CHOICE). -/
def Work.undo (w : Work) (u : Option Undo) : Work :=
  match u with
  | some x => if w.bytes x.key x.new.length = x.new then w.putBytes x.key x.old else w
  | none => w

/-- A lane leaves its split and stands TRAPPED alone (R141, log entry 54: DEDUCED). -/
def Wave.trapLane (v : Wave) (l : Nat) (t : TrapVals) : Wave :=
  match v.splitOf l with
  | none => v
  | some s =>
    let v := v.dropLanes (1#32 <<< l)
    let own : Split := { s with
      state := .trapped, reason := .none, hold := .none, mask := 1#32 <<< l, trap := some t, wait := none, pages := []
      denied := [], busy := none, kept := none }
    v.addGroup (if s.kept.isSome then own.rehalt else own)

/-- An outstanding access of a lane fails: memory and its registers keep their values, and the lane traps (R207, R345, R372, log
entry 54: DEDUCED). -/
def Work.failOut (w : Work) (wid idx : Nat) (o : Out) (cause : BitVec 8) : Work :=
  let fail := fun (v : Wave) =>
    let v := { v with outs := mdel v.outs idx }
    let v := o.dst.foldl (fun v x => v.setStat x none) v
    if (v.lane o.lane).alive then v.trapLane o.lane (lateTrap o cause) else v
  let w := w.modTasks (w.wave wid).ctx fun t => { t with
    futWait := t.futWait.filter fun x => !(x.2.1 == wid && x.2.2 == some idx) }
  let w := ((w.undo o.undo).modWave wid fail).settle wid
  if (w.wave wid).place.isSome then w.tryTrap wid else w

/-- The lanes of a copy whose bytes a response brings through a target, or fails to bring (R237). -/
def CpaOp.answered (o : CpaOp) (ok : Bool) (of_ : Nat → Bool) : CpaOp :=
  let one := fun (x : CpaLane) => match x.via with
    | some t => if of_ t then { x with via := none, bad := if ok then x.bad else some x.src } else x
    | none => x
  { o with lanes := o.lanes.map one }

/-- Copies of a wave get answers; what can land then lands (R237). -/
def Work.answerCpa (w : Work) (wid idx : Nat) (ok : Bool) (of_ : Nat → Bool) : Work :=
  match (w.wave wid).cpas[idx]? with
  | none => w
  | some o =>
    let w := w.modWave wid fun v => { v with cpas := v.cpas.set idx (o.answered ok of_) }
    let cs := (w.wave wid).cpas
    w.landAt wid idx ((o.answered ok of_).landable (cs.take idx) fun x => x.via.isNone).length

/-- A peer's future that a response brings, in its two words: it stands resolved or faulted, and its waiters are served (R288, R290,
R294, log entry 54: DESIGN CHOICE). -/
def Work.peerResolved (w : Work) (key : Nat) (bs : List Byte) : Work :=
  let faulted := bits (leNat (bs.take 8)) 63 62 == 3
  let value := BitVec.ofNat 64 (leNat (slice bs 8 8))
  (w.putBytes key (futBytes (if faulted then 3 else 2) 0 0 value.toNat)).serve key faulted value

/-- A response to an outstanding access: a FUTGET's value comes with it (R294), another access's bytes were read when it performed
(log entry 15: DESIGN CHOICE); a refusal is PROTECT (R345). -/
def Work.respond (w : Work) (wid idx : Nat) (o : Out) (resp : ExtResp) : Work :=
  match resp with
  | .data bs => if o.kind = .futget then w.peerResolved o.fut bs else w.complete wid idx
  | .ack => if o.kind = .futget then w else w.complete wid idx
  | .ur | .ca | .linkError => w.failOut wid idx o Cause.protect

/-- Whether a response says that the access performed. -/
def goodResp : ExtResp → Bool
  | .data _ | .ack => true
  | .ur | .ca | .linkError => false

/-- OUTSTANDING_RESPONSE (R353, R360): a response to an access that a save carried, or that is still to come; a link that
retrains brings none (R372), nor does a link or port of a frozen part (R390). -/
def execOutstandingResponse (wid idx : Nat) (resp : ExtResp) (s : State) : Host.Outcome State Fault Refusal :=
  commit (fun w => if w.dev.tail.frozen then w else match mget? (w.wave wid).outs idx with
    | some o => if !o.ext ∨ w.viaHeld o.via then w else w.respond wid idx o resp
    | none => w.answerCpa wid idx (goodResp resp) fun t => !w.viaHeld (some t)) s

/-- Every access that is outstanding at an outbound target fails: the link or port does not work (R345, R372). -/
def Work.failVia (w : Work) (t : Nat) : Work :=
  let outs := w.dev.waves.flatMap fun v => (v.2.outs.filter fun o => o.2.via == some t).map fun o => (v.1, o)
  let w := outs.foldl (fun w x => w.failOut x.1 x.2.1 x.2.2 Cause.memfault) w
  let cpas := w.dev.waves.flatMap fun v => (List.range v.2.cpas.length).map fun i => (v.1, i)
  let w := w.modDev fun d => { d with waves := d.waves.map fun v =>
    (v.1, { v.2 with cpas := v.2.cpas.map fun o => o.answered false fun x => x == t }) }
  cpas.reverse.foldl (fun w x => w.answerCpa x.1 x.2 false fun y => y == t) w

end Sys2Proof.Machine
end

