-- ==== Sys2Proof/Machine/Csr.lean ====
section
/-! DEFINITION. Control and status registers, the PC-match comparators, and EVT (01 R32–R36, 04 R110, 24 R388, R394). -/

namespace Sys2Proof.Machine

/-! ### Reading (R32–R36) -/

/-- SPLITS (R34), as the split at an entry reads it. -/
def Wave.splitsWord (v : Wave) (entry : Nat) : Nat :=
  let mask := fun (p : Split → Bool) => (v.entries.filter fun x => p x.2).foldl (fun n x => n + 2 ^ x.1) 0
  entry * 2 ^ 16 + v.overflow.length * 2 ^ 8 + mask (fun s => s.state != .ready) * 2 ^ 4 + mask fun _ => true

/-- The trap CSRs that the wave's level reaches (R32): the set of level 1 at level 0. -/
def Wave.trapSet (v : Wave) : TrapVals := mget v.traps (max 1 v.tlevel.toNat) TrapVals.blank
def Wave.setTrapSet (v : Wave) (f : TrapVals → TrapVals) : Wave :=
  { v with traps := mmod v.traps (max 1 v.tlevel.toNat) TrapVals.blank f }

/-- CFRONT (R32, R299). -/
def Work.cfront (w : Work) (ctx : Nat) (x : Lane) : Nat :=
  match x.ordered with
  | none => 2 ^ 64 - 1
  | some t => match (w.domain ctx t.dom).bind Domain.frontier with
    | some f => f.task.ts.toNat
    | none => 2 ^ 64 - 1

/-- MONHELD (R32): the valid mask of the held slots and their count. -/
def Lane.monHeld (x : Lane) : Nat := x.held.foldl (fun n h => n + 2 ^ h.1) 0 + x.held.length * 2 ^ 8

/-- A CSR that lies with a lane or its task. -/
def Work.csrLane (w : Work) (wid l num : Nat) : Nat :=
  let v := w.wave wid
  let x := v.lane l
  match num with
  | 0x000 => l
  | 0x010 => stackPos (w.launch v.lid).s x.wdepth.toNat 0
  | 0x011 => x.wdepth.toNat
  | 0x020 => x.fpsr.toNat
  | 0x021 => x.fpen.toNat
  | 0x060 => w.cfront v.ctx x
  | 0x061 => (x.ordered.map fun t => t.ts.toNat).getD 0
  | 0x062 => (x.task.map fun t => t.seq.toNat % 2 ^ 32).getD 0
  | 0x090 => x.monHeld
  | _ => 0

/-- A CSR that lies with a wave. -/
def Work.csrWave (w : Work) (wid entry num : Nat) : Nat :=
  let v := w.wave wid
  let t := v.trapSet
  match num with
  | 0x001 => v.slot + v.widx * 2 ^ 8
  | 0x002 => (w.block v.bid).idx.toNat
  | 0x012 => v.splitsWord entry
  | 0x022 => v.frm.toNat
  | 0x030 => v.tvec.toNat
  | 0x031 => t.cause.toNat
  | 0x032 => t.pc.toNat
  | 0x033 => t.mask.toNat
  | 0x034 => t.addr.toNat
  | 0x035 => t.info.toNat
  | 0x036 => v.tlevel.toNat
  | 0x070 => b2n v.stepctl
  | _ => 0

/-- A CSR that lies with a core, a context or the part. -/
def Work.csrPart (w : Work) (wid num : Nat) : Nat :=
  let v := w.wave wid
  let core := v.coreOf
  let c := w.ctx v.ctx
  let lcore := (w.block v.bid).lcore
  let e := c.energyOn core
  match num with
  | 0x003 => core
  | 0x004 => lcore % 8 + lcore / 8 * 2 ^ 8
  | 0x040 => w.gtick.toNat
  | 0x041 => (((w.dev.sys.cyc : Int) - (w.core core).missed) / 20).toNat % 2 ^ 64
  | 0x050 => e.e.toNat / 2 ^ 16
  | 0x051 => e.e.toNat % 2 ^ 16
  | 0x052 => b2n e.sat
  | 0x053 => (w.core core).statp.toNat
  | 0x063 => c.tasks.age.toNat
  | 0x071 => c.pcmbase.toNat
  | 0x072 => c.pcmen.toNat
  | 0x080 => 0x030506
  | 0x081 => 0x0401
  | n => if 0x100 ≤ n ∧ n ≤ 0x109 then (c.rec_.ewt.getD (n - 0x100) 0).toNat else 0

/-- Whose copy a number names (R32): 0 a lane's, 1 a wave's, 2 a wider one. -/
def csrScope (num : Nat) : Nat :=
  if [0x000, 0x010, 0x011, 0x020, 0x021, 0x060, 0x061, 0x062, 0x090].contains num then 0
  else if [0x001, 0x002, 0x012, 0x022, 0x030, 0x031, 0x032, 0x033, 0x034, 0x035, 0x036, 0x070].contains num then 1
  else 2

/-- The value of a CSR as the rest of the state determines it (R32). -/
def Work.csrOwn (w : Work) (wid entry l num : Nat) : Nat :=
  match csrScope num with
  | 0 => w.csrLane wid l num
  | 1 => w.csrWave wid entry num
  | _ => w.csrPart wid num

/-- The fields of a CSR that holds no state of its own (R32). -/
def csrFixed (num : Nat) : Option Nat :=
  match num with
  | 0x000 => some 0x1F
  | 0x001 => some 0xF3F
  | 0x003 => some 0xFF
  | 0x004 => some 0x1F07
  | 0x010 => some 0x3FF
  | 0x012 => some 0x3FFFF
  | 0x060 => some 0xFFFFFFFFFFFFFFFF
  | 0x080 => some 0xFFFFFF
  | 0x081 => some 0xFFFF
  | 0x090 => some 0xFFF
  | _ => none

/-- Which copy of such a CSR a wave and a lane reach, in the record of what the debugger wrote. -/
def Work.forcedKey (w : Work) (wid l num : Nat) : Nat :=
  let copy := match csrScope num with
    | 0 => 32 * wid + l
    | 1 => wid
    | _ => if num = 0x003 ∨ num = 0x004 then (w.wave wid).coreOf else 0
  num + 4096 * copy

/-- The value of a CSR for a lane of a split (R32). What the debugger wrote to one that other state determines (R386) stands
until that state gives the CSR another value (log entry 62: DESIGN CHOICE). -/
def Work.csr (w : Work) (wid entry l num : Nat) : Nat :=
  match mget? w.dev.sys.forced (w.forcedKey wid l num) with
  | some x => if x.2 = w.csrOwn wid 0 l num then x.1 else w.csrOwn wid entry l num
  | none => w.csrOwn wid entry l num

/-- The slow CSRs (R33). -/
def csrSlow (num : Nat) : Bool := [0x040, 0x050, 0x051, 0x052, 0x053, 0x060, 0x063].contains num

/-- Registers of a CSR's value. -/
def csrRegs (num : BitVec 12) : Nat := if csrWide num = some true then 2 else 1

/-- A CSR's value as words. -/
def csrWords (n x : Nat) : List Word := (List.range n).map fun i => BitVec.ofNat 32 (x / 2 ^ (32 * i))

/-- CSRR (R110): a slow CSR comes later, as it stood at issue (R33). -/
def execCsrr (g : Guard) (d : Reg) (num : BitVec 12) (s : State) : Host.Outcome State Fault Refusal :=
  let n := csrRegs num
  bundle g ⟨[], some (d, n)⟩ false (fun e w =>
    let v := w.wave e.wid
    let get := fun (l : Nat) => csrWords n (w.csr e.wid e.entry l num.toNat)
    if csrSlow num.toNat then ⟨w.produce e d n .csr fun l => (get l, 0), .next, clsCtrl, 1⟩
    else ⟨w.setWave e.wid (v.putAll e d get), .next, clsCtrl, 1⟩) s

/-! ### PC-match comparators (R387, R388) -/

/-- The enabled entries of a table: matched PC and handler. -/
def pcmEntries (en : BitVec 16) (bs : List Byte) : FMap (Pc × Pc) :=
  ((List.range 16).filterMap fun n =>
    let a := (le64 bs (16 * n)).toNat
    let b := (le64 bs (16 * n + 8)).toNat
    if en.getLsbD n ∧ a % 8 = 0 ∧ b % 8 = 0 ∧ a < 2 ^ 56 ∧ b < 2 ^ 56 then
      some (n, (BitVec.ofNat 56 a, BitVec.ofNat 56 b))
    else none)

/-- The comparators of a context are loaded; a table that cannot be read disables every entry (R388). -/
def Work.loadPcm (w : Work) (ctx : Nat) : Work :=
  let c := w.ctx ctx
  match w.headRead ctx c.pcmbase.toNat 256 with
  | .ok bs => w.modCtx ctx fun c => { c with pcm := pcmEntries c.pcmen bs }
  | .error k => (w.modCtx ctx fun c => { c with pcm := [] }).report 9 k.toNat 0 c.pcmbase.toNat (Subject.ofCtx ctx) true

/-! ### Writing (R32, R110) -/

/-- A write of a lane's RW CSR. -/
def Lane.csrPut (x : Lane) (num y : Nat) : Lane :=
  match num with
  | 0x020 => { x with fpsr := BitVec.ofNat 7 y }
  | 0x021 => { x with fpen := BitVec.ofNat 7 y }
  | _ => x

/-- A write of a wave's RW CSR; what a field does not hold is dropped (R11). -/
def Wave.csrPut (v : Wave) (num y : Nat) : Wave :=
  match num with
  | 0x022 => { v with frm := BitVec.ofNat 2 y }
  | 0x030 => { v with tvec := BitVec.ofNat 56 (y / 8 * 8) }
  | 0x032 => v.setTrapSet fun t => { t with pc := BitVec.ofNat 56 y }
  | 0x070 => { v with stepctl := bit y 0 }
  | _ => v

/-- A write of a context's RW CSR; a write of the PC-match CSRs loads the comparators (R388). -/
def Work.csrPutCtx (w : Work) (ctx num y : Nat) : Work :=
  match num with
  | 0x063 => w.modTasks ctx fun t => { t with age := BitVec.ofNat 32 (max 1024 (y % 2 ^ 32)) }
  | 0x071 => (w.modCtx ctx fun c => { c with pcmbase := BitVec.ofNat 56 (y / 64 * 64) }).loadPcm ctx
  | 0x072 => (w.modCtx ctx fun c => { c with pcmen := BitVec.ofNat 16 y }).loadPcm ctx
  | _ => w

/-- A write of a CSR in some lanes, with each lane's value; a CSR of wider scope takes the first lane's (R110). A RO CSR keeps
its value. -/
def Work.csrWrite (w : Work) (wid num : Nat) (xs : List (Nat × Nat)) : Work :=
  match xs with
  | [] => w
  | x :: _ => match csrScope num with
    | 0 => xs.foldl (fun w x => w.modLane wid x.1 fun l => l.csrPut num x.2) w
    | 1 => w.modWave wid fun v => v.csrPut num x.2
    | _ => w.csrPutCtx (w.wave wid).ctx num x.2

/-- CSRW (R110): irrevocable in an ordered domain; a write of FPSR waits for the long producers of its lanes (R32). -/
def execCsrw (g : Guard) (num : BitVec 12) (a : Src) (s : State) : Host.Outcome State Fault Refusal :=
  let n := csrRegs num
  bundle g ⟨[useOf a n 0], none⟩ true (fun e w =>
    let v := w.wave e.wid
    if num = 0x020 ∧ v.longPending e.act then ⟨w, .stall, clsCtrl, 0⟩
    else
      let get := fun (l : Nat) => (v.vals e a.reg n l).zipIdx.foldl (fun x y => x + y.1.toNat * 2 ^ (32 * y.2)) 0
      let w := w.csrWrite e.wid num.toNat (e.act.map fun l => (l, get l))
      ⟨w, if e.act.isEmpty then e.ends else .next, clsCtrl, 1⟩) s

/-! ### EVT (R394) -/

/-- The record of an EVT while TEN is set; one that finds the die's trace staging full is dropped. -/
def Work.evtRecord (w : Work) (e : Iss) (code : BitVec 16) (x : Word) : Work :=
  if !w.dev.tail.ten then w
  else
    let (n, w) := w.draw
    if Config.stagingFull n then w.traceLost
    else
      let who : Subject := ⟨e.core, e.ctx, e.slot, e.entry, maskOf e.act⟩
      w.trace (recordBytes (recordWords w 1 who true e.pc.toNat (code.toNat * 2 ^ 32 + x.toNat)))

/-- EVT (R394). -/
def execEvt (g : Guard) (a : Src) (code : BitVec 16) (s : State) : Host.Outcome State Fault Refusal :=
  bundle g ⟨[useOf a 1 0], none⟩ true (fun e w => match e.act with
    | [] => ⟨w, e.ends, clsCtrl, 1⟩
    | l :: _ =>
      let w := if w.conf e.ctx then w else w.evtRecord e code ((w.wave e.wid).val e a.reg l)
      ⟨w, .next, clsCtrl, 1⟩) s

end Sys2Proof.Machine
end

