-- ==== Sys2Proof/Machine/Pair.lean ====
section
/-! DEFINITION. Pair bundles (03 R70–R73). -/

namespace Sys2Proof.Machine

/-- The result of a half that reads d and a (R72). -/
def hrrResult (op : HRR) (d a : Word) : Word × BitVec 7 :=
  let f := fun (r : FRes) => (BitVec.ofNat 32 r.1, r.2)
  let x := fp32.value d.toNat
  let y := fp32.value a.toNat
  match op with
  | .iadd => (d + a, 0)
  | .isub => (d - a, 0)
  | .imul => (d * a, 0)
  | .and => (d &&& a, 0)
  | .or => (d ||| a, 0)
  | .xor => (d ^^^ a, 0)
  | .mov => (a, 0)
  | .imin => (minWord false d a, 0)
  | .imax => (maxWord false d a, 0)
  | .fadd => f (fp32.add .rn x y)
  | .fsub => f (fp32.add .rn x y.neg)
  | .fmul => f (fp32.mul .rn x y)
  | .fmin => f (fp32.minMax false d.toNat a.toNat)
  | .fmax => f (fp32.minMax true d.toNat a.toNat)

/-- The result of a half that shifts. -/
def hshResult (op : HSh) (d : Word) (n : BitVec 5) : Word :=
  match op with
  | .shl => d <<< n.toNat
  | .shr => d >>> n.toNat
  | .sar => d.sshiftRight n.toNat

/-- The result of a half with an immediate. -/
def hriResult (op : HRI) (d : Word) (x : BitVec 13) : Word :=
  match op with
  | .iadd => d + sextTo 32 x
  | .movi => sextTo 32 x
  | .and => d &&& x.setWidth 32
  | .or => d ||| x.setWidth 32
  | .xor => d ^^^ x.setWidth 32

/-- The lane that a SHFL half reads (R72, R99): up, in segments of 32. -/
def halfLane (n : BitVec 5) (l : Nat) : Nat := (shflSource .up 32 n.toNat l).getD l

/-- What a half writes in a lane, from the values before the bundle. -/
def halfResult (h : Half) (v : Wave) (e : Iss) (l : Nat) : Word × BitVec 7 :=
  match h with
  | .nop => (0, 0)
  | .rr op d a => hrrResult op (v.val e d l) (v.val e a l)
  | .sh op d n => (hshResult op (v.val e d l) n, 0)
  | .ri op d x => (hriResult op (v.val e d l) x, 0)
  | .shfl _ a n => (v.cross e (.v a) (halfLane n l), 0)

/-- The energy class of a half (R364). -/
def halfClass : Half → Nat
  | .nop => clsCtrl
  | .rr op _ _ => match op with
    | .fadd | .fsub | .fmul | .fmin | .fmax => clsFp32
    | _ => clsInt
  | _ => clsInt

/-- The registers that a half reads and writes, none of which may trap (R71): slot A in fields 3 to 5, slot B in 11 to
13; the first of these is a SHFL half's source. -/
def halfUses (h : Half) (base : Nat) : List Use :=
  let reads := h.reads.map fun r => (⟨r, 1, match h with
    | .shfl _ _ _ => base
    | _ => base + 1, false⟩ : Use)
  reads ++ (h.dst.map fun r => (⟨r, 1, base + 2, false⟩ : Use)).toList

/-- The lane that a use of a pair reads. -/
def pairLane (x y : Half) (field l : Nat) : Nat :=
  match x, y with
  | .shfl _ _ n, .shfl _ _ m => if field = 3 then halfLane n l else if field = 11 then halfLane m l else l
  | .shfl _ _ n, _ => if field = 3 then halfLane n l else l
  | _, .shfl _ _ m => if field = 11 then halfLane m l else l
  | _, _ => l

/-- A half writes its destination and its flags. -/
def Wave.putHalf (v : Wave) (e : Iss) (h : Half) (old : Wave) : Wave :=
  match h.dst with
  | none => v
  | some d => v.putFlags e d fun l => ([(halfResult h old e l).1], (halfResult h old e l).2)

/-- PAIR_BUNDLE (R71): both halves read before either writes; each is charged in its own class. -/
def execPairBundle (x y : Half) (s : State) : Host.Outcome State Fault Refusal :=
  runBundle ⟨false, 0⟩ ⟨halfUses x 3 ++ halfUses y 11, none⟩ false (fun _ _ f l => pairLane x y f l) (fun e w =>
    let old := w.wave e.wid
    let v := (old.putHalf e x old).putHalf e y old
    ⟨(w.setWave e.wid v).charge e.ctx e.core (halfClass x) 1, .next, halfClass y, 1⟩) 2 s

end Sys2Proof.Machine
end

