-- ==== Sys2Proof/Machine/Ports.lean ====
section
/-! DEFINITION. Host ports, requests of host functions and link peers, links, and the ticks of neighbours (23 R370–R376, R378,
21 R360, 10 R207, 16 R287). -/

namespace Sys2Proof.Machine

/-! ### Host ports (R370) -/

/-- A port by number. -/
def portNo (p : Bool) : Nat := b2n p
def Work.port (w : Work) (n : Nat) : Port := mget w.dev.hub.ports n Port.blank
def Work.modPort (w : Work) (n : Nat) (f : Port → Port) : Work :=
  w.modHub fun h => { h with ports := mmod h.ports n Port.blank f }

/-- HOST_PORT_TRAIN (R370): the port works; below full width or rate it reports itself. The host enables bus mastering with it
(log entry 63: DESIGN CHOICE). -/
def execHostPortTrain (port : Bool) (lanes rate : Nat) (s : State) : Host.Outcome State Fault Refusal :=
  commit (fun w =>
    let n := portNo port
    let w := w.modPort n fun p =>
      { p with up := true, lanes := lanes, rate := rate, bme := true, bar2 := some (Config.bar2At n) }
    if lanes < 16 ∨ rate < 128 then w.report 10 0 (n + lanes % 32 * 2 + rate % 256 * 2 ^ 8) 0 Subject.none false else w) s

/-- HOST_PORT_DOWN (R370): the port no longer works, and accesses outstanding at it fail (R345). -/
def execHostPortDown (port : Bool) (s : State) : Host.Outcome State Fault Refusal :=
  commit (fun w => (w.modPort (portNo port) fun p => { p with up := false }).failVia (9 + portNo port)) s

/-- Whether a function's requests are no longer accepted (R376). -/
def Port.fnFrozen (p : Port) (fn : Bool) : Bool := if fn then p.fn1Frozen else p.fn0Frozen
/-- Freeze or release a function. -/
def Port.setFrozen (p : Port) (fn b : Bool) : Port := if fn then { p with fn1Frozen := b } else { p with fn0Frozen := b }

/-- FUNCTION_LEVEL_RESET (R376): the function's requests are accepted again. -/
def execFunctionLevelReset (port fn : Bool) (s : State) : Host.Outcome State Fault Refusal :=
  commit (fun w => w.modPort (portNo port) fun p => p.setFrozen fn false) s

/-! ### Requests from outside (R371, R372) -/

/-- Access kind of a request at its target: 0 read, 1 write, 2 atomic. -/
def reqKind : ExtReq → Nat
  | .read _ _ => 0
  | .write _ _ => 1
  | .atomic _ _ _ _ _ | .futres _ _ _ | .futget _ | .futnew _ | .cas128 _ => 2

/-- Bytes that a request names. -/
def reqBytes : ExtReq → Nat
  | .read _ n => n
  | .write _ bs => bs.length
  | .atomic _ b64 _ _ _ => if b64 then 8 else 4
  | .futres _ _ _ | .futget _ | .futnew _ | .cas128 _ => 16

/-- A reply to a master. -/
def Work.reply (w : Work) (m : Nat) (r : ExtResp) : Work := w.modHub fun h => { h with replies := h.replies ++ [(m, r)] }

/-- Whom a record of an address concerns: the context whose HBM it is. -/
def Work.recordOf5 (w : Work) (detail pa : Nat) : Work :=
  match w.ctxOfPa pa with
  | some c => w.report 5 0 detail pa (Subject.ofCtx c) true
  | none => w.report 5 0 detail pa Subject.none false

/-- DETAIL of a class-5 record (R383). -/
def detail5 (target master kind case : Nat) : Nat := target + master * 2 ^ 8 + kind * 2 ^ 16 + case * 2 ^ 18

/-- A master from outside is frozen (R376): a host function, or a link. -/
def Work.freezeMaster (w : Work) (m : Nat) : Work :=
  if m < 72 then w.modPort ((m - 64) / 2) fun p => p.setFrozen (m % 2 == 1) true
  else w.modHub fun h => { h with links := mmod h.links (m - 72) Link.blank fun l => { l with frozen := true } }

/-- A violation of a master from outside: it is frozen, and the end of the tick records it (R376). -/
def Work.outsideViolation (w : Work) (m target kind addr : Nat) : Work :=
  (w.noteViolation ⟨m, none, target, kind, addr⟩).freezeMaster m

/-- The records of a tick's violations: one for each master, of its lowest target (R376). -/
def Work.flushViolations (w : Work) : Work :=
  let vs := w.dev.hub.viols
  let w := w.modHub fun h => { h with viols := [] }
  (vs.map (·.master)).eraseDups.foldl (fun w m =>
    match (vs.filter fun v => v.master == m).foldl (fun (r : Option Viol) v => match r with
      | none => some v
      | some x => if v.target < x.target then some v else some x) none with
    | none => w
    | some v =>
      let d := detail5 v.target m v.kind 0
      match v.core with
      | some c => w.report 5 0 d v.addr (Subject.ofCore c m) true
      | none => if v.target < 8 then w.recordOf5 d v.addr else w.report 5 0 d v.addr Subject.none false) w

/-- An atomic from outside at its home slice, with the old value's bytes. -/
def Work.extAtomic (w : Work) (op : AOp) (b64 : Bool) (pa v cmp : Nat) : List Byte × Work :=
  let n := if b64 then 8 else 4
  let k := (PAddr.hbm pa).key
  let old := w.num k n
  let new := atomValue op (8 * n) old (v % 2 ^ (8 * n)) (cmp % 2 ^ (8 * n))
  (leBytes n old, w.writeHome k 0 pa (leBytes n new) none)

/-- A write from outside makes a host copy of its page stale (R359). -/
def Work.stale (w : Work) (pa n : Nat) : Work :=
  let keep := fun (p : SentPage) => p.out || apart p.pa (pageSize p.level) pa n
  w.modDev fun d => { d with ctxs := d.ctxs.map fun c =>
    (c.1, { c.2 with mem := { c.2.mem with pages := c.2.mem.pages.filter keep } }) }

/-- The bytes that a request from outside reads: ciphertext of a confidential context (R378). -/
def Work.extRead (w : Work) (pa n : Nat) : List Byte :=
  match (w.ctxOfPa pa).filter fun c => w.conf c with
  | none => w.bytes (PAddr.hbm pa).key n
  | some c => (linePieces pa n).flatMap fun x =>
      let line := x.1 / 128 * 128
      slice (w.sealLine c line (w.bytes (PAddr.hbm line).key 128)) (x.1 % 128) x.2

/-- What a request that its target refuses completes with: Completer Abort at a host port, an error response on a link (R376). -/
def refusalOf (m : Nat) : ExtResp := if 72 ≤ m then .linkError else .ca
/-- What a request completes with that is not supported, or names no memory (R370, R371). -/
def unsupportedOf (m : Nat) : ExtResp := if 72 ≤ m then .linkError else .ur

/-- A peer's operation on a future of this part, which stands at a multiple of 16 (R287, R288): FUTRES and FUTNEW answer the state
that stops them; a FUTGET waits until its future is resolved. -/
def Work.peerFuture (w : Work) (m pa : Nat) (r : ExtReq) : Work :=
  let p := hbmPlace pa
  match r with
  | .futres _ f v =>
    let (st, w) := w.resolve p f v
    w.reply m (match st with
      | none => .ack
      | some st => .data (leBytes 1 st))
  | .futnew _ => if w.futState p.key = 1 then w.reply m (.data (leBytes 1 1)) else (w.putFuture p (futBytes 0 0 0 0)).reply m .ack
  | .futget _ =>
    if 2 ≤ w.futState p.key then w.reply m (.data (w.bytes p.key 16))
    else (w.awaitFuture p.key).modHub fun h => { h with
      links := mmod h.links (m - 72) Link.blank fun l => { l with gets := l.gets ++ [p.key] } }
  | .read _ _ | .write _ _ | .atomic _ _ _ _ _ | .cas128 _ => w

/-- A request that passed every check performs, and what it answers (R371, R372). `peer`: link peers have every atomic and the
operations on futures; a write of theirs is acknowledged. -/
def Work.perform (w : Work) (m : Nat) (peer : Bool) (r : ExtReq) : Work :=
  match r with
  | .read a n => w.reply m (.data (w.extRead a.toNat n))
  | .write a bs =>
    let w := (w.stale a.toNat bs.length).writeHome (PAddr.hbm a.toNat).key 0 a.toNat bs none
    if peer then w.reply m .ack else w
  | .atomic op b64 a v c =>
    if a.toNat % (if b64 then 8 else 4) ≠ 0 ∨ (!peer ∧ hostRefuses op) then w.reply m (unsupportedOf m)
    else
      let (old, w) := (w.stale a.toNat 8).extAtomic op b64 a.toNat v.toNat c.toNat
      w.reply m (.data old)
  | .futres a _ _ | .futget a | .futnew a =>
    if !peer ∨ a.toNat % 16 ≠ 0 then w.reply m (unsupportedOf m) else (w.stale a.toNat 16).peerFuture m a.toNat r
  | .cas128 _ => w.reply m (unsupportedOf m)

/-- Whether a failed request is told to its sender: a host's posted write is not. -/
def toldOf (peer : Bool) (r : ExtReq) : Bool := peer || reqKind r != 1

/-- A request from outside to this part's HBM: the access tables, coloured lines, confidential frames and uncorrectable data,
in that order, and then its effect (R371, R374–R376, R378). -/
def Work.request (w : Work) (m : Nat) (r : ExtReq) : Work :=
  let peer := decide (72 ≤ m)
  let pa := reqAddr r
  let n := reqBytes r
  let kind := reqKind r
  let tell := fun (x : ExtResp) (w : Work) => if toldOf peer r then w.reply m x else w
  let fail := tell (refusalOf m)
  if Config.hbmBytes < pa + n then tell (unsupportedOf m) (w.recordOf5 (detail5 0xFF m kind 1) pa)
  else
    let lines := (linePieces pa n).map (·.1)
    let bad := lines.filter fun a => !tableAllows w.dev.hub (hbmTarget a) m kind (some a)
    match bad with
    | a :: as =>
      let t := as.foldl (fun t b => min t (hbmTarget b)) (hbmTarget a)
      fail (w.outsideViolation m t kind pa)
    | [] => match lines.find? fun a => mget w.dev.tags (a / 128) 0 != 0 with
      | some a => fail (w.recordOf5 (detail5 (hbmTarget a) m kind 2) pa)
      | none =>
        let conf := ((w.ctxOfPa pa).map w.conf).getD false
        if (conf ∧ kind ≠ 0) ∨ (kind ≠ 1 ∧ w.badData (PAddr.hbm pa).key n) then fail w
        else w.perform m peer r

/-- HOST_WINDOW_ACCESS (R371): through a port that works, by a function that is not frozen; a frozen part, or one whose image
was refused, serves none (R390, R398). -/
def execHostWindowAccess (port fn : Bool) (req : ExtReq) (s : State) : Host.Outcome State Fault Refusal :=
  commit (fun w =>
    let p := w.port (portNo port)
    let m := 64 + 2 * portNo port + b2n fn
    if !p.up ∨ p.fnFrozen fn then w
    else if w.dev.sec.boot ≠ 0 then w
    else if w.dev.tail.frozen then (if toldOf false req then w.reply m .ca else w)
    else w.request m req) s

/-- DOORBELL_WRITE (R320): by function 1 of a port that works and a function that is not frozen; its target is the Headstock (R374),
and the address of a violation there is the doorbell's in its BAR (log entry 83: DEDUCED). A frozen part takes none (R390). -/
def execDoorbellWrite (bell : Doorbell) (tail : BitVec 32) (s : State) : Host.Outcome State Fault Refusal :=
  commit (fun w =>
    let p := w.port (portNo bell.port)
    let m := 64 + 2 * portNo bell.port + 1
    if !p.up ∨ p.fn1Frozen ∨ w.dev.tail.frozen ∨ w.dev.sec.boot ≠ 0 then w
    else if tableAllows w.dev.hub 8 m 1 none then w.doorbell bell.ctx.toNat tail
    else w.outsideViolation m 8 1 (4096 * bell.ctx.toNat)) s

/-- Whether the page that a request of link peer `n` names is away, or about to be (R360). -/
def Work.heldBack (w : Work) (n : Nat) (r : ExtReq) : Bool := w.dev.ctxs.any fun c => w.holdsOff n (reqAddr r) c.1

/-- PEER_REQUEST (R372): held at the link port while the page is away (R360). -/
def execPeerRequest (link : BitVec 4) (req : ExtReq) (s : State) : Host.Outcome State Fault Refusal :=
  commit (fun w =>
    let n := link.toNat
    let l := mget w.dev.hub.links n Link.blank
    if !l.up ∨ l.frozen then w
    else if w.dev.tail.frozen ∨ w.dev.sec.boot ≠ 0 then w
    else if w.heldBack n req then
      w.modHub fun h => { h with links := mmod h.links n Link.blank fun l => { l with held := l.held ++ [⟨req⟩] } }
    else w.request (72 + n) req) s

/-- Held requests of a link whose pages are back perform, in their order (R360). -/
def Work.freeHeld (w : Work) (n : Nat) : Work :=
  let l := mget w.dev.hub.links n Link.blank
  let go := l.held.filter fun h => !w.heldBack n h.req
  let stay := l.held.filter fun h => w.heldBack n h.req
  let w := w.modHub fun h => { h with links := mmod h.links n Link.blank fun l => { l with held := stay } }
  go.foldl (fun w h => w.request (72 + n) h.req) w

/-- Whether a held request may perform. -/
def Work.anyFree (w : Work) : Bool := w.dev.hub.links.any fun l => l.2.held.any fun h => !w.heldBack l.1 h.req

/-- PAGE_RETURN (R361): page tables, save area and segment pool of a context come back, and then its pages one by one, once
nothing keeps the context out; then held requests of peers whose pages are there perform (R360). -/
def execPageReturn (ctx : BitVec 6) (s : State) : Host.Outcome State Fault Refusal :=
  commit (fun w =>
    let c := w.ctx ctx.toNat
    let back := c.state == .returning || c.state == .running
    let w := if !back ∨ !w.anyPort then w
      else if c.mem.sysAway then if w.sysBack ctx.toNat then w.returnSystem ctx.toNat else w
      else match w.nextReturn ctx.toNat with
        | some p => (w.returnPage ctx.toNat p.1 p.2).2
        | none => w
    (w.dev.hub.links.map (·.1)).foldl (fun w n => w.freeHeld n) w) s

/-! ### Links (R372) -/

def Work.link (w : Work) (n : Nat) : Link := mget w.dev.hub.links n Link.blank
def Work.modLink (w : Work) (n : Nat) (f : Link → Link) : Work :=
  w.modHub fun h => { h with links := mmod h.links n Link.blank f }

/-- FLIT_REPLAY (R372): a flit is sent again; no request performs twice. -/
def execFlitReplay (link : BitVec 4) (s : State) : Host.Outcome State Fault Refusal :=
  commit (fun w => w.modLink link.toNat fun l => { l with replays := l.replays + 1 }) s

/-- LINK_FAILURE (R372): the link holds its requests while it retrains. -/
def execLinkFailure (link : BitVec 4) (s : State) : Host.Outcome State Fault Refusal :=
  commit (fun w => w.modLink link.toNat fun l => if l.up then { l with up := false, failed := some w.gtick } else l) s

/-- The time for retraining has passed (R372). -/
def Work.retrainOver (w : Work) (n : Nat) : Bool :=
  match (w.link n).failed with
  | some t => decide (1000000 ≤ w.age t)
  | none => false

/-- LINK_RETRAIN_TIMEOUT (R372): accesses still outstanding at the link fail (R345). -/
def execLinkRetrainTimeout (link : BitVec 4) (s : State) : Host.Outcome State Fault Refusal :=
  commit (fun w =>
    let n := link.toNat
    if !w.retrainOver n then w
    else
      let w := (w.modLink n fun l => { l with failed := none }).failVia (11 + n)
      w.modHub fun h => { h with linked := h.links.any fun l => l.2.up || l.2.failed.isSome }) s

/-- A tick lies behind another, on the circle of 2⁶⁴. -/
def tickBehind (a b : BitVec 64) : Bool := a != b && decide ((b - a).toNat < 2 ^ 63)

/-- LINK_TRAIN (R372, R373, R376): the link works and its peer is heard again. The first link that trains leads to the tick
root, unless this device is it, or one that trains while that path is lost and its link does not work (log entry 64: DESIGN CHOICE);
before the first CREATE the tick jumps forward to the neighbour's, but not when the path was lost. -/
def execLinkTrain (link : BitVec 4) (upstream : BitVec 64) (s : State) : Host.Outcome State Fault Refusal :=
  commit (fun w =>
    let w := w.modLink link.toNat fun l => { l with up := true, failed := none, frozen := false }
    let w := w.modHub fun h => { h with
      linked := true
      upstream := if h.tickRoot then none
        else match h.upstream with
          | some l => if h.rootLost ∧ !w.linkUp l.toNat then some link else some l
          | none => some link }
    if w.dev.hub.upstream ≠ some link then w
    else
      let w := w.modHub fun h => { h with lastRootTick := upstream }
      if !w.dev.hub.created ∧ !w.dev.hub.rootLost ∧ tickBehind w.gtick upstream then w.modSys fun x => { x with gtick := upstream } else w) s

/-- TICK_SYNC (R373): once in 1,024 gt the tick is compared with the upstream neighbour's; when they differ the next tick adds
2, or 0. A path that was lost is there again. -/
def execTickSync (upstream : BitVec 64) (s : State) : Host.Outcome State Fault Refusal :=
  commit (fun w => match w.dev.hub.upstream with
    | none => w
    | some l =>
      if !w.linkUp l.toNat ∨ w.age w.dev.hub.lastSync < 1024 then w
      else
        let step := if tickBehind w.gtick upstream then 2 else if upstream = w.gtick then 1 else 0
        w.modHub fun h => { h with lastRootTick := upstream, lastSync := w.gtick, tickStep := step, rootLost := false }) s

/-- TICK_ROOT_LOST (R373): the path to the root through a link is lost, here or farther upstream; the device keeps counting, and
reports. It rejoins by correction once a tick of that neighbour comes again. -/
def execTickRootLost (link : BitVec 4) (s : State) : Host.Outcome State Fault Refusal :=
  commit (fun w =>
    if w.dev.hub.upstream ≠ some link ∨ w.dev.hub.rootLost then w
    else (w.modHub fun h => { h with rootLost := true }).report 4 0 link.toNat
      (w.age w.dev.hub.lastRootTick) Subject.none false) s

end Sys2Proof.Machine
end

