-- ==== Sys2Proof/Machine/Errors.lean ====
section
/-! DEFINITION. Errors of the storage structures, spared rows and the repair map (25 R395–R397, R403). -/

namespace Sys2Proof.Machine

/-- The memory keys of `n` bytes from a key on are uncorrectable. -/
def Work.spoil (w : Work) (k n : Nat) : Work :=
  let new := ((List.range n).map fun i => k + 8 * i).filter fun x => !w.dev.bad.contains x
  w.modDev fun d => { d with bad := new ++ d.bad }

/-- A full register becomes poisoned; one that is empty is filled by its producer (R199, log entry 65: DESIGN CHOICE). -/
def Wave.poisonAt (v : Wave) (x : Loc) : Wave :=
  if (v.stat x).isSome then v else v.setStat x (some (.poison 0 0))

/-- An error of an HBM row (R397): the row is spared at its second corrected error or its first uncorrectable one, while its
pseudo-channel has a spare row. Whether it was spared. -/
def Work.rowError (w : Work) (pa : Nat) (unc : Bool) : Bool × Work :=
  let row := Config.rowOf pa
  let ch := Config.channelOf pa
  let x := mget w.dev.pow.rows row (0, false)
  let n := x.1 + 1
  if (unc ∨ 2 ≤ n) ∧ mget w.dev.pow.spares ch 0 < 16 then
    (true, w.modPow fun p => { p with rows := mput p.rows row (0, true), spares := mput p.spares ch (mget p.spares ch 0 + 1) })
  else (false, w.modPow fun p => { p with rows := mput p.rows row (n, x.2) })

/-- Uncorrectable errors of codes 4, 7 and 8 on a core: at the second the Headstock writes a new map that retires the core
from the next reset on (R403). -/
def Work.coreError (w : Work) (core : Nat) (unc : Bool) : Work :=
  if !unc then w
  else
    let n := (w.core core).errs + 1
    let w := w.modCore core fun c => { c with errs := n }
    if n ≠ 2 then w
    else w.modSec fun s => { s with
      nextRetired := s.nextRetired ||| BitVec.ofNat 192 (2 ^ core), generation := s.generation + 1 }

/-- The wave at a core and a slot. -/
def Work.waveAt (w : Work) (core slot : Nat) : Option Nat :=
  (w.dev.waves.find? fun x => x.2.place == some (core, slot)).map (·.1)

/-- A record of a core, for the context whose launch owns it (R382). -/
def Work.logOnCore (w : Work) (code core addr : Nat) (unc : Bool) : Work :=
  let ctx := (w.core core).owner.map fun lid => (w.launch lid).ctx
  w.logError code (dieOf core) addr unc false (Subject.ofCore core (ctx.getD 0)) ctx.isSome

/-- An error of a register: poison when it is uncorrectable. `loc` is the register's home in the wave, `spec` its specifier. -/
def Work.regError (w : Work) (core slot : Nat) (unc : Bool) (loc : Loc) (spec : Wave → Nat → Nat) : Work :=
  let w := w.coreError core unc
  match w.waveAt core slot with
  | none => w.logOnCore 4 core 0 unc
  | some wid =>
    let v := w.wave wid
    let w := if unc then w.modWave wid fun v => v.poisonAt loc else w
    w.logError 4 (dieOf core) (spec v (w.launch v.lid).s) unc false ⟨core, v.ctx, slot, 0, 0⟩ true

/-- An error of HBM: its bytes from `at_` on, `n` of them, are uncorrectable, and its row may be spared. -/
def Work.hbmError (w : Work) (code at_ n addr : Nat) (unc : Bool) (ctx : Option Nat) : Work :=
  let w := if unc then w.spoil (PAddr.hbm at_).key n else w
  let (spared, w) := w.rowError at_ unc
  w.logError code (homeSlice at_ / 128) addr unc spared (Subject.ofCtx (ctx.getD 0)) ctx.isSome

/-- The core and context of a block. -/
def Work.blockSubject (w : Work) (bid : Nat) : Subject :=
  Subject.ofCore (((w.block bid).core).getD 0xFF) (w.block bid).ctx

/-- The outcome of an error at a place (R395), with its record (R396). -/
def Work.errorAt (w : Work) (p : ErrPlace) (unc : Bool) : Work :=
  let own := fun (k code die addr n : Nat) (s : Subject) (has : Bool) =>
    (if unc then w.spoil k n else w).logError code die addr unc false s has
  match p with
  | .hbm pa => w.hbmError 1 (pa.toNat / 32 * 32) 32 (pa.toNat / 128 * 128) unc (w.ctxOfPa pa.toNat)
  | .tag pa => w.hbmError 2 (pa.toNat / 128 * 128) 128 (pa.toNat / 128 * 128) unc (w.ctxOfPa pa.toNat)
  | .slice pa =>
    let a := pa.toNat / 16 * 16
    let c := w.ctxOfPa a
    own (PAddr.hbm a).key 3 (homeSlice a / 128) a 16 (Subject.ofCtx (c.getD 0)) c.isSome
  | .chip ctx off => own (PAddr.chip ctx (off / 16 * 16)).key 3 (chipDie off) (off / 16 * 16) 16 (Subject.ofCtx ctx) true
  | .vreg core slot lane n =>
    w.regError core slot unc (0, 1024 * lane + n) fun v s => (v.lane lane).specAt s n
  | .kreg core slot n => w.regError core slot unc (1, n) fun _ _ => 32 + n
  | .hreg core slot lane n => w.regError core slot unc (2, 16 * lane + n) fun _ _ => 16 + n
  | .scratch bid off =>
    let s := w.blockSubject bid
    own (PAddr.scratch bid (off / 4 * 4)).key 5 (dieOf (((w.block bid).core).getD 0)) (off / 4 * 4) 4 s true
  | .cluster lid lc off =>
    let l := w.launch lid
    let core := l.physical (l.clusterPlace lc off).1
    own (PAddr.cluster lid lc (off / 4 * 4)).key 5 (dieOf core) (off / 4 * 4) 4 (Subject.ofCore core l.ctx) true
  | .lanePriv core slot lane off => match w.waveAt core slot with
    | none => w.logOnCore 6 core (off / 4 * 4) unc
    | some wid =>
      own (PAddr.lane wid lane (off / 4 * 4)).key 6 (dieOf core) (off / 4 * 4) 4 ⟨core, (w.wave wid).ctx, slot, 0, 0⟩ true
  | .bstore core unit =>
    let keys := (List.range 16).map fun i => 16 * unit + i
    let w := (w.coreError core unc).modCore core fun c =>
      if unc then { c with bstoreBad := (keys.filter fun k => !c.bstoreBad.contains k) ++ c.bstoreBad } else c
    w.logOnCore 7 core (16 * unit) unc
  | .acc core set =>
    let w := w.coreError core unc
    let w := if unc then w.markAcc core set true else w
    w.logOnCore 8 core 0 unc
  | .pte ctx pa =>
    let a := pa.toNat / 8 * 8
    w.hbmError 9 a 8 (a / 128 * 128) unc (some ctx.toNat)
  | .record ctx pa =>
    let a := pa.toNat / 16 * 16
    let w := if unc ∧ (mget? w.dev.ctxs ctx.toNat).isSome then
        (w.suspendCtx ctx.toNat).modCtx ctx.toNat fun c => { c with broken := true }
      else w
    w.logError 10 (homeSlice a / 128) a unc false (Subject.ofCtx ctx.toNat) true
  | .cache core pa =>
    let s := pa.toNat / 16
    let w := w.modCore core fun c => { c with
      l1 := mdel c.l1 s, ro := mdel c.ro s, icache := mdel (mdel c.icache (16 * s)) (16 * s + 8)
      fbufs := c.fbufs.map fun f => (f.1, mdel (mdel f.2 (16 * s)) (16 * s + 8)) }
    w.logOnCore 11 core 0 false

/-- MEMORY_ERROR (R395–R397, R403). -/
def execMemoryError (place : ErrPlace) (unc : Bool) (s : State) : Host.Outcome State Fault Refusal :=
  commit (fun w => w.errorAt place unc) s

end Sys2Proof.Machine
end

