-- ==== Sys2Proof/Machine/Power.lean ====
section
/-! DEFINITION. Power: the spans of the device, the global tick and the static energy, clock steps, temperature, and gated
cores (00 R3, R9, 21 R365, R366, 24 R384, R390, 25 R398, R400, R402, R403). -/

/-! ### The flash image (R398, R403) -/

namespace Sys2Proof

open Sys2Proof.Machine

/-- A little-endian field of an image. -/
def BootImage.field (img : BootImage) (off n : Nat) : Nat := leNat (slice img.bytes off n)
/-- The header of an image without its signature, and the firmware (R398). -/
def BootImage.signed (img : BootImage) : List Byte := slice img.bytes 0 0x40 ++ slice img.bytes 0x80 (img.field 0x10 8)

/-- Whether the key beside an image is the Woward key (R398). -/
def BootImage.keyOk (img : BootImage) : Bool := Config.sha512 (leBytes 32 img.key.toNat) == Config.wowardDigest

/-- The BOOT code of an image (R398, R400): a malformed image, a signature that fails, a rollback, in that order
(log entry 82: DEDUCED). -/
def BootImage.code (img : BootImage) (fused : BitVec 64) : BitVec 4 :=
  let n := img.field 0x10 8
  if img.field 0 4 ≠ 0x34425850 ∨ n % 64 ≠ 0 ∨ img.bytes.length < 0x80 + n ∨ img.field 0x20 0x20 ≠ 0 then 3
  else if !img.keyOk || !Config.verifies img.key (BitVec.ofNat 512 (img.field 0x40 0x40)) (Config.sha512 img.signed) then 1
  else if BitVec.ofNat 64 (img.field 8 8) < fused then 2
  else 0

/-- The repair map in an image: its mask and generation, and whether its signature holds (R403). -/
def BootImage.map (img : BootImage) : BitVec 192 × BitVec 64 × Bool :=
  let at_ := img.field 0x18 8
  let m := slice img.bytes at_ 96
  let sig := BitVec.ofNat 512 (leNat (m.drop 32))
  let digest := Config.sha512 (m.take 32)
  (BitVec.ofNat 192 (leNat (m.take 24)), BitVec.ofNat 64 (leNat (slice m 24 8)),
    m.length == 96 && (Config.verifies Config.identityPublic sig digest || (img.keyOk && Config.verifies img.key sig digest)))

end Sys2Proof

namespace Sys2Proof.Machine

/-! ### Power-on and power-off (R9, R398, R403) -/

/-- The bytes that a part without power loses: its HBM, and everything on the chips. -/
def Work.loseMemory (w : Work) : Work :=
  [0, 3, 4, 5, 6].foldl (fun w k => w.zero k (2 ^ 120)) w

/-- Everything but memory when a device span begins: fuses, the spare rows, the newest repair map and what a spare row keeps
of bad lines stand (R397, R398, R403), and the model's own counters go on. -/
def Work.freshDev (w : Work) : Dev :=
  let d := w.dev
  { Dev.reset with
    sys := { Sys.reset with fresh := d.sys.fresh, nextId := d.sys.nextId }
    bad := d.bad.filter fun k => k % 8 == 0
    sec := { Security.reset with
      fused := d.sec.fused, nextRetired := d.sec.nextRetired, generation := d.sec.generation }
    pow := { Power.reset with rows := d.pow.rows, spares := d.pow.spares } }

/-- The repair map that applies (R403): the image's, or a newer one that the Headstock has written; a map whose signature
fails is all zero. -/
def Work.repairMap (w : Work) (img : BootImage) : BitVec 192 × BitVec 64 :=
  let m := if img.map.2.2 then (img.map.1, img.map.2.1) else (0, 0)
  if m.2 < w.dev.sec.generation then (w.dev.sec.nextRetired, w.dev.sec.generation) else m

/-- The access entries that the image may give: those of host functions and link peers (R374). -/
def imageAccess (img : BootImage) : FMap (BitVec 16) :=
  img.access.foldl (fun m x =>
    let master := x.1 % 88
    if x.1 / 88 < 27 ∧ 64 ≤ master ∧ ¬(68 ≤ master ∧ master < 72) then mset m x.1 x.2 0 else m) []

/-- Power-on reset with an image: the device span begins (R9). A refused image leaves the Headstock held in reset (R398); a
retired core is gated for good (R365, R403). -/
def Work.powerOn (w : Work) (img : BootImage) : Work :=
  let map := w.repairMap img
  let d := w.freshDev
  let boot := img.code d.sec.fused
  let held := boot != 0
  let secver := BitVec.ofNat 64 (img.field 8 8)
  let retired := if held then 0 else map.1
  let gated := ((List.range Config.cores).filter fun c => retired.getLsbD c).map fun c => (c, { Core.reset with gated := true })
  let w : Work := { w with dev := { d with
    cores := gated
    hub := { d.hub with tickRoot := img.tickRoot, access := if held then [] else imageAccess img }
    sec := { d.sec with
      boot := boot, fwDigest := Config.sha512 img.signed, retired := retired, nextRetired := map.1, generation := map.2
      fused := if !held ∧ d.sec.fused < secver then secver else d.sec.fused } } }
  if !held ∧ !img.map.2.2 then w.report 8 0 0 0 Subject.none false else w

/-- POWER_ON_RESET (R9, R398, R403). -/
def execPowerOnReset (img : BootImage) (s : State) : Host.Outcome State Fault Refusal :=
  commit (fun w => w.powerOn img) s

/-- POWER_OFF (R9): contexts, keys and every piece of on-chip state are lost. -/
def execPowerOff (s : State) : Host.Outcome State Fault Refusal :=
  commit (fun w =>
    let d := w.freshDev
    { w with dev := { d with bad := [], sys := { d.sys with powered := false } } }.loseMemory) s

/-! ### The tick -/

/-- Twentieths of an arithmetic-clock cycle in one gt, by clock step (R400). -/
def stepCycles (step : BitVec 2) : Nat := if step = 0 then 28 else if step = 1 then 22 else 17

/-- Add to a 64-bit value, saturating. -/
def addSat (x : BitVec 64) (u : Nat) : BitVec 64 := if 2 ^ 64 ≤ x.toNat + u then BitVec.allOnes 64 else x + BitVec.ofNat 64 u

/-- One core's static power of one gt (R365): shared by the contexts in proportion to their waves resident on it; the rest goes
to UNATT. A retired core lies outside the accounting. -/
def Work.staticCore (w : Work) (core : Nat) : Work :=
  let u := (w.core core).statp.toNat * 2 ^ 16
  if u = 0 ∨ w.isRetired core then w
  else
    let vs := (w.core core).resident.filter fun c => (mget? w.dev.ctxs c).isSome
    let share := fun (c : Nat) => u * (vs.filter fun x => x == c).length / vs.length
    let cs := vs.eraseDups
    let w := cs.foldl (fun w c =>
      w.modCtx c fun x => { x with energy := mput x.energy core ((x.energyOn core).add (share c)) }) w
    let rest := u - (cs.map share).foldl (· + ·) 0
    w.modHub fun h => { h with unatt := addSat h.unatt rest }

/-- Running time (R366): a tick for every context with a wave resident. -/
def Work.runTicks (w : Work) : Work :=
  let cs := (w.dev.cores.flatMap fun c => c.2.resident).eraseDups
  cs.foldl (fun w c => if (mget? w.dev.ctxs c).isSome then w.modCtx c fun x => { x with runt := x.runt + 1 } else w) w

/-- The end of a tick for the counters: its sums are added (R363), and those of cores that have returned are folded (R367). -/
def Work.settleEnergy (w : Work) : Work :=
  let w := w.modDev fun d => { d with ctxs := d.ctxs.map fun c =>
    (c.1, { c.2 with energy := c.2.energy.map fun x => (x.1, x.2.settle) }) }
  let w := w.dev.hub.folds.foldl (fun w x =>
    if (mget? w.dev.ctxs x.1).isSome then w.modCtx x.1 fun c => c.fold x.2 else w) w
  w.modHub fun h => { h with folds := [] }

/-- The waves that stand on the cores share the next tick's static power, and the Headstock may set STATP (R365). -/
def Work.nextShares (w : Work) : Work :=
  w.dev.cores.foldl (fun w c => w.modCore c.1 fun k => { k with
    resident := (w.wavesOn c.1).map fun v => v.2.ctx, statp := (Config.statpSet c.1 w.gtick.toNat).getD k.statp }) w

/-- The context for which a core's cycles count: its owner's. A core without an owner counts for none. -/
def Work.ownerCtx (w : Work) (core : Nat) : Nat :=
  match (w.core core).owner with
  | some lid => (w.launch lid).ctx
  | none => 64

/-- Arithmetic-clock cycles that a core has had (R32). -/
def Work.cycles (w : Work) (core : Nat) : Nat := (((w.dev.sys.cyc : Int) - (w.core core).missed) / 20).toNat

/-- One gt of the arithmetic clock: `n` twentieths of a cycle for every core whose clocks run; a core without waves and work
grows idle (R400, R402). -/
def Work.clockCores (w : Work) (n : Nat) : Work :=
  let before := fun (c : Nat) => w.cycles c
  let x := w.modSys fun s => { s with cyc := s.cyc + n }
  w.dev.cores.foldl (fun x c =>
    if !w.runs c.1 then x.modCore c.1 fun k => { k with missed := k.missed + n }
    else
      let x := x.count c.1 (w.ownerCtx c.1) 0x01 (x.cycles c.1 - before c.1)
      if (w.wavesOn c.1).isEmpty ∧ !c.2.atWork then x
      else x.modCore c.1 fun k => { k with idleSince := (w.gtick + BitVec.ofNat 64 w.dev.hub.tickStep).toNat }) x

/-- Whether a tick is one at which the Tailstock samples (R384). -/
def Tailstock.samples (t : Tailstock) (tick : BitVec 64) : Bool :=
  t.sen && t.sper != 0 && tick.toNat % max t.sper.toNat 256 == 0

/-- The tick moves by what the synchronization asks (R373); an armed freeze comes next, or else a sample (R384, R390). Whether FRZT
has passed is a plain comparison of the two ticks (log entry 95: DESIGN CHOICE). -/
def Work.tick (w : Work) : Work :=
  let n := w.dev.hub.tickStep
  let w := w.modSys fun s => { s with gtick := s.gtick + BitVec.ofNat 64 n }
  let w := w.modHub fun h => { h with tickStep := 1 }
  let t := w.dev.tail
  let first := fun (i : Instr) => w.modSys fun s => { s with agenda := .event i :: s.agenda }
  if t.arm ∧ t.frzt ≤ w.gtick then first .freezeStart
  else if n ≠ 0 ∧ t.samples w.gtick then first .stallSample else w

/-- STATIC_ENERGY_TICK (R3, R365, R366): one gt; a frozen part's tick stands (R390). -/
def execStaticEnergyTick (s : State) : Host.Outcome State Fault Refusal :=
  commit (fun w =>
    if w.dev.tail.frozen ∨ !w.dev.sys.powered then w
    else
      let w := w.dev.cores.foldl (fun w c => w.staticCore c.1) w
      let w := w.flushViolations
      (((w.runTicks).settleEnergy.nextShares).clockCores (stepCycles w.dev.pow.step)).tick) s

/-! ### Caps and temperature (R400) -/

/-- The step that cap and temperature ask for. -/
def Power.wanted (p : Power) : BitVec 2 :=
  if p.tlim ∧ p.cap ≠ 2 then p.cap + 1 else p.cap

/-- CAP_WRITE (R400): a write of 3 is ignored. -/
def execCapWrite (value : BitVec 64) (s : State) : Host.Outcome State Fault Refusal :=
  commit (fun w =>
    let c : BitVec 2 := BitVec.ofNat 2 value.toNat
    if c = 3 then w
    else w.modPow fun p =>
      let p := { p with cap := c }
      { p with target := p.wanted }) s

/-- THERMAL_THRESHOLD (R400): above 95 °C the thermal step, above 105 °C every core is gated, below 85 °C both end. -/
def execThermalThreshold (temp : BitVec 8) (s : State) : Host.Outcome State Fault Refusal :=
  commit (fun w =>
    let shut := decide (105 < temp.toNat)
    let hot := decide (95 < temp.toNat)
    let cool := decide (temp.toNat < 85)
    let w := w.modPow fun p =>
      let p := { p with temp := temp, tlim := if cool then false else p.tlim || hot
                        tshut := if cool then false else p.tshut || shut }
      { p with target := p.wanted }
    if shut then w.modDev fun d => { d with cores := d.cores.map fun c => (c.1, c.2.dropCaches) }
    else w) s

/-- CLOCK_STEP_CHANGE (R400): the step becomes the one asked for, which is signalled. -/
def execClockStepChange (s : State) : Host.Outcome State Fault Refusal :=
  commit (fun w =>
    if w.dev.pow.step = w.dev.pow.target then w
    else (w.modPow fun p => { p with step := p.target }).msix 0 2) s

/-! ### Gated cores (R402) -/

/-- A core that has held no wave and no engine or array work for 10,000 gt, and is not gated yet. -/
def Work.gateDue (w : Work) (core : Nat) : Bool :=
  let c := w.core core
  !c.gated && (w.wavesOn core).isEmpty && !c.atWork && decide (10000 ≤ w.age (BitVec.ofNat 64 c.idleSince))

/-- CORE_GATE (R402): caches and TLB are invalidated; B-store, accumulators, Skew program and tables stay. -/
def execCoreGate (core : Nat) (s : State) : Host.Outcome State Fault Refusal :=
  commit (fun w =>
    if w.gateDue core then w.modCore core fun c => { c.dropCaches with gated := true }
    else w) s

/-- CORE_UNGATE (R402). -/
def execCoreUngate (core : Nat) (s : State) : Host.Outcome State Fault Refusal :=
  commit (fun w => w.wakeCore core) s

end Sys2Proof.Machine
end

