-- ==== Sys2Proof/Machine/Due.lean ====
section
/-! DEFINITION. Which events of the part itself are due, and which of them comes next (log entry 2: DESIGN CHOICE). An event that the outside
world brings is never due: it comes by the agenda. -/

namespace Sys2Proof.Machine

/-! ### Cores and their engines -/

/-- Whether an engine waits on a fault record, or for a free one (R338). -/
def Work.engineWaits (w : Work) (core : Nat) (e : EngineId) : Bool :=
  let mine := fun (x : PageWaiter) => match x with
    | .engine c f _ => c == core && f == e
    | _ => false
  (w.dev.mmu.faults.any fun r => r.waiters.any mine) || w.dev.mmu.short.any fun x => mine x.2

/-- The event at which an array operation runs at its turn (R257). -/
def Work.orderDue (w : Work) (core : Nat) : List Instr :=
  match w.turnOp core with
  | none => []
  | some o => match o.kind with
    | .mma _ _ _ _ _ _ _ => [.mmaRun core]
    | .mzero _ _ => [.mzeroRun core]
    | .bld _ _ _ _ => if w.engineWaits core .bld then [] else [.bldRun core]
    | .mdrain _ _ _ _ _ _ _ => if w.engineWaits core .mdrain then [] else [.mdrainRun core]
    | .epil _ _ => [.epilRun core]
    | .altab _ _ => [.altabTableRead core]

/-- What the engines of a core may do. -/
def Work.coreDue (w : Work) (core : Nat) (c : Core) : List Instr :=
  let idle := if w.gateDue core then [Instr.coreGate core] else []
  if !w.enginesRun core then idle
  else
    let xs := if c.xfers.isEmpty ∨ !c.transferFree ∨ w.engineWaits core .transfer then []
      else [Instr.bcopyTransferComplete core]
    let ms := match c.mcasts with
      | [] => []
      | m :: _ => if m.bad.isSome then [Instr.engineStop core .mcast] else [.mcastDelivery core]
    let cs := (List.range 4).flatMap fun n =>
      let ch := BitVec.ofNat 2 n
      if (w.chan core n).mayMove ∧ !w.engineWaits core (.channel ch) then
        [Instr.channelTile core ch]
      else []
    w.orderDue core ++ xs ++ ms ++ cs

/-! ### Waves -/

/-- The parked waits of a wave: those whose time has passed, and those on words that have changed (R216, R217). -/
def Work.waitsDue (w : Work) (wid : Nat) (v : Wave) : List Instr :=
  v.splits.flatMap fun s => match s.wait with
    | none => []
    | some r =>
      let lane := (lanesOf s.mask).headD 0
      let word := fun (c : Nat × Cond) => match c.2 with
        | .word _ _ _ => !r.latched.getLsbD c.1 && w.condMet wid c.2
        | _ => false
      (if (r.deadline.map w.reached) = some true then [Instr.waitTimeout wid lane] else []) ++
        if r.conds.any word then [Instr.waitWordReread wid lane] else []

/-- The first outstanding producer of a wave that may complete. -/
def Work.outDue (w : Work) (wid : Nat) (v : Wave) : List Instr :=
  match v.outs.find? fun o => w.mayReturn o.2 || o.2.kind == .long || o.2.kind == .csr with
  | none => []
  | some (i, o) => match o.kind with
    | .long => [.longOpComplete wid i]
    | .csr => [.slowCsrReturn wid i]
    | _ => [.loadDataReturn wid i]

/-- What a wave may do beside issuing. -/
def Work.waveDue (w : Work) (wid : Nat) (v : Wave) : List Instr :=
  let run := (w.ctx v.ctx).state == .running
  match v.place with
  | none =>
    if !run ∨ !v.evicted then []
    else w.waitsDue wid v ++ if (w.returnSlot wid).isSome then [Instr.waveReturn wid] else []
  | some (core, _) =>
    if !w.runs core then []
    else
      let cpa := match v.cpas.find? fun o => !(w.landings wid o.tag).isEmpty with
        | some o => [Instr.cpaLand wid o.tag]
        | none => []
      let trap := if v.nextTrapped.isSome then [Instr.trapEntry wid] else []
      let end_ := if v.living.isEmpty ∧ v.outs.isEmpty ∧ v.cpas.isEmpty then [Instr.waveEnd wid] else []
      w.waitsDue wid v ++ w.outDue wid v ++ cpa ++ trap ++ end_

/-! ### Contexts, Chucks and the part -/

/-- What the Headstock and the distributor may do for a context. -/
def Work.ctxDue (w : Work) (ctx : Nat) (c : Context) : List Instr :=
  let n := BitVec.ofNat 6 ctx
  let back := if (c.state = .returning ∨ c.state = .running) ∧ w.anyPort ∧ (w.sysBack ctx ∨ (!c.mem.sysAway ∧ (w.nextReturn ctx).isSome))
    then [Instr.pageReturn n] else []
  if c.state ≠ .running then back
  else
    let t := c.tasks
    let ring := if c.head ≠ c.tail ∧ !c.ringStuck ∧ w.inFlight ctx < 16 then [Instr.ringEntryTake n] else []
    let links := (t.queues.filter fun q => !q.2.isEmpty && queueFull q.2 && (t.takeSeg c.rec_.segments).isSome).map fun q =>
      Instr.queueSegmentLink n (q.1 / 4) (BitVec.ofNat 2 q.1)
    let ups := (t.queued.filter fun r => w.promotionDue ctx r).map fun r => Instr.taskPromote n r.seq.toNat
    let regs := if t.regs.isEmpty then [] else [Instr.futureRegistration n]
    let commits := (t.doms.filter fun d => (d.2.frontier.map fun f => f.state == .finished).getD false).map fun d =>
      Instr.taskCommit n (BitVec.ofNat 4 d.1)
    let quantum := if w.quantumPassed ctx ∧ !c.expired then [Instr.quantumExpire n] else []
    back ++ ring ++ links ++ ups ++ regs ++ commits ++ quantum

/-- Whether a Chuck's scan would gather a task (R284). -/
def Work.scanGathers (w : Work) (cluster : Nat) : Bool :=
  (w.scanned cluster).any fun x =>
    match (mget (w.ctx x.ctx).tasks.groups cluster []).find? fun g => g.keyOf x.task with
    | some g => !g.ready
    | none => decide (w.openGroups cluster < 8)

/-- What a cluster's Chuck may do. -/
def Work.chuckDue (w : Work) (cluster : Nat) : List Instr :=
  let expire := ((w.groupsOf cluster).zipIdx.filter fun x => !x.1.2.ready && w.windowPassed x.1.1 x.1.2).map fun x =>
    Instr.chuckWindowExpire cluster x.2
  let place := match w.nextGroup cluster with
    | some i => [Instr.taskWavePlace cluster i]
    | none => []
  (if w.scanGathers cluster then [Instr.chuckScan cluster] else []) ++ expire ++ place

/-- Launches that may end, or go on with their end (R327, R328). -/
def Work.endsDue (w : Work) : List Instr :=
  (w.dev.launches.filter fun l => (w.ctx l.2.ctx).state == .running && (w.launchDone l.1 ||
    ((l.2.state == .signalling || l.2.state == .resolving) && !l.2.parked))).map fun l => Instr.launchEnd l.1

/-- Placement comes before a restore, and a restore before a pre-emption (R351, R356). -/
def Work.placeDue (w : Work) : List Instr :=
  let blocks := (w.dev.ctxs.filter fun c => c.2.state == .running && match w.nextBlock c.1 with
    | some b => w.mayGive b.1 b.2.1
    | none => false).map fun c =>
    Instr.blockPlace (BitVec.ofNat 6 c.1)
  if !blocks.isEmpty then blocks
  else match w.nextRestore with
    | some x => [.contextRestore (BitVec.ofNat 6 x.1)]
    | none => match w.nextVictim with
      | some v => [.preempt (BitVec.ofNat 6 v)]
      | none => match w.nextEvict with
        | some wid => [.waveEvict wid]
        | none => []

/-- What the rest of the part may do. -/
def Work.partDue (w : Work) : List Instr :=
  let record := if w.dev.mmu.faults.isEmpty then [] else [Instr.faultRecordService none]
  let evac := if w.evacRuns then [Instr.evacuationPageSend] else []
  let held := if w.anyFree then [Instr.pageReturn 0] else []
  let late := (w.dev.hub.links.filter fun l => w.retrainOver l.1).map fun l =>
    Instr.linkRetrainTimeout (BitVec.ofNat 4 l.1)
  let root := match w.dev.hub.upstream with
    | some l => if w.dev.hub.rootLost ∨ w.linkUp l.toNat ∨ (w.link l.toNat).failed.isSome then [] else [Instr.tickRootLost l]
    | none => []
  let step := if w.dev.pow.step = w.dev.pow.target then [] else [Instr.clockStepChange]
  let cold := if w.gtick < 10000 then []
    else match (List.range Config.cores).find? fun c => (mget? w.dev.cores c).isNone with
      | some c => [Instr.coreGate c]
      | none => []
  record ++ evac ++ held ++ late ++ root ++ step ++ cold

/-- Every event that is due. A frozen part moves nothing (R390), nor does a Headstock that is held in reset (R398). -/
def Work.allDue (w : Work) : List Instr :=
  if w.dev.tail.frozen ∨ w.dev.sec.boot ≠ 0 then []
  else
    w.dev.cores.flatMap (fun c => w.coreDue c.1 c.2) ++ w.dev.waves.flatMap (fun v => w.waveDue v.1 v.2) ++
      w.dev.ctxs.flatMap (fun c => w.ctxDue c.1 c.2) ++
      (if w.dev.ctxs.isEmpty then [] else (List.range 24).flatMap w.chuckDue) ++ w.endsDue ++
      (w.dev.blocks.filter fun b => w.retirable b.1).map (fun b => Instr.blockRetire b.1) ++ w.placeDue ++ w.partDue

/-- The event that comes next: they take turns by the tick. -/
def Work.due (w : Work) : Option Instr :=
  let ds := w.allDue
  ds[w.gtick.toNat % ds.length]?

end Sys2Proof.Machine
end

