-- ==== Sys2Proof/Machine/Schedule.lean ====
section
/-! DEFINITION. What moves next: candidates for issue (R138, R108), the fetch (R61), and the turns of the model (log entry
2). -/

namespace Sys2Proof.Machine

/-- A split that may issue, with where it stands. -/
structure Cand where
  core : Nat
  slot : Nat
  cur : Cur
  last : Nat
  deriving DecidableEq, Repr

/-- Whether a split matches while another split of its wave is in a handler, and is held (R387). -/
def Work.matchHeld (w : Work) (v : Wave) (s : Split) : Bool :=
  (w.matchOf v s).isSome && v.splits.any fun t => t.handler

/-- The candidates of the part (R138); splits found to stall are left out until something changes. -/
def Work.cands (w : Work) : List Cand :=
  w.dev.waves.flatMap fun x =>
    let v := x.2
    match v.place with
    | none => []
    | some (core, slot) =>
      if v.halted ∨ !w.runs core then []
      else v.entries.filterMap fun y =>
        let s := y.2
        let c : Cur := ⟨x.1, y.1⟩
        if s.state = .ready ∧ s.hold = .none ∧ s.busy.isNone ∧ s.level = v.tlevel ∧ !w.dev.sys.stalled.contains c ∧
            !w.matchHeld v s then
          some ⟨core, slot, c, s.lastIssue⟩
        else none

/-- The quarter of a candidate. -/
def Cand.quarter (c : Cand) : Nat := 4 * c.core + c.slot / 16

/-- Whether a candidate has yielded and its quarter has not issued enough since (R108). -/
def Work.yielding (w : Work) (c : Cand) : Bool :=
  w.dev.sys.yields.any fun y => y.1 == c.quarter && y.2.1 == c.last

/-- Whether one candidate comes before another: older last issue, then lower core, slot and entry. -/
def Cand.before (a b : Cand) : Bool :=
  decide (a.last < b.last) || (a.last == b.last && (decide (a.core < b.core) || (a.core == b.core &&
    (decide (a.slot < b.slot) || (a.slot == b.slot && decide (a.cur.entry < b.cur.entry))))))

/-- The candidate that issues first of some: the oldest of those that have not yielded; in a quarter whose candidates have
all yielded the oldest of these (R108, log entry 30: DESIGN CHOICE). -/
def Work.firstOf (w : Work) (cs : List Cand) : Option Cand :=
  let open_ := cs.filter fun c =>
    !w.yielding c || !(cs.any fun d => d.quarter == c.quarter && !w.yielding d)
  open_.foldl (fun (m : Option Cand) c => match m with
    | none => some c
    | some b => if c.before b then some c else some b) none

/-- The candidate that issues. -/
def Work.select (w : Work) : Option Cand := w.firstOf w.cands

/-- The bundle at a checked place: from memory, or a copy that the quarter's fetch buffer or the instruction cache holds;
which of them, when they differ, is free (R195, log entry 6: DESIGN CHOICE). -/
def Work.fetchWord (w : Work) (core quarter : Nat) (p : Phys) : BitVec 64 × Work :=
  let now := bundleOf (w.bytes p.key 8)
  if p.kind ≠ 0 then (now, w)
  else
    let (x, w) := w.pick ((w.core core).copies quarter p.pa ++ [now]) now
    (x, w.modCore core fun c => c.keep quarter p.pa x)

/-- The fetch of a split's next bundle: a PC match comes before it, a place that may not be fetched is FETCH_FAULT, and a
bundle that the decoder refuses is ILLEGAL_BUNDLE (R61, R74, R387). -/
def Work.fetch (w : Work) (c : Cur) : Instr × Work :=
  let v := w.wave c.wid
  let s := v.split c.entry
  if (w.matchOf v s).isSome then (.pcMatchEntry, w)
  else
    let (r, w) := w.check v.ctx v.coreOf s.pc.toNat .x
    match r with
    | .ok p =>
      if w.badData p.key 8 then (.fetchFault, w)
      else
        let (x, w) := w.fetchWord v.coreOf (v.slot / 16) p
        match decode x with
        | .ok i => (i, w)
        | .error e => (.illegalBundle e.sub e.pair e.slot, w)
    | _ => (.fetchFault, w)

/-- The issue of a split as the next instruction. -/
def Work.turnIssue (w : Work) (c : Cur) : Instr × Work :=
  let w := w.modSys fun s => { s with cur := some c }
  w.fetch c

/-- An event as the next instruction: no split issues, and stalled splits are looked at again after it. -/
def Work.turnEvent (w : Work) (i : Instr) : Instr × Work :=
  (i, w.modSys fun s => { s with cur := none, stalled := [] })

/-- The turn of a phase: 0 an issue, 1 an event that is due, 2 a tick; each gives way to the next when it has nothing. -/
def Work.turn (w : Work) (phase : Nat) : Instr × Work :=
  let tick := (w.modSys fun s => { s with phase := 0 }).turnEvent .staticEnergyTick
  let event := match w.due with
    | some i => (w.modSys fun s => { s with phase := 2 }).turnEvent i
    | none => tick
  match phase with
  | 0 => match w.select with
    | some c => (w.modSys fun s => { s with phase := 1 }).turnIssue c.cur
    | none => event
  | 1 => event
  | _ => tick

/-- The turn of the phase; none when the power is off. -/
def Work.turnNow (w : Work) : Option (Instr × Work) :=
  if w.dev.sys.powered then some (w.turn w.dev.sys.phase) else none

/-- A turn to issue for the quarter of a split: its oldest candidate issues, as in every cycle of the quarter (R138); none when
the split is no candidate. -/
def Work.selectFor (w : Work) (core slot entry : Nat) : Option Cand :=
  let cs := w.cands
  match cs.find? fun c => c.core == core && c.slot == slot && c.cur.entry == entry with
  | some c => w.firstOf (cs.filter fun d => d.quarter == c.quarter)
  | none => none

/-- What a frozen part still serves (R390, R391): its registers and the commands that a write of one starts, host requests, which
it refuses, what ends the freeze, and its power; everything else of the agenda waits (log entry 96: DEDUCED). -/
def servedFrozen (t : Turn) : Option Instr :=
  match t with
  | .event i => match i with
    | .registerWrite .. | .traceEnableWrite .. | .pmovfClear .. | .capWrite .. | .attest .. | .halt .. | .debugResume ..
    | .read .. | .write .. | .freezeArm .. | .freezeResume | .linkedArmArrival .. | .linkedResumeArrival ..
    | .hostWindowAccess .. | .doorbellWrite .. | .powerOnReset .. | .powerOff => some i
    | _ => none
  | .issue .. => none

/-- A frozen part's next step: the first event of the agenda that it serves, or a tick, which stands. -/
def Work.nextFrozen (w : Work) : Instr × Work :=
  match firstSome w.dev.sys.agenda servedFrozen with
  | some i => (w.modSys fun s => { s with agenda := s.agenda.erase (.event i) }).turnEvent i
  | none => w.turnEvent .staticEnergyTick

/-- What the next step executes and the state it starts from: the head of the agenda, or the turn of the phase; none
when the power is off and nothing is on the agenda. A split that the agenda names waits there for its turn in its quarter; one
that is no candidate leaves the agenda. -/
def Work.next (w : Work) : Option (Instr × Work) :=
  if w.dev.tail.frozen then some w.nextFrozen
  else match w.dev.sys.agenda with
  | .event i :: rest => some ((w.modSys fun s => { s with agenda := rest }).turnEvent i)
  | .issue core slot entry :: rest =>
    let taken := w.modSys fun s => { s with agenda := rest }
    match w.selectFor core slot entry with
    | some c =>
      let mine := c.core = core ∧ c.slot = slot ∧ c.cur.entry = entry
      some ((if mine then taken else w).turnIssue c.cur)
    | none => taken.turnNow
  | [] => w.turnNow

/-- The next instruction of a state, with the state that executes it. -/
def nextOf (s : State) : Option (Instr × State) :=
  (Work.next ⟨s.mem, [], s.dev⟩).map fun x => (x.1, ⟨applyLog x.2.log s.mem, x.2.dev⟩)

end Sys2Proof.Machine
end

