-- ==== Sys2Proof/Machine/Samples.lean ====
section
/-! DEFINITION. Stall samples: which registers a bundle waits for, and why a split does not issue (24 R384, 01 R29). -/

namespace Sys2Proof.Machine

/-! ### Registers of a bundle -/

/-- Registers of an algebra operand on the wave's core, and of a slot's packed form (R122, R126). -/
def Work.dimAt (w : Work) (v : Wave) (t : BitVec 2) : Nat := tableDim (mget (w.core v.coreOf).al t.toNat [])
def Work.slotAt (w : Work) (v : Wave) (n : BitVec 3) : BitVec 64 := (w.launch v.lid).slots.getD n.toNat 0

/-- The registers of the integer, cross-lane and conversion bundles. -/
def Work.aluUses (w : Work) (v : Wave) (i : Instr) : Option (Guard × Uses) :=
  match i with
  | .iadd g d a b | .isub g d a b | .imul g d a b | .and g d a b | .or g d a b | .xor g d a b | .andn g d a b
  | .shl g d a b | .shr g d a b | .sar g d a b | .rotl g d a b | .imulh g d a b _ | .imin g d a b _ | .imax g d a b _
  | .isel g d a b _ _ => some (g, ⟨useOf a 1 0 :: opdUses b, some (d, 1)⟩)
  | .imad g d a b c => some (g, ⟨[useOf a 1 0, useOf b 1 1, useOf c 1 2], some (d, 1)⟩)
  | .iadd64 g d a b => some (g, ⟨useOf a 2 0 :: opd64Uses b, some (d, 2)⟩)
  | .idiv g d a b _ | .irem g d a b _ => some (g, ⟨[useOf a 1 0, useOf b 1 1], some (d, 1)⟩)
  | .iabs g d a | .ineg g d a | .not g d a | .popc g d a | .clz g d a | .brev g d a =>
    some (g, ⟨[useOf a 1 0], some (d, 1)⟩)
  | .lea g d a b _ _ => some (g, ⟨[useOf a 2 0, useOf b 1 1], some (d, 2)⟩)
  | .imadw g d a b c _ => some (g, ⟨[useOf a 1 0, useOf b 1 1, useOf c 2 2], some (d, 2)⟩)
  | .bfx g d a f _ => some (g, ⟨useOf a 1 0 :: fieldUses f, some (d, 1)⟩)
  | .bfi g d a f c => some (g, ⟨useOf a 1 0 :: (fieldUses f ++ [useOf c 1 2]), some (d, 1)⟩)
  | .bperm g d a b _ => some (g, ⟨[useOf a 4 0, useOf b 1 1], some (d, 1)⟩)
  | .bsel g d a b s => some (g, ⟨useOf a 1 0 :: useOf b 1 1 :: (match s with
      | .reg c => [useOf c 1 2]
      | .imm _ => []), some (d, 1)⟩)
  | .iset g _ a b _ _ => some (g, ⟨useOf a 1 0 :: opdUses b, none⟩)
  | .mov g d a wide => let n := if wide then 2 else 1; some (g, ⟨[useOf a n 0], some (d, n)⟩)
  | .movi g d _ | .pmov g (.get d) | .vote g (.ballot d) _ _ => some (g, ⟨[], some (d, 1)⟩)
  | .movk g kd a _ => some (g, ⟨[useOf a.src 1 0], some (.k kd, 1)⟩)
  | .pmov g (.put a _) => some (g, ⟨[useOf a 1 0], none⟩)
  | .shfl g d a n _ _ => some (g, ⟨useOf a.src 1 0 :: (match n with
      | .reg b => [useOf b 1 1]
      | .imm _ => []), some (d, 1)⟩)
  | .redux g d a _ => some (g, ⟨[useOf a.src 1 0], some (d, 1)⟩)
  | .frnd g f64 _ d a => some (g, ⟨[useOf a (fpRegs f64) 0], some (d, fpRegs f64)⟩)
  | .f2i g f64 _ d a ty => some (g, ⟨[useOf a (fpRegs f64) 0], some (d, ityRegs ty)⟩)
  | .i2f g f64 _ d a ty => some (g, ⟨[useOf a (ityRegs ty) 0], some (d, fpRegs f64)⟩)
  | .f2f g narrow _ d a => some (g, ⟨[useOf a (fpRegs narrow) 0], some (d, fpRegs (!narrow))⟩)
  | .cvt g out d a slot =>
    let n := fpRegs (slotFmt (w.slotAt v slot) == 7)
    some (g, if out then ⟨[useOf a n 0], some (d, 1)⟩ else ⟨[useOf a 1 0], some (d, n)⟩)
  | .cvtp g d a slot => some (g, ⟨[useOf a (32 / slotBits (w.slotAt v slot)) 0], some (d, 1)⟩)
  | .cvtu g d a slot => some (g, ⟨[useOf a 1 0], some (d, 32 / slotBits (w.slotAt v slot))⟩)
  | _ => none

/-- The registers of the float and algebra bundles. -/
def Work.floatUses (w : Work) (v : Wave) (i : Instr) : Option (Guard × Uses) :=
  match i with
  | .fadd g f64 _ d a b | .fsub g f64 _ d a b | .fmul g f64 _ d a b | .ffma g f64 _ d _ _ a b | .fmin g f64 d a b
  | .fmax g f64 d a b | .fdiv g f64 _ d a b =>
    some (g, ⟨[useOf a.src (fpRegs f64) 0, useOf b.src (fpRegs f64) 1], some (d, fpRegs f64)⟩)
  | .fset g f64 _ a b _ _ => some (g, ⟨[useOf a.src (fpRegs f64) 0, useOf b.src (fpRegs f64) 1], none⟩)
  | .fsqrt g f64 _ d a | .frcp g f64 _ d a | .frsq g f64 _ d a | .fexp2 g f64 _ d a | .flog2 g f64 _ d a
  | .fsin g f64 _ d a | .fcos g f64 _ d a => some (g, ⟨[useOf a.src (fpRegs f64) 0], some (d, fpRegs f64)⟩)
  | .fclass g f64 d a => some (g, ⟨[useOf a.src (fpRegs f64) 0], some (d, 1)⟩)
  | .hadd2 g _ _ d a b | .hmul2 g _ _ d a b | .hfma2 g _ _ d _ _ a b =>
    some (g, ⟨[useOf a.src 1 0, useOf b.src 1 1], some (d, 1)⟩)
  | .almul g _ d a b t | .almac g _ d a b t =>
    some (g, ⟨[useOf a (w.dimAt v t) 0, useOf b (w.dimAt v t) 1], some (d, w.dimAt v t)⟩)
  | .alconj g d a t => some (g, ⟨[useOf a (w.dimAt v t) 0], some (d, w.dimAt v t)⟩)
  | .alnorm g _ d a t => some (g, ⟨[useOf a (w.dimAt v t) 0], some (d, 1)⟩)
  | .altab g _ a _ => some (g, ⟨[addrUse a .g], none⟩)
  | _ => none

/-- The registers of every other bundle but WAIT; an event has none. -/
def otherUses (i : Instr) : Guard × Uses :=
  match i with
  | .brx g a _ | .callx g a _ => (g, ⟨[useOf a 2 0], none⟩)
  | .ld g d a wd sp _ | .gath g d a wd sp _ _ => (g, ⟨[addrUse a sp], some (d, wd.regs)⟩)
  | .ldr g d a wd _ => (g, ⟨[addrUse a .g], some (d, wd.regs)⟩)
  | .st g a b wd sp _ | .scat g a b wd sp _ _ => (g, ⟨[addrUse a sp, useOf b wd.regs 1], none⟩)
  | .pref g a _ _ => (g, ⟨[addrUse a .g], none⟩)
  | .atom g _ d a b c b64 _ _ sp =>
    let k := if b64 then 2 else 1
    (g, ⟨[addrUse a sp, useOf b k 1] ++ (c.map fun c => useOf c k 2).toList, some (d, k)⟩)
  | .red g _ a b b64 _ _ sp => (g, ⟨[addrUse a sp, useOf b (if b64 then 2 else 1) 1], none⟩)
  | .clrset g a b c => (g, ⟨[useOf a 2 0, useOf b 1 1, useOf c 1 2], none⟩)
  | .clrget g d a _ => (g, ⟨[addrUse a .g], some (d, 1)⟩)
  | .monq g d a => (g, ⟨[useOf a 1 0], some (d, 1)⟩)
  | .alloc g d a _ => (g, ⟨[useOf a 1 0], some (d, 2)⟩)
  | .free g a => (g, ⟨[useOf a 2 0], none⟩)
  | .wait g _ _ _ _ _ _ | .call g _ | .ret g => (g, ⟨[], none⟩)
  | .bari g _ (.reg a) => (g, ⟨[useOf a 1 0], none⟩)
  | .bara g d _ _ | .barq g d _ | .strmq g d _ | .mq g d | .tself g d => (g, ⟨[], some (d, 1)⟩)
  | .cpa g a b c _ _ => (g, ⟨[useOf a 1 0, useOf b 2 1] ++ (c.map fun c => useOf c 1 2).toList, none⟩)
  | .bcopy g _ _ _ _ _ f | .strm g _ _ _ _ f => (g, ⟨futUse f 1, none⟩)
  | .mcast g a b _ _ => (g, ⟨[useOf a 1 0, useOf b 1 1], none⟩)
  | .shld g _ a sc _ | .shst g _ a sc _ | .epil g a sc _ => (g, ⟨[addrUse a (if sc then .c else .g)], none⟩)
  | .shset g _ f a => (g, ⟨[useOf a (ShField.regs f) 0], none⟩)
  | .shget g d _ f => (g, ⟨[], some (d, ShField.regs f)⟩)
  | .mma g _ _ _ _ b _ => (g, ⟨[useOf b 1 1], none⟩)
  | .bld g _ b _ f => (g, ⟨useOf b 1 1 :: futUse f 2, none⟩)
  | .mdrain g _ _ _ _ _ _ f => (g, ⟨futUse f 2, none⟩)
  | .spawn g _ a b dom => (g, ⟨useOf a 2 0 :: useOf b 8 1 :: (dom.map fun x => useOf x.2 2 2).toList, none⟩)
  | .spawnf g _ a b c n => (g, ⟨[useOf a 2 0, useOf b 8 1, useOf c (2 * (n.toNat + 1)) 2], none⟩)
  | .futnew g a _ => (g, ⟨[useOf a 2 0], none⟩)
  | .futres g _ a b _ => (g, ⟨[useOf a 2 0, useOf b 2 1], none⟩)
  | .futget g d a _ => (g, ⟨[useOf a 2 0], some (d, 2)⟩)
  | .csrr g d n => (g, ⟨[], some (d, csrRegs n)⟩)
  | .csrw g n a => (g, ⟨[useOf a (csrRegs n) 0], none⟩)
  | .evt g a _ => (g, ⟨[useOf a 1 0], none⟩)
  | .tfence g | .mzero g _ _ | .slotf g _ _ => (g, ⟨[], none⟩)
  | .pairBundle x y => (⟨false, 0⟩, ⟨halfUses x 3 ++ halfUses y 11, none⟩)
  | _ => (⟨false, 0⟩, ⟨[], none⟩)

/-- The guard and the registers of a bundle of a wave. -/
def Work.usesOf (w : Work) (v : Wave) (i : Instr) : Guard × Uses :=
  match w.aluUses v i with
  | some x => x
  | none => (w.floatUses v i).getD (otherUses i)

/-- The lane whose register a bundle's field reads (R27). -/
def readsLane (v : Wave) (e : Iss) (i : Instr) (field l : Nat) : Nat :=
  match i with
  | .shfl _ _ _ n wd mode => if field = 0 then shflLane v e n (32 >>> wd.toNat) mode l else l
  | .movk _ _ _ lane => if field = 0 then lane.toNat else l
  | .pairBundle x y => pairLane x y field l
  | _ => l

/-! ### Why a split does not issue -/

/-- The producer that an empty register waits for, and the number of its issue (R29). -/
def Wave.producerOf (v : Wave) (y : Loc) : Option (Pc × Nat) := match v.stat y with
  | some (.empty p n) => some (p, n)
  | _ => none

/-- The most recently issued of several lanes' producers (R29). -/
def latestProducer (xs : List (Pc × Nat)) : Option Pc :=
  (xs.foldl (fun (m : Option (Pc × Nat)) x => match m with
    | none => some x
    | some y => if y.2 < x.2 then some x else some y) none).map (·.1)

/-- The producer of the first empty register that a bundle meets, in the order a, b, c, then any other (R29, R384). -/
def Wave.blamed (v : Wave) (e : Iss) (u : Uses) (at_ : Nat → Nat → Nat) : Option Pc :=
  let dst : List Use := match u.dst with
    | some (r, n) => [⟨r, n, 3, false⟩]
    | none => []
  let order := u.src.filter (·.field < 3) ++ dst ++ u.src.filter (3 ≤ ·.field)
  let regs := order.flatMap fun x => (List.range x.len).map fun i => (regAt x.reg i, x.field)
  firstSome regs fun r => latestProducer (e.act.filterMap fun l => v.producerOf (v.loc e r.1 (at_ r.2 l)))

/-- The registers that a bundle's pushes spill or its pops fill, those of one place in each lane together (R19, R102, R104,
R105). -/
def Work.frameLocs (w : Work) (v : Wave) (e : Iss) (i : Instr) : List (List Loc) :=
  let s := (w.launch v.lid).s
  let ofLane := fun (l : Nat) =>
    let d := (v.lane l).wdepth.toNat
    match i with
    | .call .. | .callx .. => if lowOf s d < lowOf s (d + 1) then spillLocs s l d else []
    | .ret .. | .rtt => if d = 0 then [] else fillLocs s l d
    | _ => []
  (List.range 24).map fun k => e.act.filterMap fun l => (ofLane l)[k]?

/-- The producer of the first empty one of such registers (R29, R384). -/
def Wave.blamedFrame (v : Wave) (ls : List (List Loc)) : Option Pc :=
  firstSome ls fun ys => latestProducer (ys.filterMap fun y => v.producerOf y)

/-- Whether a bundle whose registers are full waits on a counter, a slot or a place in a queue (R236, R242, R244, R246, R257,
log entry 62: DESIGN CHOICE). -/
def Work.waitsOn (w : Work) (v : Wave) (e : Iss) (i : Instr) : Bool :=
  match i with
  | .cpa _ _ _ _ tag _ => v.tagCount tag == 63
  | .mcast _ _ _ mask _ => (rolesIn mask).any fun q =>
      (w.roleBlock e.bid q).isNone || mget (w.block e.bid).free q 0 == 0
  | .slotf _ role _ => (w.roleBlock e.bid role.toNat).isNone
  | .strm _ _ ch _ _ _ => let c := w.chan e.core ch.toNat; c.owner != some e.bid && c.state != .idle
  | .mma _ _ pair _ _ _ _ | .mzero _ pair _ | .mdrain _ pair _ _ _ _ _ _ => w.orderFull e.core pair
  | .bld _ _ _ _ _ | .epil _ _ _ _ | .altab _ _ _ _ => w.orderFull e.core false
  | .tfence _ | .csrw _ 0x020 _ => v.longPending e.act
  | _ => false

/-- The bundle that a split would issue, if it can be fetched and decoded; nothing changes. -/
def Work.peek (w : Work) (v : Wave) (s : Split) : Option Instr :=
  match (w.check v.ctx v.coreOf s.pc.toNat .x).1 with
  | .ok p =>
    let now := bundleOf (w.bytes p.key 8)
    let x := if p.kind = 0 then ((w.core v.coreOf).copies (v.slot / 16) p.pa).headD now else now
    match decode x with
    | .ok i => some i
    | .error _ => none
  | _ => none

/-- What the next bundle of a split waits for, if its registers or a counter hold it back (R27, R29, R384). -/
def Work.bundleWaits (w : Work) (wid n : Nat) (s : Split) : Option (Nat × Pc) :=
  let v := w.wave wid
  match w.peek v s with
  | none => none
  | some i =>
    let (g, u) := w.usesOf v i
    let e := w.iss ⟨wid, n⟩ g
    let u := match i with
      | .wait _ d a b c _ _ => waitUses v e d a b c
      | _ => u
    match v.ready e u (readsLane v e i) with
    | .stall => some (2, (v.blamed e u (readsLane v e i)).getD 0)
    | .ok => match v.blamedFrame (w.frameLocs v e i) with
      | some p => some (2, p)
      | none => if w.waitsOn v e i then some (4, 0) else none
    | _ => none

/-- Why a split of a placed wave does not issue, with the blamed PC, the first of the table's reasons that applies; none for a
candidate (R138, R384). -/
def Work.holdReason (w : Work) (wid n : Nat) (s : Split) : Option (Nat × Pc) :=
  let v := w.wave wid
  if v.halted then some (11, 0)
  else match s.state, s.reason with
    | .parked, .colour => some (6, 0)
    | .parked, .wait => some (7, 0)
    | .parked, .page => some (8, 0)
    | .parked, .frontier => some (9, 0)
    | .parked, _ => some (11, 0)
    | .trapped, _ => some (12, 0)
    | .ready, _ =>
      let free := s.busy.isNone && s.hold == .none && s.level == v.tlevel && !w.matchHeld v s
      if free && (w.matchOf v s).isSome then none
      else match w.bundleWaits wid n s with
        | some r => some r
        | none =>
          if s.busy.isSome then some (5, s.pc)
          else if s.hold ≠ .none ∨ w.matchHeld v s then some (10, 0)
          else if s.level ≠ v.tlevel then some (12, 0)
          else none

/-- The candidates of a quarter. -/
def Work.quarterCands (w : Work) (core q : Nat) : List Cand :=
  (w.wavesOn core).flatMap fun x => match x.2.place with
    | some (_, slot) =>
      if slot / 16 ≠ q then []
      else x.2.entries.filterMap fun y =>
        if (w.holdReason x.1 y.1 y.2).isNone then some ⟨core, slot, ⟨x.1, y.1⟩, y.2.lastIssue⟩ else none
    | none => []

/-- The records of one wave (R384): one for each resident split. -/
def Work.sampleWave (w : Work) (core wid : Nat) : Work :=
  let v := w.wave wid
  let best := w.firstOf (w.quarterCands core (v.slot / 16))
  v.entries.foldl (fun x y =>
    let (reason, blame) := match w.holdReason wid y.1 y.2 with
      | some r => r
      | none => (if (best.map fun (b : Cand) => b.cur == (⟨wid, y.1⟩ : Cur)) = some true then 0 else 1, 0)
    let who : Subject := ⟨core, v.ctx, v.slot, y.1, y.2.mask⟩
    x.trace (recordBytes (recordWords x 2 who true (reason * 2 ^ 60 + y.2.pc.toNat) blame.toNat))) w

/-- The next wave of a core after the slot sampled last; confidential contexts are skipped (R384). -/
def Work.sampleCore (w : Work) (core : Nat) : Work :=
  let last := (w.core core).sampled
  let slots := (List.range 64).map fun i => (last + 1 + i) % 64
  match firstSome slots fun n => ((w.waveAt core n).filter fun x => !w.conf (w.wave x).ctx).map fun x => (n, x) with
  | none => w
  | some (n, wid) => (w.sampleWave core wid).modCore core fun c => { c with sampled := n }

/-- STALL_SAMPLE (R384): every core whose clocks run. -/
def execStallSample (s : State) : Host.Outcome State Fault Refusal :=
  commit (fun w =>
    let t := w.dev.tail
    if !t.sen ∨ t.sper = 0 then w
    else
      let cores := (List.range Config.cores).filter fun c => w.runs c && !(w.wavesOn c).isEmpty
      cores.foldl (fun w c => w.sampleCore c) w) s

end Sys2Proof.Machine
end

