-- ==== Sys2Proof/Machine/Debug.lean ====
section
/-! DEFINITION. Debug commands on waves, freezes, and the registers of trace and performance counters (24 R380, R385, R386,
R390–R393). -/

namespace Sys2Proof.Machine

/-! ### Halting and resuming (R386) -/

/-- A debug command ends with its code. -/
def Work.debugEnd (w : Work) (r : Nat) : Work := w.modTail fun t => { t with dres := BitVec.ofNat 8 r }

/-- A debug command on the wave at a core and a slot: it wakes the core (R402); a core that does not exist answers 4, a slot
that holds no wave 1. -/
def Work.onWave (w : Work) (core slot : Nat) (f : Nat → Work → Work) : Work :=
  if Config.cores ≤ core then w.debugEnd 4
  else
    let w := w.wakeCore core
    match w.waveAt core slot with
    | none => w.debugEnd 1
    | some wid => f wid w

/-- A wave halts for the debugger: STATE and REASON of its splits are kept. -/
def Wave.debugHalt (v : Wave) : Wave :=
  if v.halted then v else { v.mapSplits Split.rehalt with halted := true, recorded := true }

/-- A halted wave goes on (R386): the kept states return; a wave that R143 halted retries the bundle of every split. -/
def Wave.debugResume (v : Wave) : Wave :=
  if v.recorded then { v.mapSplits Split.unhalt with halted := false, recorded := false }
  else { v.mapSplits fun s => { s with state := .ready, reason := .none, trap := none } with halted := false }

/-- HALT (R386). -/
def execHalt (core slot : Nat) (s : State) : Host.Outcome State Fault Refusal :=
  commit (fun w => w.onWave core slot fun wid w => (w.modWave wid Wave.debugHalt).debugEnd 0) s

/-- DEBUG_RESUME (R386). -/
def execDebugResume (core slot : Nat) (s : State) : Host.Outcome State Fault Refusal :=
  commit (fun w => w.onWave core slot fun wid w =>
    if !(w.wave wid).halted then w.debugEnd 2
    else (((w.modWave wid Wave.debugResume).settle wid).tryTrap wid).debugEnd 0) s

/-! ### Split-table words (R134) -/

def SplitState.code : SplitState → Nat
  | .ready => 0
  | .parked => 1
  | .trapped => 2
def SplitState.ofCode (n : Nat) : SplitState := if n = 1 then .parked else if n = 2 then .trapped else .ready
def Reason.code : Reason → Nat
  | .none => 0
  | .colour => 1
  | .wait => 2
  | .page => 3
  | .frontier => 4
  | .halt => 5
def Reason.ofCode (n : Nat) : Reason :=
  match n with
  | 1 => .colour
  | 2 => .wait
  | 3 => .page
  | 4 => .frontier
  | 5 => .halt
  | _ => .none
def Hold.code : Hold → Nat
  | .none => 0
  | .merge => 1
  | .rtt => 2
def Hold.ofCode (n : Nat) : Hold := if n = 1 then .merge else if n = 2 then .rtt else .none

/-- A word of a valid entry (R134). -/
def Split.word (s : Split) (high : Bool) : Nat :=
  if high then
    s.mask.toNat * 2 ^ 32 + (if s.state = .trapped then ((s.trap.map fun t => t.cause.toNat).getD 0) else 0) * 2 ^ 24 +
      s.reason.code * 2 ^ 20 + s.hold.code * 2 ^ 18
  else 2 ^ 63 + s.state.code * 2 ^ 58 + s.level.toNat * 2 ^ 56 + s.pc.toNat

/-- An entry with a word written (R134). -/
def Split.putWord (s : Split) (high : Bool) (x : Nat) : Split :=
  if high then
    let t := s.trap.map fun t => { t with cause := BitVec.ofNat 8 (x / 2 ^ 24) }
    { s with mask := BitVec.ofNat 32 (x / 2 ^ 32), trap := t, reason := Reason.ofCode (bits x 23 20)
             hold := Hold.ofCode (bits x 19 18) }
  else { s with state := SplitState.ofCode (bits x 59 58), level := BitVec.ofNat 2 (x / 2 ^ 56), pc := pcOf x }

/-- A stack entry by its number, 4 for the bottom of the stack (log entry 62: DESIGN CHOICE). -/
def Wave.stackAt (v : Wave) (n : Nat) : Nat := v.overflow.length - 1 - (n - 4)

/-- An entry by its number, if it is valid: 0–3 resident, 4–31 on the stack. -/
def Wave.entry? (v : Wave) (n : Nat) : Option Split :=
  if n < 4 then mget? v.entries n else if n - 4 < v.overflow.length then v.overflow[v.stackAt n]? else none

/-- A resident entry is written, made valid, or made invalid, by a split-table word. A new split's kept state is READY. -/
def Wave.putEntryWord (v : Wave) (n : Nat) (high : Bool) (x : Nat) : Wave :=
  match mget? v.entries n with
  | some s =>
    if high ∨ bit x 63 then v.setSplit n (s.putWord high x) else { v with entries := mdel v.entries n }
  | none =>
    if high ∨ !bit x 63 then v
    else v.setSplit n { Split.blank.putWord false x with kept := if v.recorded then some (.ready, .none) else none }

/-- A split-table word is written (R386). An entry of the stack is written in place (log entry 62: DESIGN CHOICE). -/
def Wave.putSplitWord (v : Wave) (n : Nat) (high : Bool) (x : Nat) : Wave :=
  if n < 4 then v.putEntryWord n high x
  else match v.entry? n with
    | none => v
    | some s => { v with overflow := v.overflow.set (v.stackAt n) (s.putWord high x) }

/-! ### Reading and writing registers (R386) -/

/-- Where a logical stack register of a lane stands: resident, or in a spilled block with its place there (R18, R31). -/
inductive VPlace where
  | window (pos : Nat)
  | block (e : StackEntry) (i : Nat)
  | absent
  deriving DecidableEq, Repr

def Work.vPlace (w : Work) (wid l x : Nat) : VPlace :=
  let v := w.wave wid
  let s := (w.launch v.lid).s
  let y := v.lane l
  let low := lowOf s y.wdepth.toNat
  if low + s ≤ x then .absent
  else if low ≤ x then .window (x % s)
  else match ((y.stack.filter fun e => e.block).reverse)[x / 24]? with
    | some e => .block e (x % 24)
    | none => .absent

/-- A register by class and index, or none when the index is out of range. -/
def Work.debugRead (w : Work) (wid l : Nat) (sel : DbgSel) : Option Nat :=
  let v := w.wave wid
  let i := sel.idx.toNat
  match sel.cls.toNat with
  | 0 => match w.vPlace wid l i with
    | .window p => some (v.rd (0, 1024 * l + p)).toNat
    | .block e n => some (leNat (slice (w.getEntry wid l e) (4 * n) 4))
    | .absent => none
  | 1 => if i < 32 then some (if i = 31 then 0 else (v.rd (1, i)).toNat) else none
  | 2 => if i < 8 then some (b2n ((v.lane l).pred (BitVec.ofNat 3 i))) else none
  | 3 => if i < 16 then some (v.rd (2, 16 * l + i)).toNat else none
  | 4 => if (csrWide sel.idx).isSome then some (w.csr wid 0 l i) else none
  | 5 => if i < 64 then some (((v.entry? (i / 2)).map fun s => s.word (i % 2 == 1)).getD 0) else none
  | _ => none

/-- A RO CSR of a lane, written by the debugger. -/
def Lane.csrForce (x : Lane) (num y : Nat) : Lane :=
  let task := fun (f : TaskRec → TaskRec) => { x with task := x.task.map f }
  match num with
  | 0x011 => { x with wdepth := BitVec.ofNat 12 y }
  | 0x061 => task fun t => { t with ts := BitVec.ofNat 64 y }
  | 0x062 => task fun t => { t with seq := BitVec.ofNat 64 (t.seq.toNat / 2 ^ 32 * 2 ^ 32 + y % 2 ^ 32) }
  | _ => x.csrPut num y

/-- A RO CSR of a wave, written by the debugger. -/
def Wave.csrForce (v : Wave) (num y : Nat) : Wave :=
  match num with
  | 0x031 => v.setTrapSet fun t => { t with cause := BitVec.ofNat 8 y }
  | 0x033 => v.setTrapSet fun t => { t with mask := BitVec.ofNat 32 y }
  | 0x034 => v.setTrapSet fun t => { t with addr := BitVec.ofNat 64 y }
  | 0x035 => v.setTrapSet fun t => { t with info := BitVec.ofNat 32 y }
  | 0x036 => { v with tlevel := BitVec.ofNat 2 (min 2 (y % 4)) }
  | _ => v.csrPut num y

/-- A RO CSR of a core, a context or the part, written by the debugger. -/
def Work.csrForcePart (w : Work) (wid num y : Nat) : Work :=
  let v := w.wave wid
  let core := v.coreOf
  let energy := fun (f : Energy → Energy) =>
    w.modCtx v.ctx fun c => { c with energy := mput c.energy core (f (c.energyOn core)) }
  match num with
  | 0x040 => w.modSys fun s => { s with gtick := BitVec.ofNat 64 y }
  | 0x041 => w.modCore core fun c => { c with missed := (w.dev.sys.cyc : Int) - 20 * (y : Int) }
  | 0x050 => energy fun x => { x with e := BitVec.ofNat 64 (y % 2 ^ 48 * 2 ^ 16 + x.e.toNat % 2 ^ 16) }
  | 0x051 => energy fun x => { x with e := BitVec.ofNat 64 (x.e.toNat / 2 ^ 16 * 2 ^ 16 + y % 2 ^ 16) }
  | 0x052 => energy fun x => { x with sat := bit y 0 }
  | 0x053 => w.modCore core fun c => { c with statp := BitVec.ofNat 32 y }
  | n =>
    if 0x100 ≤ n ∧ n ≤ 0x109 then
      w.modCtx v.ctx fun c => { c with rec_ := { c.rec_ with ewt := c.rec_.ewt.set (n - 0x100) (BitVec.ofNat 32 y) } }
    else w.csrPutCtx v.ctx num y

/-- A CSR written by the debugger (R386): as CSRW does, and RO CSRs too; one that holds no state of its own is recorded as
written (log entry 62: DESIGN CHOICE). -/
def Work.csrForce (w : Work) (wid l num y : Nat) : Work :=
  match csrFixed num with
  | some m => w.modSys fun s => { s with forced := mput s.forced (w.forcedKey wid l num) (y &&& m, w.csrOwn wid 0 l num) }
  | none =>
    match num, csrScope num with
    | 0x002, _ => w.modBlock (w.wave wid).bid fun b => { b with idx := BitVec.ofNat 64 y }
    | _, 0 => w.modLane wid l fun x => x.csrForce num y
    | _, 1 => w.modWave wid fun v => v.csrForce num y
    | _, _ => w.csrForcePart wid num y

/-- A register of a halted wave is written, and set full (R386); none when the index is out of range. -/
def Work.debugWrite (w : Work) (wid l : Nat) (sel : DbgSel) (x : BitVec 64) : Option Work :=
  let i := sel.idx.toNat
  let y : Word := x.setWidth 32
  let put := fun (loc : Loc) => w.modWave wid fun v => v.wr loc y
  match sel.cls.toNat with
  | 0 => match w.vPlace wid l i with
    | .window p => some (put (0, 1024 * l + p))
    | .block e n =>
      let bs := w.getEntry wid l e
      some (w.putEntry wid l e (bs.take (4 * n) ++ leBytes 4 y.toNat ++ bs.drop (4 * n + 4)))
    | .absent => none
  | 1 => if i < 32 then some (if i = 31 then w else put (1, i)) else none
  | 2 => if i < 8 then some (w.modLane wid l fun z => z.setPred (BitVec.ofNat 3 i) (x.getLsbD 0)) else none
  | 3 => if i < 16 then some (put (2, 16 * l + i)) else none
  | 4 => if (csrWide sel.idx).isSome then some (w.csrForce wid l i x.toNat) else none
  | 5 => if i < 64 then some (w.modWave wid fun v => v.putSplitWord (i / 2) (i % 2 == 1) x.toNat) else none
  | _ => none

/-- READ (R386): refused on a wave of a confidential context, and 0 then. -/
def execRead (core slot lane : Nat) (sel : DbgSel) (s : State) : Host.Outcome State Fault Refusal :=
  commit (fun w => w.onWave core slot fun wid w =>
    if w.conf (w.wave wid).ctx then (w.modTail fun t => { t with ddata := 0 }).debugEnd 3
    else match if lane < 32 then w.debugRead wid lane sel else none with
      | none => w.debugEnd 4
      | some x => (w.modTail fun t => { t with ddata := BitVec.ofNat 64 x }).debugEnd 0) s

/-- WRITE (R386): of DDATA, on a halted wave. -/
def execWrite (core slot lane : Nat) (sel : DbgSel) (s : State) : Host.Outcome State Fault Refusal :=
  commit (fun w => w.onWave core slot fun wid w =>
    if !(w.wave wid).halted then w.debugEnd 2
    else if w.conf (w.wave wid).ctx then w.debugEnd 3
    else match if lane < 32 then w.debugWrite wid lane sel w.dev.tail.ddata else none with
      | none => w.debugEnd 4
      | some w => w.debugEnd 0) s

/-! ### Freezing at a tick (R390, R391) -/

/-- FREEZE_ARM (R390): refused without LINKED in a domain of several devices. -/
def execFreezeArm (linked : Bool) (s : State) : Host.Outcome State Fault Refusal :=
  commit (fun w =>
    if w.dev.hub.linked ∧ !linked then w.modTail fun t => { t with refused := true }
    else w.modTail fun t => { t with arm := true, refused := false, linked := linked }) s

/-- FREEZE_START (R390): at tick FRZT, or at the next one with LATE. Whether FRZT has passed is a plain comparison of the two
64-bit ticks (log entry 95: DESIGN CHOICE). -/
def execFreezeStart (s : State) : Host.Outcome State Fault Refusal :=
  commit (fun w =>
    let t := w.dev.tail
    if !t.arm ∨ w.gtick < t.frzt then w
    else w.modTail fun t => { t with frozen := true, arm := false, late := decide (t.frzt < w.gtick) }) s

/-- What the debug port delivers of a core (R391), in the parts and the order of R354: its waves, each with its threads'
lane-private bytes, its blocks with their scratchpad, the core itself, and its cluster's memory. -/
structure CoreImage where
  waves : List (Wave × List (List Byte))
  blocks : List (Block × List Byte)
  core : Core
  cluster : List Byte
  deriving DecidableEq, Repr

/-- A context's image: its state and chip scratchpad, and its records in the layouts that the debugger reads (R165, R281, R282, R289,
R300, R337). -/
structure CtxImage where
  state : Context
  chip : List Byte
  pool : List (Nat × List Byte)
  domains : List (List Nat)
  directory : List (List Nat)
  faults : List (List Nat)
  deriving DecidableEq, Repr

/-- A context's image. -/
def Work.ctxImage (w : Work) (ctx : Nat) : CtxImage :=
  let c := w.ctx ctx
  { state := c, chip := w.bytes (PAddr.chip ctx 0).key c.rec_.chipw, pool := c.tasks.poolBytes
    domains := c.tasks.doms.map fun d => d.2.words d.1, directory := c.dir.map fun m => w.monWords ctx m.1
    faults := ((w.dev.mmu.faults.filter fun r => r.ctx == ctx) ++ c.faults).map fun r => r.words }

/-- A part of a dump as it leaves: a confidential context's is ciphertext. -/
inductive Dumped (α : Type) where
  | clear (x : α)
  | sealed (ciphertext : Nat)
  deriving DecidableEq, Repr

/-- A core's image. -/
def Work.coreImage (w : Work) (core : Nat) : CoreImage :=
  let vs := (w.dev.waves.filter fun v => v.2.place.isSome && v.2.coreOf == core)
  let bs := (vs.map fun v => v.2.bid).eraseDups
  let threads := fun (v : Nat × Wave) =>
    (List.range 32).map fun l => w.bytes (PAddr.lane v.1 l 0).key (w.launch v.2.lid).l
  let cluster := match bs with
    | [] => []
    | b :: _ =>
      let lid := (w.block b).lid
      let lc := w.launch lid
      let k := (w.block b).lcore / 8
      w.bytes (PAddr.cluster lid k 0).key ((lc.rolesOf k).length * lc.lend)
  { waves := vs.map fun v => (v.2, threads v)
    blocks := bs.map fun b => (w.block b, w.bytes (PAddr.scratch b 0).key (w.launch (w.block b).lid).beta)
    core := w.core core, cluster := cluster }

/-- The debug port's dump of the part, core by core and then the contexts' state, while it is frozen (R391). A part that
belongs to a confidential context leaves as ciphertext under the dump's own key (log entry 73: DESIGN CHOICE). -/
def Work.dump (w : Work) (dumpNo : Nat) : List (Dumped CoreImage) × List (Nat × Dumped CtxImage) :=
  let sealed := fun (part : Nat) => Config.dumpCipher dumpNo part
  if !w.dev.tail.frozen then ([], [])
  else
    ((List.range Config.cores).map fun c =>
      let image := w.coreImage c
      let owners := image.waves.map fun v => v.1.ctx
      if owners.any w.conf ∨ ((w.core c).owner.map w.conf).getD false then .sealed (sealed c) else .clear image,
     w.dev.ctxs.map fun c => (c.1,
      if w.conf c.1 then .sealed (sealed (Config.cores + c.1))
      else .clear (w.ctxImage c.1)))

/-- A freeze ends (R391); the tick at which it began goes on with its sample (R384). Not frozen, nothing. -/
def Work.thaw (w : Work) : Work :=
  if !w.dev.tail.frozen then w
  else
    let t := w.dev.tail
    let w := w.modTail fun t => { t with frozen := false }
    if t.samples w.gtick then w.modSys fun s => { s with agenda := .event .stallSample :: s.agenda } else w

/-- FREEZE_RESUME (R391). -/
def execFreezeResume (s : State) : Host.Outcome State Fault Refusal := commit (fun w => w.thaw) s

/-- LINKED_ARM_ARRIVAL (R390): an arm and its FRZT from another device of the domain. -/
def execLinkedArmArrival (link : BitVec 4) (frzt : BitVec 64) (s : State) : Host.Outcome State Fault Refusal :=
  commit (fun w =>
    if w.linkUp link.toNat then
      w.modTail fun t => { t with arm := true, refused := false, linked := true, frzt := frzt }
    else w) s

/-- LINKED_RESUME_ARRIVAL (R391). -/
def execLinkedResumeArrival (link : BitVec 4) (s : State) : Host.Outcome State Fault Refusal :=
  commit (fun w => if w.linkUp link.toNat then w.thaw else w) s

/-! ### Trace and counters (R380, R392, R393) -/

/-- TRACE_ENABLE_WRITE (R380): a 1 in TEN where the written value was 0 starts a trace. -/
def execTraceEnableWrite (value : BitVec 64) (s : State) : Host.Outcome State Fault Refusal :=
  commit (fun w => w.modTail fun t =>
    let t := if value.getLsbD 0 ∧ !t.ten then { t with twptr := 0, tlost := 0 } else t
    { t with ten := value.getLsbD 0, full := t.full && !value.getLsbD 0, wrap := value.getLsbD 1, sen := value.getLsbD 2, tport := value.getLsbD 4 }) s

/-- PMC_OVERFLOW (R393). -/
def execPmcOverflow (core : Nat) (n : BitVec 3) (s : State) : Host.Outcome State Fault Refusal :=
  commit (fun w => w.pmcOverflow core n.toNat) s

/-- PMOVF_CLEAR (R392, R393): a bit whose counter overflows meanwhile is set again by that overflow. -/
def execPmovfClear (core : Nat) (mask : BitVec 8) (s : State) : Host.Outcome State Fault Refusal :=
  commit (fun w => w.modCore core fun c => { c with pmovf := c.pmovf &&& ~~~mask }) s

end Sys2Proof.Machine
end

