-- ==== Sys2Proof/Machine/Registers.lean ====
section
/-! DEFINITION. Writes of the part's registers in BAR 0, and attestation (00 R11, 21 R349, R350, 24 R380, R386, R390, R392, 25
R399, R400). -/

namespace Sys2Proof.Machine

/-! ### Attestation (R399) -/

/-- Bytes that the root reads through a context's mappings, raw; none where a page is unmapped, its data uncorrectable, or the
access tables refuse it. -/
def Work.rawPiece (w : Work) (ctx va n : Nat) : Option (List Byte) :=
  match walk w ctx va with
  | .bad _ => none
  | .leaf e at_ level =>
    let p := physOf e at_ level va
    let target := p.via.getD (hbmTarget p.pa)
    if (p.via.map w.targetUp).getD true ∧ tableAllows w.dev.hub target ctx 0 (if p.kind = 0 then some p.pa else none) ∧ !w.badData p.key n then
      some (w.bytes p.key n)
    else none

/-- A range, piece by piece. -/
def Work.rawRange (w : Work) (ctx va n : Nat) : Option (List Byte) :=
  if 2 ^ 56 < va + n then none
  else (linePieces va n).foldl (fun (r : Option (List Byte)) x => match r with
    | none => none
    | some bs => (w.rawPiece ctx x.1 x.2).map fun y => bs ++ y) (some [])

/-- The bytes of a digest or a signature, the first lowest. -/
def digestBytes (x : BitVec 512) : List Byte := leBytes 64 x.toNat

/-- The report without its signature: 256 bytes. -/
def Work.reportBody (w : Work) (ctx : Nat) (nonce range : List Byte) (va len : Nat) : List Byte :=
  leBytes 8 (1 + ctx * 2 ^ 8 + b2n (w.conf ctx) * 2 ^ 14) ++ leBytes 8 w.gtick.toNat ++ nonce ++
    digestBytes w.dev.sec.fwDigest ++ digestBytes (Config.sha512 (w.ctx ctx).rec_.bytes) ++ digestBytes (Config.sha512 range) ++
    leBytes 8 va ++ leBytes 8 len

/-- The effect of ATTEST, with its code. -/
def Work.attest (w : Work) (ctx : Nat) : Nat × Work :=
  let ain := w.dev.sec.ain.toNat
  let aout := w.dev.sec.aout.toNat
  let q := w.bytes (PAddr.host ain).key 64
  let va := (le64 q 32).toNat
  let len := (le64 q 40).toNat
  if ain % 64 ≠ 0 ∨ aout % 64 ≠ 0 ∨ 2 ^ 30 < len ∨ leNat (slice q 48 16) ≠ 0 then (1, w)
  else if (mget? w.dev.ctxs ctx).isNone then (2, w)
  else match w.rawRange ctx va len with
    | none => (3, w)
    | some bs =>
      let body := w.reportBody ctx (slice q 0 32) bs va len
      (0, w.putBytes (PAddr.host aout).key (body ++ digestBytes (Config.signIdentity (Config.sha512 body))))

/-- ATTEST (R399). -/
def execAttest (ctx : BitVec 6) (s : State) : Host.Outcome State Fault Refusal :=
  commit (fun w =>
    let (r, w) := w.attest ctx.toNat
    w.modSec fun x => { x with ares := BitVec.ofNat 8 r }) s

/-! ### Register writes (R11) -/

/-- The step that a register write starts is the next one. -/
def Work.starts (w : Work) (i : Instr) : Work := w.modSys fun s => { s with agenda := .event i :: s.agenda }

/-- A write of the mailbox's command register (R349, R350). -/
def Work.mailbox (w : Work) (x : Nat) : Work :=
  if w.dev.hub.busy then w
  else
    let ctx := BitVec.ofNat 6 (x / 2 ^ 8)
    let go := fun (i : Instr) => (w.modHub fun h => { h with busy := true }).starts i
    match x % 256 with
    | 0x01 => go (.create ctx)
    | 0x02 => go (.destroy ctx)
    | 0x03 => go (.suspend ctx)
    | 0x04 => go (.resume ctx)
    | 0x05 => go (.status ctx)
    | 0x10 => go (.setvw (BitVec.ofNat 2 (x / 2 ^ 16)))
    | op => w.commandEnd op (if w.dev.sec.boot ≠ 0 then 6 else 1)

/-- A write of a mailbox register by function 0 of a port: checked at target 8 for MGMT (R374, R376), which a Headstock held in
reset does not do (R398); ignored while the part is frozen (R390). -/
def Work.mailboxWrite (w : Work) (port : Nat) (off : Nat) (x : BitVec 64) : Work :=
  let m := 64 + 2 * port
  let e := mget w.dev.hub.access (88 * 8 + m) 0
  if w.dev.tail.frozen then w
  else if w.dev.sec.boot = 0 ∧ !(e.getLsbD 15 && e.getLsbD 3) then
    w.outsideViolation m 8 3 off
  else if off = 0 then w.modHub fun h => { h with cmda := x }
  else w.mailbox x.toNat

/-- A write of the freeze register (R390): LINKED, then ARM, then RESUME. -/
def Work.freezeWrite (w : Work) (x : BitVec 64) : Work :=
  let l := x.getLsbD 1
  let w := w.modTail fun t => { t with linked := l }
  let w := if x.getLsbD 3 then w.starts .freezeResume else w
  if x.getLsbD 0 then w.starts (.freezeArm l) else w.modTail fun t => { t with arm := false, refused := false }

/-- A write of the debug command register (R386). -/
def Work.debugCommand (w : Work) (x : Nat) : Work :=
  let core := bits x 15 8
  let slot := bits x 21 16
  let lane := bits x 26 22
  let d := w.dev.tail.dsel.toNat
  let sel : DbgSel := ⟨BitVec.ofNat 4 (d / 2 ^ 12), BitVec.ofNat 12 d⟩
  match x % 256 with
  | 1 => w.starts (.halt core slot)
  | 2 => w.starts (.debugResume core slot)
  | 3 => w.starts (.read core slot lane sel)
  | 4 => w.starts (.write core slot lane sel)
  | _ => w.debugEnd 4

/-- A write of a core's counter block (R392, R393): an overflow that stands comes before a write of its counter or selector. -/
def Work.counterWrite (w : Work) (core off : Nat) (x : BitVec 64) : Work :=
  let n := off / 8 % 8
  let set := fun (w : Work) (f : Pmc → Pmc) => w.modCore core fun c => { c with pmcs := mmod c.pmcs n Pmc.blank f }
  if off < 0x40 then set (w.pmcOverflow core n) fun p => { p with cnt := x }
  else if off < 0x80 then set (w.pmcOverflow core n) fun p => { p with sel := x &&& 0x37FFF }
  else if off = 0x80 then w.starts (.pmovfClear core (x.setWidth 8))
  else w

/-- The fields of a register by its offset, with the value written (R11, R380, R386, R399, R400). -/
def Work.registerWrite (w : Work) (port off : Nat) (x : BitVec 64) : Work :=
  let low12 : BitVec 64 := x &&& ~~~0xFFF#64
  match off with
  | 0x0 | 0x8 => w.mailboxWrite port off x
  | 0x1000 => w.starts (.traceEnableWrite x)
  | 0x1008 => w.modTail fun t => { t with tbase := low12 }
  | 0x1010 => w.modTail fun t =>
    let t := { t with tsize := x.setWidth 32 }
    { t with full := t.full || t.fills }
  | 0x1028 => w.modTail fun t => { t with sper := x.setWidth 32 }
  | 0x1030 => w.modTail fun t => { t with frzt := x }
  | 0x1038 => w.freezeWrite x
  | 0x1040 => w.modTail fun t => { t with flbase := low12 }
  | 0x1048 => w.modTail fun t => { t with flport := x.getLsbD 5, flen := x.getLsbD 4, fllog := x.setWidth 4 }
  | 0x1050 => w.modTail fun t => { t with flhead := x.setWidth 32 }
  | 0x1080 => w.debugCommand x.toNat
  | 0x1088 => w.modTail fun t => { t with dsel := x.setWidth 16 }
  | 0x1090 => w.modTail fun t => { t with ddata := x }
  | 0x2000 =>
    if x.toNat % 256 = 1 then w.starts (.attest (BitVec.ofNat 6 (x.toNat / 2 ^ 8)))
    else w.modSec fun s => { s with ares := 1 }
  | 0x2008 => w.modSec fun s => { s with ain := x }
  | 0x2010 => w.modSec fun s => { s with aout := x }
  | 0x3000 => w.starts (.capWrite x)
  | o => if 0x10000 ≤ o ∧ o < 0x10000 + 0x100 * Config.cores then w.counterWrite ((o - 0x10000) / 0x100) (o % 0x100) x else w

/-- Whether an offset lies in the Tailstock's block, which the debug port reaches too (R380, R392). -/
def tailstockReg (off : Nat) : Bool := (0x1000 ≤ off && off < 0x2000) || 0x10000 ≤ off

/-! ### Register reads (R11) -/

/-- A debug command, or an attestation, has started and not ended (R386, R399). -/
def debugCommand? (i : Instr) : Bool :=
  match i with
  | .halt .. | .debugResume .. | .read .. | .write .. => true
  | _ => false
def attestCommand? (i : Instr) : Bool :=
  match i with
  | .attest _ => true
  | _ => false

/-- Whether a command that a register write started is still to run. -/
def Work.runsCommand (w : Work) (p : Instr → Bool) : Bool :=
  w.dev.sys.agenda.any fun t => match t with
    | .event i => p i
    | .issue .. => false

/-- What a counter reads as: one whose overflow stands reads as wrapped, with bit 63 set (R393). -/
def Pmc.read (p : Pmc) : BitVec 64 := if p.past = 0 then p.cnt else BitVec.ofNat 64 (2 ^ 63 + p.past % 2 ^ 63)

/-- A read of a core's counter block (R392). -/
def Work.readCounter (w : Work) (core off : Nat) : BitVec 64 :=
  let c := w.core core
  let p := mget c.pmcs (off / 8 % 8) Pmc.blank
  if off < 0x40 then p.read else if off < 0x80 then p.sel else if off = 0x80 then c.pmovf.setWidth 64 else 0

/-- A read of a register of BAR 0 by its offset: RO, RW and W1C fields return their values, WO and zero fields 0 (R11, R349, R380,
R386, R392, R399–R401). It changes nothing. -/
def Work.readRegister (w : Work) (off : Nat) : BitVec 64 :=
  let d := w.dev
  let t := d.tail
  let word := fun (x : Nat) => BitVec.ofNat 64 x
  match off with
  | 0x0 => d.hub.cmda
  | 0x10 => word (b2n d.hub.busy * 2 ^ 63 + d.hub.res.toNat * 2 ^ 8 + d.hub.lastop.toNat)
  | 0x18 => d.hub.unatt
  | 0x1000 => word (b2n (t.ten && tsizeOk t.tsize) + b2n t.wrap * 2 + b2n t.sen * 4 + b2n t.tport * 16)
  | 0x1008 => t.tbase
  | 0x1010 => t.tsize.setWidth 64
  | 0x1018 => t.twptr
  | 0x1020 => t.tlost
  | 0x1028 => t.sper.setWidth 64
  | 0x1030 => t.frzt
  | 0x1038 => word (b2n t.arm + b2n t.linked * 2 + b2n t.frozen * 4 + b2n t.refused * 16 + b2n t.late * 32)
  | 0x1040 => t.flbase
  | 0x1048 => word (t.fllog.toNat + b2n t.flen * 16 + b2n t.flport * 32)
  | 0x1050 => t.flhead.setWidth 64
  | 0x1058 => t.fltail.setWidth 64
  | 0x1060 => t.fllost.setWidth 64
  | 0x1088 => t.dsel.setWidth 64
  | 0x1090 => t.ddata
  | 0x1098 => word (b2n (w.runsCommand debugCommand?) * 2 ^ 63 + t.dres.toNat)
  | 0x2008 => d.sec.ain
  | 0x2010 => d.sec.aout
  | 0x2018 => word (b2n (w.runsCommand attestCommand?) * 2 ^ 63 + d.sec.ares.toNat)
  | 0x2040 | 0x2048 | 0x2050 | 0x2058 => word (Config.identityPublic.toNat / 2 ^ (8 * (off - 0x2040)))
  | 0x3000 => d.pow.cap.setWidth 64
  | 0x3008 => word (d.pow.step.toNat + b2n d.pow.tlim * 4 + b2n d.pow.tshut * 8 + d.pow.temp.toNat * 2 ^ 8 + d.sec.boot.toNat * 2 ^ 16)
  | 0x3010 => d.pow.cec
  | 0x3018 => d.pow.uec
  | o => if 0x10000 ≤ o ∧ o < 0x10000 + 0x100 * Config.cores then w.readCounter ((o - 0x10000) / 0x100) (o % 0x100) else 0

/-- A read of a context's doorbell page: HEAD, and TAIL as 0 (R319). -/
def Work.readDoorbell (w : Work) (ctx off : Nat) : BitVec 32 := if off = 8 then (w.ctx ctx).head else 0

/-- REGISTER_WRITE (R11): bit 31 of the address names the host port, and bit 30 says that the debug port writes (log entry 58: DESIGN CHOICE).
Function 0 of a port that does not work, or that is frozen, writes nothing (R370, R376). -/
def execRegisterWrite (addr : BitVec 32) (value : BitVec 64) (s : State) : Host.Outcome State Fault Refusal :=
  commit (fun w =>
    let n := addr.toNat / 2 ^ 31
    let p := w.port n
    let off := addr.toNat % 2 ^ 30
    if addr.getLsbD 30 then (if tailstockReg off then w.registerWrite n off value else w)
    else if !p.up ∨ p.fn0Frozen then w
    else w.registerWrite n off value) s

end Sys2Proof.Machine
end

