-- ==== Sys2Proof/Machine/Dispatch.lean ====
section
/-! DEFINITION. What each instruction does: one arm per constructor, each one call of its meaning. -/

namespace Sys2Proof.Machine

open Sys2Proof

/-- The effect of an instruction. -/
def exec (i : Instr) (s : State) : Host.Outcome State Fault Refusal :=
  match i with
  | .iadd g d a b => Sys2Proof.Machine.execIadd g d a b s
  | .isub g d a b => Sys2Proof.Machine.execIsub g d a b s
  | .imul g d a b => Sys2Proof.Machine.execImul g d a b s
  | .imulh g d a b u => Sys2Proof.Machine.execImulh g d a b u s
  | .imad g d a b c => Sys2Proof.Machine.execImad g d a b c s
  | .iadd64 g d a b => Sys2Proof.Machine.execIadd64 g d a b s
  | .idiv g d a b u => Sys2Proof.Machine.execIdiv g d a b u s
  | .irem g d a b u => Sys2Proof.Machine.execIrem g d a b u s
  | .imin g d a b u => Sys2Proof.Machine.execImin g d a b u s
  | .imax g d a b u => Sys2Proof.Machine.execImax g d a b u s
  | .iabs g d a => Sys2Proof.Machine.execIabs g d a s
  | .ineg g d a => Sys2Proof.Machine.execIneg g d a s
  | .lea g d a b sx sh => Sys2Proof.Machine.execLea g d a b sx sh s
  | .imadw g d a b c u => Sys2Proof.Machine.execImadw g d a b c u s
  | .and g d a b => Sys2Proof.Machine.execAnd g d a b s
  | .or g d a b => Sys2Proof.Machine.execOr g d a b s
  | .xor g d a b => Sys2Proof.Machine.execXor g d a b s
  | .andn g d a b => Sys2Proof.Machine.execAndn g d a b s
  | .not g d a => Sys2Proof.Machine.execNot g d a s
  | .shl g d a b => Sys2Proof.Machine.execShl g d a b s
  | .shr g d a b => Sys2Proof.Machine.execShr g d a b s
  | .sar g d a b => Sys2Proof.Machine.execSar g d a b s
  | .rotl g d a b => Sys2Proof.Machine.execRotl g d a b s
  | .popc g d a => Sys2Proof.Machine.execPopc g d a s
  | .clz g d a => Sys2Proof.Machine.execClz g d a s
  | .brev g d a => Sys2Proof.Machine.execBrev g d a s
  | .bfx g d a f sx => Sys2Proof.Machine.execBfx g d a f sx s
  | .bfi g d a f c => Sys2Proof.Machine.execBfi g d a f c s
  | .bperm g d a b hi => Sys2Proof.Machine.execBperm g d a b hi s
  | .bsel g d a b sel => Sys2Proof.Machine.execBsel g d a b sel s
  | .iset g p a b cond u => Sys2Proof.Machine.execIset g p a b cond u s
  | .isel g d a b p neg => Sys2Proof.Machine.execIsel g d a b p neg s
  | .mov g d a wide => Sys2Proof.Machine.execMov g d a wide s
  | .movi g d x => Sys2Proof.Machine.execMovi g d x s
  | .movk g kd a lane => Sys2Proof.Machine.execMovk g kd a lane s
  | .pset g p pa na pb nb op => Sys2Proof.Machine.execPset g p pa na pb nb op s
  | .pmov g m => Sys2Proof.Machine.execPmov g m s
  | .shfl g d a n w mode => Sys2Proof.Machine.execShfl g d a n w mode s
  | .vote g dst pa neg => Sys2Proof.Machine.execVote g dst pa neg s
  | .redux g d a op => Sys2Proof.Machine.execRedux g d a op s
  | .fadd g f64 r d a b => Sys2Proof.Machine.execFadd g f64 r d a b s
  | .fsub g f64 r d a b => Sys2Proof.Machine.execFsub g f64 r d a b s
  | .fmul g f64 r d a b => Sys2Proof.Machine.execFmul g f64 r d a b s
  | .ffma g f64 r d negD absD a b => Sys2Proof.Machine.execFfma g f64 r d negD absD a b s
  | .fmin g f64 d a b => Sys2Proof.Machine.execFmin g f64 d a b s
  | .fmax g f64 d a b => Sys2Proof.Machine.execFmax g f64 d a b s
  | .fset g f64 p a b cond sig => Sys2Proof.Machine.execFset g f64 p a b cond sig s
  | .fdiv g f64 r d a b => Sys2Proof.Machine.execFdiv g f64 r d a b s
  | .fsqrt g f64 r d a => Sys2Proof.Machine.execFsqrt g f64 r d a s
  | .frcp g f64 r d a => Sys2Proof.Machine.execFrcp g f64 r d a s
  | .frsq g f64 r d a => Sys2Proof.Machine.execFrsq g f64 r d a s
  | .fexp2 g f64 r d a => Sys2Proof.Machine.execFexp2 g f64 r d a s
  | .flog2 g f64 r d a => Sys2Proof.Machine.execFlog2 g f64 r d a s
  | .fsin g f64 r d a => Sys2Proof.Machine.execFsin g f64 r d a s
  | .fcos g f64 r d a => Sys2Proof.Machine.execFcos g f64 r d a s
  | .fclass g f64 d a => Sys2Proof.Machine.execFclass g f64 d a s
  | .frnd g f64 r d a => Sys2Proof.Machine.execFrnd g f64 r d a s
  | .f2i g f64 r d a ty => Sys2Proof.Machine.execF2i g f64 r d a ty s
  | .i2f g f64 r d a ty => Sys2Proof.Machine.execI2f g f64 r d a ty s
  | .f2f g narrow r d a => Sys2Proof.Machine.execF2f g narrow r d a s
  | .cvt g out d a slot => Sys2Proof.Machine.execCvt g out d a slot s
  | .cvtp g d a slot => Sys2Proof.Machine.execCvtp g d a slot s
  | .cvtu g d a slot => Sys2Proof.Machine.execCvtu g d a slot s
  | .tfence g => Sys2Proof.Machine.execTfence g s
  | .hadd2 g bf r d a b => Sys2Proof.Machine.execHadd2 g bf r d a b s
  | .hmul2 g bf r d a b => Sys2Proof.Machine.execHmul2 g bf r d a b s
  | .hfma2 g bf r d negD absD a b => Sys2Proof.Machine.execHfma2 g bf r d negD absD a b s
  | .almul g r d a b t => Sys2Proof.Machine.execAlmul g r d a b t s
  | .almac g r d a b t => Sys2Proof.Machine.execAlmac g r d a b t s
  | .alconj g d a t => Sys2Proof.Machine.execAlconj g d a t s
  | .alnorm g r d a t => Sys2Proof.Machine.execAlnorm g r d a t s
  | .altab g al a off => Sys2Proof.Machine.execAltab g al a off s
  | .altabTableRead core => Sys2Proof.Machine.execAltabTableRead core s
  | .bra g off => Sys2Proof.Machine.execBra g off s
  | .brx g a off => Sys2Proof.Machine.execBrx g a off s
  | .call g off => Sys2Proof.Machine.execCall g off s
  | .callx g a off => Sys2Proof.Machine.execCallx g a off s
  | .ret g => Sys2Proof.Machine.execRet g s
  | .exit g => Sys2Proof.Machine.execExit g s
  | .merge => Sys2Proof.Machine.execMerge s
  | .yield => Sys2Proof.Machine.execYield s
  | .nop g => Sys2Proof.Machine.execNop g s
  | .trap g code => Sys2Proof.Machine.execTrap g code s
  | .rtt => Sys2Proof.Machine.execRtt s
  | .rts => Sys2Proof.Machine.execRts s
  | .brk g code => Sys2Proof.Machine.execBrk g code s
  | .ld g d a w sp off => Sys2Proof.Machine.execLd g d a w sp off s
  | .st g a b w sp off => Sys2Proof.Machine.execSt g a b w sp off s
  | .ldr g d a w off => Sys2Proof.Machine.execLdr g d a w off s
  | .gath g d a w sp off cb => Sys2Proof.Machine.execGath g d a w sp off cb s
  | .scat g a b w sp off cb => Sys2Proof.Machine.execScat g a b w sp off cb s
  | .pref g a l2 off => Sys2Proof.Machine.execPref g a l2 off s
  | .atom g op d a b c b64 scope ord sp => Sys2Proof.Machine.execAtom g op d a b c b64 scope ord sp s
  | .red g op a b b64 scope rel sp => Sys2Proof.Machine.execRed g op a b b64 scope rel sp s
  | .fence g kind scope => Sys2Proof.Machine.execFence g kind scope s
  | .ifence g => Sys2Proof.Machine.execIfence g s
  | .roinv g => Sys2Proof.Machine.execRoinv g s
  | .clrset g a b c => Sys2Proof.Machine.execClrset g a b c s
  | .clrget g d a off => Sys2Proof.Machine.execClrget g d a off s
  | .monq g d a => Sys2Proof.Machine.execMonq g d a s
  | .alloc g d a pg => Sys2Proof.Machine.execAlloc g d a pg s
  | .free g a => Sys2Proof.Machine.execFree g a s
  | .wait g d a b c all rel => Sys2Proof.Machine.execWait g d a b c all rel s
  | .waitTimeout wid lane => Sys2Proof.Machine.execWaitTimeout wid lane s
  | .waitWordReread wid lane => Sys2Proof.Machine.execWaitWordReread wid lane s
  | .bari g bn o => Sys2Proof.Machine.execBari g bn o s
  | .bara g d bn w => Sys2Proof.Machine.execBara g d bn w s
  | .barq g d bn => Sys2Proof.Machine.execBarq g d bn s
  | .cpa g a b c tag off => Sys2Proof.Machine.execCpa g a b c tag off s
  | .cpaLand wid tag => Sys2Proof.Machine.execCpaLand wid tag s
  | .bcopy g st sh cnt idx bar fut => Sys2Proof.Machine.execBcopy g st sh cnt idx bar fut s
  | .bcopyTransferComplete core => Sys2Proof.Machine.execBcopyTransferComplete core s
  | .engineStop core e => Sys2Proof.Machine.execEngineStop core e s
  | .mcast g a b mask bar => Sys2Proof.Machine.execMcast g a b mask bar s
  | .mcastDelivery core => Sys2Proof.Machine.execMcastDelivery core s
  | .slotf g role n => Sys2Proof.Machine.execSlotf g role n s
  | .shld g sh a scratch off => Sys2Proof.Machine.execShld g sh a scratch off s
  | .shst g sh a scratch off => Sys2Proof.Machine.execShst g sh a scratch off s
  | .shset g sh f a => Sys2Proof.Machine.execShset g sh f a s
  | .shget g d sh f => Sys2Proof.Machine.execShget g d sh f s
  | .strm g st ch sh bar fut => Sys2Proof.Machine.execStrm g st ch sh bar fut s
  | .channelTile core ch => Sys2Proof.Machine.execChannelTile core ch s
  | .strmq g d ch => Sys2Proof.Machine.execStrmq g d ch s
  | .rsig g ch => Sys2Proof.Machine.execRsig g ch s
  | .mma g z pair acc sh b slot => Sys2Proof.Machine.execMma g z pair acc sh b slot s
  | .mmaRun core => Sys2Proof.Machine.execMmaRun core s
  | .mzero g pair acc => Sys2Proof.Machine.execMzero g pair acc s
  | .mzeroRun core => Sys2Proof.Machine.execMzeroRun core s
  | .bld g sh b bar fut => Sys2Proof.Machine.execBld g sh b bar fut s
  | .bldRun core => Sys2Proof.Machine.execBldRun core s
  | .mdrain g pair int acc sh res bar fut => Sys2Proof.Machine.execMdrain g pair int acc sh res bar fut s
  | .mdrainRun core => Sys2Proof.Machine.execMdrainRun core s
  | .epil g a scratch off => Sys2Proof.Machine.execEpil g a scratch off s
  | .epilRun core => Sys2Proof.Machine.execEpilRun core s
  | .mq g d => Sys2Proof.Machine.execMq g d s
  | .spawn g pri a b dom => Sys2Proof.Machine.execSpawn g pri a b dom s
  | .queueSegmentLink ctx cluster pri => Sys2Proof.Machine.execQueueSegmentLink ctx cluster pri s
  | .spawnf g pri a b c n => Sys2Proof.Machine.execSpawnf g pri a b c n s
  | .futureRegistration ctx => Sys2Proof.Machine.execFutureRegistration ctx s
  | .futnew g a off => Sys2Proof.Machine.execFutnew g a off s
  | .futres g faulted a b off => Sys2Proof.Machine.execFutres g faulted a b off s
  | .futget g d a off => Sys2Proof.Machine.execFutget g d a off s
  | .tself g d => Sys2Proof.Machine.execTself g d s
  | .tabort g drop => Sys2Proof.Machine.execTabort g drop s
  | .tirrev g => Sys2Proof.Machine.execTirrev g s
  | .csrr g d num => Sys2Proof.Machine.execCsrr g d num s
  | .csrw g num a => Sys2Proof.Machine.execCsrw g num a s
  | .evt g a code => Sys2Proof.Machine.execEvt g a code s
  | .pairBundle x y => Sys2Proof.Machine.execPairBundle x y s
  | .illegalBundle sub pair slot => Sys2Proof.Machine.execIllegalBundle sub pair slot s
  | .trapEntry wid => Sys2Proof.Machine.execTrapEntry wid s
  | .pcMatchEntry => Sys2Proof.Machine.execPcMatchEntry s
  | .fetchFault => Sys2Proof.Machine.execFetchFault s
  | .loadDataReturn wid idx => Sys2Proof.Machine.execLoadDataReturn wid idx s
  | .longOpComplete wid idx => Sys2Proof.Machine.execLongOpComplete wid idx s
  | .slowCsrReturn wid idx => Sys2Proof.Machine.execSlowCsrReturn wid idx s
  | .waveEnd wid => Sys2Proof.Machine.execWaveEnd wid s
  | .faultRecordService map => Sys2Proof.Machine.execFaultRecordService map s
  | .taskPromote ctx seq => Sys2Proof.Machine.execTaskPromote ctx seq s
  | .chuckScan cluster => Sys2Proof.Machine.execChuckScan cluster s
  | .chuckWindowExpire cluster idx => Sys2Proof.Machine.execChuckWindowExpire cluster idx s
  | .taskWavePlace cluster idx => Sys2Proof.Machine.execTaskWavePlace cluster idx s
  | .taskCommit ctx dom => Sys2Proof.Machine.execTaskCommit ctx dom s
  | .taskMove ctx pri src dst n => Sys2Proof.Machine.execTaskMove ctx pri src dst n s
  | .doorbellWrite bell tail => Sys2Proof.Machine.execDoorbellWrite bell tail s
  | .ringEntryTake ctx => Sys2Proof.Machine.execRingEntryTake ctx s
  | .blockPlace ctx => Sys2Proof.Machine.execBlockPlace ctx s
  | .blockRetire bid => Sys2Proof.Machine.execBlockRetire bid s
  | .launchEnd lid => Sys2Proof.Machine.execLaunchEnd lid s
  | .create ctx => Sys2Proof.Machine.execCreate ctx s
  | .destroy ctx => Sys2Proof.Machine.execDestroy ctx s
  | .suspend ctx => Sys2Proof.Machine.execSuspend ctx s
  | .resume ctx => Sys2Proof.Machine.execResume ctx s
  | .status ctx => Sys2Proof.Machine.execStatus ctx s
  | .setvw arg => Sys2Proof.Machine.execSetvw arg s
  | .quantumExpire ctx => Sys2Proof.Machine.execQuantumExpire ctx s
  | .preempt ctx => Sys2Proof.Machine.execPreempt ctx s
  | .outstandingResponse wid idx resp => Sys2Proof.Machine.execOutstandingResponse wid idx resp s
  | .contextRestore ctx => Sys2Proof.Machine.execContextRestore ctx s
  | .waveEvict wid => Sys2Proof.Machine.execWaveEvict wid s
  | .waveReturn wid => Sys2Proof.Machine.execWaveReturn wid s
  | .evacuationPageSend => Sys2Proof.Machine.execEvacuationPageSend s
  | .pageReturn ctx => Sys2Proof.Machine.execPageReturn ctx s
  | .mapRequest ctx leaf => Sys2Proof.Machine.execMapRequest ctx leaf s
  | .invalidation ctx va bytes => Sys2Proof.Machine.execInvalidation ctx va bytes s
  | .powerOnReset img => Sys2Proof.Machine.execPowerOnReset img s
  | .powerOff => Sys2Proof.Machine.execPowerOff s
  | .staticEnergyTick => Sys2Proof.Machine.execStaticEnergyTick s
  | .hostPortTrain port lanes rate => Sys2Proof.Machine.execHostPortTrain port lanes rate s
  | .hostPortDown port => Sys2Proof.Machine.execHostPortDown port s
  | .hostWindowAccess port fn req => Sys2Proof.Machine.execHostWindowAccess port fn req s
  | .functionLevelReset port fn => Sys2Proof.Machine.execFunctionLevelReset port fn s
  | .peerRequest link req => Sys2Proof.Machine.execPeerRequest link req s
  | .flitReplay link => Sys2Proof.Machine.execFlitReplay link s
  | .linkFailure link => Sys2Proof.Machine.execLinkFailure link s
  | .linkRetrainTimeout link => Sys2Proof.Machine.execLinkRetrainTimeout link s
  | .linkTrain link upstream => Sys2Proof.Machine.execLinkTrain link upstream s
  | .tickSync upstream => Sys2Proof.Machine.execTickSync upstream s
  | .tickRootLost link => Sys2Proof.Machine.execTickRootLost link s
  | .registerWrite addr value => Sys2Proof.Machine.execRegisterWrite addr value s
  | .traceEnableWrite value => Sys2Proof.Machine.execTraceEnableWrite value s
  | .stallSample => Sys2Proof.Machine.execStallSample s
  | .halt core slot => Sys2Proof.Machine.execHalt core slot s
  | .debugResume core slot => Sys2Proof.Machine.execDebugResume core slot s
  | .read core slot lane sel => Sys2Proof.Machine.execRead core slot lane sel s
  | .write core slot lane sel => Sys2Proof.Machine.execWrite core slot lane sel s
  | .freezeArm linked => Sys2Proof.Machine.execFreezeArm linked s
  | .freezeStart => Sys2Proof.Machine.execFreezeStart s
  | .freezeResume => Sys2Proof.Machine.execFreezeResume s
  | .linkedArmArrival link frzt => Sys2Proof.Machine.execLinkedArmArrival link frzt s
  | .linkedResumeArrival link => Sys2Proof.Machine.execLinkedResumeArrival link s
  | .pmcOverflow core n => Sys2Proof.Machine.execPmcOverflow core n s
  | .pmovfClear core mask => Sys2Proof.Machine.execPmovfClear core mask s
  | .attest ctx => Sys2Proof.Machine.execAttest ctx s
  | .capWrite value => Sys2Proof.Machine.execCapWrite value s
  | .thermalThreshold temp => Sys2Proof.Machine.execThermalThreshold temp s
  | .clockStepChange => Sys2Proof.Machine.execClockStepChange s
  | .coreGate core => Sys2Proof.Machine.execCoreGate core s
  | .coreUngate core => Sys2Proof.Machine.execCoreUngate core s
  | .memoryError place unc => Sys2Proof.Machine.execMemoryError place unc s

end Sys2Proof.Machine
end

