-- ==== Sys2Proof/Machine/Place.lean ====
section
/-! DEFINITION. The state in which one given bundle is fetched next (log entry 3: DESIGN CHOICE). -/

namespace Sys2Proof.Machine

/-- The physical place of the code page, and of the three tables above it, in `fetchable`. -/
def codePa : Nat := 0x4000000
def tablePa : Nat := 0x100000

/-- A part in which core 0, slot 0 holds a wave of a fresh context whose next bundle is `x`, at virtual address 0: three
tables and a leaf of 64 MiB, the access entry and the frame that its fetch needs, and the issue of that split on the
agenda. -/
def Work.fetchable (w : Work) (x : BitVec 64) : Work :=
  let (lid, w) := w.newId
  let (bid, w) := w.newId
  let (wid, w) := w.newId
  let entry := fun (w : Work) (at_ e : Nat) => w.putBytes (PAddr.hbm at_).key (leBytes 8 e)
  let w := entry w tablePa (tablePa + 0x8000 + 1)
  let w := entry w (tablePa + 0x8000) (tablePa + 0x9000 + 1)
  let w := entry w (tablePa + 0x9000) (codePa + 0x3F)
  let w := entry w codePa x.toNat
  let role : BitVec 64 := BitVec.ofNat 64 (2 ^ 32 + 2 ^ 5)
  let lc : Launch := { Launch.blank with
    ctx := 0, s := 64, wpb := 1, grid := 1, gx := 1, gy := 1, roles := [role], state := .running, next := 1 }
  let bl : Block := { Block.blank with ctx := 0, lid := lid, core := some 0, waves := [wid] }
  let v := Wave.fresh 0 lid bid 0 0 0 0 0 ((List.range 32).map fun l => (l, none)) []
  let cx : Context := { Context.blank with rec_ := { CtxRec.blank with root := tablePa } }
  let w := w.setLaunch lid lc
  let w := w.setBlock bid bl
  let w := w.modDev fun d => { d with
    waves := mput (d.waves.map fun y => (y.1, if y.2.place = some (0, 0) then { y.2 with place := none } else y.2)) wid v
    ctxs := mput d.ctxs 0 cx
    bad := d.bad.filter fun k => !(decide ((PAddr.hbm codePa).key ≤ k) && decide (k < (PAddr.hbm (codePa + 8)).key)) &&
      !(decide ((PAddr.hbm tablePa).key ≤ k) && decide (k < (PAddr.hbm (tablePa + 0xA000)).key)) }
  let w := w.modTlbs fun l => l.filter fun t => t.ctx ≠ 0
  let w := w.modCore 0 fun c => { c with
    owner := some lid, stopped := none, gated := false, icache := mdel c.icache codePa, fbufs := [] }
  let w := w.modHub fun h => { h with
    access := mput h.access (88 * hbmTarget codePa) 0xC007
    frames := ⟨codePa / 65536, 1, 0x80⟩ :: h.frames }
  let w := (w.modTail fun t => { t with frozen := false }).modPow fun p => { p with tshut := false }
  w.modSys fun s => { s with
    powered := true, cur := none, stalled := [], yields := [], agenda := .issue 0 0 0 :: s.agenda }

end Sys2Proof.Machine
end

