-- ==== Sys2Proof/Machine/Step.lean ====
section
/-! DEFINITION. One step of the part, and the state that fetches a given bundle next. -/

namespace Sys2Proof.Machine

/-- One step: what moves next is executed (`nextOf`), and a part without power stands still. -/
def step (s : State) : Host.Outcome State Fault Refusal :=
  match nextOf s with
  | some (i, t) => exec i t
  | none => .fault .poweredOff

/-- A state with the bundle `w` of `nbits` bits where the next step fetches (log entry 3: DESIGN CHOICE). -/
def State.withFetchWord (s : State) (nbits w : Nat) : State :=
  let x := Work.fetchable ⟨s.mem, [], s.dev⟩ (BitVec.ofNat 64 (w % 2 ^ nbits))
  ⟨applyLog x.log s.mem, x.dev⟩

end Sys2Proof.Machine
end

