-- ==== Sys2Proof/Laws/Decoding.lean ====
section
/-! SUPPORT. What the decoder of F-form bundles does at each OPC of R75. -/

namespace Sys2Proof

theorem FForm.decode_00 (r : FForm) (h : r.opc = 0x00) : r.decode =
    r.twoSrc false (.iadd r.g r.dst r.srcA r.opd) := by
  cases r; subst h; rfl
theorem FForm.decode_01 (r : FForm) (h : r.opc = 0x01) : r.decode =
    r.twoSrc false (.isub r.g r.dst r.srcA r.opd) := by
  cases r; subst h; rfl
theorem FForm.decode_02 (r : FForm) (h : r.opc = 0x02) : r.decode =
    r.twoSrc false (.imul r.g r.dst r.srcA r.opd) := by
  cases r; subst h; rfl
theorem FForm.decode_03 (r : FForm) (h : r.opc = 0x03) : r.decode =
    r.twoSrc true (.imulh r.g r.dst r.srcA r.opd (r.m 0)) := by
  cases r; subst h; rfl
theorem FForm.decode_04 (r : FForm) (h : r.opc = 0x04) : r.decode =
    chk (r.zM && r.zI) true (.imad r.g r.dst r.srcA r.srcB r.srcC) := by
  cases r; subst h; rfl
theorem FForm.decode_05 (r : FForm) (h : r.opc = 0x05) : r.decode =
    let x : Opd64 := if r.m 3 then .imm r.imm
      else if r.m 0 then .zx r.srcB
      else if r.m 1 then .sx r.srcB
      else .pair r.srcB
    let i : Instr := .iadd64 r.g r.dst r.srcA x
    chk (r.zC && r.opdF && !r.m 2 && !(r.m 3 && (r.m 0 || r.m 1)) && !(r.m 0 && r.m 1)) i.wf i := by
  cases r; subst h; rfl
theorem FForm.decode_06 (r : FForm) (h : r.opc = 0x06) : r.decode =
    chk (r.zC && r.zI && fieldAt r.mod 1 3 == 0) true (.idiv r.g r.dst r.srcA r.srcB (r.m 0)) := by
  cases r; subst h; rfl
theorem FForm.decode_07 (r : FForm) (h : r.opc = 0x07) : r.decode =
    chk (r.zC && r.zI && fieldAt r.mod 1 3 == 0) true (.irem r.g r.dst r.srcA r.srcB (r.m 0)) := by
  cases r; subst h; rfl
theorem FForm.decode_08 (r : FForm) (h : r.opc = 0x08) : r.decode =
    r.twoSrc true (.imin r.g r.dst r.srcA r.opd (r.m 0)) := by
  cases r; subst h; rfl
theorem FForm.decode_09 (r : FForm) (h : r.opc = 0x09) : r.decode =
    r.twoSrc true (.imax r.g r.dst r.srcA r.opd (r.m 0)) := by
  cases r; subst h; rfl
theorem FForm.decode_0a (r : FForm) (h : r.opc = 0x0A) : r.decode =
    r.oneSrc (.iabs r.g r.dst r.srcA) := by
  cases r; subst h; rfl
theorem FForm.decode_0b (r : FForm) (h : r.opc = 0x0B) : r.decode =
    r.oneSrc (.ineg r.g r.dst r.srcA) := by
  cases r; subst h; rfl
theorem FForm.decode_0c (r : FForm) (h : r.opc = 0x0C) : r.decode =
    let i : Instr := .lea r.g r.dst r.srcA r.srcB (r.m 0) (fieldAt r.imm 0 3)
    chk (r.zC && fieldAt r.mod 1 3 == 0 && r.zIfrom 3) i.wf i := by
  cases r; subst h; rfl
theorem FForm.decode_0d (r : FForm) (h : r.opc = 0x0D) : r.decode =
    let i : Instr := .imadw r.g r.dst r.srcA r.srcB r.srcC (r.m 0)
    chk (r.zI && fieldAt r.mod 1 3 == 0) i.wf i := by
  cases r; subst h; rfl
theorem FForm.decode_10 (r : FForm) (h : r.opc = 0x10) : r.decode =
    r.twoSrc false (.and r.g r.dst r.srcA r.opd) := by
  cases r; subst h; rfl
theorem FForm.decode_11 (r : FForm) (h : r.opc = 0x11) : r.decode =
    r.twoSrc false (.or r.g r.dst r.srcA r.opd) := by
  cases r; subst h; rfl
theorem FForm.decode_12 (r : FForm) (h : r.opc = 0x12) : r.decode =
    r.twoSrc false (.xor r.g r.dst r.srcA r.opd) := by
  cases r; subst h; rfl
theorem FForm.decode_13 (r : FForm) (h : r.opc = 0x13) : r.decode =
    r.twoSrc false (.andn r.g r.dst r.srcA r.opd) := by
  cases r; subst h; rfl
theorem FForm.decode_14 (r : FForm) (h : r.opc = 0x14) : r.decode =
    r.oneSrc (.not r.g r.dst r.srcA) := by
  cases r; subst h; rfl
theorem FForm.decode_15 (r : FForm) (h : r.opc = 0x15) : r.decode =
    r.twoSrc false (.shl r.g r.dst r.srcA r.opd) := by
  cases r; subst h; rfl
theorem FForm.decode_16 (r : FForm) (h : r.opc = 0x16) : r.decode =
    r.twoSrc false (.shr r.g r.dst r.srcA r.opd) := by
  cases r; subst h; rfl
theorem FForm.decode_17 (r : FForm) (h : r.opc = 0x17) : r.decode =
    r.twoSrc false (.sar r.g r.dst r.srcA r.opd) := by
  cases r; subst h; rfl
theorem FForm.decode_18 (r : FForm) (h : r.opc = 0x18) : r.decode =
    r.twoSrc false (.rotl r.g r.dst r.srcA r.opd) := by
  cases r; subst h; rfl
theorem FForm.decode_19 (r : FForm) (h : r.opc = 0x19) : r.decode =
    r.oneSrc (.popc r.g r.dst r.srcA) := by
  cases r; subst h; rfl
theorem FForm.decode_1a (r : FForm) (h : r.opc = 0x1A) : r.decode =
    r.oneSrc (.clz r.g r.dst r.srcA) := by
  cases r; subst h; rfl
theorem FForm.decode_1b (r : FForm) (h : r.opc = 0x1B) : r.decode =
    r.oneSrc (.brev r.g r.dst r.srcA) := by
  cases r; subst h; rfl
theorem FForm.decode_1c (r : FForm) (h : r.opc = 0x1C) : r.decode =
    let f : FieldSel := if r.m 3 then .imm (fieldAt r.imm 0 5) (fieldAt r.imm 5 6) else .reg r.srcB
    let i : Instr := .bfx r.g r.dst r.srcA f (r.m 0)
    chk (r.zC && r.opdF && !r.m 2 && !r.m 1 && (!r.m 3 || (r.zIfrom 11 && decide ((fieldAt r.imm 5 6).toNat ≤ 32))))
      true i := by
  cases r; subst h; rfl
theorem FForm.decode_1d (r : FForm) (h : r.opc = 0x1D) : r.decode =
    let f : FieldSel := if r.m 3 then .imm (fieldAt r.imm 0 5) (fieldAt r.imm 5 6) else .reg r.srcB
    let i : Instr := .bfi r.g r.dst r.srcA f r.srcC
    chk (r.opdF && !r.m 2 && !r.m 1 && !r.m 0
      && (!r.m 3 || (r.zIfrom 11 && decide ((fieldAt r.imm 5 6).toNat ≤ 32)))) true i := by
  cases r; subst h; rfl
theorem FForm.decode_1e (r : FForm) (h : r.opc = 0x1E) : r.decode =
    let i : Instr := .bperm r.g r.dst r.srcA r.srcB (r.m 0)
    chk (r.zC && r.zI && fieldAt r.mod 1 3 == 0) i.wf i := by
  cases r; subst h; rfl
theorem FForm.decode_1f (r : FForm) (h : r.opc = 0x1F) : r.decode =
    let s : SelOpd := if r.m 3 then .imm r.off else .reg r.srcC
    chk (fieldAt r.mod 0 3 == 0 && if r.m 3 then r.zC && r.zIfrom 16 else r.zI) true (.bsel r.g r.dst r.srcA r.srcB s) := by
  cases r; subst h; rfl
theorem FForm.decode_20 (r : FForm) (h : r.opc = 0x20) : r.decode =
    match ICond.ofCode (fieldAt r.mod 0 3) with
    | some k => chk (!r.ec && fieldAt r.c 1 5 == 0 && r.opdF) (inClass r.d 8)
        (.iset r.g (fieldAt r.d 0 3) r.srcA r.opd k (r.c.getLsbD 0))
    | none => .error .field := by
  cases r; subst h; rfl
theorem FForm.decode_21 (r : FForm) (h : r.opc = 0x21) : r.decode =
    chk (!r.ec && fieldAt r.c 4 2 == 0 && r.opdF && fieldAt r.mod 0 3 == 0) true
      (.isel r.g r.dst r.srcA r.opd (fieldAt r.c 0 3) (r.c.getLsbD 3)) := by
  cases r; subst h; rfl
theorem FForm.decode_22 (r : FForm) (h : r.opc = 0x22) : r.decode =
    let i : Instr := .mov r.g r.dst r.srcA (r.m 0)
    chk (r.zB && r.zC && r.zI && fieldAt r.mod 1 3 == 0) i.wf i := by
  cases r; subst h; rfl
theorem FForm.decode_23 (r : FForm) (h : r.opc = 0x23) : r.decode =
    chk (r.zA && !r.eb && !r.ec && fieldAt r.mod 1 3 == 0) true
      (.movi r.g r.dst (BitVec.ofBool (r.m 0) ++ r.b ++ r.c ++ r.imm)) := by
  cases r; subst h; rfl
theorem FForm.decode_24 (r : FForm) (h : r.opc = 0x24) : r.decode =
    chk (r.zB && r.zC && r.zM && r.zIfrom 5) (r.dst.isK && !(Reg.ofSpec r.a).isK)
      (.movk r.g (fieldAt r.d 0 5) ⟨fieldAt r.a 0 5, r.ea⟩ (fieldAt r.imm 0 5)) := by
  cases r; subst h; rfl
theorem FForm.decode_25 (r : FForm) (h : r.opc = 0x25) : r.decode =
    match POp.ofCode (fieldAt r.mod 0 2) with
    | some k => chk (!r.ea && !r.eb && !r.ec && fieldAt r.c 2 4 == 0 && fieldAt r.mod 2 2 == 0 && r.zI)
        (inClass r.d 8 && inClass r.a 8 && inClass r.b 8)
        (.pset r.g (fieldAt r.d 0 3) (fieldAt r.a 0 3) (r.c.getLsbD 0) (fieldAt r.b 0 3) (r.c.getLsbD 1) k)
    | none => .error .field := by
  cases r; subst h; rfl
theorem FForm.decode_26 (r : FForm) (h : r.opc = 0x26) : r.decode =
    if (r.m 0) then chk (r.zD && r.zB && r.zC && fieldAt r.mod 1 3 == 0 && fieldAt r.imm 0 1 == 0 && r.zIfrom 8) true
        (.pmov r.g (.put r.srcA (fieldAt r.imm 1 7)))
    else chk (r.zA && r.zB && r.zC && fieldAt r.mod 1 3 == 0 && r.zI) true (.pmov r.g (.get r.dst)) := by
  cases r; subst h; rfl
theorem FForm.decode_30 (r : FForm) (h : r.opc = 0x30) : r.decode =
    let n : LaneOpd := if r.m 3 then .imm (fieldAt r.imm 0 5) else .reg r.srcB
    chk (!r.ec && fieldAt r.c 3 3 == 0 && decide ((fieldAt r.c 0 3).toNat ≤ 5) && !r.m 2
        && if r.m 3 then r.zB && r.zIfrom 5 else r.zI) (!(Reg.ofSpec r.a).isK)
      (.shfl r.g r.dst ⟨fieldAt r.a 0 5, r.ea⟩ n (fieldAt r.c 0 3) (ShMode.ofCode (fieldAt r.mod 0 2))) := by
  cases r; subst h; rfl
theorem FForm.decode_31 (r : FForm) (h : r.opc = 0x31) : r.decode =
    let p := fieldAt r.a 0 3
    let n := r.a.getLsbD 3
    let f := !r.ea && r.zB && r.zC && r.zI && fieldAt r.a 4 2 == 0 && !r.m 3
    match (fieldAt r.mod 0 3).toNat with
    | 0 => chk f (inClass r.d 8) (.vote r.g (.all (fieldAt r.d 0 3)) p n)
    | 1 => chk f (inClass r.d 8) (.vote r.g (.any (fieldAt r.d 0 3)) p n)
    | 2 => chk f true (.vote r.g (.ballot r.dst) p n)
    | _ => .error .field := by
  cases r; subst h; rfl
theorem FForm.decode_32 (r : FForm) (h : r.opc = 0x32) : r.decode =
    chk (r.zB && r.zC && r.zI && !r.m 3) (!(Reg.ofSpec r.a).isK)
      (.redux r.g r.dst ⟨fieldAt r.a 0 5, r.ea⟩ (RedOp.ofCode (fieldAt r.mod 0 3))) := by
  cases r; subst h; rfl
theorem FForm.decode_40 (r : FForm) (h : r.opc = 0x40) : r.decode =
    r.fTwo false fun x => .fadd r.g (r.m 0) x r.dst r.fA r.fB := by
  cases r; subst h; rfl
theorem FForm.decode_41 (r : FForm) (h : r.opc = 0x41) : r.decode =
    r.fTwo false fun x => .fsub r.g (r.m 0) x r.dst r.fA r.fB := by
  cases r; subst h; rfl
theorem FForm.decode_42 (r : FForm) (h : r.opc = 0x42) : r.decode =
    r.fTwo false fun x => .fmul r.g (r.m 0) x r.dst r.fA r.fB := by
  cases r; subst h; rfl
theorem FForm.decode_43 (r : FForm) (h : r.opc = 0x43) : r.decode =
    r.fTwo true fun x => .ffma r.g (r.m 0) x r.dst (r.c.getLsbD 4) (r.c.getLsbD 5) r.fA r.fB := by
  cases r; subst h; rfl
theorem FForm.decode_44 (r : FForm) (h : r.opc = 0x44) : r.decode =
    let i : Instr := .fmin r.g (r.m 0) r.dst r.fA r.fB
    chk (!r.ec && r.zI && fieldAt r.c 4 2 == 0 && fieldAt r.mod 1 3 == 0) i.wf i := by
  cases r; subst h; rfl
theorem FForm.decode_45 (r : FForm) (h : r.opc = 0x45) : r.decode =
    let i : Instr := .fmax r.g (r.m 0) r.dst r.fA r.fB
    chk (!r.ec && r.zI && fieldAt r.c 4 2 == 0 && fieldAt r.mod 1 3 == 0) i.wf i := by
  cases r; subst h; rfl
theorem FForm.decode_46 (r : FForm) (h : r.opc = 0x46) : r.decode =
    match FCond.ofCode (fieldAt r.imm 0 4) with
    | some k =>
      let i : Instr := .fset r.g (r.m 0) (fieldAt r.d 0 3) r.fA r.fB k (r.imm.getLsbD 4)
      chk (!r.ec && fieldAt r.c 4 2 == 0 && fieldAt r.mod 1 3 == 0 && r.zIfrom 5) (inClass r.d 8 && i.wf) i
    | none => .error .field := by
  cases r; subst h; rfl
theorem FForm.decode_47 (r : FForm) (h : r.opc = 0x47) : r.decode =
    r.fTwo false fun x => .fdiv r.g (r.m 0) x r.dst r.fA r.fB := by
  cases r; subst h; rfl
theorem FForm.decode_48 (r : FForm) (h : r.opc = 0x48) : r.decode =
    r.fOne fun x => .fsqrt r.g (r.m 0) x r.dst r.fA := by
  cases r; subst h; rfl
theorem FForm.decode_49 (r : FForm) (h : r.opc = 0x49) : r.decode =
    r.fOne fun x => .frcp r.g (r.m 0) x r.dst r.fA := by
  cases r; subst h; rfl
theorem FForm.decode_4a (r : FForm) (h : r.opc = 0x4A) : r.decode =
    r.fOne fun x => .frsq r.g (r.m 0) x r.dst r.fA := by
  cases r; subst h; rfl
theorem FForm.decode_4b (r : FForm) (h : r.opc = 0x4B) : r.decode =
    r.fOne fun x => .fexp2 r.g (r.m 0) x r.dst r.fA := by
  cases r; subst h; rfl
theorem FForm.decode_4c (r : FForm) (h : r.opc = 0x4C) : r.decode =
    r.fOne fun x => .flog2 r.g (r.m 0) x r.dst r.fA := by
  cases r; subst h; rfl
theorem FForm.decode_4d (r : FForm) (h : r.opc = 0x4D) : r.decode =
    r.fOne fun x => .fsin r.g (r.m 0) x r.dst r.fA := by
  cases r; subst h; rfl
theorem FForm.decode_4e (r : FForm) (h : r.opc = 0x4E) : r.decode =
    r.fOne fun x => .fcos r.g (r.m 0) x r.dst r.fA := by
  cases r; subst h; rfl
theorem FForm.decode_4f (r : FForm) (h : r.opc = 0x4F) : r.decode =
    let i : Instr := .fclass r.g (r.m 0) r.dst r.fA
    chk (r.zB && !r.ec && fieldAt r.c 2 4 == 0 && fieldAt r.mod 1 3 == 0 && r.zI) i.wf i := by
  cases r; subst h; rfl
theorem FForm.decode_50 (r : FForm) (h : r.opc = 0x50) : r.decode =
    r.conv 0 fun x => .frnd r.g (r.m 0) x r.dst r.srcA := by
  cases r; subst h; rfl
theorem FForm.decode_51 (r : FForm) (h : r.opc = 0x51) : r.decode =
    r.conv 2 fun x => .f2i r.g (r.m 0) x r.dst r.srcA (fieldAt r.imm 0 2) := by
  cases r; subst h; rfl
theorem FForm.decode_52 (r : FForm) (h : r.opc = 0x52) : r.decode =
    r.conv 2 fun x => .i2f r.g (r.m 0) x r.dst r.srcA (fieldAt r.imm 0 2) := by
  cases r; subst h; rfl
theorem FForm.decode_53 (r : FForm) (h : r.opc = 0x53) : r.decode =
    if !(r.m 0) && fieldAt r.mod 1 3 != 0 then .error .field else r.conv 0 fun x => .f2f r.g (r.m 0) x r.dst r.srcA := by
  cases r; subst h; rfl
theorem FForm.decode_54 (r : FForm) (h : r.opc = 0x54) : r.decode =
    chk (r.zB && r.zC && fieldAt r.mod 1 3 == 0 && r.zIfrom 3) true (.cvt r.g (r.m 0) r.dst r.srcA (fieldAt r.imm 0 3)) := by
  cases r; subst h; rfl
theorem FForm.decode_55 (r : FForm) (h : r.opc = 0x55) : r.decode =
    chk (r.zB && r.zC && r.zM && r.zIfrom 3) true (.cvtp r.g r.dst r.srcA (fieldAt r.imm 0 3)) := by
  cases r; subst h; rfl
theorem FForm.decode_56 (r : FForm) (h : r.opc = 0x56) : r.decode =
    chk (r.zB && r.zC && r.zM && r.zIfrom 3) true (.cvtu r.g r.dst r.srcA (fieldAt r.imm 0 3)) := by
  cases r; subst h; rfl
theorem FForm.decode_57 (r : FForm) (h : r.opc = 0x57) : r.decode =
    chk (r.zD && r.zA && r.zB && r.zC && r.zM && r.zI) true (.tfence r.g) := by
  cases r; subst h; rfl
theorem FForm.decode_60 (r : FForm) (h : r.opc = 0x60) : r.decode =
    r.half2 false fun x => .hadd2 r.g (r.m 0) x r.dst r.fA r.fB := by
  cases r; subst h; rfl
theorem FForm.decode_61 (r : FForm) (h : r.opc = 0x61) : r.decode =
    r.half2 false fun x => .hmul2 r.g (r.m 0) x r.dst r.fA r.fB := by
  cases r; subst h; rfl
theorem FForm.decode_62 (r : FForm) (h : r.opc = 0x62) : r.decode =
    r.half2 true fun x => .hfma2 r.g (r.m 0) x r.dst (r.c.getLsbD 4) (r.c.getLsbD 5) r.fA r.fB := by
  cases r; subst h; rfl
theorem FForm.decode_63 (r : FForm) (h : r.opc = 0x63) : r.decode =
    match Rnd.ofCode (fieldAt r.mod 1 3) with
    | some x => chk (r.zC && !(r.m 0) && r.zIfrom 2) true (.almul r.g x r.dst r.srcA r.srcB (fieldAt r.imm 0 2))
    | none => .error .field := by
  cases r; subst h; rfl
theorem FForm.decode_64 (r : FForm) (h : r.opc = 0x64) : r.decode =
    match Rnd.ofCode (fieldAt r.mod 1 3) with
    | some x => chk (r.zC && !(r.m 0) && r.zIfrom 2) true (.almac r.g x r.dst r.srcA r.srcB (fieldAt r.imm 0 2))
    | none => .error .field := by
  cases r; subst h; rfl
theorem FForm.decode_65 (r : FForm) (h : r.opc = 0x65) : r.decode =
    chk (r.zB && r.zC && r.zM && r.zIfrom 2) true (.alconj r.g r.dst r.srcA (fieldAt r.imm 0 2)) := by
  cases r; subst h; rfl
theorem FForm.decode_66 (r : FForm) (h : r.opc = 0x66) : r.decode =
    match Rnd.ofCode (fieldAt r.mod 1 3) with
    | some x => chk (r.zB && r.zC && !(r.m 0) && r.zIfrom 2) true (.alnorm r.g x r.dst r.srcA (fieldAt r.imm 0 2))
    | none => .error .field := by
  cases r; subst h; rfl
theorem FForm.decode_67 (r : FForm) (h : r.opc = 0x67) : r.decode =
    let i : Instr := .altab r.g (fieldAt r.d 0 2) r.srcA r.off
    chk (r.zB && r.zC && r.zM && r.zIfrom 16) (inClass r.d 4 && i.wf) i := by
  cases r; subst h; rfl
theorem FForm.decode_70 (r : FForm) (h : r.opc = 0x70) : r.decode =
    chk (r.zD && r.zA && r.zB && r.zC && r.zM) true (.bra r.g r.imm) := by
  cases r; subst h; rfl
theorem FForm.decode_71 (r : FForm) (h : r.opc = 0x71) : r.decode =
    let i : Instr := .brx r.g r.srcA r.imm
    chk (r.zD && r.zB && r.zC && r.zM) i.wf i := by
  cases r; subst h; rfl
theorem FForm.decode_72 (r : FForm) (h : r.opc = 0x72) : r.decode =
    chk (r.zD && r.zA && r.zB && r.zC && r.zM) true (.call r.g r.imm) := by
  cases r; subst h; rfl
theorem FForm.decode_73 (r : FForm) (h : r.opc = 0x73) : r.decode =
    let i : Instr := .callx r.g r.srcA r.imm
    chk (r.zD && r.zB && r.zC && r.zM) i.wf i := by
  cases r; subst h; rfl
theorem FForm.decode_74 (r : FForm) (h : r.opc = 0x74) : r.decode =
    chk (r.zD && r.zA && r.zB && r.zC && r.zM && r.zI) true (.ret r.g) := by
  cases r; subst h; rfl
theorem FForm.decode_75 (r : FForm) (h : r.opc = 0x75) : r.decode =
    chk (r.zD && r.zA && r.zB && r.zC && r.zM && r.zI) true (.exit r.g) := by
  cases r; subst h; rfl
theorem FForm.decode_76 (r : FForm) (h : r.opc = 0x76) : r.decode =
    chk (r.zG && r.zD && r.zA && r.zB && r.zC && r.zM && r.zI) true .merge := by
  cases r; subst h; rfl
theorem FForm.decode_77 (r : FForm) (h : r.opc = 0x77) : r.decode =
    chk (r.zG && r.zD && r.zA && r.zB && r.zC && r.zM && r.zI) true .yield := by
  cases r; subst h; rfl
theorem FForm.decode_78 (r : FForm) (h : r.opc = 0x78) : r.decode =
    chk (r.zD && r.zA && r.zB && r.zC && r.zM && r.zI) true (.nop r.g) := by
  cases r; subst h; rfl
theorem FForm.decode_79 (r : FForm) (h : r.opc = 0x79) : r.decode =
    chk (r.zD && r.zA && r.zB && r.zC && r.zM) true (.trap r.g r.imm) := by
  cases r; subst h; rfl
theorem FForm.decode_7a (r : FForm) (h : r.opc = 0x7A) : r.decode =
    chk (r.zG && r.zD && r.zA && r.zB && r.zC && r.zM && r.zI) true .rtt := by
  cases r; subst h; rfl
theorem FForm.decode_7b (r : FForm) (h : r.opc = 0x7B) : r.decode =
    chk (r.zG && r.zD && r.zA && r.zB && r.zC && r.zM && r.zI) true .rts := by
  cases r; subst h; rfl
theorem FForm.decode_7c (r : FForm) (h : r.opc = 0x7C) : r.decode =
    chk (r.zD && r.zA && r.zB && r.zC && r.zM) true (.brk r.g r.imm) := by
  cases r; subst h; rfl
theorem FForm.decode_80 (r : FForm) (h : r.opc = 0x80) : r.decode =
    match Width.ofCode r.mod, Space.ofCode (fieldAt r.imm 16 3) with
    | some w, some sp =>
      let i : Instr := .ld r.g r.dst r.srcA w sp r.off
      chk (r.zB && r.zC) i.wf i
    | _, _ => .error .field := by
  cases r; subst h; rfl
theorem FForm.decode_81 (r : FForm) (h : r.opc = 0x81) : r.decode =
    match Width.ofCode r.mod, Space.ofCode (fieldAt r.imm 16 3) with
    | some w, some sp =>
      let i : Instr := .st r.g r.srcA r.srcB w sp r.off
      chk (r.zD && r.zC && w != .s8 && w != .s16) i.wf i
    | _, _ => .error .field := by
  cases r; subst h; rfl
theorem FForm.decode_82 (r : FForm) (h : r.opc = 0x82) : r.decode =
    match Width.ofCode r.mod with
    | some w =>
      let i : Instr := .ldr r.g r.dst r.srcA w r.off
      chk (r.zB && r.zC && r.zIfrom 16) i.wf i
    | none => .error .field := by
  cases r; subst h; rfl
theorem FForm.decode_83 (r : FForm) (h : r.opc = 0x83) : r.decode =
    match Width.ofCode r.mod, Space.ofCode (fieldAt r.imm 16 3) with
    | some w, some sp =>
      let i : Instr := .gath r.g r.dst r.srcA w sp r.off (fieldAt r.c 0 2)
      chk (r.zB && !r.ec && fieldAt r.c 2 4 == 0) i.wf i
    | _, _ => .error .field := by
  cases r; subst h; rfl
theorem FForm.decode_84 (r : FForm) (h : r.opc = 0x84) : r.decode =
    match Width.ofCode r.mod, Space.ofCode (fieldAt r.imm 16 3) with
    | some w, some sp =>
      let i : Instr := .scat r.g r.srcA r.srcB w sp r.off (fieldAt r.c 0 2)
      chk (r.zD && !r.ec && fieldAt r.c 2 4 == 0 && w != .s8 && w != .s16) i.wf i
    | _, _ => .error .field := by
  cases r; subst h; rfl
theorem FForm.decode_85 (r : FForm) (h : r.opc = 0x85) : r.decode =
    let i : Instr := .pref r.g r.srcA (r.m 0) r.off
    chk (r.zD && r.zB && r.zC && fieldAt r.mod 1 3 == 0 && r.zIfrom 16) i.wf i := by
  cases r; subst h; rfl
theorem FForm.decode_90 (r : FForm) (h : r.opc = 0x90) : r.decode =
    match AOp.ofCode r.mod, Space.ofCode (fieldAt r.imm 16 3), Scope.ofCode (fieldAt r.imm 12 3) with
    | some op, some sp, some k =>
      let i : Instr := .atom r.g op r.dst r.srcA r.srcB (if op = .cas then some r.srcC else none) (r.imm.getLsbD 15) k
        (AOrd.ofCode (fieldAt r.imm 10 2)) sp
      chk ((op == .cas || r.zC) && sp != .l && fieldAt r.imm 0 10 == 0) i.wf i
    | _, _, _ => .error .field := by
  cases r; subst h; rfl
theorem FForm.decode_91 (r : FForm) (h : r.opc = 0x91) : r.decode =
    match AOp.ofCode r.mod, Space.ofCode (fieldAt r.imm 16 3), Scope.ofCode (fieldAt r.imm 12 3) with
    | some op, some sp, some k =>
      let i : Instr := .red r.g op r.srcA r.srcB (r.imm.getLsbD 15) k (r.imm.getLsbD 11) sp
      chk (r.zD && r.zC && op != .exch && op != .cas && sp != .l && !r.imm.getLsbD 10 && fieldAt r.imm 0 10 == 0) i.wf i
    | _, _, _ => .error .field := by
  cases r; subst h; rfl
theorem FForm.decode_92 (r : FForm) (h : r.opc = 0x92) : r.decode =
    match FenceKind.ofCode (fieldAt r.mod 0 2), Scope.ofCode (fieldAt r.imm 0 3) with
    | some k, some sc => chk (r.zD && r.zA && r.zB && r.zC && fieldAt r.mod 2 2 == 0 && r.zIfrom 3) true (.fence r.g k sc)
    | _, _ => .error .field := by
  cases r; subst h; rfl
theorem FForm.decode_93 (r : FForm) (h : r.opc = 0x93) : r.decode =
    chk (r.zD && r.zA && r.zB && r.zC && r.zM && r.zI) true (.ifence r.g) := by
  cases r; subst h; rfl
theorem FForm.decode_94 (r : FForm) (h : r.opc = 0x94) : r.decode =
    chk (r.zD && r.zA && r.zB && r.zC && r.zM && r.zI) true (.roinv r.g) := by
  cases r; subst h; rfl
theorem FForm.decode_95 (r : FForm) (h : r.opc = 0x95) : r.decode =
    let i : Instr := .clrset r.g r.srcA r.srcB r.srcC
    chk (r.zD && r.zM && r.zI) i.wf i := by
  cases r; subst h; rfl
theorem FForm.decode_96 (r : FForm) (h : r.opc = 0x96) : r.decode =
    let i : Instr := .clrget r.g r.dst r.srcA r.off
    chk (r.zB && r.zC && r.zM && r.zIfrom 16) i.wf i := by
  cases r; subst h; rfl
theorem FForm.decode_97 (r : FForm) (h : r.opc = 0x97) : r.decode =
    r.oneSrc (.monq r.g r.dst r.srcA) := by
  cases r; subst h; rfl
theorem FForm.decode_98 (r : FForm) (h : r.opc = 0x98) : r.decode =
    match PageSize.ofCode (fieldAt r.mod 0 2) with
    | some pg =>
      let i : Instr := .alloc r.g r.dst r.srcA pg
      chk (r.zB && r.zC && fieldAt r.mod 2 2 == 0 && r.zI) i.wf i
    | none => .error .field := by
  cases r; subst h; rfl
theorem FForm.decode_99 (r : FForm) (h : r.opc = 0x99) : r.decode =
    let i : Instr := .free r.g r.srcA
    chk (r.zD && r.zB && r.zC && r.zM && r.zI) i.wf i := by
  cases r; subst h; rfl
theorem FForm.decode_a0 (r : FForm) (h : r.opc = 0xA0) : r.decode =
    chk (fieldAt r.mod 2 2 == 0 && r.zI) (r.srcA.reg.isK && r.srcB.reg.isK && r.srcC.reg.isK)
      (.wait r.g r.dst ⟨fieldAt r.a 0 5, r.ea⟩ ⟨fieldAt r.b 0 5, r.eb⟩ ⟨fieldAt r.c 0 5, r.ec⟩ (r.m 0) (r.m 1)) := by
  cases r; subst h; rfl
theorem FForm.decode_a1 (r : FForm) (h : r.opc = 0xA1) : r.decode =
    let o : BariOpd := if r.m 3 then .imm r.off (fieldAt r.imm 16 3) else .reg r.srcA
    chk (r.zB && r.zC && fieldAt r.mod 0 3 == 0 && if r.m 3 then r.zA else r.zI) (inClass r.d 16)
      (.bari r.g (fieldAt r.d 0 4) o) := by
  cases r; subst h; rfl
theorem FForm.decode_a2 (r : FForm) (h : r.opc = 0xA2) : r.decode =
    chk (!r.ea && r.zB && r.zC && fieldAt r.mod 1 3 == 0 && r.zI) (inClass r.a 16)
      (.bara r.g r.dst (fieldAt r.a 0 4) (r.m 0)) := by
  cases r; subst h; rfl
theorem FForm.decode_a3 (r : FForm) (h : r.opc = 0xA3) : r.decode =
    chk (!r.ea && r.zB && r.zC && r.zM && r.zI) (inClass r.a 16) (.barq r.g r.dst (fieldAt r.a 0 4)) := by
  cases r; subst h; rfl
theorem FForm.decode_a4 (r : FForm) (h : r.opc = 0xA4) : r.decode =
    let i : Instr := .cpa r.g r.srcA r.srcB (if r.m 3 then none else some r.srcC) (fieldAt r.mod 0 2) r.off
    chk (r.zD && (!r.m 3 || r.zC) && !r.m 2 && r.zIfrom 16) i.wf i := by
  cases r; subst h; rfl
theorem FForm.decode_a5 (r : FForm) (h : r.opc = 0xA5) : r.decode =
    let i : Instr := .bcopy r.g (r.m 0) (fieldAt r.a 0 4) (fieldAt r.imm 4 4) (fieldAt r.imm 0 4) r.barD
      (if r.m 2 then some r.srcB else none)
    chk (r.barDF && !r.ea && (r.m 2 || r.zB) && r.zC && !r.m 3 && r.zIfrom 8
        && decide ((fieldAt r.imm 0 4).toNat ≤ (fieldAt r.imm 4 4).toNat)) (r.barDO && inClass r.a 16 && i.wf) i := by
  cases r; subst h; rfl
theorem FForm.decode_a6 (r : FForm) (h : r.opc = 0xA6) : r.decode =
    chk (r.barDF && r.zC && fieldAt r.mod 2 2 == 0 && !(r.m 0) && r.zIfrom 8 && fieldAt r.imm 0 8 != 0) r.barDO
      (.mcast r.g r.srcA r.srcB (fieldAt r.imm 0 8) r.barD) := by
  cases r; subst h; rfl
theorem FForm.decode_a7 (r : FForm) (h : r.opc = 0xA7) : r.decode =
    chk (r.zD && r.zA && r.zB && r.zC && r.zM && r.zIfrom 7 && fieldAt r.imm 3 4 != 0) true
      (.slotf r.g (fieldAt r.imm 0 3) (fieldAt r.imm 3 4)) := by
  cases r; subst h; rfl
theorem FForm.decode_b0 (r : FForm) (h : r.opc = 0xB0) : r.decode =
    let i : Instr := .shld r.g (fieldAt r.d 0 4) r.srcA (r.imm.getLsbD 16) r.off
    chk (r.zB && r.zC && r.zM && r.zIfrom 17) (inClass r.d 16 && i.wf) i := by
  cases r; subst h; rfl
theorem FForm.decode_b1 (r : FForm) (h : r.opc = 0xB1) : r.decode =
    let i : Instr := .shst r.g (fieldAt r.d 0 4) r.srcA (r.imm.getLsbD 16) r.off
    chk (r.zB && r.zC && r.zM && r.zIfrom 17) (inClass r.d 16 && i.wf) i := by
  cases r; subst h; rfl
theorem FForm.decode_b2 (r : FForm) (h : r.opc = 0xB2) : r.decode =
    match ShField.ofCode (fieldAt r.imm 0 5) with
    | some f =>
      let i : Instr := .shset r.g (fieldAt r.d 0 4) f r.srcA
      chk (r.zB && r.zC && r.zM && r.zIfrom 5) (inClass r.d 16 && i.wf) i
    | none => .error .field := by
  cases r; subst h; rfl
theorem FForm.decode_b3 (r : FForm) (h : r.opc = 0xB3) : r.decode =
    match ShField.ofCode (fieldAt r.imm 0 5) with
    | some f =>
      let i : Instr := .shget r.g r.dst (fieldAt r.a 0 4) f
      chk (!r.ea && r.zB && r.zC && r.zM && r.zIfrom 5) (inClass r.a 16 && i.wf) i
    | none => .error .field := by
  cases r; subst h; rfl
theorem FForm.decode_b4 (r : FForm) (h : r.opc = 0xB4) : r.decode =
    let i : Instr := .strm r.g (r.m 0) (fieldAt r.imm 0 2) (fieldAt r.a 0 4) r.barD (if r.m 2 then some r.srcB else none)
    chk (r.barDF && !r.ea && (r.m 2 || r.zB) && r.zC && !r.m 3 && r.zIfrom 2) (r.barDO && inClass r.a 16 && i.wf) i := by
  cases r; subst h; rfl
theorem FForm.decode_b5 (r : FForm) (h : r.opc = 0xB5) : r.decode =
    chk (r.zA && r.zB && r.zC && r.zM && r.zIfrom 2) true (.strmq r.g r.dst (fieldAt r.imm 0 2)) := by
  cases r; subst h; rfl
theorem FForm.decode_b6 (r : FForm) (h : r.opc = 0xB6) : r.decode =
    chk (r.zD && r.zA && r.zB && r.zC && r.zM && r.zIfrom 2) true (.rsig r.g (fieldAt r.imm 0 2)) := by
  cases r; subst h; rfl
theorem FForm.decode_c0 (r : FForm) (h : r.opc = 0xC0) : r.decode =
    chk (!r.ea && r.zC && fieldAt r.mod 2 2 == 0 && r.zIfrom 3) (inClass r.d 2 && inClass r.a 16)
      (.mma r.g (r.m 0) (r.m 1) (r.d.getLsbD 0) (fieldAt r.a 0 4) r.srcB (fieldAt r.imm 0 3)) := by
  cases r; subst h; rfl
theorem FForm.decode_c1 (r : FForm) (h : r.opc = 0xC1) : r.decode =
    chk (r.zA && r.zB && r.zC && fieldAt r.mod 2 2 == 0 && !(r.m 0) && r.zI) (inClass r.d 2)
      (.mzero r.g (r.m 1) (r.d.getLsbD 0)) := by
  cases r; subst h; rfl
theorem FForm.decode_c2 (r : FForm) (h : r.opc = 0xC2) : r.decode =
    let i : Instr := .bld r.g (fieldAt r.a 0 4) r.srcB r.barD (if r.m 2 then some r.srcC else none)
    chk (r.barDF && !r.ea && (r.m 2 || r.zC) && !r.m 3 && !(r.m 0) && r.zI) (r.barDO && inClass r.a 16 && i.wf) i := by
  cases r; subst h; rfl
theorem FForm.decode_c3 (r : FForm) (h : r.opc = 0xC3) : r.decode =
    let res := r.imm.getLsbD 4
    let i : Instr := .mdrain r.g (r.m 0) (r.m 3) (r.d.getLsbD 0) (fieldAt r.a 0 4)
      (if res then some (fieldAt r.b 0 4) else none) (if r.m 1 then some (fieldAt r.imm 0 4) else none)
      (if r.m 2 then some r.srcC else none)
    chk (!r.ea && !r.eb && (res || r.b == 0) && (r.m 2 || r.zC) && r.zIfrom 5 && (r.m 1 || fieldAt r.imm 0 4 == 0))
      (inClass r.d 2 && inClass r.a 16 && (!res || inClass r.b 16) && i.wf) i := by
  cases r; subst h; rfl
theorem FForm.decode_c4 (r : FForm) (h : r.opc = 0xC4) : r.decode =
    let i : Instr := .epil r.g r.srcA (r.imm.getLsbD 16) r.off
    chk (r.zD && r.zB && r.zC && r.zM && r.zIfrom 17) i.wf i := by
  cases r; subst h; rfl
theorem FForm.decode_c5 (r : FForm) (h : r.opc = 0xC5) : r.decode =
    chk (r.zA && r.zB && r.zC && r.zM && r.zI) true (.mq r.g r.dst) := by
  cases r; subst h; rfl
theorem FForm.decode_d0 (r : FForm) (h : r.opc = 0xD0) : r.decode =
    let dom := fieldAt r.imm 0 4
    let i : Instr := .spawn r.g (fieldAt r.mod 0 2) r.srcA r.srcB (if dom = 0 then none else some (dom, r.srcC))
    chk (r.zD && (dom != 0 || r.zC) && fieldAt r.mod 2 2 == 0 && r.zIfrom 4) i.wf i := by
  cases r; subst h; rfl
theorem FForm.decode_d1 (r : FForm) (h : r.opc = 0xD1) : r.decode =
    let i : Instr := .spawnf r.g (fieldAt r.mod 0 2) r.srcA r.srcB r.srcC (fieldAt r.imm 0 2)
    chk (r.zD && fieldAt r.mod 2 2 == 0 && r.zIfrom 2) i.wf i := by
  cases r; subst h; rfl
theorem FForm.decode_d2 (r : FForm) (h : r.opc = 0xD2) : r.decode =
    let i : Instr := .futnew r.g r.srcA r.off
    chk (r.zD && r.zB && r.zC && r.zM && r.zIfrom 16) i.wf i := by
  cases r; subst h; rfl
theorem FForm.decode_d3 (r : FForm) (h : r.opc = 0xD3) : r.decode =
    let i : Instr := .futres r.g (r.m 0) r.srcA r.srcB r.off
    chk (r.zD && r.zC && fieldAt r.mod 1 3 == 0 && r.zIfrom 16) i.wf i := by
  cases r; subst h; rfl
theorem FForm.decode_d4 (r : FForm) (h : r.opc = 0xD4) : r.decode =
    let i : Instr := .futget r.g r.dst r.srcA r.off
    chk (r.zB && r.zC && r.zM && r.zIfrom 16) i.wf i := by
  cases r; subst h; rfl
theorem FForm.decode_d5 (r : FForm) (h : r.opc = 0xD5) : r.decode =
    chk (r.zA && r.zB && r.zC && r.zM && r.zI) true (.tself r.g r.dst) := by
  cases r; subst h; rfl
theorem FForm.decode_d6 (r : FForm) (h : r.opc = 0xD6) : r.decode =
    chk (r.zD && r.zA && r.zB && r.zC && fieldAt r.mod 1 3 == 0 && r.zI) true (.tabort r.g (r.m 0)) := by
  cases r; subst h; rfl
theorem FForm.decode_d7 (r : FForm) (h : r.opc = 0xD7) : r.decode =
    chk (r.zD && r.zA && r.zB && r.zC && r.zM && r.zI) true (.tirrev r.g) := by
  cases r; subst h; rfl
theorem FForm.decode_e0 (r : FForm) (h : r.opc = 0xE0) : r.decode =
    let i : Instr := .csrr r.g r.dst (fieldAt r.imm 0 12)
    chk (r.zA && r.zB && r.zC && r.zM && r.zIfrom 12) i.wf i := by
  cases r; subst h; rfl
theorem FForm.decode_e1 (r : FForm) (h : r.opc = 0xE1) : r.decode =
    let i : Instr := .csrw r.g (fieldAt r.imm 0 12) r.srcA
    chk (r.zD && r.zB && r.zC && r.zM && r.zIfrom 12) i.wf i := by
  cases r; subst h; rfl
theorem FForm.decode_e2 (r : FForm) (h : r.opc = 0xE2) : r.decode =
    chk (r.zD && r.zB && r.zC && r.zM && r.zIfrom 16) true (.evt r.g r.srcA r.off) := by
  cases r; subst h; rfl

end Sys2Proof
end

