-- ==== Sys2Proof/Laws/Encoding.lean ====
section
/-! SUPPORT. Bit fields of words put together from fields, the codes of the operands' types read back, and the fields of an
F-form bundle. -/

namespace Sys2Proof

/-! ### Fields of words put together -/

theorem getLsbD_fieldAt {w : Nat} (x : BitVec w) (lo n i : Nat) :
    (fieldAt x lo n).getLsbD i = (decide (i < n) && x.getLsbD (lo + i)) := by simp [fieldAt]

@[simp] theorem getElem_fieldAt {w : Nat} (x : BitVec w) (lo n i : Nat) (h : i < n) :
    (fieldAt x lo n)[i] = x.getLsbD (lo + i) := by simp [fieldAt]

@[simp] theorem fieldAt_zero (w lo n : Nat) : fieldAt (0#w) lo n = 0#n := by
  apply BitVec.eq_of_getLsbD_eq; intro i h; simp [h]

@[simp] theorem fieldAt_full {w : Nat} (x : BitVec w) : fieldAt x 0 w = x := by
  apply BitVec.eq_of_getLsbD_eq; intro i h; simp [h]

@[simp] theorem fieldAt_setWidth_low {n w : Nat} (x : BitVec n) (h : n ≤ w) : fieldAt (x.setWidth w) 0 n = x := by
  apply BitVec.eq_of_getLsbD_eq; intro i hi
  simp [hi, show i < w by omega]

@[simp] theorem fieldAt_setWidth_high {n w lo m : Nat} (x : BitVec n) (h : n ≤ lo) : fieldAt (x.setWidth w) lo m = 0#m := by
  apply BitVec.eq_of_getLsbD_eq; intro i hi
  simp [hi, x.getLsbD_of_ge (lo + i) (by omega)]

@[simp] theorem fieldAt_setWidth_in {n w lo m : Nat} (x : BitVec n) (h : lo + m ≤ n) (h' : n ≤ w) :
    fieldAt (x.setWidth w) lo m = fieldAt x lo m := by
  apply BitVec.eq_of_getLsbD_eq; intro i hi
  simp [hi, show lo + i < w by omega]

@[simp] theorem fieldAt_append_low {a b lo n : Nat} (x : BitVec a) (y : BitVec b) (h : lo + n ≤ b) :
    fieldAt (no_index (x ++ y)) lo n = fieldAt y lo n := by
  apply BitVec.eq_of_getLsbD_eq; intro i hi
  simp [BitVec.getLsbD_append, hi, show lo + i < b by omega]

@[simp] theorem fieldAt_append_high {a b lo n : Nat} (x : BitVec a) (y : BitVec b) (h : b ≤ lo) :
    fieldAt (no_index (x ++ y)) lo n = fieldAt x (lo - b) n := by
  apply BitVec.eq_of_getLsbD_eq; intro i hi
  simp [BitVec.getLsbD_append, hi, show ¬ lo + i < b by omega, show lo + i - b = lo - b + i by omega]

@[simp] theorem getLsbD_append_low {a b i : Nat} (x : BitVec a) (y : BitVec b) (h : i < b) :
    (no_index (x ++ y)).getLsbD i = y.getLsbD i := by simp [BitVec.getLsbD_append, h]

@[simp] theorem getLsbD_append_high {a b i : Nat} (x : BitVec a) (y : BitVec b) (h : b ≤ i) :
    (no_index (x ++ y)).getLsbD i = x.getLsbD (i - b) := by simp [BitVec.getLsbD_append, Nat.not_lt.2 h]

@[simp] theorem fieldAt_ofNat (w x lo n : Nat) : fieldAt (BitVec.ofNat w x) lo n = BitVec.ofNat n (x % 2 ^ w / 2 ^ lo) := by
  apply BitVec.eq_of_toNat_eq; simp [fieldAt, Nat.shiftRight_eq_div_pow]

/-- A field that lies across two fields which the encoding puts side by side. -/
theorem fieldAt_append_cut {a b lo n : Nat} (x : BitVec a) (y : BitVec b) (h₁ : lo ≤ b) (h₂ : b ≤ lo + n) :
    fieldAt (x ++ y) lo n = (fieldAt x 0 (lo + n - b) ++ fieldAt y lo (b - lo)).setWidth n := by
  apply BitVec.eq_of_getLsbD_eq; intro i hi
  by_cases h : lo + i < b
  · simp [hi, h, show i < b - lo by omega]
  · simp [BitVec.getLsbD_append, hi, h, show ¬ i < b - lo by omega,
      show i - (b - lo) < lo + n - b by omega, show lo + i - b = i - (b - lo) by omega]

/-- The four fields of MOVI's immediate, put together (R67). -/
@[simp] theorem movi_fields (x : BitVec 32) :
    BitVec.ofBool (x.getLsbD 31) ++ fieldAt x 25 6 ++ fieldAt x 19 6 ++ fieldAt x 0 19 = x := by
  apply BitVec.eq_of_getLsbD_eq; intro i hi
  simp only [BitVec.getLsbD_append, getLsbD_fieldAt, BitVec.getLsbD_ofBool]
  split
  · simp [*]
  · split
    · rw [show 19 + (i - 19) = i by omega]; simp; omega
    · split
      · rw [show 25 + (i - 19 - 6) = i by omega]; simp; omega
      · rw [show i = 31 by omega]; simp

/-! ### Codes read back -/

@[simp] theorem Reg.ofSpec_spec (r : Reg) : Reg.ofSpec r.spec = r := by
  cases r with
  | v n => revert n; decide
  | k n => revert n; decide

@[simp] theorem Reg.ofSpec_v (n : BitVec 5) : Reg.ofSpec (0#1 ++ n) = .v n := Reg.ofSpec_spec (.v n)
@[simp] theorem Reg.ofSpec_k (n : BitVec 5) : Reg.ofSpec (1#1 ++ n) = .k n := Reg.ofSpec_spec (.k n)
@[simp] theorem Reg.spec_v (n : BitVec 5) : (Reg.v n).spec = 0#1 ++ n := rfl
@[simp] theorem Reg.spec_k (n : BitVec 5) : (Reg.k n).spec = 1#1 ++ n := rfl
@[simp] theorem Reg.isK_v (n : BitVec 5) : (Reg.v n).isK = false := rfl
@[simp] theorem Reg.isK_k (n : BitVec 5) : (Reg.k n).isK = true := rfl

@[simp] theorem Rnd.ofCode_code (x : Rnd) : Rnd.ofCode x.code = some x := by
  cases x with
  | st m => cases m <;> rfl
  | dyn => rfl
@[simp] theorem Rnd.code_rn : (Rnd.st .rn).code = 0#3 := rfl
@[simp] theorem Rnd.ofCode_zero : Rnd.ofCode 0#3 = some (.st .rn) := rfl
@[simp] theorem Width.ofCode_code (x : Width) : Width.ofCode x.code = some x := by cases x <;> rfl
@[simp] theorem Space.ofCode_code (y : Space) : Space.ofCode y.code = some y := by cases y <;> rfl
@[simp] theorem ICond.ofCode_code (x : ICond) : ICond.ofCode x.code = some x := by cases x <;> rfl
@[simp] theorem FCond.ofCode_code (x : FCond) : FCond.ofCode x.code = some x := by cases x <;> rfl
@[simp] theorem POp.ofCode_code (x : POp) : POp.ofCode x.code = some x := by cases x <;> rfl
@[simp] theorem ShMode.ofCode_code (x : ShMode) : ShMode.ofCode x.code = x := by cases x <;> rfl
@[simp] theorem RedOp.ofCode_code (x : RedOp) : RedOp.ofCode x.code = x := by cases x <;> rfl
@[simp] theorem AOp.ofCode_code (x : AOp) : AOp.ofCode x.code = some x := by cases x <;> rfl
@[simp] theorem Scope.ofCode_code (x : Scope) : Scope.ofCode x.code = some x := by cases x <;> rfl
@[simp] theorem AOrd.ofCode_code (x : AOrd) : AOrd.ofCode x.code = x := by cases x <;> rfl
@[simp] theorem FenceKind.ofCode_code (x : FenceKind) : FenceKind.ofCode x.code = some x := by cases x <;> rfl
@[simp] theorem PageSize.ofCode_code (x : PageSize) : PageSize.ofCode x.code = some x := by cases x <;> rfl
@[simp] theorem ShField.ofCode_code (x : ShField) : ShField.ofCode x.code = some x := by cases x with
  | ext k | str k | box k => revert k; decide
  | _ => rfl

/-! ### The fields of an F-form bundle -/

/-- The fields of a bundle put together are the fields (R62). -/
theorem FForm.ofBits_toBits (r : FForm) : FForm.ofBits r.toBits = r := by
  cases r
  simp [FForm.ofBits, FForm.toBits, -BitVec.getLsbD_eq_getElem]

/-- KIND of a bundle put together from F-form fields is 0b00 (R62). -/
theorem FForm.toBits_kind (r : FForm) : r.toBits.getLsbD 63 = false ∧ r.toBits.getLsbD 62 = false := by
  simp [FForm.toBits, -BitVec.getLsbD_eq_getElem]

/-! ### Readers and writers of the fields -/

@[simp] theorem chk_def (x y : Bool) (i : Instr) :
    chk x y i = if x then (if y then .ok i else .error .operand) else .error .field := rfl
@[simp] theorem mod4_def (b3 b2 b1 b0 : Bool) : mod4 b3 b2 b1 b0 =
    BitVec.ofBool b3 ++ BitVec.ofBool b2 ++ BitVec.ofBool b1 ++ BitVec.ofBool b0 := rfl
@[simp] theorem modR_def (r : Rnd) (b : Bool) : modR r b = r.code ++ BitVec.ofBool b := rfl
@[simp] theorem inClass_setWidth {k n : Nat} (x : BitVec k) (h : 2 ^ k ≤ n) : inClass (x.setWidth 6) n = true := by
  have := x.isLt
  have := Nat.mod_le x.toNat (2 ^ 6)
  simp only [inClass, BitVec.toNat_setWidth, decide_eq_true_eq]; omega
@[simp] theorem inClass_ofNat (x n : Nat) : inClass (BitVec.ofNat 6 x) n = decide (x % 64 < n) := rfl
@[simp] theorem FForm.base_def (opc : BitVec 8) (g : Guard) :
    FForm.base opc g = ⟨opc, g.neg, g.p, 0, 0, 0, 0, false, false, false, 0, 0⟩ := rfl
@[simp] theorem FForm.g_def (r : FForm) : r.g = ⟨r.gn, r.gp⟩ := rfl
@[simp] theorem FForm.srcA_def (r : FForm) : r.srcA = ⟨Reg.ofSpec r.a, r.ea⟩ := rfl
@[simp] theorem FForm.srcB_def (r : FForm) : r.srcB = ⟨Reg.ofSpec r.b, r.eb⟩ := rfl
@[simp] theorem FForm.srcC_def (r : FForm) : r.srcC = ⟨Reg.ofSpec r.c, r.ec⟩ := rfl
@[simp] theorem FForm.dst_def (r : FForm) : r.dst = Reg.ofSpec r.d := rfl
@[simp] theorem FForm.fA_def (r : FForm) : r.fA = ⟨r.srcA, r.c.getLsbD 0, r.c.getLsbD 1⟩ := rfl
@[simp] theorem FForm.fB_def (r : FForm) : r.fB = ⟨r.srcB, r.c.getLsbD 2, r.c.getLsbD 3⟩ := rfl
@[simp] theorem FForm.m_def (r : FForm) (i : Nat) : r.m i = r.mod.getLsbD i := rfl
@[simp] theorem FForm.off_def (r : FForm) : r.off = fieldAt r.imm 0 16 := rfl
@[simp] theorem FForm.zG_def (r : FForm) : r.zG = (!r.gn && r.gp == 0) := rfl
@[simp] theorem FForm.zD_def (r : FForm) : r.zD = (r.d == 0) := rfl
@[simp] theorem FForm.zA_def (r : FForm) : r.zA = (r.a == 0 && !r.ea) := rfl
@[simp] theorem FForm.zB_def (r : FForm) : r.zB = (r.b == 0 && !r.eb) := rfl
@[simp] theorem FForm.zC_def (r : FForm) : r.zC = (r.c == 0 && !r.ec) := rfl
@[simp] theorem FForm.zM_def (r : FForm) : r.zM = (r.mod == 0) := rfl
@[simp] theorem FForm.zI_def (r : FForm) : r.zI = (r.imm == 0) := rfl
@[simp] theorem FForm.zIfrom_def (r : FForm) (lo : Nat) : r.zIfrom lo = (fieldAt r.imm lo (19 - lo) == 0) := rfl
@[simp] theorem FForm.opdF_def (r : FForm) : r.opdF = if r.m 3 then r.zB else r.zI := rfl
@[simp] theorem FForm.opd_def (r : FForm) : r.opd = if r.m 3 then .imm r.imm else .reg r.srcB := rfl
@[simp] theorem FForm.twoSrc_def (r : FForm) (hasU : Bool) (i : Instr) : r.twoSrc hasU i =
  chk (r.zC && r.opdF && !r.m 2 && !r.m 1 && (hasU || !r.m 0)) true i := rfl
@[simp] theorem FForm.oneSrc_def (r : FForm) (i : Instr) : r.oneSrc i = chk (r.zB && r.zC && r.zM && r.zI) true i := rfl
@[simp] theorem FForm.fTwo_def (r : FForm) (addend : Bool) (i : Rnd → Instr) : r.fTwo addend i =
  match Rnd.ofCode (fieldAt r.mod 1 3) with
  | some x => chk (!r.ec && r.zI && (addend || fieldAt r.c 4 2 == 0)) (i x).wf (i x)
  | none => .error .field := rfl
@[simp] theorem FForm.fOne_def (r : FForm) (i : Rnd → Instr) : r.fOne i =
  match Rnd.ofCode (fieldAt r.mod 1 3) with
  | some x => chk (r.zB && !r.ec && r.zI && fieldAt r.c 2 4 == 0) (i x).wf (i x)
  | none => .error .field := rfl
@[simp] theorem FForm.conv_def (r : FForm) (lo : Nat) (i : Rnd → Instr) : r.conv lo i =
  match Rnd.ofCode (fieldAt r.mod 1 3) with
  | some x => chk (r.zB && r.zC && r.zIfrom lo) (i x).wf (i x)
  | none => .error .field := rfl
@[simp] theorem FForm.half2_def (r : FForm) (addend : Bool) (i : Rnd → Instr) : r.half2 addend i =
    r.fTwo addend i := rfl
@[simp] theorem FForm.barD_def (r : FForm) : r.barD = if r.m 1 then some (fieldAt r.d 0 4) else none := rfl
@[simp] theorem FForm.barDF_def (r : FForm) : r.barDF = (r.m 1 || r.zD) := rfl
@[simp] theorem FForm.barDO_def (r : FForm) : r.barDO = (!r.m 1 || inClass r.d 16) := rfl
@[simp] theorem FForm.withD_def (r : FForm) (d : Reg) : r.withD d = { r with d := d.spec } := rfl
@[simp] theorem FForm.withA_def (r : FForm) (a : Src) : r.withA a = { r with a := a.reg.spec, ea := a.trap } := rfl
@[simp] theorem FForm.withB_def (r : FForm) (b : Src) : r.withB b = { r with b := b.reg.spec, eb := b.trap } := rfl
@[simp] theorem FForm.withC_def (r : FForm) (c : Src) : r.withC c = { r with c := c.reg.spec, ec := c.trap } := rfl
@[simp] theorem FForm.withMod_def (r : FForm) (m : BitVec 4) : r.withMod m = { r with mod := m } := rfl
@[simp] theorem FForm.withImm_def (r : FForm) (x : BitVec 19) : r.withImm x = { r with imm := x } := rfl
@[simp] theorem FForm.withOpd_def (r : FForm) (o : Opd) (low : BitVec 3) : r.withOpd o low =
  match o with
  | .reg s => { r.withB s with mod := 0#1 ++ low }
  | .imm i => { r with mod := 1#1 ++ low, imm := i } := rfl
@[simp] theorem FForm.withF_def (r : FForm) (negD absD : Bool) (a b : FSrc) : r.withF negD absD a b =
  { (r.withA a.src).withB b.src with
    c := BitVec.ofBool absD ++ BitVec.ofBool negD ++ BitVec.ofBool b.abs ++ BitVec.ofBool b.neg ++ BitVec.ofBool a.abs
      ++ BitVec.ofBool a.neg } := rfl
@[simp] theorem FForm.withF1_def (r : FForm) (a : FSrc) : r.withF1 a =
  { r.withA a.src with c := 0#4 ++ BitVec.ofBool a.abs ++ BitVec.ofBool a.neg } := rfl
@[simp] theorem FForm.withDn_def {n : Nat} (r : FForm) (x : BitVec n) : r.withDn x = { r with d := x.setWidth 6 } := rfl
@[simp] theorem FForm.withAn_def {n : Nat} (r : FForm) (x : BitVec n) : r.withAn x = { r with a := x.setWidth 6 } := rfl
@[simp] theorem FForm.withAv_def (r : FForm) (a : VSrc) (k : Bool) : r.withAv a k =
    { r with a := BitVec.ofBool k ++ a.n, ea := a.trap } := rfl
@[simp] theorem FForm.withBk_def (r : FForm) (b : VSrc) : r.withBk b = { r with b := 1#1 ++ b.n, eb := b.trap } := rfl
@[simp] theorem FForm.withCk_def (r : FForm) (c : VSrc) : r.withCk c = { r with c := 1#1 ++ c.n, ec := c.trap } := rfl
@[simp] theorem FForm.withImmN_def {n : Nat} (r : FForm) (x : BitVec n) : r.withImmN x =
    { r with imm := x.setWidth 19 } := rfl
@[simp] theorem FForm.withMem_def (r : FForm) (sp : BitVec 3) (off : BitVec 16) : r.withMem sp off =
    { r with imm := sp ++ off } := rfl
@[simp] theorem FForm.withBOpt_def (r : FForm) (b : Option Src) : r.withB? b =
  match b with
  | some b => r.withB b
  | none => r := rfl
@[simp] theorem FForm.withCOpt_def (r : FForm) (c : Option Src) : r.withC? c =
  match c with
  | some c => r.withC c
  | none => r := rfl
@[simp] theorem FForm.withBar_def (r : FForm) (b : Option (BitVec 4)) : r.withBar b =
  match b with
  | some b => r.withDn b
  | none => r := rfl

end Sys2Proof
end

