-- ==== Sys2Proof/Laws/PerInstr.lean ====
section
/-! SUPPORT. Per instruction: the decoder reads back, from the F-form fields that the encoder writes, the instruction. -/

namespace Sys2Proof.Laws.ReadBack

/-- The decoder reads an instruction back from the fields that the encoder gives it. -/
def Statement (i : Instr) : Prop := i.wf = true → ∀ r, i.form = some r → r.decode = .ok i

set_option linter.unusedSimpArgs false
set_option linter.unusedVariables false
theorem iadd (g : Guard) (d : Reg) (a : Src) (b : Opd) : Statement (.iadd g d a b) := by
  intro h r hr; cases hr
  cases b <;> rw [FForm.decode_00 _ rfl] <;>
    simp [h, -BitVec.getLsbD_eq_getElem]
theorem isub (g : Guard) (d : Reg) (a : Src) (b : Opd) : Statement (.isub g d a b) := by
  intro h r hr; cases hr
  cases b <;> rw [FForm.decode_01 _ rfl] <;>
    simp [h, -BitVec.getLsbD_eq_getElem]
theorem imul (g : Guard) (d : Reg) (a : Src) (b : Opd) : Statement (.imul g d a b) := by
  intro h r hr; cases hr
  cases b <;> rw [FForm.decode_02 _ rfl] <;>
    simp [h, -BitVec.getLsbD_eq_getElem]
theorem imulh (g : Guard) (d : Reg) (a : Src) (b : Opd) (u : Bool) : Statement (.imulh g d a b u) := by
  intro h r hr; cases hr
  cases b <;> cases u <;> rw [FForm.decode_03 _ rfl] <;>
    simp [h, -BitVec.getLsbD_eq_getElem]
theorem imad (g : Guard) (d : Reg) (a : Src) (b : Src) (c : Src) : Statement (.imad g d a b c) := by
  intro h r hr; cases hr
  rw [FForm.decode_04 _ rfl] <;>
    simp [h, -BitVec.getLsbD_eq_getElem]
theorem iadd64 (g : Guard) (d : Reg) (a : Src) (b : Opd64) : Statement (.iadd64 g d a b) := by
  intro h r hr; cases hr
  cases b <;> rw [FForm.decode_05 _ rfl] <;>
    simp [h, -BitVec.getLsbD_eq_getElem]
theorem idiv (g : Guard) (d : Reg) (a : Src) (b : Src) (u : Bool) : Statement (.idiv g d a b u) := by
  intro h r hr; cases hr
  cases u <;> rw [FForm.decode_06 _ rfl] <;>
    simp [h, -BitVec.getLsbD_eq_getElem]
theorem irem (g : Guard) (d : Reg) (a : Src) (b : Src) (u : Bool) : Statement (.irem g d a b u) := by
  intro h r hr; cases hr
  cases u <;> rw [FForm.decode_07 _ rfl] <;>
    simp [h, -BitVec.getLsbD_eq_getElem]
theorem imin (g : Guard) (d : Reg) (a : Src) (b : Opd) (u : Bool) : Statement (.imin g d a b u) := by
  intro h r hr; cases hr
  cases b <;> cases u <;> rw [FForm.decode_08 _ rfl] <;>
    simp [h, -BitVec.getLsbD_eq_getElem]
theorem imax (g : Guard) (d : Reg) (a : Src) (b : Opd) (u : Bool) : Statement (.imax g d a b u) := by
  intro h r hr; cases hr
  cases b <;> cases u <;> rw [FForm.decode_09 _ rfl] <;>
    simp [h, -BitVec.getLsbD_eq_getElem]
theorem iabs (g : Guard) (d : Reg) (a : Src) : Statement (.iabs g d a) := by
  intro h r hr; cases hr
  rw [FForm.decode_0a _ rfl] <;>
    simp [h, -BitVec.getLsbD_eq_getElem]
theorem ineg (g : Guard) (d : Reg) (a : Src) : Statement (.ineg g d a) := by
  intro h r hr; cases hr
  rw [FForm.decode_0b _ rfl] <;>
    simp [h, -BitVec.getLsbD_eq_getElem]
theorem lea (g : Guard) (d : Reg) (a : Src) (b : Src) (sx : Bool) (sh : BitVec 3) :
    Statement (.lea g d a b sx sh) := by
  intro h r hr; cases hr
  cases sx <;> rw [FForm.decode_0c _ rfl] <;>
    simp [h, -BitVec.getLsbD_eq_getElem]
theorem imadw (g : Guard) (d : Reg) (a : Src) (b : Src) (c : Src) (u : Bool) : Statement (.imadw g d a b c u) := by
  intro h r hr; cases hr
  cases u <;> rw [FForm.decode_0d _ rfl] <;>
    simp [h, -BitVec.getLsbD_eq_getElem]
theorem and (g : Guard) (d : Reg) (a : Src) (b : Opd) : Statement (.and g d a b) := by
  intro h r hr; cases hr
  cases b <;> rw [FForm.decode_10 _ rfl] <;>
    simp [h, -BitVec.getLsbD_eq_getElem]
theorem or (g : Guard) (d : Reg) (a : Src) (b : Opd) : Statement (.or g d a b) := by
  intro h r hr; cases hr
  cases b <;> rw [FForm.decode_11 _ rfl] <;>
    simp [h, -BitVec.getLsbD_eq_getElem]
theorem xor (g : Guard) (d : Reg) (a : Src) (b : Opd) : Statement (.xor g d a b) := by
  intro h r hr; cases hr
  cases b <;> rw [FForm.decode_12 _ rfl] <;>
    simp [h, -BitVec.getLsbD_eq_getElem]
theorem andn (g : Guard) (d : Reg) (a : Src) (b : Opd) : Statement (.andn g d a b) := by
  intro h r hr; cases hr
  cases b <;> rw [FForm.decode_13 _ rfl] <;>
    simp [h, -BitVec.getLsbD_eq_getElem]
theorem not (g : Guard) (d : Reg) (a : Src) : Statement (.not g d a) := by
  intro h r hr; cases hr
  rw [FForm.decode_14 _ rfl] <;>
    simp [h, -BitVec.getLsbD_eq_getElem]
theorem shl (g : Guard) (d : Reg) (a : Src) (b : Opd) : Statement (.shl g d a b) := by
  intro h r hr; cases hr
  cases b <;> rw [FForm.decode_15 _ rfl] <;>
    simp [h, -BitVec.getLsbD_eq_getElem]
theorem shr (g : Guard) (d : Reg) (a : Src) (b : Opd) : Statement (.shr g d a b) := by
  intro h r hr; cases hr
  cases b <;> rw [FForm.decode_16 _ rfl] <;>
    simp [h, -BitVec.getLsbD_eq_getElem]
theorem sar (g : Guard) (d : Reg) (a : Src) (b : Opd) : Statement (.sar g d a b) := by
  intro h r hr; cases hr
  cases b <;> rw [FForm.decode_17 _ rfl] <;>
    simp [h, -BitVec.getLsbD_eq_getElem]
theorem rotl (g : Guard) (d : Reg) (a : Src) (b : Opd) : Statement (.rotl g d a b) := by
  intro h r hr; cases hr
  cases b <;> rw [FForm.decode_18 _ rfl] <;>
    simp [h, -BitVec.getLsbD_eq_getElem]
theorem popc (g : Guard) (d : Reg) (a : Src) : Statement (.popc g d a) := by
  intro h r hr; cases hr
  rw [FForm.decode_19 _ rfl] <;>
    simp [h, -BitVec.getLsbD_eq_getElem]
theorem clz (g : Guard) (d : Reg) (a : Src) : Statement (.clz g d a) := by
  intro h r hr; cases hr
  rw [FForm.decode_1a _ rfl] <;>
    simp [h, -BitVec.getLsbD_eq_getElem]
theorem brev (g : Guard) (d : Reg) (a : Src) : Statement (.brev g d a) := by
  intro h r hr; cases hr
  rw [FForm.decode_1b _ rfl] <;>
    simp [h, -BitVec.getLsbD_eq_getElem]
theorem bfx (g : Guard) (d : Reg) (a : Src) (f : FieldSel) (s : Bool) : Statement (.bfx g d a f s) := by
  intro h r hr; cases hr
  have h' : ∀ p n, f = .imm p n → n.toNat ≤ 32 := by rintro p n rfl; exact of_decide_eq_true h
  cases s <;> cases f <;> rw [FForm.decode_1c _ rfl] <;> simp [-BitVec.getLsbD_eq_getElem]
  · exact h' _ _ rfl
  · exact h' _ _ rfl
theorem bfi (g : Guard) (d : Reg) (a : Src) (f : FieldSel) (c : Src) : Statement (.bfi g d a f c) := by
  intro h r hr; cases hr
  have h' : ∀ p n, f = .imm p n → n.toNat ≤ 32 := by rintro p n rfl; exact of_decide_eq_true h
  cases f <;> rw [FForm.decode_1d _ rfl] <;> simp [-BitVec.getLsbD_eq_getElem]; exact h' _ _ rfl
theorem bperm (g : Guard) (d : Reg) (a : Src) (b : Src) (hi : Bool) : Statement (.bperm g d a b hi) := by
  intro h r hr; cases hr
  cases hi <;> rw [FForm.decode_1e _ rfl] <;>
    simp [h, -BitVec.getLsbD_eq_getElem]
theorem bsel (g : Guard) (d : Reg) (a : Src) (b : Src) (sel : SelOpd) : Statement (.bsel g d a b sel) := by
  intro h r hr; cases hr
  cases sel <;> rw [FForm.decode_1f _ rfl] <;>
    simp [h, -BitVec.getLsbD_eq_getElem]
theorem iset (g : Guard) (p : BitVec 3) (a : Src) (b : Opd) (cond : ICond) (u : Bool) :
    Statement (.iset g p a b cond u) := by
  intro h r hr; cases hr
  cases b <;> cases u <;> rw [FForm.decode_20 _ rfl] <;>
    simp [h, -BitVec.getLsbD_eq_getElem]
theorem isel (g : Guard) (d : Reg) (a : Src) (b : Opd) (p : BitVec 3) (neg : Bool) :
    Statement (.isel g d a b p neg) := by
  intro h r hr; cases hr
  cases b <;> cases neg <;> rw [FForm.decode_21 _ rfl] <;>
    simp [h, -BitVec.getLsbD_eq_getElem]
theorem mov (g : Guard) (d : Reg) (a : Src) (wide : Bool) : Statement (.mov g d a wide) := by
  intro h r hr; cases hr
  cases wide <;> rw [FForm.decode_22 _ rfl] <;>
    simp [h, -BitVec.getLsbD_eq_getElem]
theorem movi (g : Guard) (d : Reg) (x : Word) : Statement (.movi g d x) := by
  intro h r hr; cases hr
  rw [FForm.decode_23 _ rfl] <;>
    simp [h, -BitVec.getLsbD_eq_getElem]
theorem movk (g : Guard) (kd : BitVec 5) (a : VSrc) (lane : BitVec 5) : Statement (.movk g kd a lane) := by
  intro h r hr; cases hr
  rw [FForm.decode_24 _ rfl] <;>
    simp [h, -BitVec.getLsbD_eq_getElem]
theorem pset (g : Guard) (p : BitVec 3) (pa : BitVec 3) (na : Bool) (pb : BitVec 3) (nb : Bool) (op : POp) :
    Statement (.pset g p pa na pb nb op) := by
  intro h r hr; cases hr
  cases na <;> cases nb <;> rw [FForm.decode_25 _ rfl] <;>
    simp [h, -BitVec.getLsbD_eq_getElem]
theorem pmov (g : Guard) (m : PMov) : Statement (.pmov g m) := by
  intro h r hr; cases hr
  cases m <;> rw [FForm.decode_26 _ rfl] <;>
    simp [h, -BitVec.getLsbD_eq_getElem]
theorem shfl (g : Guard) (d : Reg) (a : VSrc) (n : LaneOpd) (w : BitVec 3) (mode : ShMode) :
    Statement (.shfl g d a n w mode) := by
  intro h r hr; cases hr
  have h' : w.toNat ≤ 5 := of_decide_eq_true h
  cases n <;> rw [FForm.decode_30 _ rfl] <;> simp [h', -BitVec.getLsbD_eq_getElem]
theorem vote (g : Guard) (dst : VoteDst) (pa : BitVec 3) (neg : Bool) : Statement (.vote g dst pa neg) := by
  intro h r hr; cases hr
  cases dst <;> cases neg <;> rw [FForm.decode_31 _ rfl] <;>
    simp [h, -BitVec.getLsbD_eq_getElem]
theorem redux (g : Guard) (d : Reg) (a : VSrc) (op : RedOp) : Statement (.redux g d a op) := by
  intro h r hr; cases hr
  rw [FForm.decode_32 _ rfl] <;>
    simp [h, -BitVec.getLsbD_eq_getElem]
theorem fadd (g : Guard) (f64 : Bool) (r : Rnd) (d : Reg) (a : FSrc) (b : FSrc) : Statement (.fadd g f64 r d a b) := by
  intro h r hr; cases hr
  cases f64 <;> rw [FForm.decode_40 _ rfl] <;>
    simp [h, -BitVec.getLsbD_eq_getElem]
theorem fsub (g : Guard) (f64 : Bool) (r : Rnd) (d : Reg) (a : FSrc) (b : FSrc) : Statement (.fsub g f64 r d a b) := by
  intro h r hr; cases hr
  cases f64 <;> rw [FForm.decode_41 _ rfl] <;>
    simp [h, -BitVec.getLsbD_eq_getElem]
theorem fmul (g : Guard) (f64 : Bool) (r : Rnd) (d : Reg) (a : FSrc) (b : FSrc) : Statement (.fmul g f64 r d a b) := by
  intro h r hr; cases hr
  cases f64 <;> rw [FForm.decode_42 _ rfl] <;>
    simp [h, -BitVec.getLsbD_eq_getElem]
theorem ffma (g : Guard) (f64 : Bool) (r : Rnd) (d : Reg) (negD : Bool) (absD : Bool) (a : FSrc) (b : FSrc) :
    Statement (.ffma g f64 r d negD absD a b) := by
  intro h r hr; cases hr
  cases f64 <;> cases negD <;> cases absD <;> rw [FForm.decode_43 _ rfl] <;>
    simp [h, -BitVec.getLsbD_eq_getElem]
theorem fmin (g : Guard) (f64 : Bool) (d : Reg) (a : FSrc) (b : FSrc) : Statement (.fmin g f64 d a b) := by
  intro h r hr; cases hr
  cases f64 <;> rw [FForm.decode_44 _ rfl] <;>
    simp [h, -BitVec.getLsbD_eq_getElem]
theorem fmax (g : Guard) (f64 : Bool) (d : Reg) (a : FSrc) (b : FSrc) : Statement (.fmax g f64 d a b) := by
  intro h r hr; cases hr
  cases f64 <;> rw [FForm.decode_45 _ rfl] <;>
    simp [h, -BitVec.getLsbD_eq_getElem]
theorem fset (g : Guard) (f64 : Bool) (p : BitVec 3) (a : FSrc) (b : FSrc) (cond : FCond) (sig : Bool) :
    Statement (.fset g f64 p a b cond sig) := by
  intro h r hr; cases hr
  cases f64 <;> cases sig <;> rw [FForm.decode_46 _ rfl] <;>
    simp [h, -BitVec.getLsbD_eq_getElem]
theorem fdiv (g : Guard) (f64 : Bool) (r : Rnd) (d : Reg) (a : FSrc) (b : FSrc) : Statement (.fdiv g f64 r d a b) := by
  intro h r hr; cases hr
  cases f64 <;> rw [FForm.decode_47 _ rfl] <;>
    simp [h, -BitVec.getLsbD_eq_getElem]
theorem fsqrt (g : Guard) (f64 : Bool) (r : Rnd) (d : Reg) (a : FSrc) : Statement (.fsqrt g f64 r d a) := by
  intro h r hr; cases hr
  cases f64 <;> rw [FForm.decode_48 _ rfl] <;>
    simp [h, -BitVec.getLsbD_eq_getElem]
theorem frcp (g : Guard) (f64 : Bool) (r : Rnd) (d : Reg) (a : FSrc) : Statement (.frcp g f64 r d a) := by
  intro h r hr; cases hr
  cases f64 <;> rw [FForm.decode_49 _ rfl] <;>
    simp [h, -BitVec.getLsbD_eq_getElem]
theorem frsq (g : Guard) (f64 : Bool) (r : Rnd) (d : Reg) (a : FSrc) : Statement (.frsq g f64 r d a) := by
  intro h r hr; cases hr
  cases f64 <;> rw [FForm.decode_4a _ rfl] <;>
    simp [h, -BitVec.getLsbD_eq_getElem]
theorem fexp2 (g : Guard) (f64 : Bool) (r : Rnd) (d : Reg) (a : FSrc) : Statement (.fexp2 g f64 r d a) := by
  intro h r hr; cases hr
  cases f64 <;> rw [FForm.decode_4b _ rfl] <;>
    simp [h, -BitVec.getLsbD_eq_getElem]
theorem flog2 (g : Guard) (f64 : Bool) (r : Rnd) (d : Reg) (a : FSrc) : Statement (.flog2 g f64 r d a) := by
  intro h r hr; cases hr
  cases f64 <;> rw [FForm.decode_4c _ rfl] <;>
    simp [h, -BitVec.getLsbD_eq_getElem]
theorem fsin (g : Guard) (f64 : Bool) (r : Rnd) (d : Reg) (a : FSrc) : Statement (.fsin g f64 r d a) := by
  intro h r hr; cases hr
  cases f64 <;> rw [FForm.decode_4d _ rfl] <;>
    simp [h, -BitVec.getLsbD_eq_getElem]
theorem fcos (g : Guard) (f64 : Bool) (r : Rnd) (d : Reg) (a : FSrc) : Statement (.fcos g f64 r d a) := by
  intro h r hr; cases hr
  cases f64 <;> rw [FForm.decode_4e _ rfl] <;>
    simp [h, -BitVec.getLsbD_eq_getElem]
theorem fclass (g : Guard) (f64 : Bool) (d : Reg) (a : FSrc) : Statement (.fclass g f64 d a) := by
  intro h r hr; cases hr
  cases f64 <;> rw [FForm.decode_4f _ rfl] <;>
    simp [h, -BitVec.getLsbD_eq_getElem]
theorem frnd (g : Guard) (f64 : Bool) (r : Rnd) (d : Reg) (a : Src) : Statement (.frnd g f64 r d a) := by
  intro h r hr; cases hr
  cases f64 <;> rw [FForm.decode_50 _ rfl] <;>
    simp [h, -BitVec.getLsbD_eq_getElem]
theorem f2i (g : Guard) (f64 : Bool) (r : Rnd) (d : Reg) (a : Src) (ty : BitVec 2) :
    Statement (.f2i g f64 r d a ty) := by
  intro h r hr; cases hr
  cases f64 <;> rw [FForm.decode_51 _ rfl] <;>
    simp [h, -BitVec.getLsbD_eq_getElem]
theorem i2f (g : Guard) (f64 : Bool) (r : Rnd) (d : Reg) (a : Src) (ty : BitVec 2) :
    Statement (.i2f g f64 r d a ty) := by
  intro h r hr; cases hr
  cases f64 <;> rw [FForm.decode_52 _ rfl] <;>
    simp [h, -BitVec.getLsbD_eq_getElem]
theorem f2f (g : Guard) (narrow : Bool) (r : Rnd) (d : Reg) (a : Src) : Statement (.f2f g narrow r d a) := by
  intro h r' hr; cases hr
  have h' : narrow = false → r = .st .rn := by
    rintro rfl
    exact of_decide_eq_true (Bool.and_eq_true_iff.1 (Bool.and_eq_true_iff.1 h).1).1
  cases narrow
  · obtain rfl := h' rfl; rw [FForm.decode_53 _ rfl]; simp [h, -BitVec.getLsbD_eq_getElem]
  · rw [FForm.decode_53 _ rfl]; simp [h, -BitVec.getLsbD_eq_getElem]
theorem cvt (g : Guard) (out : Bool) (d : Reg) (a : Src) (slot : BitVec 3) : Statement (.cvt g out d a slot) := by
  intro h r hr; cases hr
  cases out <;> rw [FForm.decode_54 _ rfl] <;>
    simp [h, -BitVec.getLsbD_eq_getElem]
theorem cvtp (g : Guard) (d : Reg) (a : Src) (slot : BitVec 3) : Statement (.cvtp g d a slot) := by
  intro h r hr; cases hr
  rw [FForm.decode_55 _ rfl] <;>
    simp [h, -BitVec.getLsbD_eq_getElem]
theorem cvtu (g : Guard) (d : Reg) (a : Src) (slot : BitVec 3) : Statement (.cvtu g d a slot) := by
  intro h r hr; cases hr
  rw [FForm.decode_56 _ rfl] <;>
    simp [h, -BitVec.getLsbD_eq_getElem]
theorem tfence (g : Guard) : Statement (.tfence g) := by
  intro h r hr; cases hr
  rw [FForm.decode_57 _ rfl] <;>
    simp [h, -BitVec.getLsbD_eq_getElem]
theorem hadd2 (g : Guard) (bf : Bool) (r : Rnd) (d : Reg) (a : FSrc) (b : FSrc) : Statement (.hadd2 g bf r d a b) := by
  intro h r hr; cases hr
  cases bf <;> rw [FForm.decode_60 _ rfl] <;>
    simp [h, -BitVec.getLsbD_eq_getElem]
theorem hmul2 (g : Guard) (bf : Bool) (r : Rnd) (d : Reg) (a : FSrc) (b : FSrc) : Statement (.hmul2 g bf r d a b) := by
  intro h r hr; cases hr
  cases bf <;> rw [FForm.decode_61 _ rfl] <;>
    simp [h, -BitVec.getLsbD_eq_getElem]
theorem hfma2 (g : Guard) (bf : Bool) (r : Rnd) (d : Reg) (negD : Bool) (absD : Bool) (a : FSrc) (b : FSrc) :
    Statement (.hfma2 g bf r d negD absD a b) := by
  intro h r hr; cases hr
  cases bf <;> cases negD <;> cases absD <;> rw [FForm.decode_62 _ rfl] <;>
    simp [h, -BitVec.getLsbD_eq_getElem]
theorem almul (g : Guard) (r : Rnd) (d : Reg) (a : Src) (b : Src) (t : BitVec 2) : Statement (.almul g r d a b t) := by
  intro h r hr; cases hr
  rw [FForm.decode_63 _ rfl] <;>
    simp [h, -BitVec.getLsbD_eq_getElem]
theorem almac (g : Guard) (r : Rnd) (d : Reg) (a : Src) (b : Src) (t : BitVec 2) : Statement (.almac g r d a b t) := by
  intro h r hr; cases hr
  rw [FForm.decode_64 _ rfl] <;>
    simp [h, -BitVec.getLsbD_eq_getElem]
theorem alconj (g : Guard) (d : Reg) (a : Src) (t : BitVec 2) : Statement (.alconj g d a t) := by
  intro h r hr; cases hr
  rw [FForm.decode_65 _ rfl] <;>
    simp [h, -BitVec.getLsbD_eq_getElem]
theorem alnorm (g : Guard) (r : Rnd) (d : Reg) (a : Src) (t : BitVec 2) : Statement (.alnorm g r d a t) := by
  intro h r hr; cases hr
  rw [FForm.decode_66 _ rfl] <;>
    simp [h, -BitVec.getLsbD_eq_getElem]
theorem altab (g : Guard) (al : BitVec 2) (a : Src) (off : BitVec 16) : Statement (.altab g al a off) := by
  intro h r hr; cases hr
  rw [FForm.decode_67 _ rfl] <;>
    simp [h, -BitVec.getLsbD_eq_getElem]
theorem altabTableRead (core : Nat) : Statement (.altabTableRead core) := by
  intro _ r hr; cases hr
theorem bra (g : Guard) (off : BitVec 19) : Statement (.bra g off) := by
  intro h r hr; cases hr
  rw [FForm.decode_70 _ rfl] <;>
    simp [h, -BitVec.getLsbD_eq_getElem]
theorem brx (g : Guard) (a : Src) (off : BitVec 19) : Statement (.brx g a off) := by
  intro h r hr; cases hr
  rw [FForm.decode_71 _ rfl] <;>
    simp [h, -BitVec.getLsbD_eq_getElem]
theorem call (g : Guard) (off : BitVec 19) : Statement (.call g off) := by
  intro h r hr; cases hr
  rw [FForm.decode_72 _ rfl] <;>
    simp [h, -BitVec.getLsbD_eq_getElem]
theorem callx (g : Guard) (a : Src) (off : BitVec 19) : Statement (.callx g a off) := by
  intro h r hr; cases hr
  rw [FForm.decode_73 _ rfl] <;>
    simp [h, -BitVec.getLsbD_eq_getElem]
theorem ret (g : Guard) : Statement (.ret g) := by
  intro h r hr; cases hr
  rw [FForm.decode_74 _ rfl] <;>
    simp [h, -BitVec.getLsbD_eq_getElem]
theorem exit (g : Guard) : Statement (.exit g) := by
  intro h r hr; cases hr
  rw [FForm.decode_75 _ rfl] <;>
    simp [h, -BitVec.getLsbD_eq_getElem]
theorem merge : Statement (.merge) := by
  intro h r hr; cases hr
  rw [FForm.decode_76 _ rfl] <;>
    simp [h, -BitVec.getLsbD_eq_getElem]
theorem yield : Statement (.yield) := by
  intro h r hr; cases hr
  rw [FForm.decode_77 _ rfl] <;>
    simp [h, -BitVec.getLsbD_eq_getElem]
theorem nop (g : Guard) : Statement (.nop g) := by
  intro h r hr; cases hr
  rw [FForm.decode_78 _ rfl] <;>
    simp [h, -BitVec.getLsbD_eq_getElem]
theorem trap (g : Guard) (code : BitVec 19) : Statement (.trap g code) := by
  intro h r hr; cases hr
  rw [FForm.decode_79 _ rfl] <;>
    simp [h, -BitVec.getLsbD_eq_getElem]
theorem rtt : Statement (.rtt) := by
  intro h r hr; cases hr
  rw [FForm.decode_7a _ rfl] <;>
    simp [h, -BitVec.getLsbD_eq_getElem]
theorem rts : Statement (.rts) := by
  intro h r hr; cases hr
  rw [FForm.decode_7b _ rfl] <;>
    simp [h, -BitVec.getLsbD_eq_getElem]
theorem brk (g : Guard) (code : BitVec 19) : Statement (.brk g code) := by
  intro h r hr; cases hr
  rw [FForm.decode_7c _ rfl] <;>
    simp [h, -BitVec.getLsbD_eq_getElem]
theorem ld (g : Guard) (d : Reg) (a : Src) (w : Width) (sp : Space) (off : BitVec 16) :
    Statement (.ld g d a w sp off) := by
  intro h r hr; cases hr
  rw [FForm.decode_80 _ rfl] <;>
    simp [h, -BitVec.getLsbD_eq_getElem]
theorem st (g : Guard) (a : Src) (b : Src) (w : Width) (sp : Space) (off : BitVec 16) :
    Statement (.st g a b w sp off) := by
  intro h r hr; cases hr
  have h' : w ≠ .s8 ∧ w ≠ .s16 := by constructor <;> rintro rfl <;> cases h
  rw [FForm.decode_81 _ rfl]; simp [h, h', -BitVec.getLsbD_eq_getElem]
theorem ldr (g : Guard) (d : Reg) (a : Src) (w : Width) (off : BitVec 16) : Statement (.ldr g d a w off) := by
  intro h r hr; cases hr
  rw [FForm.decode_82 _ rfl] <;>
    simp [h, -BitVec.getLsbD_eq_getElem]
theorem gath (g : Guard) (d : Reg) (a : Src) (w : Width) (sp : Space) (off : BitVec 16) (cb : BitVec 2) :
    Statement (.gath g d a w sp off cb) := by
  intro h r hr; cases hr
  rw [FForm.decode_83 _ rfl] <;>
    simp [h, -BitVec.getLsbD_eq_getElem]
theorem scat (g : Guard) (a : Src) (b : Src) (w : Width) (sp : Space) (off : BitVec 16) (cb : BitVec 2) :
    Statement (.scat g a b w sp off cb) := by
  intro h r hr; cases hr
  have h' : w ≠ .s8 ∧ w ≠ .s16 := by constructor <;> rintro rfl <;> cases h
  rw [FForm.decode_84 _ rfl]; simp [h, h', -BitVec.getLsbD_eq_getElem]
theorem pref (g : Guard) (a : Src) (l2 : Bool) (off : BitVec 16) : Statement (.pref g a l2 off) := by
  intro h r hr; cases hr
  cases l2 <;> rw [FForm.decode_85 _ rfl] <;>
    simp [h, -BitVec.getLsbD_eq_getElem]
theorem atom (g : Guard) (op : AOp) (d : Reg) (a : Src) (b : Src) (c : Option Src) (b64 : Bool) (scope : Scope) (ord : AOrd) (sp : Space) :
    Statement (.atom g op d a b c b64 scope ord sp) := by
  intro h r hr; cases hr
  have h' : sp ≠ .l ∧ c.isSome = (op == .cas) := by
    have := Bool.and_eq_true_iff.1 (Bool.and_eq_true_iff.1 (Bool.and_eq_true_iff.1 (Bool.and_eq_true_iff.1
      (Bool.and_eq_true_iff.1 h).1).1).1).1
    exact ⟨bne_iff_ne.1 this.2, beq_iff_eq.1 this.1⟩
  cases c
  · have ho : op ≠ .cas := by rintro rfl; exact absurd h'.2 (by decide)
    cases b64 <;> rw [FForm.decode_90 _ rfl] <;> simp [h, h'.1, ho, -BitVec.getLsbD_eq_getElem]
  · have ho : op = .cas := beq_iff_eq.1 h'.2.symm
    subst ho
    cases b64 <;> rw [FForm.decode_90 _ rfl] <;> simp [h, h'.1, -BitVec.getLsbD_eq_getElem]
theorem red (g : Guard) (op : AOp) (a : Src) (b : Src) (b64 : Bool) (scope : Scope) (rel : Bool) (sp : Space) :
    Statement (.red g op a b b64 scope rel sp) := by
  intro h r hr; cases hr
  have h' : op ≠ .exch ∧ op ≠ .cas ∧ sp ≠ .l := by
    refine ⟨?_, ?_, ?_⟩ <;> rintro rfl
    · cases h
    · cases h
    · cases op <;> cases h
  cases b64 <;> cases rel <;> rw [FForm.decode_91 _ rfl] <;> simp [h, h', -BitVec.getLsbD_eq_getElem]
theorem fence (g : Guard) (kind : FenceKind) (scope : Scope) : Statement (.fence g kind scope) := by
  intro h r hr; cases hr
  rw [FForm.decode_92 _ rfl] <;>
    simp [h, -BitVec.getLsbD_eq_getElem]
theorem ifence (g : Guard) : Statement (.ifence g) := by
  intro h r hr; cases hr
  rw [FForm.decode_93 _ rfl] <;>
    simp [h, -BitVec.getLsbD_eq_getElem]
theorem roinv (g : Guard) : Statement (.roinv g) := by
  intro h r hr; cases hr
  rw [FForm.decode_94 _ rfl] <;>
    simp [h, -BitVec.getLsbD_eq_getElem]
theorem clrset (g : Guard) (a : Src) (b : Src) (c : Src) : Statement (.clrset g a b c) := by
  intro h r hr; cases hr
  rw [FForm.decode_95 _ rfl] <;>
    simp [h, -BitVec.getLsbD_eq_getElem]
theorem clrget (g : Guard) (d : Reg) (a : Src) (off : BitVec 16) : Statement (.clrget g d a off) := by
  intro h r hr; cases hr
  rw [FForm.decode_96 _ rfl] <;>
    simp [h, -BitVec.getLsbD_eq_getElem]
theorem monq (g : Guard) (d : Reg) (a : Src) : Statement (.monq g d a) := by
  intro h r hr; cases hr
  rw [FForm.decode_97 _ rfl] <;>
    simp [h, -BitVec.getLsbD_eq_getElem]
theorem alloc (g : Guard) (d : Reg) (a : Src) (pg : PageSize) : Statement (.alloc g d a pg) := by
  intro h r hr; cases hr
  rw [FForm.decode_98 _ rfl] <;>
    simp [h, -BitVec.getLsbD_eq_getElem]
theorem free (g : Guard) (a : Src) : Statement (.free g a) := by
  intro h r hr; cases hr
  rw [FForm.decode_99 _ rfl] <;>
    simp [h, -BitVec.getLsbD_eq_getElem]
theorem wait (g : Guard) (d : Reg) (a : VSrc) (b : VSrc) (c : VSrc) (all : Bool) (rel : Bool) :
    Statement (.wait g d a b c all rel) := by
  intro h r hr; cases hr
  cases all <;> cases rel <;> rw [FForm.decode_a0 _ rfl] <;>
    simp [h, -BitVec.getLsbD_eq_getElem]
theorem waitTimeout (wid : Nat) (lane : Nat) : Statement (.waitTimeout wid lane) := by
  intro _ r hr; cases hr
theorem waitWordReread (wid : Nat) (lane : Nat) : Statement (.waitWordReread wid lane) := by
  intro _ r hr; cases hr
theorem bari (g : Guard) (bn : BitVec 4) (o : BariOpd) : Statement (.bari g bn o) := by
  intro h r hr; cases hr
  cases o <;> rw [FForm.decode_a1 _ rfl] <;>
    simp [h, -BitVec.getLsbD_eq_getElem]
theorem bara (g : Guard) (d : Reg) (bn : BitVec 4) (w : Bool) : Statement (.bara g d bn w) := by
  intro h r hr; cases hr
  cases w <;> rw [FForm.decode_a2 _ rfl] <;>
    simp [h, -BitVec.getLsbD_eq_getElem]
theorem barq (g : Guard) (d : Reg) (bn : BitVec 4) : Statement (.barq g d bn) := by
  intro h r hr; cases hr
  rw [FForm.decode_a3 _ rfl] <;>
    simp [h, -BitVec.getLsbD_eq_getElem]
theorem cpa (g : Guard) (a : Src) (b : Src) (c : Option Src) (tag : BitVec 2) (off : BitVec 16) :
    Statement (.cpa g a b c tag off) := by
  intro h r hr; cases hr
  cases c <;> rw [FForm.decode_a4 _ rfl] <;>
    simp [h, -BitVec.getLsbD_eq_getElem]
theorem cpaLand (wid : Nat) (tag : BitVec 2) : Statement (.cpaLand wid tag) := by
  intro _ r hr; cases hr
theorem bcopy (g : Guard) (st : Bool) (sh : BitVec 4) (cnt : BitVec 4) (idx : BitVec 4) (bar : Option (BitVec 4)) (fut : Option Src) :
    Statement (.bcopy g st sh cnt idx bar fut) := by
  intro h r hr; cases hr
  have h' : idx.toNat ≤ cnt.toNat := of_decide_eq_true (Bool.and_eq_true_iff.1 h).1
  cases st <;> cases bar <;> cases fut <;> rw [FForm.decode_a5 _ rfl] <;>
    simp [h, h', -BitVec.getLsbD_eq_getElem]
theorem bcopyTransferComplete (core : Nat) : Statement (.bcopyTransferComplete core) := by
  intro _ r hr; cases hr
theorem engineStop (core : Nat) (e : EngineId) : Statement (.engineStop core e) := by
  intro _ r hr; cases hr
theorem mcast (g : Guard) (a : Src) (b : Src) (mask : BitVec 8) (bar : Option (BitVec 4)) :
    Statement (.mcast g a b mask bar) := by
  intro h r hr; cases hr
  have h' : mask ≠ 0#8 := bne_iff_ne.1 h
  cases bar <;> rw [FForm.decode_a6 _ rfl] <;> simp [h, h', -BitVec.getLsbD_eq_getElem]
theorem mcastDelivery (core : Nat) : Statement (.mcastDelivery core) := by
  intro _ r hr; cases hr
theorem slotf (g : Guard) (role : BitVec 3) (n : BitVec 4) : Statement (.slotf g role n) := by
  intro h r hr; cases hr
  have h' : n ≠ 0#4 := bne_iff_ne.1 h
  rw [FForm.decode_a7 _ rfl]; simp [h, h', -BitVec.getLsbD_eq_getElem]
theorem shld (g : Guard) (sh : BitVec 4) (a : Src) (scratch : Bool) (off : BitVec 16) :
    Statement (.shld g sh a scratch off) := by
  intro h r hr; cases hr
  cases scratch <;> rw [FForm.decode_b0 _ rfl] <;>
    simp [h, -BitVec.getLsbD_eq_getElem]
theorem shst (g : Guard) (sh : BitVec 4) (a : Src) (scratch : Bool) (off : BitVec 16) :
    Statement (.shst g sh a scratch off) := by
  intro h r hr; cases hr
  cases scratch <;> rw [FForm.decode_b1 _ rfl] <;>
    simp [h, -BitVec.getLsbD_eq_getElem]
theorem shset (g : Guard) (sh : BitVec 4) (f : ShField) (a : Src) : Statement (.shset g sh f a) := by
  intro h r hr; cases hr
  rw [FForm.decode_b2 _ rfl] <;>
    simp [h, -BitVec.getLsbD_eq_getElem]
theorem shget (g : Guard) (d : Reg) (sh : BitVec 4) (f : ShField) : Statement (.shget g d sh f) := by
  intro h r hr; cases hr
  rw [FForm.decode_b3 _ rfl] <;>
    simp [h, -BitVec.getLsbD_eq_getElem]
theorem strm (g : Guard) (st : Bool) (ch : BitVec 2) (sh : BitVec 4) (bar : Option (BitVec 4)) (fut : Option Src) :
    Statement (.strm g st ch sh bar fut) := by
  intro h r hr; cases hr
  cases st <;> cases bar <;> cases fut <;> rw [FForm.decode_b4 _ rfl] <;>
    simp [h, -BitVec.getLsbD_eq_getElem]
theorem channelTile (core : Nat) (ch : BitVec 2) : Statement (.channelTile core ch) := by
  intro _ r hr; cases hr
theorem strmq (g : Guard) (d : Reg) (ch : BitVec 2) : Statement (.strmq g d ch) := by
  intro h r hr; cases hr
  rw [FForm.decode_b5 _ rfl] <;>
    simp [h, -BitVec.getLsbD_eq_getElem]
theorem rsig (g : Guard) (ch : BitVec 2) : Statement (.rsig g ch) := by
  intro h r hr; cases hr
  rw [FForm.decode_b6 _ rfl] <;>
    simp [h, -BitVec.getLsbD_eq_getElem]
theorem mma (g : Guard) (z : Bool) (pair : Bool) (acc : Bool) (sh : BitVec 4) (b : Src) (slot : BitVec 3) :
    Statement (.mma g z pair acc sh b slot) := by
  intro h r hr; cases hr
  cases z <;> cases pair <;> cases acc <;> rw [FForm.decode_c0 _ rfl] <;>
    simp [h, -BitVec.getLsbD_eq_getElem]
theorem mmaRun (core : Nat) : Statement (.mmaRun core) := by
  intro _ r hr; cases hr
theorem mzero (g : Guard) (pair : Bool) (acc : Bool) : Statement (.mzero g pair acc) := by
  intro h r hr; cases hr
  cases pair <;> cases acc <;> rw [FForm.decode_c1 _ rfl] <;>
    simp [h, -BitVec.getLsbD_eq_getElem]
theorem mzeroRun (core : Nat) : Statement (.mzeroRun core) := by
  intro _ r hr; cases hr
theorem bld (g : Guard) (sh : BitVec 4) (b : Src) (bar : Option (BitVec 4)) (fut : Option Src) :
    Statement (.bld g sh b bar fut) := by
  intro h r hr; cases hr
  cases bar <;> cases fut <;> rw [FForm.decode_c2 _ rfl] <;>
    simp [h, -BitVec.getLsbD_eq_getElem]
theorem bldRun (core : Nat) : Statement (.bldRun core) := by
  intro _ r hr; cases hr
theorem mdrain (g : Guard) (pair : Bool) (i : Bool) (acc : Bool) (sh : BitVec 4) (res : Option (BitVec 4)) (bar : Option (BitVec 4)) (fut : Option Src) :
    Statement (.mdrain g pair i acc sh res bar fut) := by
  intro h r hr; cases hr
  cases pair <;> cases i <;> cases acc <;> cases res <;> cases bar <;> cases fut <;> rw [FForm.decode_c3 _ rfl] <;>
    simp [h, -BitVec.getLsbD_eq_getElem]
theorem mdrainRun (core : Nat) : Statement (.mdrainRun core) := by
  intro _ r hr; cases hr
theorem epil (g : Guard) (a : Src) (scratch : Bool) (off : BitVec 16) : Statement (.epil g a scratch off) := by
  intro h r hr; cases hr
  cases scratch <;> rw [FForm.decode_c4 _ rfl] <;>
    simp [h, -BitVec.getLsbD_eq_getElem]
theorem epilRun (core : Nat) : Statement (.epilRun core) := by
  intro _ r hr; cases hr
theorem mq (g : Guard) (d : Reg) : Statement (.mq g d) := by
  intro h r hr; cases hr
  rw [FForm.decode_c5 _ rfl] <;>
    simp [h, -BitVec.getLsbD_eq_getElem]
theorem spawn (g : Guard) (pri : BitVec 2) (a : Src) (b : Src) (dom : Option (BitVec 4 × Src)) :
    Statement (.spawn g pri a b dom) := by
  intro h r hr; cases hr
  have h' : ∀ d s, dom = some (d, s) → d ≠ 0#4 := by
    rintro d s rfl; exact bne_iff_ne.1 (Bool.and_eq_true_iff.1 (Bool.and_eq_true_iff.1 h).2).1
  rcases dom with - | ⟨d, s⟩ <;> rw [FForm.decode_d0 _ rfl]
  · simp [h, -BitVec.getLsbD_eq_getElem]
  · simp [h, h' d s rfl, -BitVec.getLsbD_eq_getElem]
theorem queueSegmentLink (ctx : BitVec 6) (cluster : Nat) (pri : BitVec 2) :
    Statement (.queueSegmentLink ctx cluster pri) := by
  intro _ r hr; cases hr
theorem spawnf (g : Guard) (pri : BitVec 2) (a : Src) (b : Src) (c : Src) (n : BitVec 2) :
    Statement (.spawnf g pri a b c n) := by
  intro h r hr; cases hr
  rw [FForm.decode_d1 _ rfl] <;>
    simp [h, -BitVec.getLsbD_eq_getElem]
theorem futureRegistration (ctx : BitVec 6) : Statement (.futureRegistration ctx) := by
  intro _ r hr; cases hr
theorem futnew (g : Guard) (a : Src) (off : BitVec 16) : Statement (.futnew g a off) := by
  intro h r hr; cases hr
  rw [FForm.decode_d2 _ rfl] <;>
    simp [h, -BitVec.getLsbD_eq_getElem]
theorem futres (g : Guard) (faulted : Bool) (a : Src) (b : Src) (off : BitVec 16) :
    Statement (.futres g faulted a b off) := by
  intro h r hr; cases hr
  cases faulted <;> rw [FForm.decode_d3 _ rfl] <;>
    simp [h, -BitVec.getLsbD_eq_getElem]
theorem futget (g : Guard) (d : Reg) (a : Src) (off : BitVec 16) : Statement (.futget g d a off) := by
  intro h r hr; cases hr
  rw [FForm.decode_d4 _ rfl] <;>
    simp [h, -BitVec.getLsbD_eq_getElem]
theorem tself (g : Guard) (d : Reg) : Statement (.tself g d) := by
  intro h r hr; cases hr
  rw [FForm.decode_d5 _ rfl] <;>
    simp [h, -BitVec.getLsbD_eq_getElem]
theorem tabort (g : Guard) (drop : Bool) : Statement (.tabort g drop) := by
  intro h r hr; cases hr
  cases drop <;> rw [FForm.decode_d6 _ rfl] <;>
    simp [h, -BitVec.getLsbD_eq_getElem]
theorem tirrev (g : Guard) : Statement (.tirrev g) := by
  intro h r hr; cases hr
  rw [FForm.decode_d7 _ rfl] <;>
    simp [h, -BitVec.getLsbD_eq_getElem]
theorem csrr (g : Guard) (d : Reg) (num : BitVec 12) : Statement (.csrr g d num) := by
  intro h r hr; cases hr
  rw [FForm.decode_e0 _ rfl] <;>
    simp [h, -BitVec.getLsbD_eq_getElem]
theorem csrw (g : Guard) (num : BitVec 12) (a : Src) : Statement (.csrw g num a) := by
  intro h r hr; cases hr
  rw [FForm.decode_e1 _ rfl] <;>
    simp [h, -BitVec.getLsbD_eq_getElem]
theorem evt (g : Guard) (a : Src) (code : BitVec 16) : Statement (.evt g a code) := by
  intro h r hr; cases hr
  rw [FForm.decode_e2 _ rfl] <;>
    simp [h, -BitVec.getLsbD_eq_getElem]
theorem pairBundle (x : Half) (y : Half) : Statement (.pairBundle x y) := by
  intro _ r hr; cases hr
theorem illegalBundle (sub : IllSub) (pair : Bool) (slot : Bool) : Statement (.illegalBundle sub pair slot) := by
  intro _ r hr; cases hr
theorem trapEntry (wid : Nat) : Statement (.trapEntry wid) := by
  intro _ r hr; cases hr
theorem pcMatchEntry : Statement (.pcMatchEntry) := by
  intro _ r hr; cases hr
theorem fetchFault : Statement (.fetchFault) := by
  intro _ r hr; cases hr
theorem loadDataReturn (wid : Nat) (idx : Nat) : Statement (.loadDataReturn wid idx) := by
  intro _ r hr; cases hr
theorem longOpComplete (wid : Nat) (idx : Nat) : Statement (.longOpComplete wid idx) := by
  intro _ r hr; cases hr
theorem slowCsrReturn (wid : Nat) (idx : Nat) : Statement (.slowCsrReturn wid idx) := by
  intro _ r hr; cases hr
theorem waveEnd (wid : Nat) : Statement (.waveEnd wid) := by
  intro _ r hr; cases hr
theorem faultRecordService (map : Option LeafReq) : Statement (.faultRecordService map) := by
  intro _ r hr; cases hr
theorem taskPromote (ctx : BitVec 6) (seq : Nat) : Statement (.taskPromote ctx seq) := by
  intro _ r hr; cases hr
theorem chuckScan (cluster : Nat) : Statement (.chuckScan cluster) := by
  intro _ r hr; cases hr
theorem chuckWindowExpire (cluster : Nat) (idx : Nat) : Statement (.chuckWindowExpire cluster idx) := by
  intro _ r hr; cases hr
theorem taskWavePlace (cluster : Nat) (idx : Nat) : Statement (.taskWavePlace cluster idx) := by
  intro _ r hr; cases hr
theorem taskCommit (ctx : BitVec 6) (dom : BitVec 4) : Statement (.taskCommit ctx dom) := by
  intro _ r hr; cases hr
theorem taskMove (ctx : BitVec 6) (pri : BitVec 2) (src : Nat) (dst : Nat) (n : Nat) :
    Statement (.taskMove ctx pri src dst n) := by
  intro _ r hr; cases hr
theorem doorbellWrite (bell : Doorbell) (tail : BitVec 32) :
    Statement (.doorbellWrite bell tail) := by
  intro _ r hr; cases hr
theorem ringEntryTake (ctx : BitVec 6) : Statement (.ringEntryTake ctx) := by
  intro _ r hr; cases hr
theorem blockPlace (ctx : BitVec 6) : Statement (.blockPlace ctx) := by
  intro _ r hr; cases hr
theorem blockRetire (bid : Nat) : Statement (.blockRetire bid) := by
  intro _ r hr; cases hr
theorem launchEnd (lid : Nat) : Statement (.launchEnd lid) := by
  intro _ r hr; cases hr
theorem create (ctx : BitVec 6) : Statement (.create ctx) := by
  intro _ r hr; cases hr
theorem destroy (ctx : BitVec 6) : Statement (.destroy ctx) := by
  intro _ r hr; cases hr
theorem suspend (ctx : BitVec 6) : Statement (.suspend ctx) := by
  intro _ r hr; cases hr
theorem resume (ctx : BitVec 6) : Statement (.resume ctx) := by
  intro _ r hr; cases hr
theorem status (ctx : BitVec 6) : Statement (.status ctx) := by
  intro _ r hr; cases hr
theorem setvw (arg : BitVec 2) : Statement (.setvw arg) := by
  intro _ r hr; cases hr
theorem quantumExpire (ctx : BitVec 6) : Statement (.quantumExpire ctx) := by
  intro _ r hr; cases hr
theorem preempt (ctx : BitVec 6) : Statement (.preempt ctx) := by
  intro _ r hr; cases hr
theorem outstandingResponse (wid : Nat) (idx : Nat) (resp : ExtResp) :
    Statement (.outstandingResponse wid idx resp) := by
  intro _ r hr; cases hr
theorem contextRestore (ctx : BitVec 6) : Statement (.contextRestore ctx) := by
  intro _ r hr; cases hr
theorem waveEvict (wid : Nat) : Statement (.waveEvict wid) := by
  intro _ r hr; cases hr
theorem waveReturn (wid : Nat) : Statement (.waveReturn wid) := by
  intro _ r hr; cases hr
theorem evacuationPageSend : Statement (.evacuationPageSend) := by
  intro _ r hr; cases hr
theorem pageReturn (ctx : BitVec 6) : Statement (.pageReturn ctx) := by
  intro _ r hr; cases hr
theorem mapRequest (ctx : BitVec 6) (leaf : LeafReq) : Statement (.mapRequest ctx leaf) := by
  intro _ r hr; cases hr
theorem invalidation (ctx : BitVec 6) (va : BitVec 56) (bytes : Nat) : Statement (.invalidation ctx va bytes) := by
  intro _ r hr; cases hr
theorem powerOnReset (img : BootImage) : Statement (.powerOnReset img) := by
  intro _ r hr; cases hr
theorem powerOff : Statement (.powerOff) := by
  intro _ r hr; cases hr
theorem staticEnergyTick : Statement (.staticEnergyTick) := by
  intro _ r hr; cases hr
theorem hostPortTrain (port : Bool) (lanes : Nat) (rate : Nat) : Statement (.hostPortTrain port lanes rate) := by
  intro _ r hr; cases hr
theorem hostPortDown (port : Bool) : Statement (.hostPortDown port) := by
  intro _ r hr; cases hr
theorem hostWindowAccess (port : Bool) (fn : Bool) (req : ExtReq) : Statement (.hostWindowAccess port fn req) := by
  intro _ r hr; cases hr
theorem functionLevelReset (port : Bool) (fn : Bool) : Statement (.functionLevelReset port fn) := by
  intro _ r hr; cases hr
theorem peerRequest (link : BitVec 4) (req : ExtReq) : Statement (.peerRequest link req) := by
  intro _ r hr; cases hr
theorem flitReplay (link : BitVec 4) : Statement (.flitReplay link) := by
  intro _ r hr; cases hr
theorem linkFailure (link : BitVec 4) : Statement (.linkFailure link) := by
  intro _ r hr; cases hr
theorem linkRetrainTimeout (link : BitVec 4) : Statement (.linkRetrainTimeout link) := by
  intro _ r hr; cases hr
theorem linkTrain (link : BitVec 4) (upstream : BitVec 64) : Statement (.linkTrain link upstream) := by
  intro _ r hr; cases hr
theorem tickSync (upstream : BitVec 64) : Statement (.tickSync upstream) := by
  intro _ r hr; cases hr
theorem tickRootLost (link : BitVec 4) : Statement (.tickRootLost link) := by
  intro _ r hr; cases hr
theorem registerWrite (addr : BitVec 32) (value : BitVec 64) : Statement (.registerWrite addr value) := by
  intro _ r hr; cases hr
theorem traceEnableWrite (value : BitVec 64) : Statement (.traceEnableWrite value) := by
  intro _ r hr; cases hr
theorem stallSample : Statement (.stallSample) := by
  intro _ r hr; cases hr
theorem halt (core : Nat) (slot : Nat) : Statement (.halt core slot) := by
  intro _ r hr; cases hr
theorem debugResume (core : Nat) (slot : Nat) : Statement (.debugResume core slot) := by
  intro _ r hr; cases hr
theorem read (core : Nat) (slot : Nat) (lane : Nat) (sel : DbgSel) : Statement (.read core slot lane sel) := by
  intro _ r hr; cases hr
theorem write (core : Nat) (slot : Nat) (lane : Nat) (sel : DbgSel) : Statement (.write core slot lane sel) := by
  intro _ r hr; cases hr
theorem freezeArm (linked : Bool) : Statement (.freezeArm linked) := by
  intro _ r hr; cases hr
theorem freezeStart : Statement (.freezeStart) := by
  intro _ r hr; cases hr
theorem freezeResume : Statement (.freezeResume) := by
  intro _ r hr; cases hr
theorem linkedArmArrival (link : BitVec 4) (frzt : BitVec 64) : Statement (.linkedArmArrival link frzt) := by
  intro _ r hr; cases hr
theorem linkedResumeArrival (link : BitVec 4) : Statement (.linkedResumeArrival link) := by
  intro _ r hr; cases hr
theorem pmcOverflow (core : Nat) (n : BitVec 3) : Statement (.pmcOverflow core n) := by
  intro _ r hr; cases hr
theorem pmovfClear (core : Nat) (mask : BitVec 8) : Statement (.pmovfClear core mask) := by
  intro _ r hr; cases hr
theorem attest (ctx : BitVec 6) : Statement (.attest ctx) := by
  intro _ r hr; cases hr
theorem capWrite (value : BitVec 64) : Statement (.capWrite value) := by
  intro _ r hr; cases hr
theorem thermalThreshold (temp : BitVec 8) : Statement (.thermalThreshold temp) := by
  intro _ r hr; cases hr
theorem clockStepChange : Statement (.clockStepChange) := by
  intro _ r hr; cases hr
theorem coreGate (core : Nat) : Statement (.coreGate core) := by
  intro _ r hr; cases hr
theorem coreUngate (core : Nat) : Statement (.coreUngate core) := by
  intro _ r hr; cases hr
theorem memoryError (place : ErrPlace) (unc : Bool) : Statement (.memoryError place unc) := by
  intro _ r hr; cases hr

end Sys2Proof.Laws.ReadBack
end

