-- ==== Sys2Proof/Safety.lean ====
section
/-! DEFINITION. The terms that statements use: what a safe run is, when a bundle can issue, and what a bundle that has
issued leaves as it was. -/

namespace Sys2Proof

/-- The invariant of the state that every step keeps: memory stands in its canonical form. -/
def Safe (s : Machine.State) : Prop := s.mem.wf = true

/-- A step stops: with a fault or with a refusal. -/
def Stops (s : Machine.State) : Prop := ∀ t, Machine.step s ≠ .next t

/-- A run of `n` steps answers a state. -/
def Reaches (n : Nat) (s t : Machine.State) : Prop := core.run n s = .next t

end Sys2Proof

namespace Sys2Proof.Machine

/-! ### Parts of a state -/

/-- The working state that a meaning starts from. -/
def State.work (s : State) : Work := ⟨s.mem, [], s.dev⟩
/-- A wave, a core, a context, a block and a launch of a state. -/
def State.wave (s : State) (i : Nat) : Wave := mget s.dev.waves i Wave.blank
def State.core (s : State) (i : Nat) : Core := mget s.dev.cores i Core.reset
def State.ctx (s : State) (i : Nat) : Context := mget s.dev.ctxs i Context.blank
def State.block (s : State) (i : Nat) : Block := mget s.dev.blocks i Block.blank
def State.launch (s : State) (i : Nat) : Launch := mget s.dev.launches i Launch.blank
/-- The byte of memory at a key. -/
def State.byte (s : State) (k : Nat) : Byte := s.mem.read k

/-! ### When a bundle issues -/

/-- What the issue of a bundle under a guard fixes: the split, and the lanes that pass the guard. -/
def State.iss (s : State) (c : Cur) (g : Guard) : Iss := s.work.iss c g

/-- The registers of a bundle: its sources, then its destination. -/
def Uses.all (u : Uses) : List Use :=
  u.src ++ (match u.dst with
    | some (r, n) => [⟨r, n, 3, false⟩]
    | none => [])

/-- Every register that a bundle names is full in every active lane (R26, R27). -/
def Full (v : Wave) (e : Iss) (u : Uses) (at_ : Nat → Nat → Nat) : Prop :=
  ∀ l ∈ e.act, ∀ x ∈ u.all, ∀ y ∈ v.useLocs e x (at_ x.field l), v.stat y.2 = none

/-- A bundle can issue and execute for the current split: the split exists and holds lanes, every register that the
bundle names is full (R27), and STEPCTL is 0 (R142). -/
structure CanIssue (s : State) (c : Cur) (g : Guard) (u : Uses) (at_ : Nat → Nat → Nat) : Prop where
  cur : s.dev.sys.cur = some c
  entry : (mget? (s.wave c.wid).entries c.entry).isSome = true
  lanes : (s.iss c g).mask ≠ 0
  full : Full (s.wave c.wid) (s.iss c g) u at_
  unstepped : (s.wave c.wid).stepctl = false

/-- No active lane runs an ordered task that is not the frontier (R308). -/
def Irrevocable (s : State) (c : Cur) (g : Guard) : Prop := s.work.anySpeculative c.wid (s.iss c g).act = []

/-- A use's register is read in its own lane. -/
def ownLane (_field l : Nat) : Nat := l

/-! ### What a bundle leaves -/

/-- The split's lanes stand at PC + 8, READY, stamped with the number of the issue (R61, R138). -/
def Wave.goOn (v : Wave) (entry issue : Nat) : Wave :=
  v.setSplit entry { v.split entry with
    state := .ready, reason := .none, hold := .none, pc := (v.split entry).pc + 8, trap := none, lastIssue := issue
    wait := none, pages := [], denied := [], busy := none, resumed := false }

/-- The energy class and units of a bundle under a guard: a bundle that `@!p0` guards is charged as control (R364). -/
def chargeOf (g : Guard) (cls units : Nat) : Nat × Nat := if g.neg ∧ g.p = 0 then (clsCtrl, 1) else (cls, units)

/-- A counter charged with units of some classes, one after the other (R363, R364). -/
def Energy.charged (x : Energy) (ewt : List Word) (costs : List (Nat × Nat)) : Energy :=
  costs.foldl (fun x p => x.add (p.2 * (ewt.getD p.1 0).toNat)) x

/-- What a bundle that has issued and writes nothing but its wave leaves: the wave is `v` with the split table adjusted,
the context's counter on the core is charged with `costs` (R363, R364), `ids` numbers are used up,
and memory and everything else but the performance counters of the core stand as they were. -/
structure Issued (s t : State) (c : Cur) (g : Guard) (costs : List (Nat × Nat)) (ids : Nat) (v : Wave) :
    Prop where
  wave : t.wave c.wid = v.settle
  energy : (t.ctx (s.iss c g).ctx).energyOn (s.iss c g).core =
    ((s.ctx (s.iss c g).ctx).energyOn (s.iss c g).core).charged (s.ctx (s.iss c g).ctx).rec_.ewt costs
  mem : t.mem = s.mem
  waves : ∀ j, j ≠ c.wid → mget? t.dev.waves j = mget? s.dev.waves j
  cores : ∀ k, t.core k = { s.core k with pmcs := (t.core k).pmcs }
  otherCores : ∀ k, k ≠ (s.iss c g).core → t.core k = s.core k
  ctxs : ∀ k, t.ctx k = { s.ctx k with energy := (t.ctx k).energy }
  otherCtxs : ∀ k, k ≠ (s.iss c g).ctx → t.ctx k = s.ctx k
  sys : t.dev.sys = { s.dev.sys with
    issue := s.dev.sys.issue + 1, stalled := [], yields := t.dev.sys.yields, agenda := t.dev.sys.agenda
    nextId := s.dev.sys.nextId + ids }
  rest : t.dev = { s.dev with
    sys := t.dev.sys, waves := t.dev.waves, cores := t.dev.cores, ctxs := t.dev.ctxs }

/-- The lanes that write a destination: every active lane, or for a k register the lowest active lane (R23). -/
def writers (e : Iss) (d : Reg) : List Nat := if d.isK then e.act.take 1 else e.act

/-- Wave `v'` is wave `v` with a group of `n` registers from `d` written: each writing lane's registers hold the lane's
values and are full, k31 discards (R23, R25), every other register and every empty bit stands as it was, and so does
everything of the wave that is no register. -/
structure Wrote (v v' : Wave) (e : Iss) (d : Reg) (n : Nat) (f : Nat → List Word) : Prop where
  value : ∀ l ∈ writers e d, ∀ i < n, regAt d i ≠ .k 31 → v'.val e (regAt d i) l = (f l).getD i 0
  full : ∀ l ∈ writers e d, ∀ i < n, v'.stat (v.loc e (regAt d i) l) = none
  keeps : ∀ x : Loc, (∀ l ∈ writers e d, ∀ i < n, v.loc e (regAt d i) l ≠ x) → v'.rd x = v.rd x ∧ v'.stat x = v.stat x
  rest : v' = { v with
    vregs := v'.vregs, vstat := v'.vstat, kregs := v'.kregs, kstat := v'.kstat, hregs := v'.hregs, hstat := v'.hstat }

/-- The register stack of the launch has one of R17's sizes, 64 to 1,024 words per lane. -/
def StackOk (s : State) (c : Cur) (g : Guard) : Prop := 64 ≤ (s.iss c g).s ∧ (s.iss c g).s ≤ 1024

/-- Wave `v'` is wave `v` with some lanes changed, and nothing else. -/
structure Laned (v v' : Wave) (ls : List Nat) (f : Nat → Lane → Lane) : Prop where
  on : ∀ l ∈ ls, v'.lane l = f l (v.lane l)
  off : ∀ l, l ∉ ls → v'.lane l = v.lane l
  rest : v' = { v with lanes := v'.lanes }

/-- A lane's sticky flags gain some (R35). -/
def Lane.flagged (x : Lane) (f : BitVec 7) : Lane := { x with fpsr := x.fpsr ||| f }

/-- Wave `v'` is wave `v` after the active lanes have each begun a producer (R26, R29): the outstanding producers are
numbered from `first` in the lanes' order, each with its values and flags, and the registers they fill are empty, marked
with the bundle's PC and issue number. -/
structure Began (v v' : Wave) (e : Iss) (d : Reg) (n : Nat) (kind : OutKind) (first stamp : Nat)
    (f : Nat → List Word × BitVec 7) : Prop where
  outs : ∀ j l, e.act[j]? = some l → mget? v'.outs (first + j) =
    some ⟨kind, l, e.pc, e.fills v d n l, (f l).1, none, (f l).2, 0, none, none⟩
  others : ∀ i, (i < first ∨ first + e.act.length ≤ i) → mget? v'.outs i = mget? v.outs i
  empty : ∀ l ∈ e.act, ∀ x ∈ e.fills v d n l, v'.stat x = some (.empty e.pc stamp)
  keeps : ∀ x, (∀ l ∈ e.act, x ∉ e.fills v d n l) → v'.stat x = v.stat x
  rest : v' = { v with outs := v'.outs, vstat := v'.vstat, kstat := v'.kstat, hstat := v'.hstat }

/-- The number of the issue. -/
def State.stamp (s : State) : Nat := s.dev.sys.issue + 1

/-- For every guard, split and state in which the bundle can issue, it answers a next state: the destination group of
`n` registers from `d` is written with each lane's values, the split goes on, energy is charged in class `cls`, and
nothing else changes. -/
def Results (mk : Guard → Instr) (u : Uses) (at_ : Wave → Iss → Nat → Nat → Nat) (d : Reg) (n cls : Nat)
    (f : Wave → Iss → Nat → List Word) : Prop :=
  ∀ (s : State) (c : Cur) (g : Guard), (mk g).wf = true → StackOk s c g →
    CanIssue s c g u (at_ (s.wave c.wid) (s.iss c g)) →
    ∃ t v, exec (mk g) s = .next t ∧ Issued s t c g [chargeOf g cls 1] 0 (v.goOn c.entry s.stamp) ∧
      Wrote (s.wave c.wid) v (s.iss c g) d n (f (s.wave c.wid) (s.iss c g))

/-- `Results` for a bundle that also sets sticky flags in every active lane (R35, R111). -/
def ResultsF (mk : Guard → Instr) (u : Uses) (d : Reg) (n cls : Nat)
    (f : Wave → Iss → Nat → List Word × BitVec 7) : Prop :=
  ∀ (s : State) (c : Cur) (g : Guard), (mk g).wf = true → StackOk s c g → CanIssue s c g u ownLane →
    ∃ t v₁ v, exec (mk g) s = .next t ∧ Issued s t c g [chargeOf g cls 1] 0 (v.goOn c.entry s.stamp) ∧
      Wrote (s.wave c.wid) v₁ (s.iss c g) d n (fun l => (f (s.wave c.wid) (s.iss c g) l).1) ∧
      Laned v₁ v (s.iss c g).act fun l x => x.flagged (f (s.wave c.wid) (s.iss c g) l).2

/-- `Results` for a bundle that changes its active lanes alone. -/
def ResultsL (mk : Guard → Instr) (u : Uses) (cls : Nat) (f : Wave → Iss → Nat → Lane → Lane) : Prop :=
  ∀ (s : State) (c : Cur) (g : Guard), (mk g).wf = true → CanIssue s c g u ownLane →
    ∃ t v, exec (mk g) s = .next t ∧ Issued s t c g [chargeOf g cls 1] 0 (v.goOn c.entry s.stamp) ∧
      Laned (s.wave c.wid) v (s.iss c g).act (f (s.wave c.wid) (s.iss c g))

/-- For every guard, split and state in which the bundle can issue, it answers a next state in which a producer has begun
in each active lane, with the lane's values and flags, and the split goes on. -/
def Producers (mk : Guard → Instr) (u : Uses) (d : Reg) (n : Nat) (kind : OutKind) (cls : Nat)
    (f : Wave → Iss → Nat → List Word × BitVec 7) : Prop :=
  ∀ (s : State) (c : Cur) (g : Guard), (mk g).wf = true → CanIssue s c g u ownLane →
    ∃ t v, exec (mk g) s = .next t ∧
      Issued s t c g [chargeOf g cls 1] (s.iss c g).act.length (v.goOn c.entry s.stamp) ∧
      Began (s.wave c.wid) v (s.iss c g) d n kind s.dev.sys.nextId s.stamp (f (s.wave c.wid) (s.iss c g))

/-! ### Where control goes -/

/-- The number, the PC, the level and the handler flag of a split that a transfer has placed (R101, R135). -/
structure Placed (x old : Split) (stamp : Nat) (pc : Pc) : Prop where
  ready : x.state = .ready ∧ x.hold = .none ∧ x.trap = none ∧ x.wait = none ∧ x.busy = none
  pc : x.pc = pc
  same : x.level = old.level ∧ x.handler = old.handler
  stamp : x.lastIssue = stamp

/-- Wave `v'` is wave `v` after the lanes of the split in an entry have gone to their targets (R101): every lane with a
target stands in a READY split at it, a split so placed holds no other lanes, a lane without a target has left, the other
resident splits keep their entries, the stack keeps its splits, and nothing else of the wave changes. -/
structure Sends (v v' : Wave) (entry stamp : Nat) (target : Nat → Option Pc) : Prop where
  lanes : ∀ l p, (v.split entry).mask.getLsbD l = true → target l = some p →
    ∃ x, ((∃ n, mget? v'.entries n = some x) ∨ x ∈ v'.overflow) ∧ x.mask.getLsbD l = true ∧
      Placed x (v.split entry) stamp p
  only : ∀ x, ((∃ n, mget? v'.entries n = some x) ∨ x ∈ v'.overflow) →
    (∃ n, n ≠ entry ∧ mget? v.entries n = some x) ∨ x ∈ v.overflow ∨
      ∀ l, x.mask.getLsbD l = true → (v.split entry).mask.getLsbD l = true ∧ target l = some x.pc
  entries : ∀ n x, n ≠ entry → mget? v.entries n = some x → mget? v'.entries n = some x
  stack : ∃ more, v'.overflow = more ++ v.overflow
  rest : v' = { v with entries := v'.entries, overflow := v'.overflow }

/-- The target of a lane of a split under a guard: an active lane's own, PC + 8 for the others (R101). -/
def Iss.targets (e : Iss) (f : Nat → Option Pc) (l : Nat) : Option Pc := if l ∈ e.act then f l else some (e.pc + 8)

/-- A state with the registers of one core, one wave, one context or one block changed. -/
def State.withCore (s : State) (k : Nat) (f : Core → Core) : State :=
  { s with dev := { s.dev with cores := mput s.dev.cores k (f (s.core k)) } }
def State.withWave (s : State) (k : Nat) (f : Wave → Wave) : State :=
  { s with dev := { s.dev with waves := mput s.dev.waves k (f (s.wave k)) } }
def State.withCtx (s : State) (k : Nat) (f : Context → Context) : State :=
  { s with dev := { s.dev with ctxs := mput s.dev.ctxs k (f (s.ctx k)) } }
def State.withBlock (s : State) (k : Nat) (f : Block → Block) : State :=
  { s with dev := { s.dev with blocks := mput s.dev.blocks k (f (s.block k)) } }

/-- The checks of a bundle's active lanes, made lane after lane as its effect makes them, all pass. -/
def Passes (s : State) (c : Cur) (g : Guard) (check : Iss → Work → Nat → Motion × Work) : Prop :=
  ∀ x ∈ ((s.work.stamp c).perLane (s.iss c g).act (check (s.iss c g))).1, x.2 = .ok

/-! ### Whole effects, pushes and traps -/

/-- The state that a bundle leaves whose effect makes the working state `w` and is charged `units` of a class: energy
(R363, R364), the counts of R392, and the adjustments of the wave's table. -/
def State.done (s : State) (c : Cur) (g : Guard) (cls units : Nat) (w : Work) : State :=
  let k := chargeOf g cls units
  let w := (w.after (s.iss c g) false k.1 k.2 1).settleNow c.wid
  ⟨applyLog w.log s.mem, w.dev⟩

/-- A push of a lane spills the 24 lowest resident registers (R19). -/
def spills (s : Nat) (x : Lane) : Bool := decide (lowOf s x.wdepth.toNat < lowOf s (x.wdepth.toNat + 1))

/-- Bytes that a lane's push puts on the hardware stack. -/
def pushBytes (s : Nat) (x : Lane) : Nat := if spills s x then 112 else 16

/-- A lane's push can be made in its lane-private memory: WDEPTH is below 4,095, the record and the block fit between
PHIGH and HLOW, and the registers to spill are full (R19, R21, R22). -/
structure Room (v : Wave) (s l : Nat) : Prop where
  depth : (v.lane l).wdepth ≠ 4095
  fits : (v.lane l).phigh + pushBytes s (v.lane l) ≤ (v.lane l).hlow ∧ (v.lane l).hlow ≤ 4096
  full : spills s (v.lane l) = true → ∀ y ∈ spillLocs s l (v.lane l).wdepth.toNat, v.stat y = none

/-- A lane after a push into its lane-private memory. -/
def Lane.pushed (x : Lane) (s : Nat) (rpc : Pc) (trap : Bool) : Lane :=
  { x with
    wdepth := x.wdepth + 1, head := ⟨rpc, trap, 0⟩, hlow := x.hlow - pushBytes s x
    stack := (if spills s x then [⟨true, false, x.hlow - 112⟩] else []) ++ ⟨false, false, x.hlow - 16⟩ :: x.stack }

/-- A state with the memory of another, and its marks of uncorrectable bytes. -/
def State.rewritten (s t : State) : State := { s with mem := t.mem, dev := { s.dev with bad := t.dev.bad } }

/-- What the pushes of some lanes write: each lane's old head as a record of 16 bytes and, on a spill, its 24 lowest resident
registers below it (R19, R20); what is written is correctable (R395), and every other byte of memory stands as it was, with its
mark. -/
structure Pushes (s t : State) (v : Wave) (wid : Nat) (sz : Nat) (ls : List Nat) : Prop where
  record : ∀ l ∈ ls, ∀ i < 16, t.byte (PAddr.lane wid l ((v.lane l).hlow - 16 + i)).key =
    ((v.lane l).head.toBytes).getD i 0
  block : ∀ l ∈ ls, spills sz (v.lane l) = true → ∀ i < 24, ∀ j < 4,
    t.byte (PAddr.lane wid l ((v.lane l).hlow - 112 + 4 * i + j)).key =
      BitVec.ofNat 8 ((v.rd (0, 1024 * l + (lowOf sz (v.lane l).wdepth.toNat + i) % sz)).toNat / 256 ^ j)
  others : ∀ k, (∀ l ∈ ls, ∀ i < pushBytes sz (v.lane l),
    k ≠ (PAddr.lane wid l ((v.lane l).hlow - pushBytes sz (v.lane l) + i)).key) → t.byte k = s.byte k
  marks : ∀ k, k ∈ t.dev.bad ↔ k ∈ s.dev.bad ∧ ∀ l ∈ ls, ∀ i < pushBytes sz (v.lane l),
    k ≠ (PAddr.lane wid l ((v.lane l).hlow - pushBytes sz (v.lane l) + i)).key

/-- What the wave's maps list as the status of a home. -/
def Wave.marks (v : Wave) (x : Loc) : List RegStat :=
  let m : FMap RegStat := match x.1 with
    | 0 => v.vstat
    | 1 => v.kstat
    | 2 => v.hstat
    | _ => []
  (m.filter fun y => y.1 == x.2).map (·.2)

/-- Wave `v'` is wave `v` after the split in an entry has entered the trap handler with the lanes of a trap (R142): the trap
CSRs of the new level are set, the lanes stand READY at TVEC one level up with a trap frame that returns to the trap's own PC (R19),
the split's other lanes go on at `fall`, poisoned registers that the lanes can name are zero and full, and nothing else of the wave changes. -/
structure Entered (v v' : Wave) (entry stamp sz : Nat) (t : TrapVals) (fall : Pc) : Prop where
  level : v'.tlevel = v.tlevel + 1
  csrs : mget? v'.traps (v.tlevel + 1).toNat = some { t with mask := (v.split entry).mask &&& t.mask }
  handler : ∃ x, mget? v'.entries entry = some x ∧ x.state = .ready ∧ x.hold = .none ∧ x.trap = none ∧
    x.mask = (v.split entry).mask &&& t.mask ∧ x.pc = v.tvec ∧ x.level = v.tlevel + 1 ∧ x.lastIssue = stamp
  others : (v.split entry).mask &&& ~~~t.mask ≠ 0 → ∃ x, ((∃ n, mget? v'.entries n = some x) ∨ x ∈ v'.overflow) ∧
    x.mask = (v.split entry).mask &&& ~~~t.mask ∧ Placed x (v.split entry) stamp fall
  entries : ∀ n x, n ≠ entry → mget? v.entries n = some x → mget? v'.entries n = some x
  on : ∀ l ∈ lanesOf ((v.split entry).mask &&& t.mask), v'.lane l = (v.lane l).pushed sz t.at_ true
  off : ∀ l, l ∉ lanesOf ((v.split entry).mask &&& t.mask) → v'.lane l = v.lane l
  clean : ∀ x : Loc, (∀ a p, .poison a p ∉ v.marks x) → v'.rd x = v.rd x ∧ v'.stat x = v.stat x
  zeroed : ∀ x : Loc, (∃ a p, .poison a p ∈ v.marks x) →
    (x.1 = 1 ∨ x.1 = 0 ∧ x.2 / 1024 ∈ lanesOf ((v.split entry).mask &&& t.mask) ∨
      x.1 = 2 ∧ x.2 / 16 ∈ lanesOf ((v.split entry).mask &&& t.mask)) → v'.rd x = 0 ∧ v'.stat x = none

/-! ### Accesses that go ahead -/

/-- The working state in which the accesses are performed: in global space each lane has left the queues of colours (R169). -/
def settled (c : Cur) (e : Iss) (sp : Space) (r : List (Motion × Acs) × Work) : Work :=
  match sp with
  | .g => r.1.foldl (fun w x => w.withdraw e.ctx c.wid x.2.lane []) r.2
  | _ => r.2

/-- Every lane's access goes ahead at once: the checks of R150 pass, every line is plain or of a colour that the lane holds
(R167), no speculative lane is irrevocable (R301), and no write takes a task past its write set (R307). -/
structure GoesAhead (c : Cur) (e : Iss) (sp : Space) (atomic store : Bool) (r : List (Motion × Acs) × Work) : Prop where
  pass : ∀ x ∈ r.1, x.1 = .ok
  plain : sp = .g → ∀ p ∈ r.2.classify e.ctx c.wid (r.1.map fun x => (x.2.lane, r.2.tagOf x.2)), p.2 = .go
  irrevocable : r.2.anySpeculative c.wid (((r.1.map (·.2)).filter (r.2.irrevocable sp atomic)).map (·.lane)) = []
  room : store = true → ∀ x ∈ r.1, (settled c e sp r).pastWriteSet e x.2 = false

end Sys2Proof.Machine
end

