-- ==== Sys2Proof/Certificates/Slice0/Obligations.lean ====
section
/-! DEFINITION. The statements: what each instruction does where it completes, what it leaves as it was, and what holds of
the whole machine. -/

open Sys2Proof Sys2Proof.Machine

/-! ### Integer, logic, compare and move (04 R85–R97) -/

/-- A register's own lane, for every use. -/
def own (_v : Wave) (_e : Iss) (_field l : Nat) : Nat := l

/-- A bundle with source a and the second operand of R66, extended as the operation asks, whose result is a function of
the two words. -/
def TwoSource (mk : Guard → Reg → Src → Opd → Instr) (signed : Bool) (f : Word → Word → Word) : Prop :=
  ∀ (d : Reg) (a : Src) (b : Opd), Results (fun g => mk g d a b) ⟨useOf a 1 0 :: opdUses b, some (d, 1)⟩ own d 1 clsInt
    fun v e l => [f (v.val e a.reg l) (if signed then v.opdS e b l else v.opdZ e b l)]

/-- The same, where the result depends on the lane's predicates too. -/
def TwoSourceLane (mk : Guard → Reg → Src → Opd → Instr) (f : Lane → Word → Word → Word) : Prop :=
  ∀ (d : Reg) (a : Src) (b : Opd), Results (fun g => mk g d a b) ⟨useOf a 1 0 :: opdUses b, some (d, 1)⟩ own d 1 clsInt
    fun v e l => [f (v.lane l) (v.val e a.reg l) (v.opdS e b l)]

/-- A bundle with one source word. -/
def OneSource (mk : Guard → Reg → Src → Instr) (f : Word → Word) : Prop :=
  ∀ (d : Reg) (a : Src), Results (fun g => mk g d a) ⟨[useOf a 1 0], some (d, 1)⟩ own d 1 clsInt
    fun v e l => [f (v.val e a.reg l)]

/-- The integer that a word stands for, signed or not. -/
def intOf (u : Bool) (x : Word) : Int := if u then (x.toNat : Int) else x.toInt
/-- The 64-bit integer that a word is extended to. -/
def wideOf (sx : Bool) (x : Word) : DWord := if sx then x.signExtend 64 else x.setWidth 64

/-- R85: six two-source operations, with every form of their second operand (R66); the frame is `Issued` and `Wrote`. -/
def Obligations.IntegerArithmetic : Prop :=
  TwoSource .iadd true (fun a b => BitVec.ofInt 32 (a.toInt + b.toInt)) ∧
  TwoSource .isub true (fun a b => BitVec.ofInt 32 (a.toInt - b.toInt)) ∧
  TwoSource .imul true (fun a b => BitVec.ofInt 32 (a.toInt * b.toInt)) ∧
  (∀ u, TwoSource (fun g d a b => .imulh g d a b u) true fun a b => BitVec.ofInt 32 (intOf u a * intOf u b / 2 ^ 32)) ∧
  (∀ u, TwoSource (fun g d a b => .imin g d a b u) true fun a b => if intOf u a < intOf u b then a else b) ∧
  (∀ u, TwoSource (fun g d a b => .imax g d a b u) true fun a b => if intOf u b < intOf u a then a else b)

/-- R90: the bitwise operations, and shifts by the low five bits. -/
def Obligations.LogicAndShifts : Prop :=
  TwoSource .and false (fun a b => a &&& b) ∧
  TwoSource .or false (fun a b => a ||| b) ∧
  TwoSource .xor false (fun a b => a ^^^ b) ∧
  TwoSource .andn false (fun a b => a &&& ~~~b) ∧
  TwoSource .shl false (fun a b => BitVec.ofNat 32 (a.toNat * 2 ^ (b.toNat % 32))) ∧
  TwoSource .shr false (fun a b => BitVec.ofNat 32 (a.toNat / 2 ^ (b.toNat % 32))) ∧
  TwoSource .sar false (fun a b => BitVec.ofInt 32 (a.toInt / 2 ^ (b.toNat % 32))) ∧
  TwoSource .rotl false (fun a b => a <<< (b.toNat % 32) ||| a >>> (32 - b.toNat % 32))

/-- Every bit of the bundle of a one-source operation (R62, R89): KIND, OPC, the guard, D, A, EA, and zeros. -/
def oneSourceWord (opc : BitVec 8) (g : Guard) (d : Reg) (a : Src) : BitVec 64 :=
  0#2 ++ opc ++ BitVec.ofBool g.neg ++ g.p ++ d.spec ++ a.reg.spec ++ 0#12 ++ BitVec.ofBool a.trap ++ 0#25

/-- The words that decode to a one-source operation are those of its encoding, and no others. -/
def OneSourceEncoding (mk : Guard → Reg → Src → Instr) (opc : BitVec 8) : Prop :=
  ∀ (g : Guard) (d : Reg) (a : Src) (w : BitVec 64), decode w = .ok (mk g d a) ↔ w = oneSourceWord opc g d a

/-- R89: one source. -/
def Obligations.OneSourceIntegers : Prop :=
  OneSource .iabs (fun a => if 0 ≤ a.toInt then a else 0 - a) ∧ OneSourceEncoding .iabs 0x0A ∧
  OneSource .ineg (fun a => 0 - a) ∧ OneSourceEncoding .ineg 0x0B ∧
  OneSource .not (fun a => BitVec.ofInt 32 (-a.toInt - 1)) ∧ OneSourceEncoding .not 0x14 ∧
  OneSource .popc (fun a => BitVec.ofNat 32 (((List.range 32).filter fun i => a.toNat.testBit i).length)) ∧
  OneSourceEncoding .popc 0x19 ∧
  OneSource .clz (fun a => BitVec.ofNat 32 (if a = 0 then 32 else 31 - a.toNat.log2)) ∧ OneSourceEncoding .clz 0x1A ∧
  OneSource .brev (fun a => a.reverse) ∧ OneSourceEncoding .brev 0x1B

/-- R97: a register, a pair, or an immediate. -/
def Obligations.Moves : Prop :=
  (∀ d a wide, Results (fun g => .mov g d a wide) ⟨[useOf a (if wide then 2 else 1) 0], some (d, if wide then 2 else 1)⟩
    own d (if wide then 2 else 1) clsInt fun v e l =>
      if wide then [v.val e a.reg l, v.val e (regAt a.reg 1) l] else [v.val e a.reg l]) ∧
  (∀ d x, Results (fun g => .movi g d x) ⟨[], some (d, 1)⟩ own d 1 clsInt fun _ _ _ => [x])

/-- The words of a 64-bit result, the even register first (R25). -/
def wordsOf (x : Int) : List Word := [BitVec.ofInt 32 x, BitVec.ofInt 32 (x / 2 ^ 32)]

/-- R86, R87: values of 64 bits. -/
def Obligations.WideIntegers : Prop :=
  (∀ d a b c, Results (fun g => .imad g d a b c) ⟨[useOf a 1 0, useOf b 1 1, useOf c 1 2], some (d, 1)⟩ own d 1 clsInt
    fun v e l => [BitVec.ofInt 32 ((v.val e a.reg l).toInt * (v.val e b.reg l).toInt + (v.val e c.reg l).toInt)]) ∧
  (∀ d a b, Results (fun g => .iadd64 g d a b) ⟨useOf a 2 0 :: opd64Uses b, some (d, 2)⟩ own d 2 clsInt
    fun v e l => wordsOf ((v.val64 e a.reg l).toInt + match b with
      | .pair s => (v.val64 e s.reg l).toInt
      | .zx s => ((v.val e s.reg l).toNat : Int)
      | .sx s => (v.val e s.reg l).toInt
      | .imm i => i.toInt)) ∧
  (∀ d a b sx sh, Results (fun g => .lea g d a b sx sh) ⟨[useOf a 2 0, useOf b 1 1], some (d, 2)⟩ own d 2 clsInt
    fun v e l => wordsOf ((v.val64 e a.reg l).toInt + (wideOf sx (v.val e b.reg l)).toInt * 2 ^ sh.toNat)) ∧
  (∀ d a b c u, Results (fun g => .imadw g d a b c u) ⟨[useOf a 1 0, useOf b 1 1, useOf c 2 2], some (d, 2)⟩ own d 2 clsInt
    fun v e l => wordsOf (intOf u (v.val e a.reg l) * intOf u (v.val e b.reg l) + (v.val64 e c.reg l).toInt))

/-- Bit `i` of a word seen as a signed or unsigned integer of any length. -/
def bitOf (s : Bool) (a : Word) (i : Nat) : Bool := if i < 32 then a.getLsbD i else s && a.msb

/-- A word given bit by bit. -/
def wordBits (f : Nat → Bool) : Word := BitVec.ofBoolListLE ((List.range 32).map f) |>.setWidth 32

/-- R91–R93, R96: fields, bytes and selects. -/
def Obligations.FieldsAndBytes : Prop :=
  (∀ d a f sg, Results (fun g => .bfx g d a f sg) ⟨useOf a 1 0 :: fieldUses f, some (d, 1)⟩ own d 1 clsInt fun v e l =>
    let a := v.val e a.reg l
    let pos := (v.fieldSel e f l).1
    let len := (v.fieldSel e f l).2
    [wordBits fun i => if i < len then bitOf sg a (pos + i) else sg && 0 < len && bitOf sg a (pos + len - 1)]) ∧
  (∀ d a f c, Results (fun g => .bfi g d a f c) ⟨useOf a 1 0 :: (fieldUses f ++ [useOf c 1 2]), some (d, 1)⟩ own d 1 clsInt
    fun v e l =>
      let a := v.val e a.reg l
      let c := v.val e c.reg l
      let pos := (v.fieldSel e f l).1
      let len := (v.fieldSel e f l).2
      [wordBits fun i => if pos ≤ i ∧ i < pos + len then a.getLsbD (i - pos) else c.getLsbD i]) ∧
  (∀ d a b hi, Results (fun g => .bperm g d a b hi) ⟨[useOf a 4 0, useOf b 1 1], some (d, 1)⟩ own d 1 clsInt fun v e l =>
    let nib := fun (i : Nat) => (v.val e b.reg l).toNat / 2 ^ (8 * i + if hi then 4 else 0) % 16
    [wordBits fun i => (v.val e (regAt a.reg (nib (i / 8) / 4)) l).getLsbD (8 * (nib (i / 8) % 4) + i % 8)]) ∧
  (∀ d a b sel, Results (fun g => .bsel g d a b sel)
    ⟨useOf a 1 0 :: useOf b 1 1 :: (match sel with
      | .reg c => [useOf c 1 2]
      | .imm _ => []), some (d, 1)⟩ own d 1 clsInt fun v e l =>
    let x : Nat := match sel with
      | .reg c => (v.val e c.reg l).toNat
      | .imm i => i.toNat
    let from_ := fun (i : Nat) => x / 2 ^ (3 * i) % 8
    [wordBits fun i => !x.testBit (12 + i / 8) &&
      (if from_ (i / 8) < 4 then v.val e a.reg l else v.val e b.reg l).getLsbD (8 * (from_ (i / 8) % 4) + i % 8)]) ∧
  (∀ p neg, TwoSourceLane (fun g d a b => .isel g d a b p neg) fun x a b => if (x.pred p) != neg then a else b)

/-! ### Predicates, cross-lane operations and floating point (04 R94–R100, 05 R111–R128) -/

/-- The comparison of two integers that ISET names (R94). -/
def holdsOf (k : ICond) (x y : Int) : Bool :=
  match k with
  | .eq => decide (x = y)
  | .ne => decide (x ≠ y)
  | .lt => decide (x < y)
  | .le => decide (x ≤ y)
  | .gt => decide (y < x)
  | .ge => decide (y ≤ x)

/-- A float operand's value in a lane, after its source flags (R68, R111). -/
def fval (f64 : Bool) (x : FSrc) (v : Wave) (e : Iss) (l : Nat) : FVal := (fpFmt f64).value (v.fsrc e f64 x l)

/-- R94, R95, R100, R114: predicates. -/
def Obligations.PredicatesAndCompares : Prop :=
  (∀ p a b k u, ResultsL (fun g => .iset g p a b k u) ⟨useOf a 1 0 :: opdUses b, none⟩ clsInt fun v e l x =>
    x.setPred p (holdsOf k (intOf u (v.val e a.reg l)) (intOf u (v.opdS e b l)))) ∧
  (∀ p pa na pb nb op, ResultsL (fun g => .pset g p pa na pb nb op) ⟨[], none⟩ clsInt fun v _ l x =>
    let y := (v.lane l).pred pa != na
    let z := (v.lane l).pred pb != nb
    x.setPred p (match op with
      | .and => y && z
      | .or => y || z
      | .xor => y != z)) ∧
  (∀ a mask, ResultsL (fun g => .pmov g (.put a mask)) ⟨[useOf a 1 0], none⟩ clsInt fun v e l x =>
    { x with preds := (x.preds &&& ~~~(mask ++ 0#1)) ||| ((v.val e a.reg l).setWidth 8 &&& (mask ++ 0#1)) }) ∧
  (∀ p pa neg, ResultsL (fun g => .vote g (.all p) pa neg) ⟨[], none⟩ clsInt fun v e _ x =>
    x.setPred p (e.act.all fun j => (v.lane j).pred pa != neg)) ∧
  (∀ p pa neg, ResultsL (fun g => .vote g (.any p) pa neg) ⟨[], none⟩ clsInt fun v e _ x =>
    x.setPred p (e.act.any fun j => (v.lane j).pred pa != neg)) ∧
  (∀ f64 p a b k sig, ResultsL (fun g => .fset g f64 p a b k sig)
    ⟨[useOf a.src (fpRegs f64) 0, useOf b.src (fpRegs f64) 1], none⟩ (fpClass f64) fun v e l x =>
      let y := fval f64 a v e l
      let z := fval f64 b v e l
      (x.setPred p (FCond.holds k (y.cmp z))).flagged
        (if y.isSig || z.isSig || (sig && (y.isNan || z.isNan)) then flagNV else 0))

/-- The lane whose register lane `l` of a SHFL reads (R99), `n` its lane operand and `w` the segment. -/
def shflFrom (mode : ShMode) (w n l : Nat) : Nat :=
  let base := l / w * w
  match mode with
  | .idx => base + n % w
  | .up => if l % w < n then l else l - n
  | .down => if l % w + n < w then l + n else l
  | .xor => base + (l % w ^^^ n) % w

/-- The lane operand of a SHFL in a lane. -/
def shflOpd (v : Wave) (e : Iss) (n : LaneOpd) (l : Nat) : Nat :=
  match n with
  | .reg s => (v.val e s.reg l).toNat % 32
  | .imm n => n.toNat

/-- What a cross-lane read of a lane gives (R98). -/
def crossOf (v : Wave) (e : Iss) (r : Reg) (l : Nat) : Word := if (v.lane l).alive then v.val e r l else 0

/-- R95, R97, R99, R100: values of other lanes. -/
def Obligations.CrossLaneResults : Prop :=
  (∀ d a n w mode, Results (fun g => .shfl g d a n w mode)
    ⟨useOf a.src 1 0 :: (match n with
      | .reg b => [useOf b 1 1]
      | .imm _ => []), some (d, 1)⟩
    (fun v e f l => if f = 0 then shflLane v e n (32 >>> w.toNat) mode l else l) d 1 clsInt fun v e l =>
      [crossOf v e (.v a.n) (shflFrom mode (2 ^ (5 - w.toNat)) (shflOpd v e n l) l)]) ∧
  (∀ kd a lane, Results (fun g => .movk g kd a lane) ⟨[useOf a.src 1 0], some (.k kd, 1)⟩
    (fun _ _ f l => if f = 0 then lane.toNat else l) (.k kd) 1 clsInt fun v e _ => [crossOf v e (.v a.n) lane.toNat]) ∧
  (∀ d a op, Results (fun g => .redux g d a op) ⟨[useOf a.src 1 0], some (d, 1)⟩ own d 1 clsInt fun v e _ =>
    [match e.act.map fun j => v.val e (.v a.n) j with
      | [] => 0
      | x :: xs => xs.foldl (fun x y => match op with
        | .add => x + y
        | .min => if y.toInt < x.toInt then y else x
        | .max => if x.toInt < y.toInt then y else x
        | .minu => if y.toNat < x.toNat then y else x
        | .maxu => if x.toNat < y.toNat then y else x
        | .and => x &&& y
        | .or => x ||| y
        | .xor => x ^^^ y) x]) ∧
  (∀ d pa neg, Results (fun g => .vote g (.ballot d) pa neg) ⟨[], some (d, 1)⟩ own d 1 clsInt fun v e _ =>
    [maskOf (e.act.filter fun j => (v.lane j).pred pa != neg)]) ∧
  (∀ d, Results (fun g => .pmov g (.get d)) ⟨[], some (d, 1)⟩ own d 1 clsInt fun v _ l =>
    [wordBits fun i => i = 0 || (i < 8 && (v.lane l).preds.getLsbD i)])

/-- The rounding mode of a bundle: its own, or the wave's FRM (R68, R111). -/
def modeOf (r : Rnd) (v : Wave) : RMode :=
  match r with
  | .st m => m
  | .dyn => RMode.ofCode v.frm

/-- A bundle of two float sources whose result and flags are a function of their values. -/
def FloatTwo (mk : Guard → Bool → Rnd → Reg → FSrc → FSrc → Instr) (f : FFmt → RMode → FVal → FVal → FRes) : Prop :=
  ∀ f64 r d a b, ResultsF (fun g => mk g f64 r d a b)
    ⟨[useOf a.src (fpRegs f64) 0, useOf b.src (fpRegs f64) 1], some (d, fpRegs f64)⟩ d (fpRegs f64) (fpClass f64)
    fun v e l => fresult f64 (f (fpFmt f64) (modeOf r v) (fval f64 a v e l) (fval f64 b v e l))

/-- R112, R113, R115: arithmetic. -/
def Obligations.FloatArithmetic : Prop :=
  FloatTwo .fadd (fun t m x y => t.add m x y) ∧
  FloatTwo .fsub (fun t m x y => t.add m x y.neg) ∧
  FloatTwo .fmul (fun t m x y => t.mul m x y) ∧
  (∀ f64 r d negD absD a b, ResultsF (fun g => .ffma g f64 r d negD absD a b)
    ⟨[useOf a.src (fpRegs f64) 0, useOf b.src (fpRegs f64) 1], some (d, fpRegs f64)⟩ d (fpRegs f64) (fpClass f64)
    fun v e l => fresult f64 ((fpFmt f64).fma (modeOf r v) (fval f64 a v e l) (fval f64 b v e l)
      (fval f64 ⟨⟨d, false⟩, negD, absD⟩ v e l))) ∧
  (∀ f64 d a b, ResultsF (fun g => .fmin g f64 d a b)
    ⟨[useOf a.src (fpRegs f64) 0, useOf b.src (fpRegs f64) 1], some (d, fpRegs f64)⟩ d (fpRegs f64) (fpClass f64)
    fun v e l => fresult f64 ((fpFmt f64).minMax false (v.fsrc e f64 a l) (v.fsrc e f64 b l))) ∧
  (∀ f64 d a b, ResultsF (fun g => .fmax g f64 d a b)
    ⟨[useOf a.src (fpRegs f64) 0, useOf b.src (fpRegs f64) 1], some (d, fpRegs f64)⟩ d (fpRegs f64) (fpClass f64)
    fun v e l => fresult f64 ((fpFmt f64).minMax true (v.fsrc e f64 a l) (v.fsrc e f64 b l))) ∧
  (∀ f64 d a, Results (fun g => .fclass g f64 d a) ⟨[useOf a.src (fpRegs f64) 0], some (d, 1)⟩ own d 1 (fpClass f64)
    fun v e l => [BitVec.ofNat 32 (2 ^ (fpFmt f64).classBit (v.fsrc e f64 a l))])

/-- A conversion between register formats with a rounding; `inWide` and `outWide` say that a pair is read or written. -/
def Converts (mk : Guard → Rnd → Reg → Src → Instr) (inWide outWide : Bool) (f : RMode → Nat → FRes) : Prop :=
  ∀ r d a, ResultsF (fun g => mk g r d a) ⟨[useOf a (fpRegs inWide) 0], some (d, fpRegs outWide)⟩ d (fpRegs outWide)
    clsFp32 fun v e l => fresult outWide (f (modeOf r v) (v.fcode e inWide a.reg l))

/-- `ResultsF` for a bundle whose operands' sizes hang on a table or slot of the machine, in the states in which that
lets it pass its alignment check. -/
def ResultsOn {α : Type} (mk : Guard → Instr) (par : State → Cur → α) (ok : α → Bool) (u : α → Uses) (d : Reg)
    (n : α → Nat) (f : α → Wave → Iss → Nat → List Word × BitVec 7) : Prop :=
  ∀ (s : State) (c : Cur) (g : Guard), (mk g).wf = true → StackOk s c g → ok (par s c) = true →
    CanIssue s c g (u (par s c)) ownLane →
    ∃ t v₁ v, exec (mk g) s = .next t ∧ Issued s t c g [chargeOf g clsFp32 1] 0 (v.goOn c.entry s.stamp) ∧
      Wrote (s.wave c.wid) v₁ (s.iss c g) d (n (par s c)) (fun l => (f (par s c) (s.wave c.wid) (s.iss c g) l).1) ∧
      Laned v₁ v (s.iss c g).act fun l x => x.flagged (f (par s c) (s.wave c.wid) (s.iss c g) l).2

/-- Format slot `n` of the split's launch (R39, R120). -/
def slotAt (n : BitVec 3) (s : State) (c : Cur) : BitVec 64 := (s.launch (s.wave c.wid).lid).slots.getD n.toNat 0

/-- Words and flags of several elements. -/
def elements (rs : List FRes) : List Word × BitVec 7 :=
  (rs.map fun r => BitVec.ofNat 32 r.1, rs.foldl (fun f r => f ||| r.2) 0)

/-- R117–R123: conversions. -/
def Obligations.Conversions : Prop :=
  (∀ f64, Converts (fun g r d a => .frnd g f64 r d a) f64 f64 fun m x => (fpFmt f64).integral m x) ∧
  (∀ f64 ty, Converts (fun g r d a => .f2i g f64 r d a ty) f64 (ty.getLsbD 1) fun m x =>
    floatToInt ty m ((fpFmt f64).value x)) ∧
  (∀ f64 ty, Converts (fun g r d a => .i2f g f64 r d a ty) (ty.getLsbD 1) f64 fun m x =>
    (fpFmt f64).ofValue m (intOfType ty x)) ∧
  (∀ narrow, Converts (fun g r d a => .f2f g narrow r d a) narrow (!narrow) fun m x =>
    (fpFmt (!narrow)).ofValue m ((fpFmt narrow).value x)) ∧
  (∀ d a n, ResultsOn (fun g => .cvt g true d a n) (slotAt n) (fun x => slotFmt x != 7 || a.reg.aligned 2)
    (fun x => ⟨[useOf a (fpRegs (slotFmt x == 7)) 0], some (d, 1)⟩) d (fun _ => 1) fun x v e l =>
      fresult false (slotOut x (v.fcode e (slotFmt x == 7) a.reg l % 2 ^ slotBits x))) ∧
  (∀ d a n, ResultsOn (fun g => .cvt g false d a n) (slotAt n) (fun x => slotFmt x != 7 || d.aligned 2)
    (fun x => ⟨[useOf a 1 0], some (d, fpRegs (slotFmt x == 7))⟩) d (fun x => fpRegs (slotFmt x == 7)) fun x v e l =>
      fresult (slotFmt x == 7) (slotIn x (fp32.value (v.val e a.reg l).toNat))) ∧
  (∀ d a n, ResultsOn (fun g => .cvtp g d a n) (slotAt n)
    (fun x => slotBits x != 64 && a.reg.aligned (32 / slotBits x))
    (fun x => ⟨[useOf a (32 / slotBits x) 0], some (d, 1)⟩) d (fun _ => 1) fun x v e l =>
      let rs := (List.range (32 / slotBits x)).map fun i => slotIn x (fp32.value (v.val e (regAt a.reg i) l).toNat)
      ([BitVec.ofNat 32 (rs.zipIdx.foldl (fun k r => k + r.1.1 * 2 ^ (slotBits x * r.2)) 0)], (elements rs).2)) ∧
  (∀ d a n, ResultsOn (fun g => .cvtu g d a n) (slotAt n)
    (fun x => slotBits x != 64 && d.aligned (32 / slotBits x))
    (fun x => ⟨[useOf a 1 0], some (d, 32 / slotBits x)⟩) d (fun x => 32 / slotBits x) fun x v e l =>
      elements ((List.range (32 / slotBits x)).map fun i =>
        slotOut x ((v.val e a.reg l).toNat / 2 ^ (slotBits x * i) % 2 ^ slotBits x))) ∧
  (∀ (s : State) (c : Cur) (g : Guard), CanIssue s c g ⟨[], none⟩ ownLane →
    (∀ l ∈ (s.iss c g).act, ((s.wave c.wid).lane l).fpsr &&& ((s.wave c.wid).lane l).fpen = 0) →
    (s.wave c.wid).longPending (s.iss c g).act = false →
    ∃ t, exec (.tfence g) s = .next t ∧ Issued s t c g [chargeOf g clsFp32 1] 0 ((s.wave c.wid).goOn c.entry s.stamp))

/-- A packed operation (R124): each element of d from the elements of a, b and d. -/
def Packed (mk : Guard → Bool → Rnd → Reg → FSrc → FSrc → Instr) (negD absD : Bool)
    (f : FFmt → RMode → FVal → FVal → FVal → FRes) : Prop :=
  ∀ bf r d a b, ResultsF (fun g => mk g bf r d a b) ⟨[useOf a.src 1 0, useOf b.src 1 1], some (d, 1)⟩ d 1 clsFp32
    fun v e l =>
      let el := fun (i : Nat) => f (halfFmt bf) (modeOf r v)
        (halfAt (halfFmt bf) a.neg a.abs (v.val e a.src.reg l) i)
        (halfAt (halfFmt bf) b.neg b.abs (v.val e b.src.reg l) i) (halfAt (halfFmt bf) negD absD (v.val e d l) i)
      ([BitVec.ofNat 32 ((el 0).1 + 2 ^ 16 * (el 1).1)], (el 0).2 ||| (el 1).2)

/-- Algebra table `t` of the split's core (R130). -/
def tableAt (t : BitVec 2) (s : State) (c : Cur) : List Byte := mget (s.core (s.wave c.wid).coreOf).al t.toNat []

/-- R124–R128: packed halves and algebra. -/
def Obligations.PackedAndAlgebra : Prop :=
  Packed .hadd2 false false (fun t m x y _ => t.add m x y) ∧
  Packed .hmul2 false false (fun t m x y _ => t.mul m x y) ∧
  (∀ n ab, Packed (fun g bf r d a b => .hfma2 g bf r d n ab a b) n ab fun t m x y z => t.fma m x y z) ∧
  (∀ r d a b t, ResultsOn (fun g => .almul g r d a b t) (tableAt t)
    (fun x => d.aligned (tableDim x) && a.reg.aligned (tableDim x) && b.reg.aligned (tableDim x))
    (fun x => ⟨[useOf a (tableDim x) 0, useOf b (tableDim x) 1], some (d, tableDim x)⟩) d tableDim fun x v e l =>
      elements ((List.range (tableDim x)).map fun k =>
        sumTerms (modeOf r v) (productTerms x (v.comp e a.reg l) (v.comp e b.reg l) k))) ∧
  (∀ r d a b t, ResultsOn (fun g => .almac g r d a b t) (tableAt t)
    (fun x => d.aligned (tableDim x) && a.reg.aligned (tableDim x) && b.reg.aligned (tableDim x))
    (fun x => ⟨[useOf a (tableDim x) 0, useOf b (tableDim x) 1], some (d, tableDim x)⟩) d tableDim fun x v e l =>
      elements ((List.range (tableDim x)).map fun k =>
        match productTerms x (v.comp e a.reg l) (v.comp e b.reg l) k with
        | [] => ((v.val e (regAt d k) l).toNat, 0)
        | ts => sumTerms (modeOf r v) (some (v.comp e d l k) :: ts))) ∧
  (∀ d a t, ResultsOn (fun g => .alconj g d a t) (tableAt t)
    (fun x => d.aligned (tableDim x) && a.reg.aligned (tableDim x))
    (fun x => ⟨[useOf a (tableDim x) 0], some (d, tableDim x)⟩) d tableDim fun x v e l =>
      ((List.range (tableDim x)).map fun i =>
        (if conjBit x i then v.val e (regAt a.reg i) l ^^^ 0x80000000 else v.val e (regAt a.reg i) l), 0)) ∧
  (∀ r d a t, ResultsOn (fun g => .alnorm g r d a t) (tableAt t) (fun x => a.reg.aligned (tableDim x))
    (fun x => ⟨[useOf a (tableDim x) 0], some (d, 1)⟩) d (fun _ => 1) fun x v e l =>
      elements [sumTerms (modeOf r v) (productTerms x (v.comp e a.reg l)
        (fun i => if conjBit x i then (v.comp e a.reg l i).neg else v.comp e a.reg l i) 0)])

/-- Quotient, remainder and flag of R88. -/
def divOf (u : Bool) (a b : Word) : Word × Word × BitVec 7 :=
  if b = 0 then (BitVec.allOnes 32, a, flagIDZ)
  else (BitVec.ofInt 32 ((intOf u a).tdiv (intOf u b)), BitVec.ofInt 32 ((intOf u a).tmod (intOf u b)), 0)

/-- A long function of one float source (R116). -/
def LongOne (mk : Guard → Bool → Rnd → Reg → FSrc → Instr) (f : FFmt → RMode → FVal → FRes) : Prop :=
  ∀ f64 r d a, Producers (fun g => mk g f64 r d a) ⟨[useOf a.src (fpRegs f64) 0], some (d, fpRegs f64)⟩ d (fpRegs f64)
    .long clsSfu fun v e l => fresult f64 (f (fpFmt f64) (modeOf r v) (fval f64 a v e l))

/-- R26, R88, R116: producers. -/
def Obligations.LongProducers : Prop :=
  (∀ d a b u, Producers (fun g => .idiv g d a b u) ⟨[useOf a 1 0, useOf b 1 1], some (d, 1)⟩ d 1 .long clsSfu
    fun v e l => ([(divOf u (v.val e a.reg l) (v.val e b.reg l)).1], (divOf u (v.val e a.reg l) (v.val e b.reg l)).2.2)) ∧
  (∀ d a b u, Producers (fun g => .irem g d a b u) ⟨[useOf a 1 0, useOf b 1 1], some (d, 1)⟩ d 1 .long clsSfu
    fun v e l => ([(divOf u (v.val e a.reg l) (v.val e b.reg l)).2.1], (divOf u (v.val e a.reg l) (v.val e b.reg l)).2.2)) ∧
  (∀ f64 r d a b, Producers (fun g => .fdiv g f64 r d a b)
    ⟨[useOf a.src (fpRegs f64) 0, useOf b.src (fpRegs f64) 1], some (d, fpRegs f64)⟩ d (fpRegs f64) .long clsSfu
    fun v e l => fresult f64 ((fpFmt f64).div (modeOf r v) (fval f64 a v e l) (fval f64 b v e l))) ∧
  LongOne .fsqrt (fun t m x => t.sqrt m x) ∧
  LongOne .frcp (fun t m x => t.rcp m x) ∧
  LongOne .frsq (fun t m x => t.rsq m x) ∧
  LongOne .fexp2 (fun t m x => t.exp2 m x) ∧
  LongOne .flog2 (fun t m x => t.log2 m x) ∧
  LongOne .fsin (fun t m x => t.sinCos false m x) ∧
  LongOne .fcos (fun t m x => t.sinCos true m x)

/-! ### Control transfer (04 R101–R108) -/

/-- A state with the system part changed. -/
def withSys (s : State) (f : Sys → Sys) : State := { s with dev := { s.dev with sys := f s.dev.sys } }

/-- The bundle moves its split's lanes and writes nothing else. -/
def Transfers (i : Instr) (s : State) (c : Cur) (g : Guard) (target : Nat → Option Pc) : Prop :=
  ∃ t v, exec i s = .next t ∧ Issued s t c g [chargeOf g clsCtrl 1] 0 v ∧
    Sends (s.wave c.wid) v c.entry s.stamp ((s.iss c g).targets target)

/-- The target of BRX and CALLX in a lane (R103), of 64 bits. -/
def targetOf (s : State) (c : Cur) (g : Guard) (a : Src) (off : BitVec 19) (l : Nat) : Nat :=
  ((s.wave c.wid).val64 (s.iss c g) a.reg l + off.signExtend 64 * 8).toNat

/-- R101–R103, R108, R389; the frame is `Issued` and `Sends`. That a PARKED split at the MERGE's PC, or one of another level, keeps
the others held is log entry 91 (DESIGN CHOICE). -/
def Obligations.Branches : Prop :=
  (∀ s c g off, CanIssue s c g noUses ownLane →
    Transfers (.bra g off) s c g fun _ => some ((s.iss c g).pc + off.signExtend 56 * 8)) ∧
  (∀ s c g a off, CanIssue s c g ⟨[useOf a 2 0], none⟩ ownLane →
    (∀ l ∈ (s.iss c g).act, targetOf s c g a off l % 8 = 0 ∧ targetOf s c g a off l < 2 ^ 56) →
    Transfers (.brx g a off) s c g fun l => some (BitVec.ofNat 56 (targetOf s c g a off l))) ∧
  (∀ s c g, CanIssue s c g noUses ownLane →
    ∃ t, exec (.nop g) s = .next t ∧
      Issued s t c g [chargeOf g clsCtrl 1] 0 ((s.wave c.wid).goOn c.entry s.stamp)) ∧
  (∀ s c, CanIssue s c ⟨false, 0⟩ noUses ownLane →
    ∃ t, exec .yield s = .next t ∧
      Issued s t c ⟨false, 0⟩ [(clsCtrl, 1)] 0 ((s.wave c.wid).goOn c.entry s.stamp) ∧
      ((s.wave c.wid).quarter, s.stamp, 16) ∈ t.dev.sys.yields) ∧
  (∀ s c, CanIssue s c ⟨false, 0⟩ noUses ownLane →
    (∀ x ∈ (s.wave c.wid).splits, x.pc = (s.iss c ⟨false, 0⟩).pc ∧ x.state = .ready ∧
      x.level = (s.iss c ⟨false, 0⟩).level ∧ x.handler = ((s.wave c.wid).split c.entry).handler) →
    ∃ t v, exec .merge s = .next t ∧ Issued s t c ⟨false, 0⟩ [(clsCtrl, 1)] 0 v ∧ v.overflow = [] ∧
      ∃ n x, v.entries = [(n, x)] ∧ x.pc = (s.iss c ⟨false, 0⟩).pc + 8 ∧ x.state = .ready ∧ x.hold = .none ∧
        ∀ l, x.mask.getLsbD l = true ↔ ∃ y ∈ (s.wave c.wid).splits, y.mask.getLsbD l = true) ∧
  (∀ s c, CanIssue s c ⟨false, 0⟩ noUses ownLane → (s.wave c.wid).splits.length ≠ 1 →
    (∃ x ∈ (s.wave c.wid).splits, ¬(x.pc = (s.iss c ⟨false, 0⟩).pc ∧ x.state = .ready ∧
      x.level = (s.iss c ⟨false, 0⟩).level ∧ x.handler = ((s.wave c.wid).split c.entry).handler)) →
    exec .merge s = .next (withSys (s.withWave c.wid fun v =>
      (v.setSplit c.entry { v.split c.entry with hold := .merge, parkedAt := s.dev.sys.nextId }).settle) fun y => { y with nextId := y.nextId + 1 }))

/-- A call in every active lane, its targets aligned and its pushes in lane-private memory (R102, R103): each lane pushes a
call frame with PC + 8 and goes to its target. -/
def Calls (mk : Guard → Instr) (u : Uses) (target : State → Cur → Guard → Nat → Nat) : Prop :=
  ∀ s c g, Safe s → CanIssue s c g u ownLane → (s.iss c g).act ≠ [] → (s.iss c g).shadow = false →
    (∀ l ∈ (s.iss c g).act, target s c g l % 8 = 0 ∧ target s c g l < 2 ^ 56 ∧
      Room (s.wave c.wid) (s.iss c g).s l) →
    ∃ t v, exec (mk g) s = .next t ∧ Issued (s.rewritten t) t c g [chargeOf g clsCtrl 1] 0 v ∧
      (∀ l ∈ (s.iss c g).act, v.lane l = ((s.wave c.wid).lane l).pushed (s.iss c g).s ((s.iss c g).pc + 8) false) ∧
      (∀ l, l ∉ (s.iss c g).act → v.lane l = (s.wave c.wid).lane l) ∧
      Pushes s t (s.wave c.wid) c.wid (s.iss c g).s (s.iss c g).act ∧
      Sends { s.wave c.wid with lanes := v.lanes } v c.entry s.stamp
        ((s.iss c g).targets fun l => some (BitVec.ofNat 56 (target s c g l)))

/-- The checks of a call's pushes, and of a return's pops, as the stamped wave has them. -/
def pushCheck (s : State) (c : Cur) (e : Iss) (w : Work) (l : Nat) : Motion × Work :=
  w.checkPush e.wid ((s.wave c.wid).split c.entry).denied l
def popCheck (s : State) (c : Cur) (e : Iss) (w : Work) (l : Nat) : Motion × Work :=
  w.checkPop e.wid ((s.wave c.wid).split c.entry).denied l

/-- A pop of a lane fills 24 registers (R19). -/
def fills (sz : Nat) (x : Lane) : Bool := decide (lowOf sz (x.wdepth.toNat - 1) < lowOf sz x.wdepth.toNat)
/-- The home of the `i`th register that a pop of a lane fills (R19). -/
def fillLoc (sz : Nat) (x : Lane) (l i : Nat) : Loc := (0, 1024 * l + (lowOf sz (x.wdepth.toNat - 1) + i) % sz)

/-- A lane whose return pops in lane-private memory: its record, and its block when the window fills, lie there uncorrupted,
no register that it fills has a producer outstanding (R27), and the popped frame has entered no colour that the lane still holds (R19, R104). -/
structure PopsHere (s : State) (v : Wave) (wid sz l : Nat) : Prop where
  depth : (v.lane l).wdepth ≠ 0
  here : ∀ x ∈ popPlan sz (v.lane l), x.global = false ∧
    s.work.badData (PAddr.lane wid l x.off).key (if x.block then 96 else 16) = false
  full : ∀ y ∈ fillLocs sz l (v.lane l).wdepth.toNat, v.pending y = false
  entries : (popPlan sz (v.lane l)).map (·.block) = if fills sz (v.lane l) then [true, false] else [false]
  colours : ∀ h ∈ (v.lane l).held, (v.lane l).head.entered.getLsbD h.1 = false

/-- The offset of the record that a lane's pop reads. -/
def recordOff (sz : Nat) (x : Lane) : Nat := ((popPlan sz x).getLast?.map (·.off)).getD 0
/-- The offset of the block that it reads first, when the window fills. -/
def blockOff (sz : Nat) (x : Lane) : Nat := ((popPlan sz x).head?.map (·.off)).getD 0

/-- R102–R104 with R18–R21: the local forms in full, then every form whose checks pass. -/
def Obligations.CallsAndReturns : Prop :=
  (∀ off, Calls (fun g => .call g off) noUses fun s c g _ => ((s.iss c g).pc + off.signExtend 56 * 8).toNat) ∧
  (∀ a off, Calls (fun g => .callx g a off) ⟨[useOf a 2 0], none⟩ fun s c g l => targetOf s c g a off l) ∧
  (∀ s c g, CanIssue s c g noUses ownLane → (s.iss c g).act ≠ [] → (s.iss c g).shadow = false →
    StackOk s c g → (∀ l ∈ (s.iss c g).act, PopsHere s (s.wave c.wid) c.wid (s.iss c g).s l) →
    ∃ t v, exec (.ret g) s = .next t ∧ Issued s t c g [chargeOf g clsCtrl 1] 0 v ∧
      (∀ l ∈ (s.iss c g).act,
        (v.lane l).wdepth = ((s.wave c.wid).lane l).wdepth - 1 ∧
        (v.lane l).head = Frame.ofBytes (s.work.bytes
          (PAddr.lane c.wid l (recordOff (s.iss c g).s ((s.wave c.wid).lane l))).key 16) ∧
        (v.lane l).preds = ((s.wave c.wid).lane l).preds ∧ (v.lane l).held = ((s.wave c.wid).lane l).held) ∧
      (∀ l, l ∉ (s.iss c g).act → v.lane l = (s.wave c.wid).lane l) ∧
      (∀ l ∈ (s.iss c g).act, fills (s.iss c g).s ((s.wave c.wid).lane l) = true → ∀ i < 24,
        v.rd (fillLoc (s.iss c g).s ((s.wave c.wid).lane l) l i) = BitVec.ofNat 32 (leNat (s.work.bytes
          (PAddr.lane c.wid l (blockOff (s.iss c g).s ((s.wave c.wid).lane l) + 4 * i)).key 4))) ∧
      (∀ x, (∀ l ∈ (s.iss c g).act, fills (s.iss c g).s ((s.wave c.wid).lane l) = true → ∀ i < 24,
        x ≠ fillLoc (s.iss c g).s ((s.wave c.wid).lane l) l i) → v.rd x = (s.wave c.wid).rd x) ∧
      Sends { s.wave c.wid with lanes := v.lanes, vregs := v.vregs, vstat := v.vstat } v c.entry s.stamp
        ((s.iss c g).targets fun l => some ((s.wave c.wid).lane l).head.rpc)) ∧
  (∀ s c g off, CanIssue s c g noUses ownLane → (s.iss c g).act ≠ [] → (s.iss c g).shadow = false →
    (branchTarget (s.iss c g).pc off).toNat % 8 = 0 → Passes s c g (pushCheck s c) →
    exec (.call g off) s = .next (s.done c g clsCtrl 1
      ((((s.iss c g).act.foldl (fun w l => w.push c.wid l ((s.iss c g).pc + 8) false)
        ((s.work.stamp c).perLane (s.iss c g).act (pushCheck s c (s.iss c g))).2).transfer (s.iss c g)
          ((s.iss c g).act.map fun l => (l, branchTarget (s.iss c g).pc off))).w))) ∧
  (∀ s c g a off, CanIssue s c g ⟨[useOf a 2 0], none⟩ ownLane → (s.iss c g).act ≠ [] → (s.iss c g).shadow = false →
    (∀ l ∈ (s.iss c g).act, targetOf s c g a off l % 8 = 0 ∧ targetOf s c g a off l < 2 ^ 56) →
    Passes s c g (pushCheck s c) →
    exec (.callx g a off) s = .next (s.done c g clsCtrl 1
      ((((s.iss c g).act.foldl (fun w l => w.push c.wid l ((s.iss c g).pc + 8) false)
        ((s.work.stamp c).perLane (s.iss c g).act (pushCheck s c (s.iss c g))).2).transfer (s.iss c g)
          ((s.iss c g).act.map fun l => (l, BitVec.ofNat 56 (targetOf s c g a off l)))).w))) ∧
  (∀ s c g, CanIssue s c g noUses ownLane → (s.iss c g).act ≠ [] → (s.iss c g).shadow = false →
    s.work.finHeld c.wid ((s.iss c g).act.filter fun l => ((s.wave c.wid).lane l).wdepth = 0) = [] →
    Passes s c g (popCheck s c) →
    exec (.ret g) s = .next (s.done c g clsCtrl 1
      (let w := ((s.work.stamp c).perLane (s.iss c g).act (popCheck s c (s.iss c g))).2
       let one := fun (w : Work) (l : Nat) =>
         if ((w.wave c.wid).lane l).wdepth = 0 then w.exitLane c.wid l else w.pop c.wid l
       ((((s.iss c g).act.foldl one w).transfer (s.iss c g)
        (((s.iss c g).act.filter fun l => ((w.wave c.wid).lane l).wdepth ≠ 0).map fun l =>
          (l, ((w.wave c.wid).lane l).head.rpc))).w))))

/-! ### Traps (04 R105, R106, R109, 06 R141–R146) -/

/-- Nothing stands in the way of a handler for the lanes of a trap (R142): TVEC is set, no handler of a higher level runs,
none is entering, the debugger does not hold the wave, and every lane's push fits its lane-private memory. -/
structure CanEnter (v : Wave) (entry sz : Nat) (m : Word) : Prop where
  tvec : v.tvec ≠ 0
  level : v.tlevel ≠ 2 ∧ v.tlevel ≤ (v.split entry).level
  alone : v.entering = none
  awake : v.recorded = false ∧ (v.split entry).kept = none
  room : ∀ l ∈ lanesOf ((v.split entry).mask &&& m), Room v sz l

/-- A bundle takes the trap `x` of its split (R142): control energy, the handler entered, the frames pushed, and nothing
else. -/
def Traps (i : Instr) (s : State) (c : Cur) (g : Guard) (x : TrapVals) (fall : Pc) : Prop :=
  ∃ t v, exec i s = .next t ∧ Issued (s.rewritten t) t c g [(clsCtrl, 1)] 0 v ∧
    Entered (s.wave c.wid) v c.entry s.stamp (s.iss c g).s x fall ∧
    Pushes s t (s.wave c.wid) c.wid (s.iss c g).s (lanesOf ((s.iss c g).mask &&& x.mask))

/-- The guard of the steps that have none. -/
def always : Guard := ⟨false, 0⟩

/-- R109, R74 with R142–R145. -/
def Obligations.ProgramTraps : Prop :=
  (∀ s c g code, Safe s → CanIssue s c g noUses ownLane → (s.iss c g).act ≠ [] → Irrevocable s c g →
    CanEnter (s.wave c.wid) c.entry (s.iss c g).s (maskOf (s.iss c g).act) →
    Traps (.trap g code) s c g ⟨0x0F, (s.iss c g).pc + 8, maskOf (s.iss c g).act, 0, code.setWidth 32⟩
      ((s.iss c g).pc + 8)) ∧
  (∀ s c g code, Safe s → CanIssue s c g noUses ownLane → (s.iss c g).act ≠ [] →
    CanEnter (s.wave c.wid) c.entry (s.iss c g).s (maskOf (s.iss c g).act) →
    Traps (.brk g code) s c g ⟨0x10, (s.iss c g).pc, maskOf (s.iss c g).act, 0, code.setWidth 32⟩
      ((s.iss c g).pc + 8)) ∧
  (∀ s c sub pair slot, Safe s → CanIssue s c always noUses ownLane → Irrevocable s c always →
    CanEnter (s.wave c.wid) c.entry (s.iss c always).s (s.iss c always).mask →
    Traps (.illegalBundle sub pair slot) s c always
      ⟨0x01, (s.iss c always).pc, (s.iss c always).mask, 0, illInfo sub pair slot 0⟩ ((s.iss c always).pc + 8)) ∧
  (∀ s c g code, CanIssue s c g noUses ownLane → (s.iss c g).act = [] → ∀ i, i = .trap g code ∨ i = .brk g code →
    ∃ t, exec i s = .next t ∧
      Issued s t c g [chargeOf g clsCtrl 1] 0 ((s.wave c.wid).goOn c.entry s.stamp))

/-- R142, R143. A TRAPPED split enters at level 1 as at level 0: log entry 31 (DEDUCED), where R135's row speaks of TLEVEL 0. -/
def Obligations.HandlerEntry : Prop :=
  (∀ s wid n x, Safe s → s.dev.sys.cur.map (·.wid) ≠ some wid → (s.wave wid).nextTrapped = some (n, x) →
    CanEnter (s.wave wid) n (s.launch (s.wave wid).lid).s x.mask →
    ∃ (t : State) (v : Wave), exec (.trapEntry wid) s = .next t ∧ t.wave wid = v.settle ∧
      Entered (s.wave wid) v n ((s.wave wid).split n).lastIssue (s.launch (s.wave wid).lid).s x
        (if x.cause = 0x0F then x.pc else x.pc + 8) ∧
      Pushes s t (s.wave wid) wid (s.launch (s.wave wid).lid).s
        (lanesOf (((s.wave wid).split n).mask &&& x.mask)) ∧
      (∀ j, j ≠ wid → mget? t.dev.waves j = mget? s.dev.waves j) ∧
      (∀ k, t.core k = { s.core k with pmcs := (t.core k).pmcs }) ∧
      t.dev.sys = { s.dev.sys with agenda := t.dev.sys.agenda } ∧
      t.dev = { s.dev with waves := t.dev.waves, bad := t.dev.bad, cores := t.dev.cores, sys := t.dev.sys }) ∧
  (∀ s wid n x, s.dev.sys.cur.map (·.wid) ≠ some wid → (s.wave wid).nextTrapped = some (n, x) →
    (s.wave wid).mayEnter n ((s.wave wid).split n) = true → (s.wave wid).tvec = 0 ∨ (s.wave wid).tlevel = 2 →
    ∃ (t : State) (v : Wave), exec (.trapEntry wid) s = .next t ∧ t.wave wid = v.settle ∧ v.halted = true ∧
      (∀ y ∈ v.splits, y.reason = .halt ∧ y.state = if y.trap.isSome then .trapped else .parked) ∧
      (v.split n).trap = none ∧
      ∀ j, j ≠ wid → mget? t.dev.waves j = mget? s.dev.waves j) ∧
  (∀ s wid, (s.wave wid).nextTrapped = none → exec (.trapEntry wid) s = .next s)

/-- R105, R106, R387–R389, R61. RTT drops the low three bits of TRAPPC, which R32 lets a handler write: log entry 75 (DEDUCED). -/
def Obligations.HandlerReturns : Prop :=
  (∀ s c, CanIssue s c always noUses ownLane → (s.wave c.wid).tlevel ≠ 0 →
    (∀ l ∈ (s.iss c always).act, ((s.wave c.wid).lane l).head.trap = true) →
    ((s.wave c.wid).split c.entry).mask = (s.wave c.wid).rttLanes ((s.wave c.wid).split c.entry) →
    Passes s c always (popCheck s c) →
    exec .rtt s = .next (s.done c always clsCtrl 1
      ((((s.work.stamp c).perLane (s.iss c always).act (popCheck s c (s.iss c always))).2.returnTrap
        (s.iss c always)).tryTrap c.wid))) ∧
  (∀ s c, CanIssue s c always noUses ownLane → (s.wave c.wid).tlevel ≠ 0 →
    (∀ l ∈ (s.iss c always).act, ((s.wave c.wid).lane l).head.trap = true ∧
      PopsHere s (s.wave c.wid) c.wid (s.iss c always).s l) →
    ((s.wave c.wid).split c.entry).mask = (s.wave c.wid).rttLanes ((s.wave c.wid).split c.entry) →
    (∀ x ∈ (s.wave c.wid).entries, x.2.state ≠ .trapped) → (s.wave c.wid).entering = none →
    ∃ t v, exec .rtt s = .next t ∧ Issued s t c always [(clsCtrl, 1)] 0 v ∧
      v.tlevel = (s.wave c.wid).tlevel - 1 ∧
      (∃ x, mget? v.entries c.entry = some x ∧ x.state = .ready ∧ x.level = ((s.wave c.wid).split c.entry).level - 1 ∧
        x.pc = pcOf (mget (s.wave c.wid).traps (s.wave c.wid).tlevel.toNat TrapVals.blank).pc.toNat ∧
        x.mask = ((s.wave c.wid).split c.entry).mask) ∧
      ∀ l ∈ (s.iss c always).act, (v.lane l).wdepth = ((s.wave c.wid).lane l).wdepth - 1 ∧
        (v.lane l).head = Frame.ofBytes (s.work.bytes
          (PAddr.lane c.wid l (recordOff (s.iss c always).s ((s.wave c.wid).lane l))).key 16)) ∧
  (∀ s c m, CanIssue s c always noUses ownLane → (s.wave c.wid).pmatch = some m → (s.iss c always).shadow = true →
    ((s.wave c.wid).split c.entry).mask = (s.wave c.wid).rttLanes ((s.wave c.wid).split c.entry) →
    ∃ t, exec .rts s = .next t ∧ Issued s t c always [(clsCtrl, 1)] 0
      { (s.wave c.wid).setSplit c.entry { (s.wave c.wid).split c.entry with
          pc := m.mpc, handler := false, resumed := true, hold := .none, denied := [], lastIssue := s.stamp } with
        pmatch := none }) ∧
  (∀ s c i, CanIssue s c always noUses ownLane →
    ((s.wave c.wid).split c.entry).mask ≠ (s.wave c.wid).rttLanes ((s.wave c.wid).split c.entry) →
    (i = .rtt ∧ (s.wave c.wid).tlevel ≠ 0 ∧ (∀ l ∈ (s.iss c always).act, ((s.wave c.wid).lane l).head.trap = true) ∨
      i = .rts ∧ (s.wave c.wid).pmatch ≠ none ∧ (s.iss c always).shadow = true) →
    exec i s = .next (withSys (s.withWave c.wid fun v =>
      (v.setSplit c.entry { v.split c.entry with hold := .rtt, parkedAt := s.dev.sys.nextId }).settle) fun y =>
        { y with nextId := y.nextId + 1 })) ∧
  (∀ s c n hpc, s.dev.sys.cur = some c → (mget? (s.wave c.wid).entries c.entry).isSome = true →
    s.work.matchOf (s.wave c.wid) ((s.wave c.wid).split c.entry) = some (n, hpc) →
    exec .pcMatchEntry s = .next (s.withWave c.wid fun v =>
      { v.setSplit c.entry { v.split c.entry with pc := hpc, handler := true, denied := [] } with
        pmatch := some ⟨n, (v.split c.entry).pc, (v.split c.entry).mask⟩ }.settle)) ∧
  (∀ s c gr lv w, s.dev.sys.cur = some c → (mget? (s.wave c.wid).entries c.entry).isSome = true →
    s.work.check (s.iss c always).ctx (s.iss c always).core (s.iss c always).pc.toNat .x = (.page gr lv, w) →
    gr ∉ ((s.wave c.wid).split c.entry).denied →
    ∃ (t : State) (v : Wave) (x : Split), exec .fetchFault s = .next t ∧ t.wave c.wid = v.settle ∧ mget? v.entries c.entry = some x ∧
      x.state = .parked ∧ x.reason = .page ∧ x.pages = [(dieOf (s.iss c always).core, gr)] ∧
      x.pc = (s.iss c always).pc ∧ x.mask = (s.iss c always).mask ∧ t.mem = s.mem ∧
      (s.dev.mmu.faults = [] → ∃ r ∈ t.dev.mmu.faults, r.ctx = (s.iss c always).ctx ∧ r.vpage = gr ∧
        .split c.wid ((s.iss c always).act.headD 0) gr ∈ r.waiters))

/-! ### Special registers, results that come later, and pairs (01 R26, R32–R36, 03 R70–R73, 04 R110) -/

/-- `Results` for a bundle whose values, or whose conditions, hang on more of the state than its wave. -/
def ResultsS (mk : Guard → Instr) (u : Uses) (d : Reg) (n cls : Nat) (ok : State → Cur → Guard → Prop)
    (f : State → Cur → Guard → Nat → List Word) : Prop :=
  ∀ (s : State) (c : Cur) (g : Guard), (mk g).wf = true → StackOk s c g → CanIssue s c g u ownLane → ok s c g →
    ∃ t v, exec (mk g) s = .next t ∧ Issued s t c g [chargeOf g cls 1] 0 (v.goOn c.entry s.stamp) ∧
      Wrote (s.wave c.wid) v (s.iss c g) d n (f s c g)

/-- A number as words, the low one first (R25). -/
def wordsFrom (n x : Nat) : List Word := (List.range n).map fun i => BitVec.ofNat 32 (x / 2 ^ (32 * i))

/-- The trap registers that a wave's level reads (R32): those of level 1 at level 0. -/
def trapRegs (v : Wave) : TrapVals := mget v.traps (if v.tlevel = 0 then 1 else v.tlevel.toNat) TrapVals.blank

/-- What the machine's other state gives each special register in a lane (R32): the number of the register, the lane. -/
def csrOf (s : State) (c : Cur) (g : Guard) (num l : Nat) : Nat :=
  let v := s.wave c.wid
  let x := v.lane l
  let core := (s.iss c g).core
  let ctx := s.ctx (s.iss c g).ctx
  let frontier := fun (t : TaskRec) => match (s.work.domain (s.iss c g).ctx t.dom).bind Domain.frontier with
    | some f => f.task.ts.toNat
    | none => 2 ^ 64 - 1
  match num with
  | 0x000 => l
  | 0x001 => v.slot + 256 * v.widx
  | 0x002 => (s.block v.bid).idx.toNat
  | 0x003 => core
  | 0x004 => (s.block v.bid).lcore % 8 + 256 * ((s.block v.bid).lcore / 8)
  | 0x010 => 24 * x.wdepth.toNat % (s.iss c g).s
  | 0x011 => x.wdepth.toNat
  | 0x012 => v.splitsWord c.entry
  | 0x020 => x.fpsr.toNat
  | 0x021 => x.fpen.toNat
  | 0x022 => v.frm.toNat
  | 0x030 => v.tvec.toNat
  | 0x031 => (trapRegs v).cause.toNat
  | 0x032 => (trapRegs v).pc.toNat
  | 0x033 => (trapRegs v).mask.toNat
  | 0x034 => (trapRegs v).addr.toNat
  | 0x035 => (trapRegs v).info.toNat
  | 0x036 => v.tlevel.toNat
  | 0x040 => s.dev.sys.gtick.toNat
  | 0x041 => (((s.dev.sys.cyc : Int) - (s.core core).missed) / 20).toNat % 2 ^ 64
  | 0x050 => (ctx.energyOn core).e.toNat / 65536
  | 0x051 => (ctx.energyOn core).e.toNat % 65536
  | 0x052 => if (ctx.energyOn core).sat then 1 else 0
  | 0x053 => (s.core core).statp.toNat
  | 0x060 => match x.task with
    | some t => if t.dom = 0 then 2 ^ 64 - 1 else frontier t
    | none => 2 ^ 64 - 1
  | 0x061 => match x.task with
    | some t => if t.dom = 0 then 0 else t.ts.toNat
    | none => 0
  | 0x062 => match x.task with
    | some t => t.seq.toNat % 2 ^ 32
    | none => 0
  | 0x063 => ctx.tasks.age.toNat
  | 0x070 => if v.stepctl then 1 else 0
  | 0x071 => ctx.pcmbase.toNat
  | 0x072 => ctx.pcmen.toNat
  | 0x080 => 0x030506
  | 0x081 => 0x0401
  | 0x090 => x.held.foldl (fun n h => n + 2 ^ h.1) 0 + 256 * x.held.length
  | _ => if 0x100 ≤ num ∧ num ≤ 0x109 then (ctx.rec_.ewt.getD (num - 0x100) 0).toNat else 0

/-- What each special register reads in a lane: what a debugger wrote to a read-only one (R386) stands until the machine gives
the register another value (log entry 62). -/
def csrNow (s : State) (c : Cur) (g : Guard) (num l : Nat) : Nat :=
  match mget? s.dev.sys.forced (s.work.forcedKey c.wid l num) with
  | some x => if x.2 = csrOf s { c with entry := 0 } g num l then x.1 else csrOf s c g num l
  | none => csrOf s c g num l

/-- The registers that come later (R33). -/
def slowCsrs : List Nat := [0x040, 0x050, 0x051, 0x052, 0x053, 0x060, 0x063]

/-- R32–R36, R110; how long a debugger's write to a read-only register stands is the model's choice (log entry 62). -/
def Obligations.SpecialRegisterReads : Prop :=
  (∀ d (num : BitVec 12), num.toNat ∉ slowCsrs →
    ResultsS (fun g => .csrr g d num) ⟨[], some (d, csrRegs num)⟩ d (csrRegs num) clsCtrl (fun _ _ _ => True)
      fun s c g l => wordsFrom (csrRegs num) (csrNow s c g num.toNat l)) ∧
  (∀ d (num : BitVec 12), num.toNat ∈ slowCsrs →
    ∀ (s : State) (c : Cur) (g : Guard), CanIssue s c g ⟨[], some (d, csrRegs num)⟩ ownLane →
    ∃ t v, exec (.csrr g d num) s = .next t ∧
      Issued s t c g [chargeOf g clsCtrl 1] (s.iss c g).act.length (v.goOn c.entry s.stamp) ∧
      Began (s.wave c.wid) v (s.iss c g) d (csrRegs num) .csr s.dev.sys.nextId s.stamp
        fun l => (wordsFrom (csrRegs num) (csrNow s c g num.toNat l), 0))

/-- The value that a lane gives a special register: its words as one number. -/
def csrValue (s : State) (c : Cur) (g : Guard) (a : Src) (num : BitVec 12) (l : Nat) : Nat :=
  if csrRegs num = 2 then ((s.wave c.wid).val64 (s.iss c g) a.reg l).toNat
  else ((s.wave c.wid).val (s.iss c g) a.reg l).toNat

/-- The registers of R32 that a program may write. -/
def writable : List Nat := [0x020, 0x021, 0x022, 0x030, 0x032, 0x063, 0x070, 0x071, 0x072]

/-- CSRW can issue: its source is full, and no active lane runs a task that is not the frontier (R308). -/
def CanWriteCsr (s : State) (c : Cur) (g : Guard) (a : Src) (num : BitVec 12) : Prop :=
  CanIssue s c g ⟨[useOf a (csrRegs num) 0], none⟩ ownLane ∧ Irrevocable s c g

/-- A CSRW that changes its wave alone, in the states in which a lane is active. -/
def WritesWave (num : BitVec 12) (f : Wave → Nat → Wave) : Prop :=
  ∀ (s : State) (c : Cur) (g : Guard) (a : Src) (l : Nat), CanWriteCsr s c g a num → (s.iss c g).act.head? = some l →
    ∃ t, exec (.csrw g num a) s = .next t ∧ Issued s t c g [chargeOf g clsCtrl 1] 0
      ((f (s.wave c.wid) (csrValue s c g a num l)).goOn c.entry s.stamp)

/-- The trap registers of a wave's level, with TRAPPC written. -/
def withTrapPc (v : Wave) (x : Nat) : Wave :=
  { v with traps := mput v.traps (if v.tlevel = 0 then 1 else v.tlevel.toNat) { trapRegs v with pc := BitVec.ofNat 56 x } }

/-- R32, R110; the first clause says of every register that CSRW completes. -/
def Obligations.SpecialRegisterWrites : Prop :=
  (∀ (s : State) (c : Cur) (g : Guard) (a : Src) (num : BitVec 12), CanWriteCsr s c g a num →
    (num = 0x020 → (s.wave c.wid).longPending (s.iss c g).act = false) → ∃ t, exec (.csrw g num a) s = .next t ∧
      t.dev.sys.issue = s.dev.sys.issue + 1) ∧
  (∀ (s : State) (c : Cur) (g : Guard) (a : Src) (num : BitVec 12), CanWriteCsr s c g a num →
    (num = 0x020 ∧ (s.wave c.wid).longPending (s.iss c g).act = false ∨ num = 0x021) →
    ∃ t v, exec (.csrw g num a) s = .next t ∧ Issued s t c g [chargeOf g clsCtrl 1] 0 (v.goOn c.entry s.stamp) ∧
      Laned (s.wave c.wid) v (s.iss c g).act fun l x =>
        if num = 0x020 then { x with fpsr := BitVec.ofNat 7 (csrValue s c g a num l) }
        else { x with fpen := BitVec.ofNat 7 (csrValue s c g a num l) }) ∧
  WritesWave 0x022 (fun v x => { v with frm := BitVec.ofNat 2 x }) ∧
  WritesWave 0x030 (fun v x => { v with tvec := BitVec.ofNat 56 (x - x % 8) }) ∧
  WritesWave 0x032 withTrapPc ∧
  WritesWave 0x070 (fun v x => { v with stepctl := x % 2 == 1 }) ∧
  (∀ (s : State) (c : Cur) (g : Guard) (a : Src) (l : Nat), CanWriteCsr s c g a 0x063 →
    (s.iss c g).act.head? = some l →
    ∃ t, exec (.csrw g 0x063 a) s = .next t ∧
      Issued (s.withCtx (s.iss c g).ctx fun x => { x with tasks := { x.tasks with
          age := BitVec.ofNat 32 (max 1024 (csrValue s c g a 0x063 l)) } })
        t c g [chargeOf g clsCtrl 1] 0 ((s.wave c.wid).goOn c.entry s.stamp)) ∧
  (∀ (s : State) (c : Cur) (g : Guard) (a : Src) (l : Nat) (num : BitVec 12), CanWriteCsr s c g a num →
    (s.iss c g).act.head? = some l → num = 0x071 ∨ num = 0x072 →
    let k := (s.iss c g).ctx
    let x := csrValue s c g a num l
    let base := if num = 0x071 then BitVec.ofNat 56 (x - x % 64) else (s.ctx k).pcmbase
    let en := if num = 0x071 then (s.ctx k).pcmen else BitVec.ofNat 16 x
    let w := (s.work.stamp c).modCtx k fun y => { y with pcmbase := base, pcmen := en }
    match w.headRead k base.toNat 256 with
    | .ok bs => ∃ t, exec (.csrw g num a) s = .next t ∧
        Issued (s.withCtx k fun y => { y with pcmbase := base, pcmen := en, pcm := pcmEntries en bs })
          t c g [chargeOf g clsCtrl 1] 0 ((s.wave c.wid).goOn c.entry s.stamp)
    | .error cause => exec (.csrw g num a) s = .next (s.done c g clsCtrl 1
        (((w.modCtx k fun y => { y with pcm := [] }).report 9 cause.toNat 0 base.toNat (Subject.ofCtx k) true).advance
          (s.iss c g)))) ∧
  (∀ (s : State) (c : Cur) (g : Guard) (a : Src) (num : BitVec 12), CanWriteCsr s c g a num →
    num.toNat ∉ writable ∨ num ≠ 0x020 ∧ (s.iss c g).act = [] →
    ∃ t, exec (.csrw g num a) s = .next t ∧ Issued s t c g [chargeOf g clsCtrl 1] 0
      ((s.wave c.wid).goOn c.entry s.stamp))

/-- A producer's outcome in its wave: its values are written, or its registers poisoned, and its flags set in a lane that
lives (R26, R199). -/
structure Completed (v v' : Wave) (idx : Nat) (o : Out) : Prop where
  gone : mget? v'.outs idx = none
  others : ∀ i, i ≠ idx → mget? v'.outs i = mget? v.outs i
  value : ∀ j x, o.dst[j]? = some x → x.1 < 3 → j < o.vals.length → o.dst.Nodup →
    match o.bad with
    | none => v'.rd x = o.vals.getD j 0 ∧ v'.stat x = none
    | some (a, p) => v'.stat x = some (.poison a p)
  keeps : ∀ x, x ∉ o.dst → v'.rd x = v.rd x ∧ v'.stat x = v.stat x
  flags : ∀ l, v'.lane l = if l = o.lane ∧ (v.lane l).alive = true then (v.lane l).flagged o.flags else v.lane l
  rest : v' = { v with
    outs := v'.outs, lanes := v'.lanes, vregs := v'.vregs, vstat := v'.vstat, kregs := v'.kregs, kstat := v'.kstat
    hregs := v'.hregs, hstat := v'.hstat }

/-- An event completes a producer: a response of memory one that reads, answers or acknowledges, unless a link that it came
through retrains (R372); the others those of their kind. -/
def completes (s : State) (i : Instr) (wid idx : Nat) (o : Out) : Prop :=
  i = .loadDataReturn wid idx ∧ o.kind ∈ [.load, .atom, .ack] ∧ s.work.viaHeld o.via = false ∨
    i = .longOpComplete wid idx ∧ o.kind = .long ∨ i = .slowCsrReturn wid idx ∧ o.kind = .csr

/-- R26, R33, R116, R199. -/
def Obligations.ProducersComplete : Prop :=
  (∀ (s : State) (i : Instr) wid idx o, completes s i wid idx o → mget? (s.wave wid).outs idx = some o →
    ∃ v, exec i s = .next (s.withWave wid fun _ => v) ∧ Completed (s.wave wid) v idx o) ∧
  (∀ (s : State) (i : Instr) wid idx, i ∈ [.loadDataReturn wid idx, .longOpComplete wid idx, .slowCsrReturn wid idx] →
    (∀ o, mget? (s.wave wid).outs idx = some o → ¬completes s i wid idx o) → exec i s = .next s)

/-- What one half of a pair writes (R72): its destination, in every active lane, and its flags; a NOP half writes nothing. -/
def HalfWrote (old v v' : Wave) (e : Iss) (h : Half) : Prop :=
  match h.dst with
  | none => v' = v
  | some d => ∃ u, Wrote v u e d 1 (fun l => [(halfOf h old e l).1]) ∧
      Laned u v' e.act fun l x => x.flagged (halfOf h old e l).2
where
  /-- The result of a half, from the registers before the bundle (R71, R72). -/
  halfOf (h : Half) (v : Wave) (e : Iss) (l : Nat) : Word × BitVec 7 :=
    let fl := fun (r : FRes) => (BitVec.ofNat 32 r.1, r.2)
    match h with
    | .nop => (0, 0)
    | .rr op d a =>
      let x := v.val e d l
      let y := v.val e a l
      let fx := fp32.value x.toNat
      let fy := fp32.value y.toNat
      match op with
      | .iadd => (BitVec.ofInt 32 (x.toInt + y.toInt), 0)
      | .isub => (BitVec.ofInt 32 (x.toInt - y.toInt), 0)
      | .imul => (BitVec.ofInt 32 (x.toInt * y.toInt), 0)
      | .and => (x &&& y, 0)
      | .or => (x ||| y, 0)
      | .xor => (x ^^^ y, 0)
      | .mov => (y, 0)
      | .imin => (if x.toInt < y.toInt then x else y, 0)
      | .imax => (if y.toInt < x.toInt then x else y, 0)
      | .fadd => fl (fp32.add .rn fx fy)
      | .fsub => fl (fp32.add .rn fx fy.neg)
      | .fmul => fl (fp32.mul .rn fx fy)
      | .fmin => fl (fp32.minMax false x.toNat y.toNat)
      | .fmax => fl (fp32.minMax true x.toNat y.toNat)
    | .sh op d n =>
      let x := v.val e d l
      match op with
      | .shl => (BitVec.ofNat 32 (x.toNat * 2 ^ n.toNat), 0)
      | .shr => (BitVec.ofNat 32 (x.toNat / 2 ^ n.toNat), 0)
      | .sar => (BitVec.ofInt 32 (x.toInt / 2 ^ n.toNat), 0)
    | .ri op d i =>
      let x := v.val e d l
      match op with
      | .iadd => (BitVec.ofInt 32 (x.toInt + i.toInt), 0)
      | .movi => (BitVec.ofInt 32 i.toInt, 0)
      | .and => (x &&& BitVec.ofNat 32 i.toNat, 0)
      | .or => (x ||| BitVec.ofNat 32 i.toNat, 0)
      | .xor => (x ^^^ BitVec.ofNat 32 i.toNat, 0)
    | .shfl _ a n => (crossOf v e (.v a) (shflFrom .up 32 n.toNat l), 0)

/-- R70–R73. -/
def Obligations.PairBundles : Prop :=
  ∀ (s : State) (c : Cur) (x y : Half), StackOk s c always →
    CanIssue s c always ⟨halfUses x 3 ++ halfUses y 11, none⟩ (pairLane x y) →
    ∃ t u v, exec (.pairBundle x y) s = .next t ∧
      Issued s t c always [(halfClass x, 1), (halfClass y, 1)] 0 (v.goOn c.entry s.stamp) ∧
      HalfWrote (s.wave c.wid) (s.wave c.wid) u (s.iss c always) x ∧
      HalfWrote (s.wave c.wid) u v (s.iss c always) y

/-! ### Memory (07, 08, 10 R198–R212) -/

/-- A lane's address in an explicit space (R69, R198). -/
def eaOf (s : State) (c : Cur) (g : Guard) (a : Src) (off : BitVec 16) (l : Nat) : Nat :=
  ((s.wave c.wid).val (s.iss c g) a.reg l + off.signExtend 32).toNat

/-- Every active lane lives, its access of `n` bytes in an explicit space is aligned and inside what the lane may reach
(R149, R150), and in a space that other lanes share no active lane is speculative (R301). -/
structure InSpace (s : State) (c : Cur) (g : Guard) (sp : Space) (a : Src) (off : BitVec 16) (n : Nat) : Prop where
  explicit : sp ≠ .g
  inside : ∀ l ∈ (s.iss c g).act, ((s.wave c.wid).lane l).alive = true ∧ eaOf s c g a off l % n = 0 ∧
    eaOf s c g a off l + n ≤ s.work.spaceSize (s.iss c g) sp l
  alone : sp = .x ∨ sp = .h → Irrevocable s c g

/-- The memory key of a lane's access in an explicit space. -/
def keyOf (s : State) (c : Cur) (g : Guard) (sp : Space) (a : Src) (off : BitVec 16) (l : Nat) : Nat :=
  s.work.spaceKey (s.iss c g) sp l (eaOf s c g a off l)

/-- The accesses of the active lanes in an explicit space. -/
def acsHere (s : State) (c : Cur) (g : Guard) (sp : Space) (a : Src) (off : BitVec 16) (n : Nat) : List Acs :=
  (s.iss c g).act.map fun l => ⟨l, eaOf s c g a off l, keyOf s c g sp a off l, n, none⟩

/-- Wave `v'` is wave `v` after the active lanes have each begun the producer that `out` gives (R26, R29). -/
structure BeganAs (v v' : Wave) (e : Iss) (first stamp : Nat) (out : Nat → Out) : Prop where
  outs : ∀ j l, e.act[j]? = some l → mget? v'.outs (first + j) = some (out l)
  others : ∀ i, (i < first ∨ first + e.act.length ≤ i) → mget? v'.outs i = mget? v.outs i
  empty : ∀ l ∈ e.act, ∀ x ∈ (out l).dst, x.1 < 3 → v'.stat x = some (.empty e.pc stamp)
  keeps : ∀ x, (∀ l ∈ e.act, x ∉ (out l).dst) → v'.stat x = v.stat x
  rest : v' = { v with outs := v'.outs, vstat := v'.vstat, kstat := v'.kstat, hstat := v'.hstat }

/-- What a load of a lane will deliver: the words of its bytes, or poison over uncorrectable data (R199, R200). -/
def loadOut (s : State) (c : Cur) (g : Guard) (sp : Space) (d : Reg) (regs key n ea : Nat) (f : List Byte → List Word)
    (l : Nat) : Out :=
  ⟨.load, l, (s.iss c g).pc, (s.iss c g).fills (s.wave c.wid) d regs l, f (s.work.bytes key n),
    if s.work.badData key n then some (BitVec.ofNat 64 ea, BitVec.ofNat 3 (spaceCode sp)) else none, 0, ea, none, none⟩

/-- Whether a key is one of `n` bytes from another on. -/
def coversByte (key n k : Nat) : Bool := decide (key ≤ k) && decide (k < key + 8 * n) && k % 8 == key % 8

/-- Byte `i` of a lane's registers from `b` on, the low byte of the first first (R201). -/
def dataByte (v : Wave) (e : Iss) (b : Reg) (l i : Nat) : Byte :=
  BitVec.ofNat 8 ((v.val e (regAt b (i / 4)) l).toNat / 256 ^ (i % 4))

/-- A wave whose lanes have stored up to given offsets of a space: PHIGH follows in lane-private space (R21). -/
def reached (ls : List Nat) (top : Nat → Nat) (sp : Space) (v : Wave) : Wave :=
  match sp with
  | .l => { v with lanes := ls.foldl (fun m l => mmod m l Lane.blank fun y => y.reach (top l)) v.lanes }
  | _ => v

/-- A state whose memory is that of another, with the marks of uncorrectable data gone where some lanes store. -/
def storedState (s t : State) (ls : List Nat) (key : Nat → Nat) (n : Nat) : State :=
  ⟨t.mem, { s.dev with bad := s.dev.bad.filter fun k => !ls.any fun l => coversByte (key l) n k }⟩

/-- R200, R201. That the poison keeps the access's own address is read by inference (log entry 35: DEDUCED), and that stored
bytes are correctable again is the model's choice (log entry 88). -/
def Obligations.LoadsAndStoresInSpaces : Prop :=
  (∀ (s : State) (c : Cur) (g : Guard) d a wd sp off,
    CanIssue s c g ⟨[useOf a 1 0], some (d, wd.regs)⟩ ownLane → InSpace s c g sp a off (widthBytes wd) →
    ∃ t v, exec (.ld g d a wd sp off) s = .next t ∧
      Issued s t c g [chargeOf g clsLd (sectorCount (acsHere s c g sp a off (widthBytes wd)))]
        (s.iss c g).act.length (v.goOn c.entry s.stamp) ∧
      BeganAs (s.wave c.wid) v (s.iss c g) s.dev.sys.nextId s.stamp fun l =>
        loadOut s c g sp d wd.regs (keyOf s c g sp a off l) (widthBytes wd) (eaOf s c g a off l) (loadWords wd) l) ∧
  (∀ (s : State) (c : Cur) (g : Guard) a b wd sp off, Safe s →
    CanIssue s c g ⟨[useOf a 1 0, useOf b wd.regs 1], none⟩ ownLane → InSpace s c g sp a off (widthBytes wd) →
    ∃ t, exec (.st g a b wd sp off) s = .next t ∧
      Issued (storedState s t (s.iss c g).act (keyOf s c g sp a off) (widthBytes wd)) t c g
        [chargeOf g clsSt (sectorCount (acsHere s c g sp a off (widthBytes wd)))] 0
        ((reached (s.iss c g).act (fun l => eaOf s c g a off l + widthBytes wd) sp (s.wave c.wid)).goOn c.entry s.stamp) ∧
      ∀ k, t.byte k =
        match (s.iss c g).act.reverse.find? fun l => coversByte (keyOf s c g sp a off l) (widthBytes wd) k with
        | some l => dataByte (s.wave c.wid) (s.iss c g) b.reg l ((k - keyOf s c g sp a off l) / 8)
        | none => s.byte k)

/-- The checks of the active lanes' accesses, made one after the other from the stamped state (R150): the outcomes, and the
state with what the checks filled. -/
def aimsOf (s : State) (c : Cur) (g : Guard) (f : Work → Nat → (Motion × Acs) × Work) : List (Motion × Acs) × Work :=
  (s.work.stamp c).aims (s.iss c g).act f

/-- The check of one lane's access. -/
def aimOf (s : State) (c : Cur) (g : Guard) (sp : Space) (acc : Acc) (n : Nat) (a : Src) (off : BitVec 16) (w : Work)
    (l : Nat) : (Motion × Acs) × Work :=
  w.aim (s.iss c g) sp acc n n l ((s.wave c.wid).ea (s.iss c g) sp a.reg off l)

/-- What a bundle leaves whose accesses have been performed one after the other, from the lowest lane up. -/
def performed (s : State) (c : Cur) (g : Guard) (sp : Space) (cls units : Nat) (r : List (Motion × Acs) × Work)
    (one : Work → Acs → Work) : State :=
  s.done c g cls units
    (((r.1.map (·.2)).foldl one (settled c (s.iss c g) sp r)).advance (s.iss c g))

/-- Gives and takes the completion bits of lanes. -/
def cbDone (cb : BitVec 2) (ls : List Nat) (b : Bool) (v : Wave) : Wave := ls.foldl (fun v l => v.setCb cb l b) v

/-- R200–R203 in every form whose checks pass. -/
def Obligations.MemoryAccesses : Prop :=
  (∀ (s : State) (c : Cur) (g : Guard) d a wd sp off,
    CanIssue s c g ⟨[addrUse a sp], some (d, wd.regs)⟩ ownLane →
    let r := aimsOf s c g (aimOf s c g sp .r (widthBytes wd) a off)
    GoesAhead c (s.iss c g) sp false false r →
    exec (.ld g d a wd sp off) s = .next (performed s c g sp clsLd (sectorCount (r.1.map (·.2))) r
      fun w x => w.loadLane (s.iss c g) sp d wd.regs (loadWords wd) x)) ∧
  (∀ (s : State) (c : Cur) (g : Guard) a b wd sp off,
    CanIssue s c g ⟨[addrUse a sp, useOf b wd.regs 1], none⟩ ownLane →
    let r := aimsOf s c g (aimOf s c g sp .w (widthBytes wd) a off)
    GoesAhead c (s.iss c g) sp false true r →
    exec (.st g a b wd sp off) s = .next (performed s c g sp clsSt (sectorCount (r.1.map (·.2))) r
      fun w x => w.storeLane (s.iss c g) sp x ((s.wave c.wid).storeData (s.iss c g) b.reg wd x.lane))) ∧
  (∀ (s : State) (c : Cur) (g : Guard) d a wd off,
    CanIssue s c g ⟨[addrUse a .g], some (d, wd.regs)⟩ ownLane →
    let r := aimsOf s c g fun w l =>
      let x := aimOf s c g .g .r (widthBytes wd) a off w l
      (x.2.plainLine x.1, x.2)
    (∀ x ∈ r.1, x.1 = .ok) →
    r.2.anySpeculative c.wid (((r.1.map (·.2)).filter (r.2.irrevocable .g false)).map (·.lane)) = [] →
    ∃ t, exec (.ldr g d a wd off) s = .next t ∧ t.mem = s.mem ∧
      ∀ j x, r.1[j]? = some x → ∃ o, mget? (t.wave c.wid).outs (s.dev.sys.nextId + j) = some o ∧ o.kind = .load ∧
        o.lane = x.2.lane ∧ o.pc = (s.iss c g).pc ∧ o.dst = (s.iss c g).fills (s.wave c.wid) d wd.regs x.2.lane) ∧
  (∀ (s : State) (c : Cur) (g : Guard) d a wd sp off cb,
    CanIssue s c g ⟨[addrUse a sp], some (d, wd.regs)⟩ ownLane →
    let todo := (s.iss c g).act.filter fun l => !(s.wave c.wid).cbBit cb l
    let r := (s.work.stamp c).aims todo (aimOf s c g sp .r (widthBytes wd) a off)
    GoesAhead c (s.iss c g) sp false false r →
    exec (.gath g d a wd sp off cb) s = .next (s.done c g clsLd (sectorCount (r.1.map (·.2)))
      ((((r.1.map (·.2)).foldl (fun w x => (w.loadLane (s.iss c g) sp d wd.regs (loadWords wd) x).modWave c.wid
        fun v => v.setCb cb x.lane true) (settled c (s.iss c g) sp r)).modWave c.wid
          (cbDone cb (s.iss c g).act false)).advance (s.iss c g)))) ∧
  (∀ (s : State) (c : Cur) (g : Guard) a b wd sp off cb,
    CanIssue s c g ⟨[addrUse a sp, useOf b wd.regs 1], none⟩ ownLane →
    let todo := (s.iss c g).act.filter fun l => !(s.wave c.wid).cbBit cb l
    let r := (s.work.stamp c).aims todo (aimOf s c g sp .w (widthBytes wd) a off)
    GoesAhead c (s.iss c g) sp false false r → (∀ x ∈ r.1, r.2.pastWriteSet (s.iss c g) x.2 = false) →
    exec (.scat g a b wd sp off cb) s = .next (s.done c g clsSt (sectorCount (r.1.map (·.2)))
      ((((r.1.map (·.2)).foldl (fun w x =>
        (w.storeLane (s.iss c g) sp x ((s.wave c.wid).storeData (s.iss c g) b.reg wd x.lane)).modWave c.wid
          fun v => v.setCb cb x.lane true) (settled c (s.iss c g) sp r)).modWave c.wid
            (cbDone cb (s.iss c g).act false)).advance (s.iss c g))))

/-- A lane's access stores to the byte at a key: one to a doorbell page rings a doorbell and stores nothing (R319, log entry
97). -/
def storesTo (s : State) (n k : Nat) (x : Acs) : Bool :=
  coversByte x.key n k && x.phys.all fun p => decide (p.kind ≠ 2) || (s.work.bellAt p.pa).isNone

/-- R201 and R336 in global memory: where a store goes, and nowhere else. -/
def Obligations.GlobalStores : Prop :=
  ∀ (s : State) (c : Cur) (g : Guard) a b wd off, Safe s →
    CanIssue s c g ⟨[addrUse a .g, useOf b wd.regs 1], none⟩ ownLane →
    let r := aimsOf s c g (aimOf s c g .g .w (widthBytes wd) a off)
    GoesAhead c (s.iss c g) .g false true r →
    (∀ l ∈ (s.iss c g).act, ((s.wave c.wid).lane l).alive = true ∧ ((s.wave c.wid).lane l).ordered = none) →
    (∀ x ∈ s.dev.ctxs, x.2.tasks.deps = []) →
    ∃ t, exec (.st g a b wd .g off) s = .next t ∧
      (∀ k, (∀ x ∈ r.1, ∀ p, x.2.phys = some p → k ≠ (PAddr.hbm p.at_).key) →
        t.byte k = match (r.1.map (·.2)).reverse.find? (storesTo s (widthBytes wd) k) with
          | some x => dataByte (s.wave c.wid) (s.iss c g) b.reg x.lane ((k - x.key) / 8)
          | none => s.byte k) ∧
      ∀ k, (∀ x ∈ r.1, storesTo s (widthBytes wd) k x.2 = false) →
        t.byte k = if ∃ x ∈ r.1, ∃ p, x.2.phys = some p ∧ k = (PAddr.hbm p.at_).key ∧ p.leaf.getLsbD 5 = false
          then s.byte k ||| 0x20 else s.byte k

/-! ### Atomics, fences, colours and allocation (08 R162–R177, 10 R204–R214) -/

/-- The uses of an atomic: address, operand, compare value (R205). -/
def atomUses (a b : Src) (cmp : Option Src) (b64 : Bool) (sp : Space) : List Use :=
  [addrUse a sp, useOf b (if b64 then 2 else 1) 1] ++ (match cmp with
    | some x => [useOf x (if b64 then 2 else 1) 2]
    | none => [])

/-- A lane's operand of an atomic, as a number. -/
def atomOpd (s : State) (c : Cur) (g : Guard) (b64 : Bool) (r : Reg) (l : Nat) : Nat :=
  if b64 then ((s.wave c.wid).val64 (s.iss c g) r l).toNat else ((s.wave c.wid).val (s.iss c g) r l).toNat

/-- What an atomic leaves in memory (R205): `n` bits, `m` what stood there, `v` the operand, `x` the compare value. -/
def atomNew (op : AOp) (n m v x : Nat) : Nat :=
  let signed := fun (y : Nat) => if 2 ^ (n - 1) ≤ y then (y : Int) - 2 ^ n else (y : Int)
  match op with
  | .add => (m + v) % 2 ^ n
  | .min => if signed v < signed m then v else m
  | .max => if signed m < signed v then v else m
  | .minu => if v < m then v else m
  | .maxu => if m < v then v else m
  | .and => m &&& v
  | .or => m ||| v
  | .xor => m ^^^ v
  | .exch => v
  | .cas => if m = x then v else m
  | .fadd => if n = 64 then (fp64.add .rn (fp64.value m) (fp64.value v)).1 else (fp32.add .rn (fp32.value m) (fp32.value v)).1

/-- One active lane's atomic in an explicit space (R205, R206): the bytes are replaced, nothing else is, and with a
destination the old value is on its way. -/
def AtomHere (s t : State) (c : Cur) (g : Guard) (op : AOp) (d : Option Reg) (a b : Src) (cmp : Option Src) (b64 : Bool)
    (sp : Space) (l : Nat) : Prop :=
  let n := if b64 then 8 else 4
  let key := keyOf s c g sp a 0 l
  let old := s.work.num key n
  let new := atomNew op (8 * n) old (atomOpd s c g b64 b.reg l) ((cmp.map fun x => atomOpd s c g b64 x.reg l).getD 0)
  (∀ k, t.byte k = if coversByte key n k then BitVec.ofNat 8 (new / 256 ^ ((k - key) / 8)) else s.byte k) ∧
    t.dev.bad = s.dev.bad.filter (fun k => !coversByte key n k) ∧
    match d with
    | none => t.wave c.wid = ((s.wave c.wid).goOn c.entry s.stamp).settle
    | some d => ∃ v, t.wave c.wid = (v.goOn c.entry s.stamp).settle ∧
        BeganAs (s.wave c.wid) v (s.iss c g) s.dev.sys.nextId s.stamp
          (loadOut s c g sp d (n / 4) key n (eaOf s c g a 0 l) fun bs => wordsFrom (n / 4) (leNat bs))

/-- Every write of the active lanes to host or peer memory has been acknowledged (R353, R372). -/
def Acked (s : State) (c : Cur) (g : Guard) : Prop := (s.wave c.wid).unacked (s.iss c g).act = false

/-- The check of an atomic in a lane (R150, R207). -/
def aimAtom (s : State) (c : Cur) (g : Guard) (op : AOp) (b64 : Bool) (sp : Space) (a : Src) (w : Work) (l : Nat) :
    (Motion × Acs) × Work :=
  w.aimAtomic (s.iss c g) op sp (if b64 then 8 else 4) l ((s.wave c.wid).ea (s.iss c g) sp a.reg 0 l)

/-- One lane's ATOM where it goes ahead, the lanes before it done (R205, R206): the bytes are replaced at their point of
coherence, a producer begins with what stood there, and an acquire drops the L1 copies that its scope, or the location's (R180),
reaches. -/
def atomOne (s : State) (c : Cur) (g : Guard) (op : AOp) (d : Reg) (b : Src) (cmp : Option Src) (b64 acq : Bool) (scope : Scope)
    (sp : Space) (w : Work) (x : Acs) : Work :=
  let e := s.iss c g
  let k := if b64 then 2 else 1
  if w.lives e x then
    let r := w.atomLane e x fun m => atomValue op (32 * k) m (atomOpd s c g b64 b.reg x.lane)
      ((cmp.map fun y => atomOpd s c g b64 y.reg x.lane).getD 0)
    let u := r.2.begin_ e ⟨if x.ext then .atom else .load, x.lane, e.pc, e.fills (s.wave c.wid) d k x.lane,
      wordsFrom k r.1.1, if r.1.2 then some (BitVec.ofNat 64 x.ea, BitVec.ofNat 3 (spaceCode sp)) else none, 0, x.ea, x.via,
      if x.ext then some (r.2.undoOf w x) else none⟩
    if acq then u.acquire e.core (narrower scope (u.widestScope sp x)) else u
  else w

/-- R205–R207. The poison's address is read by inference (log entry 35: DEDUCED); what an atomic over uncorrectable bytes does
and leaves is the model's choice (log entry 88: DESIGN CHOICE). -/
def Obligations.Atomics : Prop :=
  (∀ (s : State) (c : Cur) (g : Guard) op d a b cmp b64 scope ord sp l, Safe s →
    CanIssue s c g ⟨atomUses a b cmp b64 sp, some (d, if b64 then 2 else 1)⟩ ownLane → (s.iss c g).act = [l] →
    InSpace s c g sp a 0 (if b64 then 8 else 4) →
    ∃ t, exec (.atom g op d a b cmp b64 scope ord sp) s = .next t ∧ AtomHere s t c g op (some d) a b cmp b64 sp l) ∧
  (∀ (s : State) (c : Cur) (g : Guard) op a b b64 scope rel sp l, Safe s →
    CanIssue s c g ⟨atomUses a b none b64 sp, none⟩ ownLane → (s.iss c g).act = [l] →
    InSpace s c g sp a 0 (if b64 then 8 else 4) →
    ∃ t, exec (.red g op a b b64 scope rel sp) s = .next t ∧ AtomHere s t c g op none a b none b64 sp l) ∧
  (∀ (s : State) (c : Cur) (g : Guard) op a b b64 scope rel sp,
    CanIssue s c g ⟨atomUses a b none b64 sp, none⟩ ownLane →
    let r := aimsOf s c g (aimAtom s c g op b64 sp a)
    GoesAhead c (s.iss c g) sp true true r → (rel = true → scope = .system → Acked s c g) →
    exec (.red g op a b b64 scope rel sp) s = .next (performed s c g sp clsAtom r.1.length r fun w x =>
      if w.lives (s.iss c g) x then (w.atomLane (s.iss c g) x fun m =>
        atomValue op (if b64 then 64 else 32) m (atomOpd s c g b64 b.reg x.lane) 0).2.awaitAck w (s.iss c g) x false
      else w)) ∧
  (∀ (s : State) (c : Cur) (g : Guard) op d a b cmp b64 scope ord sp,
    CanIssue s c g ⟨atomUses a b cmp b64 sp, some (d, if b64 then 2 else 1)⟩ ownLane →
    let r := aimsOf s c g (aimAtom s c g op b64 sp a)
    GoesAhead c (s.iss c g) sp true true r → (ord = .rel ∨ ord = .acqrel → scope = .system → Acked s c g) →
    exec (.atom g op d a b cmp b64 scope ord sp) s = .next (performed s c g sp clsAtom r.1.length r
      (atomOne s c g op d b cmp b64 (ord == .acq || ord == .acqrel) scope sp)))

/-- R204, R208, R209. -/
def Obligations.FencesAndPrefetch : Prop :=
  (∀ (s : State) (c : Cur) (g : Guard) kind scope, CanIssue s c g ⟨[], none⟩ ownLane →
    (kind ≠ .acq → scope = .system → Acked s c g) →
    ∃ t, exec (.fence g kind scope) s = .next t ∧
      Issued (if (s.iss c g).act ≠ [] ∧ kind ≠ .rel ∧ scope ≠ .wave ∧ scope ≠ .block then
          s.withCore (s.iss c g).core fun k => { k with l1 := k.l1.filter fun x => x.2.colour ≠ 0 } else s)
        t c g [chargeOf g clsCtrl 1] 0 ((s.wave c.wid).goOn c.entry s.stamp)) ∧
  (∀ (s : State) (c : Cur) (g : Guard), CanIssue s c g ⟨[], none⟩ ownLane → Irrevocable s c g →
    ∃ t, exec (.ifence g) s = .next t ∧
      Issued (if (s.iss c g).act ≠ [] then s.withCore (s.iss c g).core fun k => { k with icache := [], fbufs := [] } else s)
        t c g [chargeOf g clsCtrl 1] 0 ((s.wave c.wid).goOn c.entry s.stamp)) ∧
  (∀ (s : State) (c : Cur) (g : Guard), CanIssue s c g ⟨[], none⟩ ownLane → Irrevocable s c g →
    ∃ t, exec (.roinv g) s = .next t ∧
      Issued (if (s.iss c g).act ≠ [] then s.withCore (s.iss c g).core fun k => { k with ro := [] } else s)
        t c g [chargeOf g clsCtrl 1] 0 ((s.wave c.wid).goOn c.entry s.stamp)) ∧
  (∀ (s : State) (c : Cur) (g : Guard) a l2 off, CanIssue s c g ⟨[addrUse a .g], none⟩ ownLane →
    ∃ t, exec (.pref g a l2 off) s = .next t ∧ t.mem = s.mem ∧
      t.wave c.wid = ((s.wave c.wid).goOn c.entry s.stamp).settle ∧
      (∀ j, j ≠ c.wid → mget? t.dev.waves j = mget? s.dev.waves j) ∧ t.dev.tags = s.dev.tags ∧
      t.dev.blocks = s.dev.blocks)

/-- The word of MONQ (R212): WAITERS from bit 13, HOLDER IN WAVE, CLAIMED, HELD and MINE in bits 3 to 0; 0 for colour 0. -/
def monOf (s : State) (c : Cur) (g : Guard) (a : Src) (l : Nat) : Word :=
  let k := BitVec.ofNat 12 ((s.wave c.wid).val (s.iss c g) a.reg l).toNat
  let m := (s.ctx (s.iss c g).ctx).mon k
  let held := match m.holder with
    | some h => h.wid == c.wid
    | none => false
  if k = 0 then 0
  else BitVec.ofNat 32 (8192 * m.queue.length + (if held then 8 else 0) + (if m.claim.isSome then 4 else 0) +
    (if m.holder.isSome then 2 else 0) + if ((s.wave c.wid).lane l).held.any (fun h => h.2 == k) then 1 else 0)

/-- The check of CLRGET in a lane. -/
def aimClrget (s : State) (c : Cur) (g : Guard) (a : Src) (off : BitVec 16) (w : Work) (l : Nat) : (Motion × Acs) × Work :=
  w.aim (s.iss c g) .g .r 1 1 l ((s.wave c.wid).ea (s.iss c g) .g a.reg off l)

/-- The checks of CLRSET in its active lanes, one after the other. -/
def aimsClrset (s : State) (c : Cur) (g : Guard) (a b n : Src) : List (Motion × Recolour) × Work :=
  (s.iss c g).act.foldl (fun (r : List (Motion × Recolour) × Work) l =>
    let x := r.2.aimClr (s.iss c g) l ((s.wave c.wid).val64 (s.iss c g) a.reg l).toNat
      ((s.wave c.wid).val (s.iss c g) n.reg l).toNat (((s.wave c.wid).val (s.iss c g) b.reg l).setWidth 12)
    (r.1 ++ [x.1], x.2)) ([], s.work.stamp c)

/-- The line of HBM that a lane of CLRSET recolours, if any. -/
def recolours (r : Recolour) (line : Nat) : Bool :=
  match r.phys with
  | some p => p.kind = 0 && decide (p.pa / 128 ≤ line) && decide (line < p.pa / 128 + r.n)
  | none => false

/-- R210–R212. -/
def Obligations.Colours : Prop :=
  (∀ (s : State) (c : Cur) (g : Guard) d a off, (Instr.clrget g d a off).wf = true → StackOk s c g →
    CanIssue s c g ⟨[addrUse a .g], some (d, 1)⟩ ownLane →
    (∀ x ∈ (aimsOf s c g (aimClrget s c g a off)).1, x.1 = .ok) →
    ∃ (t : State) (v : Wave), exec (.clrget g d a off) s = .next t ∧
      t.wave c.wid = (v.goOn c.entry s.stamp).settle ∧ t.mem = s.mem ∧
      Wrote (s.wave c.wid) v (s.iss c g) d 1 fun l =>
        [((((aimsOf s c g (aimClrget s c g a off)).1.find? fun x => x.2.lane == l).map fun x =>
          s.work.tagOf x.2).getD 0).setWidth 32]) ∧
  (∀ d a, ResultsS (fun g => .monq g d a) ⟨[useOf a 1 0], some (d, 1)⟩ d 1 clsCtrl (fun _ _ _ => True)
    fun s c g l => [monOf s c g a l]) ∧
  (∀ (s : State) (c : Cur) (g : Guard) a b n, CanIssue s c g ⟨[useOf a 2 0, useOf b 1 1, useOf n 1 2], none⟩ ownLane →
    Irrevocable s c g →
    let r := aimsClrset s c g a b n
    (∀ x ∈ r.1, x.1 = .ok) →
    (∀ x ∈ r.2.clrClassify (s.iss c g) (r.1.map (·.2)), x.waits = none ∧ x.enters = [] ∧ x.out = .ok) →
    ∃ t, exec (.clrset g a b n) s = .next t ∧
      t.wave c.wid = ((s.wave c.wid).goOn c.entry s.stamp).settle ∧
      (∀ line, mget t.dev.tags line 0 =
        match (r.1.map (·.2)).reverse.find? fun x => recolours x line with
        | some x => x.new
        | none => mget s.dev.tags line 0) ∧
      (∀ core x, x ∈ (t.core core).l1 → ∀ y ∈ r.1, recolours y.2 (x.1 / 8) = false) ∧
      (∀ k, (∀ y ∈ r.1, ∀ p, y.2.phys = some p → k ≠ (PAddr.hbm p.at_).key) → t.byte k = s.byte k))

/-- R213, R214. -/
def Obligations.Allocation : Prop :=
  (∀ (s : State) (c : Cur) (g : Guard) d a pg, CanIssue s c g ⟨[useOf a 1 0], some (d, 2)⟩ ownLane → Irrevocable s c g →
    ∀ xs w, (s.work.stamp c).allocLanes (s.iss c g).ctx (pageLevel pg)
      (fun l => ((s.wave c.wid).val (s.iss c g) a.reg l).toNat) (s.iss c g).act = (some xs, w) →
    exec (.alloc g d a pg) s = .next (s.done c g clsCtrl 1 ((w.modWave c.wid fun v => v.putAll (s.iss c g) d fun l =>
      wordsFrom 2 (mget xs l 0 % 2 ^ 64)).advance (s.iss c g)))) ∧
  (∀ d a pg, ResultsS (fun g => .alloc g d a pg) ⟨[useOf a 1 0], some (d, 2)⟩ d 2 clsCtrl
    (fun s c g => Irrevocable s c g ∧ ∀ l ∈ (s.iss c g).act,
      let bytes := ((s.wave c.wid).val (s.iss c g) a.reg l).toNat
      bytes = 0 ∨ (s.ctx (s.iss c g).ctx).rec_.q < (s.ctx (s.iss c g).ctx).mem.quotaUsed +
        roundUp bytes (2 ^ pageBits (pageLevel pg)) ∨ 1048576 ≤ (s.ctx (s.iss c g).ctx).mem.allocs.length)
    fun _ _ _ _ => [0, 0]) ∧
  (∀ (s : State) (c : Cur) (g : Guard) a, CanIssue s c g ⟨[useOf a 2 0], none⟩ ownLane → Irrevocable s c g →
    (∀ l ∈ (s.iss c g).act, ((s.wave c.wid).val64 (s.iss c g) a.reg l) = 0 ∨
      ∃ x ∈ (s.ctx (s.iss c g).ctx).mem.allocs, x.va = ((s.wave c.wid).val64 (s.iss c g) a.reg l).toNat) →
    ∃ t, exec (.free g a) s = .next t ∧ t.wave c.wid = ((s.wave c.wid).goOn c.entry s.stamp).settle ∧
      (t.ctx (s.iss c g).ctx).mem.allocs = (s.ctx (s.iss c g).ctx).mem.allocs.filter fun x =>
        !(s.iss c g).act.any fun l => x.va == ((s.wave c.wid).val64 (s.iss c g) a.reg l).toNat)

/-! ### Waiting and barriers (10 R215–R222) -/

/-- A state with one barrier register of the split's block changed. -/
def withBar (s : State) (c : Cur) (g : Guard) (bn : BitVec 4) (x : Barrier) : State :=
  s.withBlock (s.iss c g).bid fun k => { k with bars := mput k.bars bn.toNat x }

/-- A barrier register of the split's block. -/
def barOf (s : State) (c : Cur) (g : Guard) (bn : BitVec 4) : Barrier :=
  mget (s.block (s.iss c g).bid).bars bn.toNat Barrier.blank

/-- The mask and the engine count that BARI gives: those of its immediate, or of its register in the lowest active lane. -/
def bariArgs (s : State) (c : Cur) (g : Guard) (o : BariOpd) (l : Nat) : BitVec 16 × Nat :=
  match o with
  | .imm m n => (m, n.toNat)
  | .reg a => (((s.wave c.wid).val (s.iss c g) a.reg l).setWidth 16,
      ((s.wave c.wid).val (s.iss c g) a.reg l).toNat / 65536 % 256)

/-- The uses of BARI. -/
def bariUses (o : BariOpd) : List Use :=
  match o with
  | .reg a => [useOf a 1 0]
  | .imm _ _ => []

/-- The bit of the split's wave in a member mask. -/
def waveBit (s : State) (c : Cur) : BitVec 16 := 1#16 <<< (s.wave c.wid).widx

/-- BARA may arrive: the barrier is initialised and the wave a member (R220). -/
def mayArrive (s : State) (c : Cur) (g : Guard) (bn : BitVec 4) : Prop :=
  (barOf s c g bn).init = true ∧ (barOf s c g bn).members &&& waveBit s c ≠ 0

/-- A barrier register behind the completion of its phase by the last arrival, with no engine arrival held (R190, R221): the
members that departed are gone, PHASE is flipped, and ERR has moved to LASTERR. -/
def nextPhase (b : Barrier) : Barrier :=
  let m := b.members &&& ~~~b.gone
  let n := popcount m + b.eng
  { b with
    members := m, expected := n, init := n != 0, phase := !b.phase, lastErr := b.err, err := false, arrived := 0, wavesIn := 0
    engIn := 0, gone := 0, lastWide := b.wide, wide := false }

/-- A bundle's BARA is the arrival that its phase waits for, of a block that stands on the core, and no wave is parked at a
WAIT or BARA.w. -/
structure LastArrival (s : State) (c : Cur) (g : Guard) (bn : BitVec 4) : Prop where
  member : mayArrive s c g bn ∧ (s.iss c g).act ≠ []
  new : (barOf s c g bn).wavesIn &&& waveBit s c = 0
  last : (barOf s c g bn).arrived + 1 = (barOf s c g bn).expected
  none_ : (barOf s c g bn).heldArr = []
  here : (s.block (s.iss c g).bid).core = some (s.iss c g).core
  quiet : ∀ w ∈ s.dev.waves, ∀ x ∈ w.2.splits, x.wait = none

/-- R218–R221. -/
def Obligations.Barriers : Prop :=
  (∀ (s : State) (c : Cur) (g : Guard) bn o l, CanIssue s c g ⟨bariUses o, none⟩ ownLane →
    (s.iss c g).act.head? = some l → (barOf s c g bn).arrived = 0 → (barOf s c g bn).pend = 0 →
    let m := (bariArgs s c g o l).1 &&& s.work.livingWaves (s.iss c g).bid
    let n := popcount m + (bariArgs s c g o l).2
    n ≠ 0 →
    ∃ t, exec (.bari g bn o) s = .next t ∧
      Issued (withBar s c g bn { barOf s c g bn with
          members := m, eng := (bariArgs s c g o l).2, expected := n, arrived := 0, wavesIn := 0, err := false, init := true
          engIn := 0, gone := 0, wide := false })
        t c g [chargeOf g clsCtrl 1] 0 ((s.wave c.wid).goOn c.entry s.stamp)) ∧
  (∀ (s : State) (c : Cur) (g : Guard) d bn, (Instr.bara g d bn false).wf = true → StackOk s c g →
    CanIssue s c g ⟨[], some (d, 1)⟩ ownLane → mayArrive s c g bn → (s.iss c g).act ≠ [] →
    (barOf s c g bn).wavesIn &&& waveBit s c = 0 → (barOf s c g bn).arrived + 1 ≠ (barOf s c g bn).expected →
    ∃ t v, exec (.bara g d bn false) s = .next t ∧
      Issued (withBar s c g bn { barOf s c g bn with
          wavesIn := (barOf s c g bn).wavesIn ||| waveBit s c, arrived := (barOf s c g bn).arrived + 1 })
        t c g [chargeOf g clsCtrl 1] 0 (v.goOn c.entry s.stamp) ∧
      Wrote (s.wave c.wid) v (s.iss c g) d 1 fun _ =>
        [BitVec.ofNat 32 ((if (barOf s c g bn).phase then 1 else 0) + if (barOf s c g bn).err then 2 else 0)]) ∧
  (∀ d bn, ResultsS (fun g => .bara g d bn false) ⟨[], some (d, 1)⟩ d 1 clsCtrl
    (fun s c g => mayArrive s c g bn ∧ (s.iss c g).act ≠ [] ∧ (barOf s c g bn).wavesIn &&& waveBit s c ≠ 0)
    fun s c g _ => [BitVec.ofNat 32 ((if (barOf s c g bn).phase then 1 else 0) + if (barOf s c g bn).err then 2 else 0)]) ∧
  (∀ (s : State) (c : Cur) (g : Guard) d bn, (Instr.bara g d bn false).wf = true → StackOk s c g →
    CanIssue s c g ⟨[], some (d, 1)⟩ ownLane → LastArrival s c g bn →
    ∃ t v, exec (.bara g d bn false) s = .next t ∧
      Issued (withBar s c g bn (nextPhase (barOf s c g bn))) t c g [chargeOf g clsCtrl 1] 0 (v.goOn c.entry s.stamp) ∧
      Wrote (s.wave c.wid) v (s.iss c g) d 1 fun _ => [BitVec.ofNat 32 (if (barOf s c g bn).phase then 1 else 0)]) ∧
  (∀ (s : State) (c : Cur) (g : Guard) d bn, (Instr.bara g d bn true).wf = true → StackOk s c g →
    CanIssue s c g ⟨[], some (d, 1)⟩ ownLane → LastArrival s c g bn →
    let s' := withBar s c g bn (nextPhase (barOf s c g bn))
    ∃ t v, exec (.bara g d bn true) s = .next t ∧
      Issued (if (barOf s c g bn).wide then
          s'.withCore (s.iss c g).core fun k => { k with l1 := k.l1.filter fun x => x.2.colour ≠ 0 } else s')
        t c g [chargeOf g clsCtrl 1] 0 (v.goOn c.entry s.stamp) ∧
      Wrote (s.wave c.wid) v (s.iss c g) d 1 fun _ =>
        [BitVec.ofNat 32 ((if (barOf s c g bn).phase then 1 else 0) + if (barOf s c g bn).err then 2 else 0)]) ∧
  (∀ (s : State) (c : Cur) (g : Guard) d bn, CanIssue s c g ⟨[], some (d, 1)⟩ ownLane → mayArrive s c g bn →
    (s.iss c g).act ≠ [] → (barOf s c g bn).wavesIn &&& waveBit s c = 0 →
    (barOf s c g bn).arrived + 1 ≠ (barOf s c g bn).expected →
    ∃ t, exec (.bara g d bn true) s = .next t ∧
      Issued (withBar s c g bn { barOf s c g bn with
          wavesIn := (barOf s c g bn).wavesIn ||| waveBit s c, arrived := (barOf s c g bn).arrived + 1 })
        t c g [chargeOf g clsCtrl 1] 1
        ((s.wave c.wid).setSplit c.entry { (s.wave c.wid).split c.entry with
          state := .parked, reason := .wait, parkedAt := s.dev.sys.nextId, lastIssue := s.stamp, resumed := false
          wait := some ⟨true, [(0, .bar bn (barOf s c g bn).phase)], 0, true, none, d, maskOf (s.iss c g).act, 0, false⟩ }))

/-- R222: a barrier read without arriving. -/
def Obligations.BarrierQueries : Prop :=
  (∀ (g : Guard) (d : Reg) (bn : BitVec 4) (w : BitVec 64), decode w = .ok (.barq g d bn) ↔
    w = 0#2 ++ 0xA3#8 ++ BitVec.ofBool g.neg ++ g.p ++ d.spec ++ 0#2 ++ bn ++ 0#38) ∧
  (∀ d bn, ResultsS (fun g => .barq g d bn) ⟨[], some (d, 1)⟩ d 1 clsCtrl (fun _ _ _ => True)
    fun s c g _ =>
      let b := barOf s c g bn
      let bit := fun (x : Bool) (n : Nat) => if x then 2 ^ n else 0
      [BitVec.ofNat 32 (bit b.phase 0 + bit b.err 1 + bit b.lastErr 2 + bit b.init 3 + bit (b.pend != 0) 4 +
        b.arrived * 2 ^ 8 + b.expected * 2 ^ 20)])

/-- The conditions of WAIT's descriptors, checked one after the other for the lowest active lane (R216). -/
def condsOf (s : State) (c : Cur) (g : Guard) (ds : List Desc) (l : Nat) : List (Bool × Motion × Option Cond) × Work :=
  ds.foldl (fun (r : List (Bool × Motion × Option Cond) × Work) d =>
    let x := r.2.condOf (s.iss c g) l d
    (r.1 ++ [x.1], x.2)) ([], s.work.stamp c)

/-- The wait that a WAIT makes: its conditions by index, and its deadline (R217). -/
def waitOf (s : State) (c : Cur) (g : Guard) (d : Reg) (n : VSrc) (all : Bool)
    (xs : List (Bool × Motion × Option Cond)) : WaitRec :=
  let t := ((s.wave c.wid).kWord (s.iss c g) n.n).toNat
  ⟨false, xs.zipIdx.filterMap fun x => x.1.2.2.map fun y => (x.2, y), 0, all,
    if t = 0 then none else some (s.dev.sys.gtick + BitVec.ofNat 64 t), d, maskOf (s.iss c g).act, 0, false⟩

/-- The split `x` of a wave has left its wait `r` with a result (R135, R217): the result stands in the active lanes, every
split that stood as it did is READY at PC + 8, and nothing else of the wave changes. -/
def LeftWait (s : State) (wid : Nat) (x : Split) (r : WaitRec) (y : Word) (v : Wave) : Prop :=
  ∃ u, Wrote (s.wave wid) u (s.work.issOf wid 0 x ((lanesOf r.lanes).filter fun l => x.mask.getLsbD l)) r.dst 1
      (fun _ => [y]) ∧
    v = u.mapSplits fun t => if t.mask = x.mask ∧ t.wait = some r then
      { t with state := .ready, reason := .none, pc := t.pc + 8, wait := none } else t

/-- The wave and split of a parked wait: no bundle of the wave is in progress, the lane's split waits as the wave's only one, it
is not one that the debugger found so and halted, STEP does not fall due behind its bundle, and nothing is asked of a peer. -/
structure ParkedWait (s : State) (wid lane : Nat) (x : Split) (r : WaitRec) : Prop where
  idle : s.dev.sys.cur.map (·.wid) ≠ some wid
  own : x.kept = none ∧ r.step = false
  asks : ∀ o ∈ (s.wave wid).outs, o.2.kind ≠ .futget
  split : (s.wave wid).splitOf lane = some x ∧ x.wait = some r
  only : (s.wave wid).splits.filter (fun t => t.wait.isSome) = [x]
  clean : s.work.badTag wid r = none
  stack : 64 ≤ (s.launch (s.wave wid).lid).s ∧ (s.launch (s.wave wid).lid).s ≤ 1024

/-- R215–R217. -/
def Obligations.Waits : Prop :=
  (∀ (s : State) (c : Cur) (g : Guard) d a b n all rel l ds,
    CanIssue s c g (waitUses (s.wave c.wid) (s.iss c g) d a b n) ownLane → (s.iss c g).act.head? = some l →
    descsOf ((s.wave c.wid).kWord (s.iss c g) a.n) ((s.wave c.wid).kWord (s.iss c g) b.n) = .ok ds →
    (ds.any Desc.irrevocable = true → Irrevocable s c g) →
    (∀ x ∈ (condsOf s c g ds l).1, x.1 = true ∧ x.2.1 = .ok) →
    let r := waitOf s c g d n all (condsOf s c g ds l).1
    let w₀ := (condsOf s c g ds l).2.waitReads c.wid r
    w₀.badTags c.wid r = [] →
    let w := if rel then (s.iss c g).act.foldl (fun w l => w.releaseAll c.wid l) w₀ else w₀
    exec (.wait g d a b n all rel) s = .next (s.done c g clsCtrl 1
      (if (w.latch c.wid r).done then
        ((w.waitAcquire c.wid (w.latch c.wid r)).modWave c.wid fun v =>
          v.putAll (s.iss c g) d fun _ => [BitVec.ofNat 32 (w.latch c.wid r).latched.toNat]).advance (s.iss c g)
      else w.parkWait (s.iss c g) (w.latch c.wid r)))) ∧
  (∀ (s : State) wid lane x r, ParkedWait s wid lane x r → r.bara = false →
    (∃ d, r.deadline = some d ∧ (s.dev.sys.gtick - d).toNat < 2 ^ 63) →
    ∃ (t : State) (v : Wave), exec (.waitTimeout wid lane) s = .next t ∧ t.wave wid = v.settle ∧ t.mem = s.mem ∧
      LeftWait s wid x r (BitVec.ofNat 32 ((s.work.latch wid r).latched.toNat +
        if (s.work.latch wid r).done then 0 else 16)) v) ∧
  (∀ (s : State) wid lane x r, (s.wave wid).splitOf lane = some x → x.wait = some r →
    (∀ d, r.deadline = some d → ¬ (s.dev.sys.gtick - d).toNat < 2 ^ 63) → exec (.waitTimeout wid lane) s = .next s) ∧
  (∀ (s : State) wid lane x r, ParkedWait s wid lane x r → r.bara = false → (s.work.latch wid r).done = true →
    ∃ (t : State) (v : Wave), exec (.waitWordReread wid lane) s = .next t ∧ t.wave wid = v.settle ∧ t.mem = s.mem ∧
      LeftWait s wid x r (BitVec.ofNat 32 (s.work.latch wid r).latched.toNat) v) ∧
  (∀ (s : State) wid lane x r, ParkedWait s wid lane x r → (s.work.latch wid r).done = false →
    ∃ (t : State), exec (.waitWordReread wid lane) s = .next t ∧
      t.wave wid = ((s.wave wid).mapSplits fun t => if t.mask = x.mask ∧ t.wait = some r then
        { t with wait := some (s.work.latch wid r) } else t).settle)

/-! ### Ends of lanes, shapes and engines (04 R107, 13) -/

/-- The state that an event's working state stands for. -/
def landed (s : State) (w : Work) : State := ⟨applyLog w.log s.mem, w.dev⟩

/-- Wave `v` after lanes have ended (R107): they are dead and in no split, and every other lane lives as it did. -/
structure LanesGone (u v : Wave) (ls : List Nat) : Prop where
  dead : ∀ l ∈ ls, (v.lane l).alive = false
  living : ∀ l, l ∉ ls → (v.lane l).alive = (u.lane l).alive
  out : ∀ x ∈ v.splits, ∀ l ∈ ls, x.mask.getLsbD l = false
  discarded : ∀ o ∈ v.outs, o.2.lane ∈ ls → o.2.toK = true

/-- R107. -/
def Obligations.LanesAndWavesEnd : Prop :=
  (∀ (s : State) (c : Cur) (g : Guard), CanIssue s c g ⟨[], none⟩ ownLane →
    s.work.finHeld c.wid (s.iss c g).act = [] →
    let w := ((s.iss c g).act.foldl (fun w l => w.exitLane c.wid l) (s.work.stamp c)).transfer (s.iss c g) []
    exec (.exit g) s = .next (s.done c g clsCtrl 1 w.w) ∧
      ∃ v, (s.done c g clsCtrl 1 w.w).wave c.wid = v.settle ∧ LanesGone (s.wave c.wid) v (s.iss c g).act) ∧
  (∀ (s : State) wid v, mget? s.dev.waves wid = some v → v.living = [] → v.outs = [] → v.cpas = [] →
    ∃ t, exec (.waveEnd wid) s = .next t ∧ mget? t.dev.waves wid = none ∧ wid ∉ (t.block v.bid).waves ∧
      ∀ j, j ∈ (s.block v.bid).waves → j ≠ wid → j ∈ (t.block v.bid).waves) ∧
  (∀ (s : State) wid, (∀ v, mget? s.dev.waves wid = some v → v.living ≠ [] ∨ v.outs ≠ [] ∨ v.cpas ≠ []) →
    exec (.waveEnd wid) s = .next s)

/-- A state with a shape register of the split's block replaced. -/
def withShape (s : State) (c : Cur) (g : Guard) (n : BitVec 4) (r : BitVec 512) : State :=
  s.withBlock (s.iss c g).bid fun b => { b with sh := mset b.sh n.toNat r 0 }

/-- A shape register of the split's block. -/
def shapeOf (s : State) (c : Cur) (g : Guard) (n : BitVec 4) : BitVec 512 := mget (s.block (s.iss c g).bid).sh n.toNat 0

/-- The bytes of a shape register. -/
def recordByte (r : BitVec 512) (i : Nat) : Byte := BitVec.ofNat 8 (r.toNat / 256 ^ i)

/-- The value that SHSET takes from a lane: a pair for the wide fields (R234). -/
def shArg (s : State) (c : Cur) (g : Guard) (f : ShField) (a : Src) (l : Nat) : Nat :=
  if f.wide then ((s.wave c.wid).val64 (s.iss c g) a.reg l).toNat else ((s.wave c.wid).val (s.iss c g) a.reg l).toNat

/-- The lead lane's access of 64 bytes of scratchpad is aligned and inside it (R233). -/
def ShapeSlot (s : State) (c : Cur) (g : Guard) (a : Src) (off : BitVec 16) (l : Nat) : Prop :=
  (s.iss c g).act.head? = some l ∧ eaOf s c g a off l % 64 = 0 ∧
    eaOf s c g a off l + 64 ≤ (s.launch (s.iss c g).lid).beta

/-- The lead lane's check of 64 bytes of global memory (R233). -/
def shapeAim (s : State) (c : Cur) (g : Guard) (acc : Acc) (a : Src) (off : BitVec 16) (l : Nat) : (Motion × Acs) × Work :=
  let x := (s.work.stamp c).aim (s.iss c g) .g acc 64 64 l ((s.wave c.wid).ea (s.iss c g) .g a.reg off l)
  (x.2.plainLine x.1, x.2)

/-- R233–R235. -/
def Obligations.Shapes : Prop :=
  (∀ (s : State) (c : Cur) (g : Guard) sh a off l, CanIssue s c g ⟨[addrUse a .c], none⟩ ownLane →
    ShapeSlot s c g a off l → s.work.badData (PAddr.scratch (s.iss c g).bid (eaOf s c g a off l)).key 64 = false →
    ∃ t r, exec (.shld g sh a true off) s = .next t ∧
      Issued (withShape s c g sh r) t c g [chargeOf g clsLd 4] 0 ((s.wave c.wid).goOn c.entry s.stamp) ∧
      ∀ i < 64, recordByte r i = s.byte (PAddr.scratch (s.iss c g).bid (eaOf s c g a off l + i)).key) ∧
  (∀ (s : State) (c : Cur) (g : Guard) sh a off l, Safe s → CanIssue s c g ⟨[addrUse a .c], none⟩ ownLane →
    ShapeSlot s c g a off l →
    let key := (PAddr.scratch (s.iss c g).bid (eaOf s c g a off l)).key
    ∃ t, exec (.shst g sh a true off) s = .next t ∧
      Issued (storedState s t [l] (fun _ => key) 64) t c g [chargeOf g clsSt 4] 0
        ((s.wave c.wid).goOn c.entry s.stamp) ∧
      ∀ k, t.byte k = if coversByte key 64 k then recordByte (shapeOf s c g sh) ((k - key) / 8) else s.byte k) ∧
  (∀ (s : State) (c : Cur) (g : Guard) sh a off l p, CanIssue s c g ⟨[addrUse a .g], none⟩ ownLane →
    (s.iss c g).act.head? = some l → Irrevocable s c g →
    let x := shapeAim s c g .r a off l
    x.1.1 = .ok → x.1.2.phys = some p → x.2.badData x.1.2.key 64 = false →
    exec (.shld g sh a false off) s = .next (s.done c g clsLd 4
      ((((x.2.readVia (s.iss c g).ctx (s.iss c g).core p 64).2.setShape (s.iss c g).bid sh
        (shOfBytes (x.2.readVia (s.iss c g).ctx (s.iss c g).core p 64).1)).advance (s.iss c g))))) ∧
  (∀ (s : State) (c : Cur) (g : Guard) sh a off l p, CanIssue s c g ⟨[addrUse a .g], none⟩ ownLane →
    (s.iss c g).act.head? = some l → Irrevocable s c g →
    let x := shapeAim s c g .w a off l
    x.1.1 = .ok → x.1.2.phys = some p →
    exec (.shst g sh a false off) s = .next (s.done c g clsSt 4
      (((x.2.writeVia (s.iss c g).core p (shBytes (x.2.shape (s.iss c g).bid sh))).awaitAck x.2 (s.iss c g) x.1.2 true).advance
        (s.iss c g)))) ∧
  (∀ (s : State) (c : Cur) (g : Guard) sh f a l r, CanIssue s c g ⟨[useOf a (ShField.regs f) 0], none⟩ ownLane →
    (s.iss c g).act.head? = some l → shSetField (shapeOf s c g sh) f (shArg s c g f a l) = some r →
    (shapeSlots r = 0 ∨ shSlotBytes r = 0 ∨ shRingEnd r ≤ (s.launch (s.iss c g).lid).beta) →
    (∃ t, exec (.shset g sh f a) s = .next t ∧
      Issued (withShape s c g sh r) t c g [chargeOf g clsCtrl 1] 0 ((s.wave c.wid).goOn c.entry s.stamp)) ∧
    shGetField r f = shArg s c g f a l ∧ ∀ f', f' ≠ f → shGetField r f' = shGetField (shapeOf s c g sh) f') ∧
  (∀ d sh f, ResultsS (fun g => .shget g d sh f) ⟨[], some (d, ShField.regs f)⟩ d (ShField.regs f) clsCtrl
    (fun _ _ _ => True) fun s c g _ => wordsFrom (ShField.regs f) (shGetField (shapeOf s c g sh) f))

/-- The checks of CPA in its active lanes, one after the other (R236). -/
def cpaAims (s : State) (c : Cur) (g : Guard) (a b : Src) (n : Option Src) (off : BitVec 16) :
    List (Motion × Acs × List (Phys × Nat)) × Work :=
  (s.iss c g).act.foldl (fun (r : List (Motion × Acs × List (Phys × Nat)) × Work) l =>
    let x := r.2.aimCpa (s.iss c g) l ((s.wave c.wid).ea (s.iss c g) .c a.reg off l)
      ((s.wave c.wid).val64 (s.iss c g) b.reg l).toNat (cpaCount (n.map fun y => (s.wave c.wid).val (s.iss c g) y.reg l))
    (r.1 ++ [x.1], x.2)) ([], s.work.stamp c)

/-- The uses of CPA. -/
def cpaUses (a b : Src) (n : Option Src) : List Use :=
  [useOf a 1 0, useOf b 2 1] ++ (match n with
    | some x => [useOf x 1 2]
    | none => [])

/-- R236, R237. -/
def Obligations.Copies : Prop :=
  (∀ (s : State) (c : Cur) (g : Guard) a b n tag off, CanIssue s c g ⟨cpaUses a b n, none⟩ ownLane → Irrevocable s c g →
    neverGuard g = false → (s.wave c.wid).tagCount tag ≠ 63 →
    let r := cpaAims s c g a b n off
    (∀ x ∈ r.1, x.1 = .ok) →
    exec (.cpa g a b n tag off) s = .next (s.done c g clsCopy (s.iss c g).act.length
      ((r.2.modWave c.wid fun v => { v with cpas := fallCpas [] (v.cpas ++ [⟨tag, r.1.map fun x =>
        r.2.cpaLane x.2.1 ((s.wave c.wid).val64 (s.iss c g) b.reg x.2.1.lane).toNat x.2.2⟩]) }).advance (s.iss c g)))) ∧
  (∀ (s : State) (c : Cur) (g : Guard) a b n tag off, CanIssue s c g ⟨cpaUses a b n, none⟩ ownLane →
    neverGuard g = true →
    ∃ t, exec (.cpa g a b n tag off) s = .next t ∧
      Issued s t c g [(clsCtrl, 1)] 0 ((s.wave c.wid).goOn c.entry s.stamp)) ∧
  (∀ (s : State) wid (x : CpaLane) (tag : BitVec 2) rest, Safe s → (s.wave wid).cpas = ⟨tag, [x]⟩ :: rest → x.bad = none →
    x.bytes.length = 32 → (∀ o ∈ rest, o.tag = tag → o.lanes = []) → s.work.viaHeld x.via = false →
    ∃ t, exec (.cpaLand wid tag) s = .next t ∧ (t.wave wid).cpas = fallCpas [] (⟨tag, []⟩ :: rest) ∧
      ∀ k, t.byte k = if coversByte x.dst 32 k then x.bytes.getD ((k - x.dst) / 8) 0 else s.byte k) ∧
  (∀ (s : State) wid (tag : BitVec 2), (∀ o ∈ (s.wave wid).cpas, o.tag = tag → o.lanes = []) →
    exec (.cpaLand wid tag) s = .next s)

/-- The transfer that a BCOPY opens or joins (R239). -/
def bcopyOf (s : State) (c : Cur) (g : Guard) (st : Bool) (sh cnt : BitVec 4) (bar : Option (BitVec 4))
    (f : Option (BitVec 64)) : Transfer :=
  ((s.block (s.iss c g).bid).pendingOf sh).getD
    ⟨sh, (s.iss c g).bid, shapeOf s c g sh, st, cnt.toNat + 1, [], bar, f, 0⟩

/-- The other pending transfers of the split's block. -/
def otherPending (s : State) (c : Cur) (g : Guard) (sh : BitVec 4) : List Transfer :=
  (s.block (s.iss c g).bid).pending.filter fun x => x.sh != sh

/-- A block whose barrier counts one more engine operation (R218). -/
def Sys2Proof.Machine.Block.pended (b : Block) (bar : Option (BitVec 4)) : Block :=
  match bar with
  | none => b
  | some n =>
    let x := mget b.bars n.toNat Barrier.blank
    { b with bars := mput b.bars n.toNat { x with pend := x.pend + 1 } }

/-- The future that an engine instruction names in its lead lane. -/
def futOf (s : State) (c : Cur) (g : Guard) (fut : Option Src) (l : Nat) : Option (BitVec 64) :=
  fut.map fun b => (s.wave c.wid).val64 (s.iss c g) b.reg l

/-- A key of a block's scratchpad from one offset up to another. -/
def inScratch (bid lo hi k : Nat) : Prop := k % 8 = 3 ∧ bid * 2 ^ 20 + lo ≤ k / 8 ∧ k / 8 < bid * 2 ^ 20 + hi

/-- R238, R239. -/
def Obligations.BlockCopies : Prop :=
  (∀ (s : State) (c : Cur) (g : Guard) st sh cnt idx bar fut l, CanIssue s c g ⟨futUse fut 1, none⟩ ownLane →
    Irrevocable s c g → (s.iss c g).act.head? = some l →
    let f := futOf s c g fut l
    let x := bcopyOf s c g st sh cnt bar f
    s.work.shapeCheck (s.iss c g) l x.shape false = .ok → s.work.engineNames (s.iss c g) l bar f = .ok →
    x.st = st → x.count = cnt.toNat + 1 → x.bar = bar → x.fut = f → x.sh = sh → idx.toNat ∉ x.slices →
    let up := fun (b : Block) => if ((s.block (s.iss c g).bid).pendingOf sh).isNone then b.pended bar else b
    ∃ t, exec (.bcopy g st sh cnt idx bar fut) s = .next t ∧
      Issued (if x.slices.length + 1 = x.count then
          (s.withBlock (s.iss c g).bid fun b => { up b with pending := otherPending s c g sh }).withCore (s.iss c g).core
            fun k => { k with xfers := k.xfers ++ [{ x with slices := idx.toNat :: x.slices }] }
        else s.withBlock (s.iss c g).bid fun b =>
          { up b with pending := otherPending s c g sh ++ [{ x with slices := idx.toNat :: x.slices }] })
        t c g [chargeOf g clsCopy 0] 0 ((s.wave c.wid).goOn c.entry s.stamp)) ∧
  (∀ (s : State) core x rest, Safe s → (s.core core).xfers = x :: rest → s.work.enginesRun core = true →
    (s.core core).transferFree = true → (s.work.moveTransfer core x).1.2 = .all → x.fut = none → x.done ≤ shElems x.shape →
    ∃ t, exec (.bcopyTransferComplete core) s = .next t ∧ (t.core core).xfers = rest ∧
      (x.st = false → ∀ k, ¬ inScratch x.bid (shRing x.shape)
        (shRing x.shape + s.work.elemBytes (s.work.blid x.bid) x.shape * shElems x.shape) k → t.byte k = s.byte k) ∧
      (x.st = true → ∀ k, k % 8 = 3 → t.byte k = s.byte k)) ∧
  (∀ (s : State) core, (s.core core).xfers = [] ∨ s.work.enginesRun core = false ∨
      (∃ x ∈ (s.core core).resolves, x.e = .transfer) → exec (.bcopyTransferComplete core) s = .next s) ∧
  (∀ (s : State) core e, s.work.enginesRun core = false → exec (.engineStop core e) s = .next s) ∧
  (∀ (s : State) core x rest code line, (s.core core).xfers = x :: rest → s.work.enginesRun core = true →
    (s.core core).transferFree = true → (s.work.moveTransfer core x).1.2 = .stop code line →
    ∃ t, exec (.engineStop core .transfer) s = .next t ∧ (t.core core).xfers = rest)

/-- The arguments of MCAST in the lead lane: the offset and the length. -/
def mcastArgs (s : State) (c : Cur) (g : Guard) (a b : Src) (l : Nat) : Nat × Nat :=
  (((s.wave c.wid).val (s.iss c g) a.reg l).toNat, ((s.wave c.wid).val (s.iss c g) b.reg l).toNat)

/-- The role of the split's block in its cluster. -/
def roleHere (s : State) (c : Cur) (g : Guard) : Nat := (s.block (s.iss c g).bid).lcore % 8

/-- R242–R244. -/
def Obligations.Multicast : Prop :=
  (∀ (s : State) (c : Cur) (g : Guard) a b mask bar l, CanIssue s c g ⟨[useOf a 1 0, useOf b 1 1], none⟩ ownLane →
    Irrevocable s c g → (s.iss c g).act.head? = some l →
    let x := mcastArgs s c g a b l
    x.1 % 16 = 0 → x.2 % 16 = 0 → 16 ≤ x.2 → x.2 ≤ 65536 → mask.getLsbD (roleHere s c g) = false →
    x.1 + x.2 ≤ (s.launch (s.iss c g).lid).beta →
    (∀ q ∈ rolesIn mask, (s.work.roleBlock (s.iss c g).bid q).isSome = true ∧
      mget (s.block (s.iss c g).bid).free q 0 ≠ 0) →
    ∃ t m, exec (.mcast g a b mask bar) s = .next t ∧ (t.core (s.iss c g).core).mcasts =
        (s.core (s.iss c g).core).mcasts ++ [m] ∧
      m.bid = (s.iss c g).bid ∧ m.off = x.1 ∧ m.bar = bar ∧
      m.receivers = (rolesIn mask).filterMap (s.work.roleBlock (s.iss c g).bid) ∧
      m.bytes = (List.range x.2).map (fun i => s.byte (PAddr.scratch (s.iss c g).bid (x.1 + i)).key) ∧
      (∀ q, mget (t.block (s.iss c g).bid).free q 0 =
        if q ∈ rolesIn mask then mget (s.block (s.iss c g).bid).free q 0 - 1 else mget (s.block (s.iss c g).bid).free q 0) ∧
      t.wave c.wid = ((s.wave c.wid).goOn c.entry s.stamp).settle ∧ t.mem = s.mem) ∧
  (∀ (s : State) core m rest, Safe s → (s.core core).mcasts = m :: rest → s.work.enginesRun core = true → m.bad = none →
    ∃ t, exec (.mcastDelivery core) s = .next t ∧ (t.core core).mcasts = rest ∧
      (∀ k, (∀ r ∈ m.receivers, ¬ inScratch r m.off (m.off + m.bytes.length) k) → t.byte k = s.byte k) ∧
      ∀ r ∈ m.receivers, (mget? s.dev.blocks r).isSome = true → m.off + m.bytes.length ≤ 2 ^ 20 →
        ∀ i < m.bytes.length, t.byte (PAddr.scratch r (m.off + i)).key = m.bytes.getD i 0) ∧
  (∀ (s : State) core, (s.core core).mcasts = [] ∨ s.work.enginesRun core = false →
    exec (.mcastDelivery core) s = .next s) ∧
  (∀ (s : State) (c : Cur) (g : Guard) role (n : BitVec 4) r, CanIssue s c g ⟨[], none⟩ ownLane → Irrevocable s c g →
    (s.iss c g).act ≠ [] → s.work.roleBlock (s.iss c g).bid role.toNat = some r →
    ∃ t, exec (.slotf g role n) s = .next t ∧
      Issued (s.withBlock r fun b =>
          let x := BitVec.ofNat 4 (min 15 ((mget b.free (roleHere s c g) 0).toNat + n.toNat))
          { b with free := mset b.free (roleHere s c g) x 0 })
        t c g [chargeOf g clsCtrl 1] 0 ((s.wave c.wid).goOn c.entry s.stamp))

/-! ### Channels and futures (13 R245–R249, 16 R287–R295) -/

/-- A channel of the split's core. -/
def chanOf (s : State) (c : Cur) (g : Guard) (ch : BitVec 2) : Channel :=
  mget (s.core (s.iss c g).core).chans ch.toNat Channel.blank

/-- No wave of a block waits. -/
def BlockIdle (s : State) (bid : Nat) : Prop := ∀ x ∈ s.dev.waves, x.2.bid = bid → ∀ y ∈ x.2.splits, y.wait = none

/-- A state with a channel of a core changed. -/
def withChan (s : State) (core : Nat) (ch : BitVec 2) (x : Channel) : State :=
  s.withCore core fun k => { k with chans := mput k.chans ch.toNat x }

/-- R245–R248. -/
def Obligations.Channels : Prop :=
  (∀ (s : State) (c : Cur) (g : Guard) st ch sh bar fut l, CanIssue s c g ⟨futUse fut 1, none⟩ ownLane →
    Irrevocable s c g → (s.iss c g).act.head? = some l →
    let f := futOf s c g fut l
    let r := shapeOf s c g sh
    s.work.shapeCheck (s.iss c g) l r true = .ok → s.work.engineNames (s.iss c g) l bar f = .ok →
    ((chanOf s c g ch).owner = some (s.iss c g).bid ∧ (chanOf s c g ch).state ≠ .run ∨
      (chanOf s c g ch).owner ≠ some (s.iss c g).bid ∧ (chanOf s c g ch).state = .idle) →
    exec (.strm g st ch sh bar fut) s = .next (s.done c g clsCtrl 1
      (((((s.work.stamp c).pendUp (s.iss c g).bid bar).setChan (s.iss c g).core ch.toNat
        ⟨some (s.iss c g).bid, r, st, shCount r, 0, 0, .run, bar, f⟩).latchBlock (s.iss c g).bid).advance (s.iss c g))) ∧
    (BlockIdle s (s.iss c g).bid → ∃ t, exec (.strm g st ch sh bar fut) s = .next t ∧
      Issued (withChan (s.withBlock (s.iss c g).bid fun b => b.pended bar) (s.iss c g).core ch
          ⟨some (s.iss c g).bid, r, st, shCount r, 0, 0, .run, bar, f⟩)
        t c g [chargeOf g clsCtrl 1] 0 ((s.wave c.wid).goOn c.entry s.stamp))) ∧
  (∀ (s : State) (c : Cur) (g : Guard) ch, CanIssue s c g ⟨[], none⟩ ownLane → (s.iss c g).act ≠ [] →
    (chanOf s c g ch).owner = some (s.iss c g).bid → (chanOf s c g ch).state = .run →
    (chanOf s c g ch).ready (shapeSlots (chanOf s c g ch).shape) ≠ 0 →
    ∃ t, exec (.rsig g ch) s = .next t ∧
      Issued (withChan s (s.iss c g).core ch { chanOf s c g ch with q := (chanOf s c g ch).q + 1 }.settle)
        t c g [chargeOf g clsCtrl 1] 0 ((s.wave c.wid).goOn c.entry s.stamp)) ∧
  (∀ (s : State) (c : Cur) (g : Guard) ch, CanIssue s c g ⟨[], none⟩ ownLane →
    ((s.iss c g).act = [] ∨ (chanOf s c g ch).owner = some (s.iss c g).bid ∧ (chanOf s c g ch).state = .err) →
    ∃ t, exec (.rsig g ch) s = .next t ∧
      Issued s t c g [chargeOf g clsCtrl 1] 0 ((s.wave c.wid).goOn c.entry s.stamp)) ∧
  (∀ d ch, ResultsS (fun g => .strmq g d ch) ⟨[], some (d, 1)⟩ d 1 clsCtrl (fun _ _ _ => True)
    fun s c g _ =>
      let x := chanOf s c g ch
      [BitVec.ofNat 32 (x.q % 65536 * 65536 + x.ready (shapeSlots x.shape) % 256 * 256 +
        (if x.owner = some (s.iss c g).bid then 8 else 0) + (if x.state = .err then 4 else 0) +
        match x.state with
        | .idle => 0
        | .run => 1
        | .err => 2)]) ∧
  (∀ (s : State) core ch, Safe s → s.work.enginesRun core = true →
    let x := mget (s.core core).chans ch.toNat Channel.blank
    let bid := x.owner.getD 0
    x.mayMove = true → (s.work.moveTile core ch x).1.2 = .all → x.f + 1 ≠ x.n →
    ∃ t, exec (.channelTile core ch) s = .next t ∧
      mget (t.core core).chans ch.toNat Channel.blank = { x with f := x.f + 1 } ∧
      (x.st = false → ∀ k, ¬ inScratch bid (shRing x.shape + shSlotBytes x.shape * (x.f % shapeSlots x.shape))
        (shRing x.shape + shSlotBytes x.shape * (x.f % shapeSlots x.shape) +
          s.work.elemBytes (s.work.blid bid) x.shape * shBoxElems x.shape) k → t.byte k = s.byte k) ∧
      (x.st = true → ∀ k, k % 8 = 3 → t.byte k = s.byte k)) ∧
  (∀ (s : State) core ch, s.work.enginesRun core = false ∨
      (mget (s.core core).chans ch.toNat Channel.blank).mayMove = false →
    exec (.channelTile core ch) s = .next s)

/-- The checks of a future instruction's active lanes (R292). -/
def futAims (s : State) (c : Cur) (g : Guard) (acc : Acc) (a : Src) (off : BitVec 16) : List (Motion × Acs) × Work :=
  aimsOf s c g fun w l => w.aimFuture (s.iss c g) acc true l ((s.wave c.wid).ea (s.iss c g) .g a.reg off l)

/-- STATE and value of the future at a key (R287). -/
def futStateAt (s : State) (key : Nat) : Nat := s.work.num key 8 / 2 ^ 62 % 4
def futValueAt (s : State) (key : Nat) : Nat := s.work.num (key + 64) 8

/-- Nothing of the state hangs on what is written: no task depends on memory it has read. -/
def NoDeps (s : State) : Prop := ∀ x ∈ s.dev.ctxs, x.2.tasks.deps = []

/-- FUTRES in one lane after those before it: whether a lane has found its future resolved, and what has been performed (R288,
R293). -/
def resolveLane (s : State) (c : Cur) (g : Guard) (faulted : Bool) (b : Src) (r : Bool × Work) (x : Acs) : Bool × Work :=
  match x.phys with
  | none => r
  | some p =>
    let y := (r.2.atHome (s.iss c g).core p).resolve p faulted ((s.wave c.wid).val64 (s.iss c g) b.reg x.lane)
    match y.1 with
    | none => (r.1, y.2.awaitAck r.2 (s.iss c g) x true)
    | some _ => (true, y.2)

/-- R287–R294. That registrations on their way land oldest first is read by inference (log entry 52: DEDUCED). -/
def Obligations.Futures : Prop :=
  (∀ (s : State) (c : Cur) (g : Guard) a off, CanIssue s c g ⟨[useOf a 2 0], none⟩ ownLane → Irrevocable s c g →
    let r := futAims s c g .rw a off
    (∀ x ∈ r.1, x.1 = .ok) → (r.2.newFutures (s.iss c g) (r.1.map (·.2))).1 = none →
    exec (.futnew g a off) s =
      .next (s.done c g clsAtom r.1.length ((r.2.newFutures (s.iss c g) (r.1.map (·.2))).2.advance (s.iss c g)))) ∧
  (∀ (s : State) (c : Cur) (g : Guard) a off x p, Safe s → CanIssue s c g ⟨[useOf a 2 0], none⟩ ownLane →
    Irrevocable s c g → (futAims s c g .rw a off).1 = [(.ok, x)] → x.phys = some p →
    futStateAt s p.key ≠ 1 → NoDeps s → (∀ i < 16, p.key + 8 * i ≠ (PAddr.hbm p.at_).key) →
    ∃ t, exec (.futnew g a off) s = .next t ∧ futStateAt t p.key = 0 ∧ futValueAt t p.key = 0 ∧
      ∀ k, ¬ coversByte p.key 16 k → k ≠ (PAddr.hbm p.at_).key → t.byte k = s.byte k) ∧
  (∀ (s : State) (c : Cur) (g : Guard) faulted a b off x p, Safe s →
    CanIssue s c g ⟨[useOf a 2 0, useOf b 2 1], none⟩ ownLane → Irrevocable s c g → Acked s c g →
    (futAims s c g .rw a off).1 = [(.ok, x)] → x.phys = some p → futStateAt s p.key < 2 →
    (∀ i < 16, p.key + 8 * i ≠ (PAddr.hbm p.at_).key) →
    ∃ t, exec (.futres g faulted a b off) s = .next t ∧ futStateAt t p.key = (if faulted then 3 else 2) ∧
      futValueAt t p.key = ((s.wave c.wid).val64 (s.iss c g) b.reg x.lane).toNat ∧
      ∀ k, ¬ coversByte p.key 16 k → k ≠ (PAddr.hbm p.at_).key → t.byte k = s.byte k) ∧
  (∀ (s : State) (c : Cur) (g : Guard) faulted a b off, CanIssue s c g ⟨[useOf a 2 0, useOf b 2 1], none⟩ ownLane →
    Irrevocable s c g → Acked s c g →
    let r := futAims s c g .rw a off
    (∀ x ∈ r.1, x.1 = .ok) →
    let q := (r.1.map (·.2)).foldl (resolveLane s c g faulted b) (false, r.2)
    q.1 = false →
    exec (.futres g faulted a b off) s = .next (s.done c g clsAtom r.1.length (q.2.advance (s.iss c g)))) ∧
  (∀ (s : State) (c : Cur) (g : Guard) d a off, CanIssue s c g ⟨[useOf a 2 0], some (d, 2)⟩ ownLane → Irrevocable s c g →
    let r := futAims s c g .r a off
    (∀ x ∈ r.1, x.1 = .ok) →
    exec (.futget g d a off) s = .next (s.done c g clsCtrl 1
      (((r.1.map (·.2)).foldl (fun w x => w.getFuture (s.iss c g) d x) r.2).advance (s.iss c g)))) ∧
  (∀ (s : State) (c : Cur) (g : Guard) d a off x p, (Instr.futget g d a off).wf = true → StackOk s c g →
    CanIssue s c g ⟨[useOf a 2 0], some (d, 2)⟩ ownLane → Irrevocable s c g →
    (futAims s c g .r a off).1 = [(.ok, x)] → x.phys = some p → 2 ≤ futStateAt s p.key →
    ∃ (t : State) (v : Wave), exec (.futget g d a off) s = .next t ∧ t.mem = s.mem ∧
      t.wave c.wid = (v.goOn c.entry s.stamp).settle ∧
      Wrote (s.wave c.wid) v (s.iss c g) d 2 fun _ => wordsFrom 2 (futValueAt s p.key)) ∧
  (∀ (s : State) (c : Cur) (g : Guard) d a off x p, CanIssue s c g ⟨[useOf a 2 0], some (d, 2)⟩ ownLane →
    Irrevocable s c g → (futAims s c g .r a off).1 = [(.ok, x)] → x.phys = some p → futStateAt s p.key < 2 →
    ∃ (t : State) (o : Out) (i : Nat), exec (.futget g d a off) s = .next t ∧ mget? (t.wave c.wid).outs i = some o ∧ o.kind = .futget ∧
      o.lane = x.lane ∧ o.dst = (s.iss c g).fills (s.wave c.wid) d 2 x.lane ∧
      (p.key, c.wid, some i) ∈ (t.ctx (s.iss c g).ctx).tasks.futWait) ∧
  (∀ (s : State) (ctx : BitVec 6), (s.ctx ctx.toNat).tasks.regs = [] →
    exec (.futureRegistration ctx) s = .next s) ∧
  (∀ (s : State) (ctx : BitVec 6) r rest, Safe s → (s.ctx ctx.toNat).tasks.regs = r :: rest → futStateAt s r.fut < 2 →
    NoDeps s → r.join < 2 ^ 48 →
    ∃ t, exec (.futureRegistration ctx) s = .next t ∧ (t.ctx ctx.toNat).tasks.regs = rest ∧
      t.work.num r.fut 8 = 2 ^ 62 + min 16383 (s.work.num r.fut 8 / 2 ^ 48 % 2 ^ 14 + 1) * 2 ^ 48 + r.join ∧
      ∀ k, ¬ coversByte r.fut 8 k → t.byte k = s.byte k) ∧
  (∀ (s : State) (ctx : BitVec 6) r rest, (s.ctx ctx.toNat).tasks.regs = r :: rest → 2 ≤ futStateAt s r.fut →
    ∃ t, exec (.futureRegistration ctx) s = .next t ∧ (t.ctx ctx.toNat).tasks.regs = rest ∧ t.mem = s.mem)

/-! ### The array (15, 05 R129) -/

/-- The operation that the split's lead lane gives the array. -/
def opOf (s : State) (c : Cur) (g : Guard) (k : ArrKind) (l key : Nat) : ArrOp :=
  ⟨s.dev.sys.nextId, c.wid, (s.iss c g).bid, l, maskOf (s.iss c g).act, key, none, false, k⟩

/-- A state in which an operation stands last in the order of the split's core, and of its partner for a pair operation; an EPIL
or ALTAB loads from `key`. -/
def withOrder (s : State) (c : Cur) (g : Guard) (k : ArrKind) (l : Nat) (key : Nat := 0) : State :=
  let put := fun (x : Core) => { x with order := x.order ++ [opOf s c g k l key] }
  let t := s.withCore (s.iss c g).core put
  if k.isPair then t.withCore (partnerOf (s.iss c g).core) put else t

/-- A state whose block counts one more engine operation towards a barrier. -/
def pendedState (s : State) (c : Cur) (g : Guard) (bar : Option (BitVec 4)) : State :=
  s.withBlock (s.iss c g).bid fun b => b.pended bar

/-- The wave after its split has issued a bundle that waits for the operation with a number. -/
def busyWave (s : State) (c : Cur) (id : Nat) : Wave :=
  (s.wave c.wid).setSplit c.entry { (s.wave c.wid).split c.entry with lastIssue := s.stamp, busy := some id }

/-- R257–R261, R266, R267, R272, R274, R275, R279. -/
def Obligations.ArrayQueue : Prop :=
  (∀ (s : State) (c : Cur) (g : Guard) z pair acc sh b slot l, CanIssue s c g ⟨[useOf b 1 1], none⟩ ownLane →
    Irrevocable s c g → (s.iss c g).act.head? = some l →
    let r := shapeOf s c g sh
    let sa := s.work.slotOf (s.iss c g).lid (shFslot r)
    let sb := s.work.slotOf (s.iss c g).lid slot.toNat
    let o := ((s.wave c.wid).val (s.iss c g) b.reg l).toNat
    (∀ t, slotAl sa = some t ∨ slotAl sb = some t → s.work.altabAhead (s.iss c g).core t = false) →
    s.work.mmaCheck (s.iss c g) l pair r o sa sb = .ok → s.work.orderFull (s.iss c g).core pair = false →
    ∃ t, exec (.mma g z pair acc sh b slot) s = .next t ∧
      Issued (withOrder s c g (.mma z pair acc r o sa sb) l) t c g
        [chargeOf g clsMma (mmaK r * if pair then 2 else 1)] 1 ((s.wave c.wid).goOn c.entry s.stamp)) ∧
  (∀ (s : State) (c : Cur) (g : Guard) pair acc l, CanIssue s c g ⟨[], none⟩ ownLane →
    Irrevocable s c g → (s.iss c g).act.head? = some l → (pair = true → s.work.pairRefused (s.iss c g) = false) →
    s.work.orderFull (s.iss c g).core pair = false →
    ∃ t, exec (.mzero g pair acc) s = .next t ∧
      Issued (withOrder s c g (.mzero pair acc) l) t c g [chargeOf g clsCtrl 1] 1
        ((s.wave c.wid).goOn c.entry s.stamp)) ∧
  (∀ (s : State) (c : Cur) (g : Guard) sh b bar fut l, CanIssue s c g ⟨useOf b 1 1 :: futUse fut 2, none⟩ ownLane →
    Irrevocable s c g → (s.iss c g).act.head? = some l →
    let r := shapeOf s c g sh
    let o := ((s.wave c.wid).val (s.iss c g) b.reg l).toNat
    let f := futOf s c g fut l
    s.work.bldCheck (s.iss c g) l r o bar f = .ok → s.work.orderFull (s.iss c g).core false = false →
    ∃ t, exec (.bld g sh b bar fut) s = .next t ∧
      Issued (withOrder (pendedState s c g bar) c g (.bld r o bar f) l) t c g [chargeOf g clsCopy 0] 1
        ((s.wave c.wid).goOn c.entry s.stamp)) ∧
  (∀ (s : State) (c : Cur) (g : Guard) pair i acc sh res bar fut l, CanIssue s c g ⟨futUse fut 2, none⟩ ownLane →
    Irrevocable s c g → (s.iss c g).act.head? = some l →
    let out := shapeOf s c g sh
    let r := res.map (shapeOf s c g)
    let f := futOf s c g fut l
    s.work.mdrainCheck (s.iss c g) l pair out r bar f = .ok → s.work.orderFull (s.iss c g).core pair = false →
    ∃ t, exec (.mdrain g pair i acc sh res bar fut) s = .next t ∧
      Issued (withOrder (pendedState s c g bar) c g (.mdrain pair i acc out r bar f) l) t c g [chargeOf g clsCopy 0] 1
        ((s.wave c.wid).goOn c.entry s.stamp)) ∧
  (∀ (s : State) (c : Cur) (g : Guard) a off l, CanIssue s c g ⟨[addrUse a .c], none⟩ ownLane → Irrevocable s c g →
    (s.iss c g).act.head? = some l → eaOf s c g a off l % 256 = 0 →
    eaOf s c g a off l + 256 ≤ (s.launch (s.iss c g).lid).beta → s.work.orderFull (s.iss c g).core false = false →
    ∃ t, exec (.epil g a true off) s = .next t ∧
      Issued (withOrder s c g (.epil true (BitVec.ofNat 64 (eaOf s c g a off l))) l
          (PAddr.scratch (s.iss c g).bid (eaOf s c g a off l)).key) t c g [chargeOf g clsLd 0] 1
        (busyWave s c s.dev.sys.nextId)) ∧
  (∀ (s : State) (c : Cur) (g : Guard) a off l, CanIssue s c g ⟨[addrUse a .g], none⟩ ownLane → Irrevocable s c g →
    (s.iss c g).act.head? = some l →
    let ea := (s.wave c.wid).ea (s.iss c g) .g a.reg off l
    let x := (s.work.stamp c).aimOrder (s.iss c g) .g 256 256 l ea
    x.1.1 = .ok → s.work.orderFull (s.iss c g).core false = false →
    exec (.epil g a false off) s = .next (s.done c g clsLd 0
      ((x.2.enter (s.iss c g) l (.epil false (BitVec.ofNat 64 ea)) x.1.2.key).2.modWave c.wid fun v => v.setSplit c.entry
        { v.split c.entry with busy := some x.2.dev.sys.nextId }))) ∧
  (∀ (s : State) (c : Cur) (g : Guard) al a off l, CanIssue s c g ⟨[addrUse a .g], none⟩ ownLane → Irrevocable s c g →
    (s.iss c g).act.head? = some l →
    let ea := (s.wave c.wid).ea (s.iss c g) .g a.reg off l
    let x := (s.work.stamp c).aimOrder (s.iss c g) .g 68 128 l ea
    x.1.1 = .ok → s.work.orderFull (s.iss c g).core false = false →
    exec (.altab g al a off) s = .next (s.done c g clsLd 0
      ((x.2.enter (s.iss c g) l (.altab al (BitVec.ofNat 64 ea)) x.1.2.key).2.modWave c.wid fun v => v.setSplit c.entry
        { v.split c.entry with busy := some x.2.dev.sys.nextId }))) ∧
  (∀ d, ResultsS (fun g => .mq g d) ⟨[], some (d, 1)⟩ d 1 clsCtrl (fun _ _ _ => True)
    fun s c g _ =>
      let k := s.core (s.iss c g).core
      let led := fun (x : Nat) => k.order.any fun o => o.kind.isPair && s.work.leader o == x
      let bit := fun (x : Bool) (n : Nat) => if x then 2 ^ n else 0
      [BitVec.ofNat 32 (bit k.accErr0 8 + bit k.accErr1 9 + bit (led (s.iss c g).core) 10 +
        bit (led (partnerOf (s.iss c g).core)) 11 + k.order.length * 2 ^ 12)])

/-- A core's order without an operation. -/
def orderWithout (s : State) (core : Nat) (o : ArrOp) : List ArrOp := (s.core core).order.filter fun x => x.id != o.id

/-- The core and column that hold element column `c` of a pair's accumulators (R258). -/
def accHome (core c : Nat) : Nat × Nat := if c < 128 then (core, c) else (partnerOf core, c - 128)

/-- The columns of an operation. -/
def accCols (pair : Bool) : Nat := if pair then 256 else 128

/-- Whether an MMA reads uncorrectable data (R265). -/
def mmaBad (s : State) (core bid : Nat) (pair : Bool) (r : BitVec 512) (o : Nat) (sa sb : BitVec 64) : Bool :=
  let badB := fun (k : Nat) => (s.core k).bstoreBad.any fun y =>
    decide (o ≤ y % 65536) && decide (y % 65536 < o + slotBytes sb * mmaK r)
  s.work.badData (PAddr.scratch bid (shRing r)).key (tableDim (s.work.mmaTable core sa) * slotBytes sa * mmaK r * rows r) ||
    badB core || (pair && badB (partnerOf core))

/-- Nobody waits on anything. -/
def NoWaits (s : State) : Prop := ∀ w ∈ s.dev.waves, ∀ x ∈ w.2.splits, x.wait = none

/-- A drain at its turn, before its first value (R276). -/
def drainOf (s : State) (core : Nat) (o : ArrOp) (out : BitVec 512) (res : Option (BitVec 512)) : Drain :=
  ⟨s.work.bctx o.bid, core, o.bid, s.work.blid o.bid, shAlg out, out, res, 0, 0, 0, false, false⟩

/-- The program, the initial e registers and the values of a drain (R268, R276). -/
def drainProg (s : State) (core : Nat) : List Word := (List.range 60).map fun n => mget (s.core core).skew n 0
def drainInit (s : State) (core : Nat) : List Nat := (List.range 4).map fun n => (mget (s.core core).skew (60 + n) 0).toNat
def drainList (out : BitVec 512) : List (Nat × Nat × Nat × Bool) :=
  let n := drainCols out * shAlg out
  (List.range (drainRows out * n)).map fun k => (k / n, k % n / shAlg out, k % shAlg out, decide (k % n + 1 = n))

/-- R257–R278. In a pair's MDRAIN the leader's Skew, e registers and tables serve every column, by inference (log entry 47:
DEDUCED). -/
def Obligations.ArrayRuns : Prop :=
  (∀ (s : State) core o z pair acc r off sa sb, s.work.turnOp core = some o → o.kind = .mma z pair acc r off sa sb →
    rows r ≤ 64 →
    let bad := mmaBad s core o.bid pair r off sa sb
    let tab := s.work.mmaTable core sa
    ∃ t, exec (.mmaRun core) s = .next t ∧ t.mem = s.mem ∧ (t.core core).order = orderWithout s core o ∧
      (∀ i < rows r, ∀ c < accCols pair, t.work.cell (accHome core c).1 acc i (accHome core c).2 =
        if bad then (if fmtInt8 (slotFmt sa) then 0x80000000 else BitVec.ofNat 32 fp32.nan)
        else s.work.mmaCell o.bid core off (tableDim tab) (mmaK r) r sa sb tab i (c / tableDim tab) (c % tableDim tab)
          (if z then 0 else s.work.cell (accHome core c).1 acc i (accHome core c).2)) ∧
      (∀ k i c, i < 64 → c < 128 → t.work.cell k (!acc) i c = s.work.cell k (!acc) i c) ∧
      (t.work.accErr core acc = if bad then true else if z then false else s.work.accErr core acc)) ∧
  (∀ (s : State) core o pair acc, s.work.turnOp core = some o → o.kind = .mzero pair acc →
    ∃ t, exec (.mzeroRun core) s = .next t ∧ t.mem = s.mem ∧ (t.core core).order = orderWithout s core o ∧
      t.work.accErr core acc = false ∧
      (∀ i c, i < 64 → c < 128 → t.work.cell core acc i c = 0 ∧
        t.work.cell core (!acc) i c = s.work.cell core (!acc) i c) ∧
      (pair = true → ∀ i c, i < 64 → c < 128 → t.work.cell (partnerOf core) acc i c = 0)) ∧
  (∀ (s : State) core o r off bar, s.work.turnOp core = some o → o.kind = .bld r off bar none →
    let x := s.work.bldElems (s.work.bctx o.bid) core (s.work.blid o.bid) r off 0 (shExt r 0 * rows r)
    x.1.2 = .all →
    ∃ t, exec (.bldRun core) s = .next t ∧ t.mem = s.mem ∧ (t.core core).order = orderWithout s core o ∧
      (t.core core).bstore = (x.2.core core).bstore) ∧
  (∀ (s : State) core o pair i acc out res bar, s.work.turnOp core = some o →
    o.kind = .mdrain pair i acc out res bar none →
    s.work.accErr core acc = false → (pair = true → s.work.accErr (partnerOf core) acc = false) →
    (drainVals acc i (drainProg s core) (drainInit s core) (drainOf s core o out res)
      ⟨s.work, 0, drainInit s core, 0, []⟩ (drainList out)).1 = .all →
    ∃ t, exec (.mdrainRun core) s = .next t ∧ (t.core core).order = orderWithout s core o ∧
      (t.core core).acc = (s.core core).acc ∧ t.work.accErr core acc = false) ∧
  (∀ (s : State) core o addr entry sp, s.work.turnOp core = some o → o.kind = .epil true addr → NoWaits s →
    (s.wave o.wid).entries = [(entry, sp)] → (s.wave o.wid).overflow = [] → sp.kept = none → o.step = false →
    o.data = none →
    sp.busy = some o.id → sp.mask ≠ 0 → sp.state = .ready → sp.hold = .none →
    s.dev.sys.cur.map (·.wid) ≠ some o.wid →
    o.key % 8 = 3 → s.work.badData o.key 256 = false →
    let ws := skWords (s.work.bytes o.key 256)
    skCheck ws 0 60 = none →
    ∃ t, exec (.epilRun core) s = .next t ∧ t.mem = s.mem ∧ (t.core core).order = orderWithout s core o ∧
      (∀ i < 64, mget (t.core core).skew i 0 = ws.getD i 0) ∧
      ((t.wave o.wid).split entry).pc = sp.pc + 8 ∧ ((t.wave o.wid).split entry).busy = none ∧
      (t.ctx (s.wave o.wid).ctx).energyOn (s.wave o.wid).coreOf =
        ((s.ctx (s.wave o.wid).ctx).energyOn (s.wave o.wid).coreOf).add
          (16 * ((s.ctx (s.wave o.wid).ctx).rec_.ewt.getD clsLd 0).toNat)) ∧
  (∀ (s : State) core o al addr entry, s.work.turnOp core = some o → o.kind = .altab al addr →
    (s.wave o.wid).busyOn o.id = some entry →
    let e := s.work.issOf o.wid entry ((s.wave o.wid).split entry) (lanesOf o.act)
    let d := ((s.work.retireOp core o).orderRead e o 68).1
    d.2 = none → tableRefused d.1 = none →
    ∃ t, exec (.altabTableRead core) s = .next t ∧ (t.core core).order = orderWithout s core o ∧
      mget (t.core core).al al.toNat [] = d.1) ∧
  (∀ (s : State) core, s.work.turnOp core = none →
    exec (.mmaRun core) s = .next s ∧ exec (.mzeroRun core) s = .next s ∧ exec (.bldRun core) s = .next s ∧
      exec (.mdrainRun core) s = .next s ∧ exec (.epilRun core) s = .next s ∧ exec (.altabTableRead core) s = .next s)

/-! ### Tasks and launches (16, 17, 19) -/

/-- The tasks of the split's context. -/
def tasksOf (s : State) (c : Cur) (g : Guard) : CtxTasks := (s.ctx (s.iss c g).ctx).tasks

/-- The timestamp that a lane of SPAWN gives. -/
def spawnTs (s : State) (c : Cur) (g : Guard) (dom : Option (BitVec 4 × Src)) (l : Nat) : BitVec 64 :=
  match dom with
  | some x => (s.wave c.wid).val64 (s.iss c g) x.2.reg l
  | none => 0

/-- The uses of SPAWN. -/
def spawnUses (a b : Src) (dom : Option (BitVec 4 × Src)) : List Use :=
  useOf a 2 0 :: useOf b 8 1 :: (match dom with
    | some x => [useOf x.2 2 2]
    | none => [])

/-- The checks of SPAWNF in its active lanes, one after the other (R295). -/
def spawnfAims (s : State) (c : Cur) (g : Guard) (a x : Src) (n : BitVec 2) : List (Nat × Motion × List Acs) × Work :=
  (s.iss c g).act.foldl (fun (r : List (Nat × Motion × List Acs) × Work) l =>
    let y := r.2.aimSpawnf (s.iss c g) a.reg x.reg (n.toNat + 1) l
    (r.1 ++ [(l, y.1)], y.2)) ([], s.work.stamp c)

/-- The word of TSELF (R296): 0 in a lane without a task. -/
def tselfWord (s : State) (c : Cur) (l : Nat) : Word :=
  match ((s.wave c.wid).lane l).task with
  | none => 0
  | some t => BitVec.ofNat 32 (t.dom.toNat + t.pri.toNat * 2 ^ 4 + t.spri.toNat * 2 ^ 6 + (if t.cont then 2 ^ 8 else 0) +
      t.fmask.toNat * 2 ^ 9 + 2 ^ 13)

/-- R296: the lane's own task. -/
def Obligations.TaskSelf : Prop :=
  (∀ (g : Guard) (d : Reg) (w : BitVec 64), decode w = .ok (.tself g d) ↔
    w = 0#2 ++ 0xD5#8 ++ BitVec.ofBool g.neg ++ g.p ++ d.spec ++ 0#44) ∧
  decode 0x3540_3000_0000_0000 = .ok (.tself ⟨false, 0⟩ (.v 3)) ∧
  ∀ d, ResultsS (fun g => .tself g d) ⟨[], some (d, 1)⟩ d 1 clsCtrl (fun _ _ _ => True)
    fun s c _ l => [tselfWord s c l]

/-- R280–R286, R295, R308, R314, R315. -/
def Obligations.Spawning : Prop :=
  (∀ (s : State) (c : Cur) (g : Guard) pri a b dom, CanIssue s c g ⟨spawnUses a b dom, none⟩ ownLane →
    (s.iss c g).act ≠ [] → s.work.mayEnterDomain (s.iss c g) ((dom.map (·.1)).getD 0) = true →
    s.work.otherDomain (s.iss c g) ((dom.map (·.1)).getD 0) = [] →
    (∀ l ∈ (s.iss c g).act, let t := ((s.wave c.wid).val64 (s.iss c g) a.reg l).toNat; t % 8 = 0 ∧ t < 2 ^ 56) →
    (s.iss c g).act.length ≤ (tasksOf s c g).queueRoom (s.ctx (s.iss c g).ctx).rec_.segments
      (clusterOf (s.iss c g).core) pri →
    exec (.spawn g pri a b dom) s = .next (s.done c g clsCtrl 1
      (((s.iss c g).act.foldl (fun w l => w.spawnLane (s.iss c g) pri ((dom.map (·.1)).getD 0)
        (((s.wave c.wid).val64 (s.iss c g) a.reg l).setWidth 56) (spawnTs s c g dom l)
        ((s.wave c.wid).vals (s.iss c g) b.reg 8 l) l) (s.work.stamp c)).advance (s.iss c g)))) ∧
  (∀ (s : State) (c : Cur) (g : Guard) pri a b l, CanIssue s c g ⟨spawnUses a b none, none⟩ ownLane →
    (s.iss c g).act = [l] → s.work.otherDomain (s.iss c g) 0 = [] →
    ((s.wave c.wid).val64 (s.iss c g) a.reg l).toNat % 8 = 0 → ((s.wave c.wid).val64 (s.iss c g) a.reg l).toNat < 2 ^ 56 →
    1 ≤ (tasksOf s c g).queueRoom (s.ctx (s.iss c g).ctx).rec_.segments (clusterOf (s.iss c g).core) pri →
    ∃ (t : State) (r : TaskRec), exec (.spawn g pri a b none) s = .next t ∧
      r ∈ queueRecs (mget (tasksOf t c g).queues (queueKey (clusterOf (s.iss c g).core) pri) []) ∧
      r.entry.toNat = ((s.wave c.wid).val64 (s.iss c g) a.reg l).toNat ∧
      r.args = (s.wave c.wid).vals (s.iss c g) b.reg 8 l ∧ r.pri = pri ∧ r.spri = pri ∧ r.dom = 0 ∧ r.cont = false ∧
      r.fmask = 0 ∧ r.lid = (s.iss c g).lid ∧ r.seq = (tasksOf s c g).nextSeq ∧ r.enq = s.dev.sys.gtick.setWidth 48 ∧
      (tasksOf t c g).nextSeq = (tasksOf s c g).nextSeq + 1 ∧ t.mem = s.mem ∧
      (∀ k, k ≠ queueKey (clusterOf (s.iss c g).core) pri → mget? (tasksOf t c g).queues k = mget? (tasksOf s c g).queues k)) ∧
  (∀ (s : State) (c : Cur) (g : Guard) pri a b x n,
    CanIssue s c g ⟨[useOf a 2 0, useOf b 8 1, useOf x (2 * (n.toNat + 1)) 2], none⟩ ownLane → Irrevocable s c g →
    let r := spawnfAims s c g a x n
    (∀ y ∈ r.1, y.2.1 = .ok) →
    let z := r.2.spawnfLanes (s.iss c g) pri (s.wave c.wid) a.reg b.reg (r.1.map fun y => (y.1, y.2.2))
    z.1 = true →
    exec (.spawnf g pri a b x n) s = .next (s.done c g clsCtrl 1 (z.2.advance (s.iss c g)))) ∧
  (∀ (s : State) (c : Cur) (g : Guard), CanIssue s c g ⟨[], none⟩ ownLane →
    (∀ l ∈ (s.iss c g).act, ((s.wave c.wid).lane l).ordered.isSome = true) →
    exec (.tabort g false) s = .next (s.done c g clsCtrl 1
      (((s.iss c g).act.foldl (fun w l => w.abortLane (s.iss c g) l) (s.work.stamp c)).advance (s.iss c g)))) ∧
  (∀ (s : State) (c : Cur) (g : Guard), CanIssue s c g ⟨[], none⟩ ownLane →
    (∀ l ∈ (s.iss c g).act, ∃ t, ((s.wave c.wid).lane l).ordered = some t ∧
      s.work.isFrontier (s.iss c g).ctx t = true) →
    (∃ t, exec (.tabort g false) s = .next t ∧
      Issued s t c g [chargeOf g clsCtrl 1] 0 ((s.wave c.wid).goOn c.entry s.stamp)) ∧
    (Irrevocable s c g → exec (.tabort g true) s = .next (s.done c g clsCtrl 1
      (((s.iss c g).act.foldl (fun w l => w.dropLane (s.iss c g) l) (s.work.stamp c)).transfer (s.iss c g) []).w))) ∧
  (∀ (s : State) (c : Cur) (g : Guard), CanIssue s c g ⟨[], none⟩ ownLane → Irrevocable s c g →
    (s.iss c g).act ≠ [] →
    ∃ t, exec (.tirrev g) s = .next t ∧
      Issued s t c g [chargeOf g clsCtrl 1] 0 ((s.wave c.wid).goOn c.entry s.stamp)) ∧
  (∀ (s : State) (c : Cur) (g : Guard) a code l, CanIssue s c g ⟨[useOf a 1 0], none⟩ ownLane → Irrevocable s c g →
    (s.iss c g).act.head? = some l →
    (s.work.conf (s.iss c g).ctx = true → ∃ t, exec (.evt g a code) s = .next t ∧
      Issued s t c g [chargeOf g clsCtrl 1] 0 ((s.wave c.wid).goOn c.entry s.stamp)) ∧
    (s.work.conf (s.iss c g).ctx = false → exec (.evt g a code) s = .next (s.done c g clsCtrl 1
      (((s.work.stamp c).evtRecord (s.iss c g) code ((s.wave c.wid).val (s.iss c g) a.reg l)).advance (s.iss c g)))))

/-- The queued tasks of a context. -/
def queuedOf (s : State) (ctx : Nat) : List TaskRec := (s.ctx ctx).tasks.queued

/-- Only a domain's own tasks depend on memory they have read. -/
def OwnDeps (s : State) (ctx : Nat) (dom : BitVec 4) : Prop :=
  ∀ x ∈ s.dev.ctxs, ∀ d ∈ x.2.tasks.deps, x.1 = ctx ∧ d.dom = dom

/-- What the placement of a group on a logical core leaves (R132, R285): a block of one wave, in a free slot of the core; the tasks
run in its lanes in the order in which they joined, from their entry, with their arguments in v0–v7; the wave's lane-private bytes
and the block's scratchpad are zero, and of a launch that lends nothing every other byte of memory stands as it was. -/
structure GroupPlaced (s t : State) (g : Group) (lcore slot : Nat) : Prop where
  block : ∃ b, mget? t.dev.blocks s.dev.sys.nextId = some b ∧ b.task = true ∧ b.lid = g.lid ∧ b.lcore = lcore ∧
    b.core = some ((s.launch g.lid).physical lcore) ∧ b.waves = [s.dev.sys.nextId + 1]
  wave : ∃ v x, mget? t.dev.waves (s.dev.sys.nextId + 1) = some v ∧ v.ctx = (s.launch g.lid).ctx ∧ v.lid = g.lid ∧
    v.bid = s.dev.sys.nextId ∧ v.place = some ((s.launch g.lid).physical lcore, slot) ∧ v.entries = [(0, x)] ∧
    v.overflow = [] ∧ x.state = .ready ∧ x.pc = g.entry ∧ x.mask = maskOf (List.range g.tasks.length) ∧
    (g.tasks.length ≤ 32 → ∀ i r, g.tasks[i]? = some r → (v.lane i).alive = true ∧ (v.lane i).task = some r ∧
      (v.lane i).wdepth = 0 ∧ (r.args.length = 8 → ∀ j < 8, v.rd (0, 1024 * i + j) = r.args.getD j 0)) ∧
    ∀ i, g.tasks.length ≤ i → (v.lane i).alive = false
  lanes : ∀ l < 32, ∀ i < 4096, t.byte (PAddr.lane (s.dev.sys.nextId + 1) l i).key = 0
  scratch : ∀ i < (s.launch g.lid).beta, t.byte (PAddr.scratch s.dev.sys.nextId i).key = 0
  others : (s.launch g.lid).lend = 0 → ∀ k, ¬ inScratch s.dev.sys.nextId 0 (s.launch g.lid).beta k →
    (∀ l < 32, ∀ i < 4096, k ≠ (PAddr.lane (s.dev.sys.nextId + 1) l i).key) → t.byte k = s.byte k

/-- R280–R285, R311, R312. -/
def Obligations.TaskEvents : Prop :=
  (∀ (s : State) (ctx : BitVec 6) cluster pri q off t', mget? (s.ctx ctx.toNat).tasks.queues (queueKey cluster pri) = some q →
    q ≠ [] → queueFull q = true →
    (s.ctx ctx.toNat).tasks.takeSeg (s.ctx ctx.toNat).rec_.segments = some (off, t') →
    exec (.queueSegmentLink ctx cluster pri) s = .next (s.withCtx ctx.toNat fun c =>
      { c with tasks := { t' with queues := mput t'.queues (queueKey cluster pri) (q ++ [⟨off, 0, [], []⟩]) } })) ∧
  (∀ (s : State) (ctx : BitVec 6) cluster pri, queueFull (mget (s.ctx ctx.toNat).tasks.queues (queueKey cluster pri) []) = false →
    exec (.queueSegmentLink ctx cluster pri) s = .next s) ∧
  (∀ (s : State) (ctx : BitVec 6) seq r, (queuedOf s ctx.toNat).find? (fun r => r.seq.toNat == seq) = some r →
    (s.ctx ctx.toNat).state = .running → s.work.promotionDue ctx.toNat r = true →
    ∃ t, exec (.taskPromote ctx seq) s = .next t ∧ t.mem = s.mem ∧
      { r with pri := r.pri + 1, enq := s.dev.sys.gtick.setWidth 48 } ∈ queuedOf t ctx.toNat ∧
      r ∉ queueRecs (mget (t.ctx ctx.toNat).tasks.queues (queueKey r.cluster r.pri) []) ∧
      ∀ x ∈ queuedOf s ctx.toNat, x.seq ≠ r.seq → (∀ q ∈ (s.ctx ctx.toNat).tasks.queues, ∀ g ∈ q.2, ∀ k, g.tail ≤ k →
        mget? g.recs k = none) → x ∈ queuedOf t ctx.toNat) ∧
  (∀ (s : State) (ctx : BitVec 6) seq, (∀ r ∈ queuedOf s ctx.toNat, r.seq.toNat = seq →
      (s.ctx ctx.toNat).state ≠ .running ∨ s.work.promotionDue ctx.toNat r = false) →
    exec (.taskPromote ctx seq) s = .next s) ∧
  (∀ (s : State) (ctx : BitVec 6) pri src dst r rest, dst < 24 → src ≠ dst →
    queueRecs (mget (s.ctx ctx.toNat).tasks.queues (queueKey src pri) []) = r :: rest → r.pri = pri →
    (∀ q ∈ (s.ctx ctx.toNat).tasks.groups, ∀ g ∈ q.2, ∀ x ∈ g.tasks, x.seq ≠ r.seq) →
    1 ≤ (s.ctx ctx.toNat).tasks.queueRoom (s.ctx ctx.toNat).rec_.segments dst pri →
    ∃ t, exec (.taskMove ctx pri src dst 1) s = .next t ∧ t.mem = s.mem ∧
      { r with cluster := dst } ∈ queueRecs (mget (t.ctx ctx.toNat).tasks.queues (queueKey dst pri) []) ∧
      ∀ x ∈ queueRecs (mget (t.ctx ctx.toNat).tasks.queues (queueKey src pri) []), x.seq ≠ r.seq) ∧
  (∀ (s : State) (ctx : BitVec 6) pri src dst n, 24 ≤ dst ∨ src = dst ∨
      queueRecs (mget (s.ctx ctx.toNat).tasks.queues (queueKey src pri) []) = [] →
    ∃ t, exec (.taskMove ctx pri src dst n) s = .next t ∧ t.mem = s.mem ∧ queuedOf t ctx.toNat = queuedOf s ctx.toNat) ∧
  (∀ (s : State) cluster, exec (.chuckScan cluster) s =
    .next (landed s ((s.work.scanned cluster).foldl (fun w x => w.gather cluster x) s.work)) ∧
    (landed s ((s.work.scanned cluster).foldl (fun w x => w.gather cluster x) s.work)).mem = s.mem ∧
    ∀ x, s.work.scanned cluster = [x] → (mget (s.ctx x.ctx).tasks.groups cluster []).find? (fun g => g.keyOf x.task) = none →
      s.work.openGroups cluster < 8 → ∃ t, exec (.chuckScan cluster) s = .next t ∧
        mget (t.ctx x.ctx).tasks.groups cluster [] = mget (s.ctx x.ctx).tasks.groups cluster [] ++
          [⟨x.task.lid, x.task.entry, x.task.dom, x.task.pri, s.dev.sys.gtick, [x.task], (s.ctx x.ctx).rec_.gwin == 0⟩]) ∧
  (∀ (s : State) cluster idx ctx g, (s.work.groupsOf cluster)[idx]? = some (ctx, g) → s.work.windowPassed ctx g = true →
    g ∈ mget (s.ctx ctx).tasks.groups cluster [] →
    ∃ t, exec (.chuckWindowExpire cluster idx) s = .next t ∧ t.mem = s.mem ∧
      { g with ready := true } ∈ mget (t.ctx ctx).tasks.groups cluster []) ∧
  (∀ (s : State) cluster idx, ((s.work.groupsOf cluster)[idx]? = none ∨ ∃ x, (s.work.groupsOf cluster)[idx]? = some x ∧
      s.work.windowPassed x.1 x.2 = false) → exec (.chuckWindowExpire cluster idx) s = .next s) ∧
  (∀ (s : State) cluster idx ctx g, Safe s → s.work.nextGroup cluster = some idx →
    (s.work.groupsOf cluster)[idx]? = some (ctx, g) →
    ∃ t lcore slot, exec (.taskWavePlace cluster idx) s = .next t ∧ s.work.groupCore g.lid cluster = some (lcore, [slot]) ∧
      GroupPlaced s t g lcore slot ∧
      (∀ r ∈ g.tasks, ∀ x ∈ queuedOf t ctx, x.seq ≠ r.seq) ∧ g ∉ mget (t.ctx ctx).tasks.groups cluster []) ∧
  (∀ (s : State) cluster idx, s.work.nextGroup cluster ≠ some idx → exec (.taskWavePlace cluster idx) s = .next s) ∧
  (∀ (s : State) (ctx : BitVec 6) dom d f, Safe s → s.work.domain ctx.toNat dom = some d → d.tasks = [f] →
    f.state = .finished → f.drop = false → OwnDeps s ctx.toNat dom →
    let mine := (s.ctx ctx.toNat).tasks.versions.filter fun x => x.dom == dom && x.seq == f.task.seq
    (mine.map (·.sector)).Nodup → (∀ x ∈ mine, x.bytes.length = 16) →
    ∃ t d', exec (.taskCommit ctx dom) s = .next t ∧ t.work.domain ctx.toNat dom = some d' ∧ d'.tasks = [] ∧
      d'.lastTs = f.task.ts ∧ d'.lastSeq = f.task.seq ∧
      (∀ x ∈ mine, ∀ i < 16, t.byte (PAddr.hbm (16 * x.sector + i)).key = x.bytes.getD i 0) ∧
      (∀ k, (∀ x ∈ mine, ¬ coversByte (PAddr.hbm (16 * x.sector)).key 16 k) → t.byte k = s.byte k)) ∧
  (∀ (s : State) (ctx : BitVec 6) dom, s.work.domain ctx.toNat dom = none → exec (.taskCommit ctx dom) s = .next s)

/-- A doorbell write through a port is taken (R320, R371, R374, R390): the port works, its function 1 and the part are not frozen,
the image was not refused, and the Headstock's access table lets the function write. -/
def Rings (s : State) (port : Bool) : Prop :=
  (s.work.port (portNo port)).up = true ∧ (s.work.port (portNo port)).fn1Frozen = false ∧ s.dev.tail.frozen = false ∧
    s.dev.sec.boot = 0 ∧ tableAllows s.dev.hub 8 (64 + 2 * portNo port + 1) 1 none = true

/-- R250, R318–R328. -/
def Obligations.Launches : Prop :=
  (∀ (s : State) (ctx : BitVec 6) c bs l, mget? s.dev.ctxs ctx.toNat = some c → c.state = .running → c.head ≠ c.tail →
    c.ringStuck = false → s.work.inFlight ctx.toNat < 16 → s.work.headRead ctx.toNat (c.rec_.entryVa c.head) 256 = .ok bs →
    (s.work.modCtx ctx.toNat fun c => { c with head := c.head + 1 }).accept ctx.toNat c.head
      (fun n => (le64 bs (8 * n)).toNat) = .ok l →
    ∃ t searched, exec (.ringEntryTake ctx) s = .next t ∧ t.mem = s.mem ∧ (t.ctx ctx.toNat).head = c.head + 1 ∧
      t.launch s.dev.sys.nextId =
        { l with
          state := if l.ser ∧ s.work.behind ctx.toNat c.head then .waiting else .running
          waits := searched }) ∧
  (∀ (s : State) (ctx : BitVec 6) c k, mget? s.dev.ctxs ctx.toNat = some c → c.state = .running → c.head ≠ c.tail →
    c.ringStuck = false → s.work.inFlight ctx.toNat < 16 →
    s.work.headRead ctx.toNat (c.rec_.entryVa c.head) 256 = .error k →
    ∃ t, exec (.ringEntryTake ctx) s = .next t ∧ (t.ctx ctx.toNat).ringStuck = true ∧ (t.ctx ctx.toNat).head = c.head) ∧
  (∀ (s : State) (ctx : BitVec 6), (∀ c, mget? s.dev.ctxs ctx.toNat = some c → c.state ≠ .running ∨ c.head = c.tail ∨
      c.ringStuck = true ∨ 16 ≤ s.work.inFlight ctx.toNat) → exec (.ringEntryTake ctx) s = .next s) ∧
  (∀ (s : State) (ctx : BitVec 6) lid lcore slots, (s.ctx ctx.toNat).state = .running →
    s.work.nextBlock ctx.toNat = some (lid, lcore, slots) → s.work.mayGive lid lcore = true →
    ∃ t b, exec (.blockPlace ctx) s = .next t ∧ (t.launch lid).next = (s.launch lid).next + 1 ∧
      (t.launch lid).search = lcore + 1 ∧ mget? t.dev.blocks s.dev.sys.nextId = some b ∧
      b.lid = lid ∧ b.idx = BitVec.ofNat 64 (s.launch lid).next ∧ b.core = some ((s.launch lid).physical lcore) ∧
      b.lcore = lcore ∧ b.sh = [] ∧ b.bars = [] ∧ b.waves.length = slots.length ∧ b.task = false) ∧
  (∀ (s : State) (ctx : BitVec 6), (s.ctx ctx.toNat).state ≠ .running ∨ s.work.nextBlock ctx.toNat = none ∨
      (∃ lid lcore slots, s.work.nextBlock ctx.toNat = some (lid, lcore, slots) ∧ s.work.mayGive lid lcore = false) →
    exec (.blockPlace ctx) s = .next s) ∧
  (∀ (s : State) bid b, mget? s.dev.blocks bid = some b → s.work.retirable bid = true →
    (∀ x ∈ (s.core (b.core.getD 0)).chans, x.2.owner ≠ some bid) →
    ∃ t, exec (.blockRetire bid) s = .next t ∧ t.mem = s.mem ∧ mget? t.dev.blocks bid = none ∧
      (t.launch b.lid).retired = if b.task then (s.launch b.lid).retired else (s.launch b.lid).retired + 1) ∧
  (∀ (s : State) bid, mget? s.dev.blocks bid = none ∨ s.work.retirable bid = false →
    exec (.blockRetire bid) s = .next s) ∧
  (∀ (s : State) lid, (s.ctx (s.launch lid).ctx).state = .running → s.work.launchDone lid = true →
    (s.launch lid).siga = 0 → (s.launch lid).futa = 0 → mget? s.dev.launches lid ≠ none →
    ∃ t, exec (.launchEnd lid) s = .next t ∧ t.mem = s.mem ∧ mget? t.dev.launches lid = none ∧
      ∀ k, (t.core k).owner ≠ some lid) ∧
  (∀ (s : State) lid, (s.ctx (s.launch lid).ctx).state ≠ .running → exec (.launchEnd lid) s = .next s) ∧
  (∀ (s : State) port (ctx : BitVec 6) v c, mget? s.dev.ctxs ctx.toNat = some c → Rings s port →
    (v - c.head).toNat ≤ 2 ^ c.rec_.rlog →
    c.rec_.cls ≠ 7 ∨ v = c.head ∨ s.dev.hub.evac ≠ none ∧ s.work.evacRuns = true →
    exec (.doorbellWrite ⟨port, ctx⟩ v) s = .next (s.withCtx ctx.toNat fun c => { c with ringStuck := false, tail := v })) ∧
  (∀ (s : State) port (ctx : BitVec 6) v c, mget? s.dev.ctxs ctx.toNat = some c → Rings s port →
    (v - c.head).toNat ≤ 2 ^ c.rec_.rlog → c.rec_.cls = 7 → s.dev.hub.evac = none → v ≠ c.head →
    ∃ t, exec (.doorbellWrite ⟨port, ctx⟩ v) s = .next t ∧ (t.ctx ctx.toNat).tail = v ∧ t.dev.hub.evac = some ctx.toNat) ∧
  (∀ (s : State) port (ctx : BitVec 6) v c, mget? s.dev.ctxs ctx.toNat = some c → Rings s port →
    2 ^ c.rec_.rlog < (v - c.head).toNat →
    ∃ t, exec (.doorbellWrite ⟨port, ctx⟩ v) s = .next t ∧ (t.ctx ctx.toNat).tail = c.tail ∧ (t.ctx ctx.toNat).ringStuck = false) ∧
  (∀ (s : State) port (ctx : BitVec 6) v, (s.work.port (portNo port)).up = false ∨
      (s.work.port (portNo port)).fn1Frozen = true ∨ s.dev.tail.frozen = true ∨ s.dev.sec.boot ≠ 0 ∨
      Rings s port ∧ mget? s.dev.ctxs ctx.toNat = none →
    exec (.doorbellWrite ⟨port, ctx⟩ v) s = .next s)

/-! ### Contexts (20, 21) -/

/-- A state with the Headstock, the Tailstock or the power unit changed. -/
def withHub (s : State) (f : Hub → Hub) : State := { s with dev := { s.dev with hub := f s.dev.hub } }
def withTail (s : State) (f : Tailstock → Tailstock) : State := { s with dev := { s.dev with tail := f s.dev.tail } }
def withPow (s : State) (f : Power → Power) : State := { s with dev := { s.dev with pow := f s.dev.pow } }

/-- A state in which a command has ended with a code (R349). -/
def answered (s : State) (op res : Nat) : State :=
  withHub s fun h => { h with busy := false, res := BitVec.ofNat 8 res, lastop := BitVec.ofNat 8 op }

/-- A command has ended with a code. -/
def Answers (t : State) (op res : Nat) : Prop :=
  t.dev.hub.busy = false ∧ t.dev.hub.res = BitVec.ofNat 8 res ∧ t.dev.hub.lastop = BitVec.ofNat 8 op

/-- A state in which every launch that waits for a block to retire searches again (R326). -/
def searching (s : State) : State :=
  { s with dev := { s.dev with launches := s.dev.launches.map fun x => (x.1, { x.2 with waits := false }) } }

/-- The record that a CREATE reads: 128 bytes of host memory at CMDA. -/
def createBytes (s : State) : List Byte := s.work.bytes (PAddr.host s.dev.hub.cmda.toNat).key 128

/-- R346–R350, R395. In which order the codes are decided (1 before 2 for CREATE, 2 before 1 for STATUS, 1 before 6 for SETVW) and
which frame ROOT may name are log entry 57 (DEDUCED). -/
def Obligations.ContextCommands : Prop :=
  (∀ (s : State), s.dev.sec.boot ≠ 0 → ∀ (ctx : BitVec 6) (v : BitVec 2),
    exec (.create ctx) s = .next (answered s 1 6) ∧ exec (.destroy ctx) s = .next (answered s 2 6) ∧
      exec (.suspend ctx) s = .next (answered s 3 6) ∧ exec (.resume ctx) s = .next (answered s 4 6) ∧
      exec (.status ctx) s = .next (answered s 5 6) ∧ exec (.setvw v) s = .next (answered s 16 6)) ∧
  (∀ (s : State) (ctx : BitVec 6), s.dev.sec.boot = 0 → mget? s.dev.ctxs ctx.toNat = none →
    exec (.destroy ctx) s = .next (answered s 2 2) ∧ exec (.suspend ctx) s = .next (answered s 3 2) ∧
      exec (.resume ctx) s = .next (answered s 4 2) ∧ exec (.status ctx) s = .next (answered s 5 2)) ∧
  (∀ (s : State) (ctx : BitVec 6), s.dev.sec.boot = 0 →
    (s.dev.hub.cmda.toNat % 128 ≠ 0 ∨ recordOk (createBytes s) = false →
      exec (.create ctx) s = .next (answered s 1 1)) ∧
    (s.dev.hub.cmda.toNat % 128 = 0 → recordOk (createBytes s) = true → (mget? s.dev.ctxs ctx.toNat).isSome = true →
      exec (.create ctx) s = .next (answered s 1 2))) ∧
  (∀ (s : State) (ctx : BitVec 6) m, Safe s → s.dev.sec.boot = 0 → s.dev.hub.cmda.toNat % 128 = 0 →
    recordOk (createBytes s) = true → mget? s.dev.ctxs ctx.toNat = none →
    ((recordOf (createBytes s)).cls = 7 → ∀ x ∈ s.dev.ctxs, x.2.rec_.cls ≠ 7) →
    s.work.rootOk (recordOf (createBytes s)).root = true →
    ((s.work.takeRoot ctx.toNat (recordOf (createBytes s)).root).reserveAll ctx.toNat (recordOf (createBytes s))).1 = some m →
    s.work.evacAreaOk (recordOf (createBytes s)) = true →
    ∃ t, exec (.create ctx) s = .next t ∧ Answers t 1 0 ∧ t.dev.hub.created = true ∧
      t.ctx ctx.toNat = { Context.blank with rec_ := recordOf (createBytes s), mem := m, since := s.dev.sys.gtick } ∧
      ∀ k, t.byte k = if coversByte (PAddr.chip ctx.toNat 0).key (recordOf (createBytes s)).chipw k then 0 else s.byte k) ∧
  (∀ (s : State) (ctx : BitVec 6) c, Safe s → s.dev.sec.boot = 0 → mget? s.dev.ctxs ctx.toNat = some c →
    c.broken = false → s.dev.hub.cmda.toNat % 128 = 0 →
    ∃ t, exec (.status ctx) s = .next t ∧ Answers t 5 0 ∧ t.dev = (answered s 5 0).dev ∧
      ∀ k, t.byte k = if coversByte (PAddr.host s.dev.hub.cmda.toNat).key 64 k then
        c.statusBlock.getD ((k - (PAddr.host s.dev.hub.cmda.toNat).key) / 8) 0 else s.byte k) ∧
  (∀ (s : State) (v : BitVec 2), s.dev.sec.boot = 0 →
    (v = 3 → exec (.setvw v) s = .next (answered s 16 1)) ∧
    (v ≠ 3 → (∃ x ∈ s.dev.ctxs, x.2.tasks.doms ≠ []) → exec (.setvw v) s = .next (answered s 16 6)) ∧
    (v ≠ 3 → (∀ x ∈ s.dev.ctxs, x.2.tasks.doms = []) →
      exec (.setvw v) s = .next (withHub (answered s 16 0) fun h => { h with vways := v }))) ∧
  (∀ (s : State) (ctx : BitVec 6) c, s.dev.sec.boot = 0 → mget? s.dev.ctxs ctx.toNat = some c →
    (c.broken = true → exec (.status ctx) s = .next (answered s 5 6) ∧ exec (.suspend ctx) s = .next (answered s 3 6)) ∧
    (c.state ≠ .running → c.broken = false → exec (.suspend ctx) s =
      .next (answered (s.withCtx ctx.toNat fun c => { c with suspended := true }) 3 0)) ∧
    (c.state = .running → c.broken = false → ∃ t, exec (.suspend ctx) s = .next t ∧ Answers t 3 0 ∧ (t.ctx ctx.toNat).state = .frozen ∧
      (t.ctx ctx.toNat).suspended = true ∧ ∀ x ∈ t.dev.waves, x.2.ctx = ctx.toNat → x.2.place = none) ∧
    (c.state = .running ∨ c.broken = true → exec (.resume ctx) s = .next (answered s 4 6)) ∧
    (c.state ≠ .running → c.broken = false → exec (.resume ctx) s =
      .next (answered (s.withCtx ctx.toNat fun c => { c.comeBack with suspended := false }) 4 0)) ∧
    ∃ t, exec (.destroy ctx) s = .next t ∧ Answers t 2 0 ∧ mget? t.dev.ctxs ctx.toNat = none ∧
      (∀ x ∈ t.dev.waves, x.2.ctx ≠ ctx.toNat) ∧ (∀ x ∈ t.dev.blocks, x.2.ctx ≠ ctx.toNat) ∧
      ∀ x ∈ t.dev.launches, x.2.ctx ≠ ctx.toNat)

/-- R351–R357. -/
def Obligations.Residency : Prop :=
  (∀ (s : State) (ctx : BitVec 6), exec (.quantumExpire ctx) s = .next (if s.work.quantumPassed ctx.toNat then
      s.withCtx ctx.toNat fun c => { c with expired := true } else s)) ∧
  (∀ (s : State) (ctx : BitVec 6), s.work.nextVictim = some ctx.toNat →
    ∃ t, exec (.preempt ctx) s = .next t ∧ (t.ctx ctx.toNat).state = .frozen ∧
      (t.ctx ctx.toNat).frozenAt = s.dev.sys.gtick ∧ ∀ x ∈ t.dev.waves, x.2.ctx = ctx.toNat → x.2.place = none) ∧
  (∀ (s : State) (ctx : BitVec 6), s.work.nextVictim ≠ some ctx.toNat → exec (.preempt ctx) s = .next s) ∧
  (∀ (s : State) (ctx : BitVec 6) fs, s.work.nextRestore = some (ctx.toNat, fs) →
    ∃ t, exec (.contextRestore ctx) s = .next t ∧ (t.ctx ctx.toNat).state = .running ∧ (t.ctx ctx.toNat).saved = [] ∧
      (t.ctx ctx.toNat).since = s.dev.sys.gtick ∧ (t.ctx ctx.toNat).expired = false) ∧
  (∀ (s : State) (ctx : BitVec 6), (∀ fs, s.work.nextRestore ≠ some (ctx.toNat, fs)) →
    exec (.contextRestore ctx) s = .next s) ∧
  (∀ (s : State) wid, s.work.nextEvict = some wid → ∃ m, exec (.waveEvict wid) s =
    .next (searching (s.withWave wid fun v => { v with place := none, evicted := true, spillSave := m }))) ∧
  (∀ (s : State) wid, s.work.nextEvict ≠ some wid → exec (.waveEvict wid) s = .next s) ∧
  (∀ (s : State) wid core slot, s.work.returnSlot wid = some (core, slot) → (s.wave wid).spillSave = [] →
    ∃ t, exec (.waveReturn wid) s = .next t ∧ t.mem = s.mem ∧
      t.wave wid = { s.wave wid with place := some (core, slot), slot := slot, evicted := false, spillSave := [] }) ∧
  (∀ (s : State) wid, s.work.returnSlot wid = none → exec (.waveReturn wid) s = .next s) ∧
  (∀ (s : State) wid idx resp o, mget? (s.wave wid).outs idx = some o →
    (o.ext = false ∨ s.work.viaHeld o.via = true ∨ s.dev.tail.frozen = true →
      exec (.outstandingResponse wid idx resp) s = .next s) ∧
    (o.ext = true → o.kind = .futget → exec (.outstandingResponse wid idx .ack) s = .next s) ∧
    (o.ext = true → s.work.viaHeld o.via = false → s.dev.tail.frozen = false → (o.kind = .futget → resp ≠ .ack ∧
        ((∃ bs, resp = .data bs) → (o.fut, wid, some idx) ∈ (s.ctx (s.wave wid).ctx).tasks.futWait)) →
      ∃ t, exec (.outstandingResponse wid idx resp) s = .next t ∧ mget? (t.wave wid).outs idx = none))

/-- R331, R334, R339, R359, R361. That the frames of tables, save area and segment pool go one by one among the pages, the tables last,
that the frame of the level-0 table stays, and that no mapping is written while the tables are away, are log entry 55 (DEDUCED);
that a closed record leaves its table at once is log entry 16 (DEDUCED). -/
def Obligations.Paging : Prop :=
  (∀ (s : State), s.work.evacRuns = false → exec .evacuationPageSend s = .next s) ∧
  (∀ (s : State) p, Safe s → s.work.evacRuns = true → s.work.anyPort = true →
    s.work.evacOrder.find? s.work.allSent = none → s.work.nextSent = some (.page p) →
    s.work.xtsKey p.ctx = none → (∀ x ∈ s.dev.ctxs, x.2.tasks.regs = []) →
    ∃ t, exec .evacuationPageSend s = .next t ∧
      t.work.num (PAddr.hbm p.at_).key 8 = ((p.leaf &&& ~~~0x21) ||| 0x200).toNat ∧
      (t.ctx p.ctx).evb = (s.ctx p.ctx).evb + BitVec.ofNat 64 (sentSize p.level) ∧
      ∀ k, k % 8 ≠ 1 → ¬ coversByte (PAddr.hbm p.at_).key 8 k → t.byte k = s.byte k) ∧
  (∀ (s : State) c f, Safe s → s.work.evacRuns = true → s.work.anyPort = true →
    s.work.evacOrder.find? s.work.allSent = none → s.work.nextSent = some (.frame c f) →
    (∀ q ∈ (s.ctx c).mem.pages, q.out = true) →
    ∃ t, exec .evacuationPageSend s = .next t ∧ (t.ctx c).mem = (s.ctx c).mem.sent f ∧
      (t.ctx c).evb = (s.ctx c).evb + BitVec.ofNat 64 (sentSize 4) ∧
      ∀ k, k % 8 ≠ 1 → ¬ coversByte (PAddr.hbm (f * 65536)).key 65536 k → t.byte k = s.byte k) ∧
  (∀ (s : State), s.work.evacRuns = true → s.work.anyPort = false →
    ∃ t, exec .evacuationPageSend s = .next t ∧ t.dev.hub.evacOn = false) ∧
  (∀ (s : State) c, s.work.evacRuns = true → s.work.anyPort = true → s.work.evacOrder.find? s.work.allSent = some c →
    ∃ t, exec .evacuationPageSend s = .next t ∧ (t.ctx c).state = .evacuated ∧ (t.ctx c).mem.sysOut = true ∧
      t.mem = s.mem) ∧
  (∀ (s : State) (ctx : BitVec 6) va p, Safe s → s.work.anyPort = true → (s.ctx ctx.toNat).mem.sysAway = false →
    ((s.ctx ctx.toNat).state = .returning ∨ (s.ctx ctx.toNat).state = .running) →
    s.work.nextReturn ctx.toNat = some (va, p) → (∀ x ∈ s.dev.hub.links, x.2.held = []) →
    (∀ a ∈ s.work.returnSlots ctx.toNat p, a % 65536 = 0 ∧ a < 2 ^ 52) →
    ∃ t, exec (.pageReturn ctx) s = .next t ∧ bit (t.work.num (PAddr.hbm p.leaf).key 8) 0 = true ∧
      bit (t.work.num (PAddr.hbm p.leaf).key 8) 5 = false ∧ bit (t.work.num (PAddr.hbm p.leaf).key 8) 9 = false ∧
      ∀ q ∈ (t.ctx ctx.toNat).mem.pages, q.leaf = p.leaf → q.out = false) ∧
  (∀ (s : State) (ctx : BitVec 6), s.work.anyPort = true → s.work.sysBack ctx.toNat = true →
    (s.ctx ctx.toNat).state = .returning → s.dev.hub.links = [] →
    ∃ t, exec (.pageReturn ctx) s = .next t ∧ (t.ctx ctx.toNat).mem = { (s.ctx ctx.toNat).mem with sysOut := false, sysSent := [] }) ∧
  (∀ (s : State) (ctx : BitVec 6), s.dev.hub.links = [] →
    ((s.ctx ctx.toNat).state ≠ .returning ∧ (s.ctx ctx.toNat).state ≠ .running) ∨ s.work.anyPort = false ∨
      ((s.ctx ctx.toNat).mem.sysAway = true ∧ s.work.sysBack ctx.toNat = false) ∨
      ((s.ctx ctx.toNat).mem.sysAway = false ∧ s.work.nextReturn ctx.toNat = none) →
    exec (.pageReturn ctx) s = .next s) ∧
  (∀ (s : State) (ctx : BitVec 6) f, (mget? s.dev.ctxs ctx.toNat).isSome = true →
    exec (.mapRequest ctx f) s = .next (landed s (s.work.mapLeaf ctx.toNat f).2)) ∧
  (∀ (s : State) (ctx : BitVec 6) f at_ w, Safe s → (mget? s.dev.ctxs ctx.toNat).isSome = true → leafReqOk f = true →
    (s.ctx ctx.toNat).mem.sysAway = false → f.v = true → f.kind ≠ 0 →
    (s.work.leafAt ctx.toNat f.va.toNat f.level).getD 0 % 2 = 0 →
    s.work.entryFor ctx.toNat f.va.toNat (s.ctx ctx.toNat).rec_.root f.level tableLevels = (some at_, w) →
    w.num (PAddr.hbm at_).key 8 % 2 = 0 →
    ∃ t, exec (.mapRequest ctx f) s = .next t ∧ t.work.num (PAddr.hbm at_).key 8 = leafWord f false % 2 ^ 64) ∧
  (∀ (s : State) (ctx : BitVec 6) f, mget? s.dev.ctxs ctx.toNat = none ∨ leafReqOk f = false ∨
      (s.ctx ctx.toNat).mem.sysAway = true → exec (.mapRequest ctx f) s = .next s) ∧
  (∀ (s : State) (ctx : BitVec 6) (va : BitVec 56) n, ∃ t, exec (.invalidation ctx va n) s = .next t ∧ t.mem = s.mem ∧
    (∀ k, ∀ x ∈ (t.core k).tlb, x.ctx ≠ ctx.toNat ∨ va.toNat + n ≤ x.vpn * 2 ^ pageBits x.level ∨
      (x.vpn + 1) * 2 ^ pageBits x.level ≤ va.toNat) ∧
    (∀ y ∈ t.dev.mmu.tlbCluster ++ t.dev.mmu.tlbDie, ∀ x ∈ y.2, x.ctx ≠ ctx.toNat ∨
      va.toNat + n ≤ x.vpn * 2 ^ pageBits x.level ∨ (x.vpn + 1) * 2 ^ pageBits x.level ≤ va.toNat) ∧
    ∀ k, ∀ x ∈ (s.core k).tlb, x.ctx ≠ ctx.toNat → x ∈ (t.core k).tlb) ∧
  (∀ (s : State) m, s.work.oldestRecord = none → exec (.faultRecordService m) s = .next s) ∧
  (∀ (s : State) m r e a lv, s.work.oldestRecord = some r → walk s.work r.ctx (r.vpage * 65536) = .leaf e a lv →
    (∀ x ∈ r.waiters, ∃ wid l g, x = .split wid l g) →
    (∀ x ∈ s.dev.mmu.short, x.1 = r.die → ∃ wid l g, x.2 = .split wid l g) →
    ∃ t, exec (.faultRecordService m) s = .next t ∧ r ∉ t.dev.mmu.faults ∧ t.mem = s.mem ∧
      ∀ x ∈ s.dev.mmu.faults, x ≠ r → x ∈ t.dev.mmu.faults) ∧
  (∀ (s : State) r lv, s.work.oldestRecord = some r → walk s.work r.ctx (r.vpage * 65536) = .bad lv →
    s.work.markedPage r.ctx (r.vpage * 65536) = none → (∀ x ∈ r.waiters, ∃ wid l g, x = .split wid l g) →
    (∀ x ∈ s.dev.mmu.short, x.1 = r.die → ∃ wid l g, x.2 = .split wid l g) →
    ∃ t, exec (.faultRecordService none) s = .next t ∧ r ∉ t.dev.mmu.faults ∧ t.mem = s.mem ∧
      ∀ x ∈ s.dev.mmu.faults, x ≠ r → x ∈ t.dev.mmu.faults)

/-! ### Ports, links and the tick of neighbours (23) -/

/-- A state with a port or a link of the Headstock changed. -/
def withPort (s : State) (port : Bool) (f : Port → Port) : State :=
  withHub s fun h => { h with ports := mmod h.ports (portNo port) Port.blank f }
def withLink (s : State) (n : BitVec 4) (f : Link → Link) : State :=
  withHub s fun h => { h with links := mmod h.links n.toNat Link.blank f }

/-- A link, and a host port. -/
def linkOf (s : State) (n : BitVec 4) : Link := mget s.dev.hub.links n.toNat Link.blank
def portOf (s : State) (p : Bool) : Port := mget s.dev.hub.ports (portNo p) Port.blank

/-- A request of a master passes every check of R371, R374 and R375: it is inside this part's HBM, the access tables allow it,
and its lines are plain. -/
structure Admitted (s : State) (m : Nat) (r : ExtReq) : Prop where
  inside : reqAddr r + reqBytes r ≤ Config.hbmBytes
  allowed : ∀ x ∈ linePieces (reqAddr r) (reqBytes r), tableAllows s.dev.hub (hbmTarget x.1) m (reqKind r) (some x.1) = true
  plain : ∀ x ∈ linePieces (reqAddr r) (reqBytes r), mget s.dev.tags (x.1 / 128) 0 = 0
  ours : ∀ c, s.work.ctxOfPa (reqAddr r) = some c → s.work.conf c = false
  sound : s.work.badData (PAddr.hbm (reqAddr r)).key (reqBytes r) = false

/-- The part serves requests: it is not frozen and its image was accepted. -/
def Serves (s : State) : Prop := s.dev.tail.frozen = false ∧ s.dev.sec.boot = 0

/-- A state with one more reply to a master. -/
def withReply (s : State) (m : Nat) (r : ExtResp) : State := withHub s fun h => { h with replies := h.replies ++ [(m, r)] }

/-- R371, R372, R360. -/
def Obligations.OutsideRequests : Prop :=
  (∀ (s : State) port fn a n, (portOf s port).up = true → (portOf s port).fnFrozen fn = false → Serves s →
    let m := 64 + 2 * portNo port + b2n fn
    Admitted s m (.read a n) →
    exec (.hostWindowAccess port fn (.read a n)) s =
      .next (withReply s m (.data (s.work.bytes (PAddr.hbm a.toNat).key n)))) ∧
  (∀ (s : State) port fn a bs, Safe s → (portOf s port).up = true → (portOf s port).fnFrozen fn = false → Serves s →
    Admitted s (64 + 2 * portNo port + b2n fn) (.write a bs) → NoDeps s →
    ∃ t, exec (.hostWindowAccess port fn (.write a bs)) s = .next t ∧
      ∀ k, t.byte k = if coversByte (PAddr.hbm a.toNat).key bs.length k then
        bs.getD ((k - (PAddr.hbm a.toNat).key) / 8) 0 else s.byte k) ∧
  (∀ (s : State) port fn r, (portOf s port).up = false ∨ (portOf s port).fnFrozen fn = true ∨ s.dev.sec.boot ≠ 0 →
    exec (.hostWindowAccess port fn r) s = .next s) ∧
  (∀ (s : State) port fn a n, (portOf s port).up = true → (portOf s port).fnFrozen fn = false → s.dev.sec.boot = 0 →
    s.dev.tail.frozen = true →
    exec (.hostWindowAccess port fn (.read a n)) s = .next (withReply s (64 + 2 * portNo port + b2n fn) .ca)) ∧
  (∀ (s : State) l a n, (linkOf s l).up = true → (linkOf s l).frozen = false → Serves s →
    s.work.heldBack l.toNat (.read a n) = false → Admitted s (72 + l.toNat) (.read a n) →
    exec (.peerRequest l (.read a n)) s =
      .next (withReply s (72 + l.toNat) (.data (s.work.bytes (PAddr.hbm a.toNat).key n)))) ∧
  (∀ (s : State) l a bs, Safe s → (linkOf s l).up = true → (linkOf s l).frozen = false → Serves s →
    s.work.heldBack l.toNat (.write a bs) = false → Admitted s (72 + l.toNat) (.write a bs) → NoDeps s →
    ∃ t, exec (.peerRequest l (.write a bs)) s = .next t ∧
      ∀ k, t.byte k = if coversByte (PAddr.hbm a.toNat).key bs.length k then
        bs.getD ((k - (PAddr.hbm a.toNat).key) / 8) 0 else s.byte k) ∧
  (∀ (s : State) l r, (linkOf s l).up = true → (linkOf s l).frozen = false → Serves s → s.work.heldBack l.toNat r = true →
    exec (.peerRequest l r) s = .next (withLink s l fun x => { x with held := x.held ++ [⟨r⟩] })) ∧
  (∀ (s : State) l r, (linkOf s l).up = false ∨ (linkOf s l).frozen = true ∨ ¬ Serves s → exec (.peerRequest l r) s = .next s)

/-- R370–R373, R376. That training a port gives function 1 bus mastering is log entry 63, that it places the doorbell pages of
function 1 at a fixed address is log entry 97, and which trained link is the upstream one is log entry 64: DESIGN CHOICES. -/
def Obligations.PortsAndLinks : Prop :=
  (∀ (s : State) port lanes rate, 16 ≤ lanes → 128 ≤ rate → exec (.hostPortTrain port lanes rate) s =
    .next (withPort s port fun p => { p with
      up := true, lanes := lanes, rate := rate, bme := true, bar2 := some (Config.bar2At (portNo port)) })) ∧
  (∀ (s : State) port lanes rate, lanes < 16 ∨ rate < 128 → ∃ t, exec (.hostPortTrain port lanes rate) s = .next t ∧
    portOf t port = { portOf s port with
      up := true, lanes := lanes, rate := rate, bme := true, bar2 := some (Config.bar2At (portNo port)) }) ∧
  (∀ (s : State) port, (∀ x ∈ s.dev.waves, x.2.cpas = [] ∧ ∀ y ∈ x.2.outs, y.2.via ≠ some (9 + portNo port)) →
    exec (.hostPortDown port) s = .next (withPort s port fun p => { p with up := false })) ∧
  (∀ (s : State) port, ∃ t, exec (.hostPortDown port) s = .next t ∧ portOf t port = { portOf s port with up := false }) ∧
  (∀ (s : State) port fn, exec (.functionLevelReset port fn) s = .next (withPort s port fun p =>
    if fn then { p with fn1Frozen := false } else { p with fn0Frozen := false })) ∧
  (∀ (s : State) l, exec (.flitReplay l) s = .next (withLink s l fun x => { x with replays := x.replays + 1 })) ∧
  (∀ (s : State) l, exec (.linkFailure l) s = .next (withLink s l fun x =>
    if x.up then { x with up := false, failed := some s.dev.sys.gtick } else x)) ∧
  (∀ (s : State) l, ((linkOf s l).failed = none ∨ ∃ t, (linkOf s l).failed = some t ∧
      (s.dev.sys.gtick - t).toNat < 1000000) → exec (.linkRetrainTimeout l) s = .next s) ∧
  (∀ (s : State) l t₀, (linkOf s l).failed = some t₀ → 1000000 ≤ (s.dev.sys.gtick - t₀).toNat →
    ∃ t, exec (.linkRetrainTimeout l) s = .next t ∧ (linkOf t l).failed = none ∧ (linkOf t l).up = (linkOf s l).up) ∧
  (∀ (s : State) l u, ∃ t, exec (.linkTrain l u) s = .next t ∧ t.mem = s.mem ∧
    linkOf t l = { linkOf s l with up := true, failed := none, frozen := false } ∧ t.dev.hub.linked = true ∧
    t.dev.hub.upstream = (if s.dev.hub.tickRoot then none
      else match s.dev.hub.upstream with
        | some k => if s.dev.hub.rootLost = true ∧ (linkOf t k).up = false then some l else some k
        | none => some l) ∧
    t.dev.hub.rootLost = s.dev.hub.rootLost ∧
    t.dev.sys.gtick = if t.dev.hub.upstream = some l ∧ s.dev.hub.created = false ∧ s.dev.hub.rootLost = false ∧
      tickBehind s.dev.sys.gtick u = true then u else s.dev.sys.gtick) ∧
  (∀ (s : State) u, (s.dev.hub.upstream = none ∨ (∃ l, s.dev.hub.upstream = some l ∧ (linkOf s l).up = false) ∨
      (s.dev.sys.gtick - s.dev.hub.lastSync).toNat < 1024) → exec (.tickSync u) s = .next s) ∧
  (∀ (s : State) u l, s.dev.hub.upstream = some l → (linkOf s l).up = true →
    1024 ≤ (s.dev.sys.gtick - s.dev.hub.lastSync).toNat →
    exec (.tickSync u) s = .next (withHub s fun h => { h with
      lastRootTick := u, lastSync := s.dev.sys.gtick, rootLost := false
      tickStep := if u = s.dev.sys.gtick then 1 else if (u - s.dev.sys.gtick).toNat < 2 ^ 63 then 2 else 0 })) ∧
  (∀ (s : State) l, s.dev.hub.upstream ≠ some l ∨ s.dev.hub.rootLost = true → exec (.tickRootLost l) s = .next s) ∧
  (∀ (s : State) l, s.dev.hub.upstream = some l → s.dev.hub.rootLost = false →
    ∃ t, exec (.tickRootLost l) s = .next t ∧ t.dev.hub.rootLost = true ∧ t.dev.hub.upstream = some l ∧
      t.dev.sys.gtick = s.dev.sys.gtick)

/-- R9, R365, R366, R398, R400, R402. That POWER_ON_RESET keeps memory's bytes is log entry 65, and that a retired core stays gated and a
wake takes no step of its own is log entry 60: DESIGN CHOICES. -/
def Obligations.PowerAndClocks : Prop :=
  (∀ (s : State) img, ∃ t, exec (.powerOnReset img) s = .next t ∧ t.mem = s.mem ∧ t.dev.ctxs = [] ∧ t.dev.waves = [] ∧
    t.dev.blocks = [] ∧ t.dev.launches = [] ∧ t.dev.tags = [] ∧ t.dev.sys.powered = true ∧ t.dev.sys.gtick = 0 ∧
    t.dev.sec.boot = img.code s.dev.sec.fused ∧ t.dev.hub.tickRoot = img.tickRoot ∧
    t.dev.sec.fused = (if img.code s.dev.sec.fused = 0 ∧ s.dev.sec.fused < BitVec.ofNat 64 (img.field 8 8) then
      BitVec.ofNat 64 (img.field 8 8) else s.dev.sec.fused) ∧
    (img.code s.dev.sec.fused = 0 → t.dev.sec.retired = (s.work.repairMap img).1) ∧
    (img.code s.dev.sec.fused ≠ 0 → t.dev.sec.retired = 0 ∧ t.dev.hub.access = []) ∧
    ∀ k, (t.core k).gated = (decide (k < 192) && t.dev.sec.retired.getLsbD k)) ∧
  (∀ (s : State), Safe s → ∃ t, exec .powerOff s = .next t ∧ t.dev.sys.powered = false ∧ t.dev.ctxs = [] ∧ t.dev.waves = [] ∧
    t.dev.bad = [] ∧ (∀ k, k < 2 ^ 123 → k % 8 ≠ 1 → k % 8 ≠ 2 → k % 8 ≠ 7 → t.byte k = 0) ∧
    ∀ k, (k % 8 = 1 ∨ k % 8 = 2 ∨ k % 8 = 7) → t.byte k = s.byte k) ∧
  (∀ (s : State), s.dev.tail.frozen = true ∨ s.dev.sys.powered = false → exec .staticEnergyTick s = .next s) ∧
  (∀ (s : State), s.dev.tail.frozen = false → s.dev.sys.powered = true → ∃ t, exec .staticEnergyTick s = .next t ∧
    (s.dev.hub.viols = [] → t.mem = s.mem) ∧ t.dev.hub.viols = [] ∧ t.dev.hub.folds = [] ∧ t.dev.sys.gtick = s.dev.sys.gtick + BitVec.ofNat 64 s.dev.hub.tickStep ∧ t.dev.hub.tickStep = 1 ∧
    t.dev.sys.cyc = s.dev.sys.cyc + stepCycles s.dev.pow.step ∧ t.dev.waves = s.dev.waves ∧
    (∀ c, (t.ctx c).runt = if (mget? s.dev.ctxs c).isSome = true ∧ ∃ x ∈ s.dev.cores, c ∈ x.2.resident then
      (s.ctx c).runt + 1 else (s.ctx c).runt) ∧
    ∀ k, (mget? s.dev.cores k).isSome = true → (t.core k).resident = (s.work.wavesOn k).map fun v => v.2.ctx) ∧
  (∀ (s : State) v, exec (.capWrite v) s = .next (if v.toNat % 4 = 3 then s else withPow s fun p => { p with
    cap := BitVec.ofNat 2 v.toNat
    target := if p.tlim ∧ BitVec.ofNat 2 v.toNat ≠ 2 then BitVec.ofNat 2 v.toNat + 1 else BitVec.ofNat 2 v.toNat })) ∧
  (∀ (s : State) x, ∃ t, exec (.thermalThreshold x) s = .next t ∧ t.mem = s.mem ∧ t.dev.pow.temp = x ∧
    t.dev.pow.cap = s.dev.pow.cap ∧
    t.dev.pow.tlim = (if x.toNat < 85 then false else if 95 < x.toNat then true else s.dev.pow.tlim) ∧
    t.dev.pow.tshut = (if x.toNat < 85 then false else if 105 < x.toNat then true else s.dev.pow.tshut) ∧
    t.dev.pow.target = (if t.dev.pow.tlim ∧ s.dev.pow.cap ≠ 2 then s.dev.pow.cap + 1 else s.dev.pow.cap) ∧
    (105 < x.toNat → ∀ k, (t.core k).l1 = [] ∧ (t.core k).ro = [] ∧ (t.core k).icache = [] ∧ (t.core k).fbufs = [] ∧ (t.core k).tlb = [])) ∧
  (∀ (s : State), s.dev.pow.step = s.dev.pow.target → exec .clockStepChange s = .next s) ∧
  (∀ (s : State), s.dev.pow.step ≠ s.dev.pow.target → ∃ t, exec .clockStepChange s = .next t ∧
    t.dev.pow = { s.dev.pow with step := s.dev.pow.target }) ∧
  (∀ (s : State) core, exec (.coreGate core) s = .next (if s.work.gateDue core then
    s.withCore core fun c => { c.dropCaches with gated := true } else s)) ∧
  (∀ (s : State) core, exec (.coreUngate core) s = .next (if (s.core core).gated ∧ s.dev.sec.retired.getLsbD core = false then
    s.withCore core fun c => { c with gated := false, idleSince := s.dev.sys.gtick.toNat } else s))

/-- R395–R397, R401. -/
def Obligations.MemoryErrors : Prop :=
  (∀ (s : State) p, ∃ t, exec (.memoryError p false) s = .next t ∧ t.dev.waves = s.dev.waves ∧ t.dev.bad = s.dev.bad ∧
    (Safe s → ∀ k, k % 8 ≠ 1 → t.byte k = s.byte k) ∧ t.dev.pow.uec = s.dev.pow.uec ∧
    t.dev.pow.cec = if s.dev.pow.cec = BitVec.allOnes 64 then s.dev.pow.cec else s.dev.pow.cec + 1) ∧
  (∀ (s : State) p at_ n, (p, at_, n) ∈ (fun a => [(ErrPlace.hbm a, a.toNat / 32 * 32, 32), (.tag a, a.toNat / 128 * 128, 128),
      (.slice a, a.toNat / 16 * 16, 16)]) (match p with
        | .hbm a => a
        | .tag a => a
        | .slice a => a
        | _ => 0) →
    ∃ t, exec (.memoryError p true) s = .next t ∧ t.dev.waves = s.dev.waves ∧
      (∀ k, k ∈ t.dev.bad ↔ k ∈ s.dev.bad ∨ coversByte (PAddr.hbm at_).key n k = true) ∧ t.dev.pow.cec = s.dev.pow.cec ∧
      t.dev.pow.uec = if s.dev.pow.uec = BitVec.allOnes 64 then s.dev.pow.uec else s.dev.pow.uec + 1) ∧
  (∀ (s : State) core slot lane n wid, s.work.waveAt core slot = some wid →
    (s.wave wid).stat (0, 1024 * lane + n) = none →
    ∃ t a p, exec (.memoryError (.vreg core slot lane n) true) s = .next t ∧
      (t.wave wid).stat (0, 1024 * lane + n) = some (.poison a p) ∧
      ∀ x, x ≠ (0, 1024 * lane + n) → (t.wave wid).stat x = (s.wave wid).stat x)

/-! ### The Tailstock and the registers of the part (24, 25) -/

/-- A debug command has ended with a code (R386). -/
def withDres (s : State) (r : Nat) : State := withTail s fun t => { t with dres := BitVec.ofNat 8 r }

/-- The core of a debug command, awake (R402). -/
def woken (s : State) (core : Nat) : State :=
  if (s.core core).gated ∧ s.dev.sec.retired.getLsbD core = false then
    s.withCore core fun c => { c with gated := false, idleSince := s.dev.sys.gtick.toNat }
  else s

/-- A state whose freeze has ended: the tick at which it began goes on with its sample (R384, R391). -/
def thawed (s : State) : State :=
  let t := s.dev.tail
  let sample : List Turn :=
    if t.sen = true ∧ t.sper ≠ 0 ∧ s.dev.sys.gtick.toNat % max t.sper.toNat 256 = 0 then [.event .stallSample] else []
  if t.frozen = false then s
  else withSys (withTail s fun t => { t with frozen := false }) fun y => { y with agenda := sample ++ y.agenda }

/-- R386. In which order the codes are decided, where more than one applies, is log entry 62 (DESIGN CHOICE). -/
def Obligations.DebugCommands : Prop :=
  (∀ (s : State) core slot lane sel, 192 ≤ core → exec (.halt core slot) s = .next (withDres s 4) ∧
    exec (.debugResume core slot) s = .next (withDres s 4) ∧ exec (.read core slot lane sel) s = .next (withDres s 4) ∧
    exec (.write core slot lane sel) s = .next (withDres s 4)) ∧
  (∀ (s : State) core slot lane sel, core < 192 → s.work.waveAt core slot = none →
    exec (.halt core slot) s = .next (withDres (woken s core) 1) ∧
    exec (.debugResume core slot) s = .next (withDres (woken s core) 1) ∧
    exec (.read core slot lane sel) s = .next (withDres (woken s core) 1) ∧
    exec (.write core slot lane sel) s = .next (withDres (woken s core) 1)) ∧
  (∀ (s : State) core slot wid, core < 192 → s.work.waveAt core slot = some wid → (s.wave wid).halted = false →
    exec (.halt core slot) s = .next (withDres ((woken s core).withWave wid fun v =>
      { v.mapSplits fun x => { x with state := .parked, reason := .halt, kept := some (x.state, x.reason) } with
        halted := true, recorded := true }) 0) ∧
    exec (.debugResume core slot) s = .next (withDres (woken s core) 2) ∧
    ∀ lane sel, exec (.write core slot lane sel) s = .next (withDres (woken s core) 2)) ∧
  (∀ (s : State) core slot wid, core < 192 → s.work.waveAt core slot = some wid → (s.wave wid).halted = true →
    (s.wave wid).recorded = true → (∀ x ∈ (s.wave wid).splits, ∃ st r, x.kept = some (st, r) ∧ st ≠ .trapped) →
    (s.wave wid).entering = none →
    s.dev.sys.cur.map (·.wid) ≠ some wid →
    ∃ (t : State) (v : Wave), exec (.debugResume core slot) s = .next t ∧ t.dev.tail.dres = 0 ∧ t.wave wid = v.settle ∧ v.halted = false ∧
      v.recorded = false ∧ v.splits.map (fun x => (some (x.state, x.reason), x.kept, x.pc, x.mask)) =
        (s.wave wid).splits.map fun x => (x.kept, none, x.pc, x.mask)) ∧
  (∀ (s : State) core slot wid, core < 192 → s.work.waveAt core slot = some wid → (s.wave wid).halted = true →
    (s.wave wid).recorded = false → (s.wave wid).entering = none → s.dev.sys.cur.map (·.wid) ≠ some wid →
    ∃ (t : State) (v : Wave), exec (.debugResume core slot) s = .next t ∧ t.dev.tail.dres = 0 ∧ t.wave wid = v.settle ∧
      v.halted = false ∧ v.splits = (s.wave wid).splits.map fun x => { x with state := .ready, reason := .none, trap := none }) ∧
  (∀ (s : State) core slot wid lane sel, core < 192 → s.work.waveAt core slot = some wid →
    (s.work.conf (s.wave wid).ctx = true → exec (.read core slot lane sel) s =
      .next (withDres (withTail (woken s core) fun t => { t with ddata := 0 }) 3)) ∧
    (s.work.conf (s.wave wid).ctx = false → ∀ x, lane < 32 → (woken s core).work.debugRead wid lane sel = some x →
      exec (.read core slot lane sel) s =
        .next (withDres (withTail (woken s core) fun t => { t with ddata := BitVec.ofNat 64 x }) 0)) ∧
    (s.work.conf (s.wave wid).ctx = false → (32 ≤ lane ∨ (woken s core).work.debugRead wid lane sel = none) →
      exec (.read core slot lane sel) s = .next (withDres (woken s core) 4)) ∧
    (s.work.conf (s.wave wid).ctx = false → ∀ l n, sel = ⟨1, n⟩ → lane < 32 → l = n.toNat → l < 31 →
      (woken s core).work.debugRead wid lane sel = some ((s.wave wid).rd (1, l)).toNat)) ∧
  (∀ (s : State) core slot wid lane (n : BitVec 12), core < 192 → s.work.waveAt core slot = some wid →
    (s.wave wid).halted = true → s.work.conf (s.wave wid).ctx = false → lane < 32 → n.toNat < 31 →
    ∃ t, exec (.write core slot lane ⟨1, n⟩) s = .next t ∧ t.mem = s.mem ∧ t.dev.tail.dres = 0 ∧
      (t.wave wid).rd (1, n.toNat) = s.dev.tail.ddata.setWidth 32 ∧ (t.wave wid).stat (1, n.toNat) = none ∧
      ∀ x, x ≠ (1, n.toNat) → (t.wave wid).rd x = (s.wave wid).rd x ∧ (t.wave wid).stat x = (s.wave wid).stat x) ∧
  (∀ (s : State) core slot wid lane sel w, core < 192 → s.work.waveAt core slot = some wid →
    (s.wave wid).halted = true → s.work.conf (s.wave wid).ctx = false → lane < 32 →
    (woken s core).work.debugWrite wid lane sel s.dev.tail.ddata = some w →
    exec (.write core slot lane sel) s = .next (landed s (w.debugEnd 0)))

/-- R380, R384, R390–R393. That FRZT has passed is judged by a plain comparison of the ticks: log entry 95 (DESIGN CHOICE). -/
def Obligations.FreezesAndCounters : Prop :=
  (∀ (s : State) l, exec (.freezeArm l) s = .next (withTail s fun t =>
    if s.dev.hub.linked = true ∧ l = false then { t with refused := true }
    else { t with arm := true, refused := false, linked := l })) ∧
  (∀ (s : State), exec .freezeStart s = .next (if s.dev.tail.arm = true ∧ s.dev.tail.frzt ≤ s.dev.sys.gtick then
    withTail s fun t => { t with frozen := true, arm := false, late := decide (t.frzt < s.dev.sys.gtick) } else s)) ∧
  (∀ (s : State), exec .freezeResume s = .next (thawed s)) ∧
  (∀ (s : State) l x, exec (.linkedArmArrival l x) s = .next (if (linkOf s l).up then
    withTail s fun t => { t with arm := true, refused := false, linked := true, frzt := x } else s)) ∧
  (∀ (s : State) l, exec (.linkedResumeArrival l) s = .next (if (linkOf s l).up then thawed s else s)) ∧
  (∀ (s : State) v, exec (.traceEnableWrite v) s = .next (withTail s fun t => { t with
    ten := v.getLsbD 0, full := t.full && !v.getLsbD 0, wrap := v.getLsbD 1, sen := v.getLsbD 2, tport := v.getLsbD 4
    twptr := if v.getLsbD 0 = true ∧ t.ten = false then 0 else t.twptr
    tlost := if v.getLsbD 0 = true ∧ t.ten = false then 0 else t.tlost })) ∧
  (∀ (s : State) core (n : BitVec 3), (mget (s.core core).pmcs n.toNat Pmc.blank).past = 0 →
    exec (.pmcOverflow core n) s = .next s) ∧
  (∀ (s : State) core (n : BitVec 3), (mget (s.core core).pmcs n.toNat Pmc.blank).past ≠ 0 →
    ∃ t, exec (.pmcOverflow core n) s = .next t ∧ (t.core core).pmovf.getLsbD n.toNat = true ∧
      (∀ i, i ≠ n.toNat → (t.core core).pmovf.getLsbD i = (s.core core).pmovf.getLsbD i) ∧
      mget (t.core core).pmcs n.toNat Pmc.blank = { mget (s.core core).pmcs n.toNat Pmc.blank with
        cnt := BitVec.ofNat 64 (2 ^ 63 + (mget (s.core core).pmcs n.toNat Pmc.blank).past % 2 ^ 63), past := 0 } ∧
      t.dev.waves = s.dev.waves ∧ (Safe s → ∀ k, k % 8 ≠ 1 → t.byte k = s.byte k)) ∧
  (∀ (s : State) core m, exec (.pmovfClear core m) s =
    .next (s.withCore core fun c => { c with pmovf := c.pmovf &&& ~~~m })) ∧
  (∀ (s : State), s.dev.tail.sen = false ∨ s.dev.tail.sper = 0 → exec .stallSample s = .next s) ∧
  (∀ (s : State), ∃ t, exec .stallSample s = .next t ∧ t.dev.waves = s.dev.waves ∧ t.dev.ctxs = s.dev.ctxs ∧
    (Safe s → ∀ k, k % 8 ≠ 1 → t.byte k = s.byte k))

/-- R11, R349, R399. Which bits of an event's address name the port is log entry 58 (DESIGN CHOICE), and that a step which a write starts
stands at the head of the agenda is log entry 26 (DEDUCED). -/
def Obligations.RegistersAndAttestation : Prop :=
  (∀ (s : State) (a : BitVec 32) x, a.toNat < 2 ^ 30 → (portOf s false).up = false ∨ (portOf s false).fn0Frozen = true →
    exec (.registerWrite a x) s = .next s) ∧
  (∀ (s : State) (x : BitVec 64),
    exec (.registerWrite 0x40001008 x) s = .next (withTail s fun t => { t with tbase := x &&& ~~~0xFFF#64 }) ∧
    exec (.registerWrite 0x40001088 x) s = .next (withTail s fun t => { t with dsel := x.setWidth 16 })) ∧
  (∀ (s : State) (x : BitVec 64) off, off < 2 ^ 30 →
    ((0x1000 ≤ off ∧ off < 0x2000) ∨ 0x10000 ≤ off → (portOf s false).up = true → (portOf s false).fn0Frozen = false →
      exec (.registerWrite (BitVec.ofNat 32 (2 ^ 30 + off)) x) s = exec (.registerWrite (BitVec.ofNat 32 off) x) s) ∧
    (off < 0x1000 ∨ (0x2000 ≤ off ∧ off < 0x10000) → exec (.registerWrite (BitVec.ofNat 32 (2 ^ 30 + off)) x) s = .next s)) ∧
  (∀ (s : State) (x : BitVec 64), (portOf s false).up = true → (portOf s false).fn0Frozen = false →
    let page : BitVec 64 := x &&& ~~~0xFFF#64
    exec (.registerWrite 0x1008 x) s = .next (withTail s fun t => { t with tbase := page }) ∧
    exec (.registerWrite 0x1010 x) s = .next (withTail s fun t => { t with
      tsize := x.setWidth 32, full := t.full || { t with tsize := x.setWidth 32 }.fills }) ∧
    exec (.registerWrite 0x1028 x) s = .next (withTail s fun t => { t with sper := x.setWidth 32 }) ∧
    exec (.registerWrite 0x1030 x) s = .next (withTail s fun t => { t with frzt := x }) ∧
    exec (.registerWrite 0x1040 x) s = .next (withTail s fun t => { t with flbase := page }) ∧
    exec (.registerWrite 0x1050 x) s = .next (withTail s fun t => { t with flhead := x.setWidth 32 }) ∧
    exec (.registerWrite 0x1088 x) s = .next (withTail s fun t => { t with dsel := x.setWidth 16 }) ∧
    exec (.registerWrite 0x1090 x) s = .next (withTail s fun t => { t with ddata := x }) ∧
    exec (.registerWrite 0x2008 x) s = .next { s with dev := { s.dev with sec := { s.dev.sec with ain := x } } } ∧
    exec (.registerWrite 0x2010 x) s = .next { s with dev := { s.dev with sec := { s.dev.sec with aout := x } } } ∧
    exec (.registerWrite 0x1000 x) s =
      .next (withSys s fun y => { y with agenda := .event (.traceEnableWrite x) :: y.agenda }) ∧
    exec (.registerWrite 0x3000 x) s = .next (withSys s fun y => { y with agenda := .event (.capWrite x) :: y.agenda }) ∧
    exec (.registerWrite 0x1038 x) s = .next (withSys (withTail s fun t => { t with
        linked := x.getLsbD 1, arm := t.arm && x.getLsbD 0, refused := t.refused && x.getLsbD 0 })
      fun y => { y with agenda := (if x.getLsbD 0 then [.event (.freezeArm (x.getLsbD 1))] else []) ++
        (if x.getLsbD 3 then [.event .freezeResume] else []) ++ y.agenda })) ∧
  (∀ (s : State) (x : BitVec 64) i, (portOf s false).up = true → (portOf s false).fn0Frozen = false →
    s.dev.tail.frozen = false → s.dev.hub.busy = false → (mget s.dev.hub.access (88 * 8 + 64) 0).getLsbD 15 = true →
    (mget s.dev.hub.access (88 * 8 + 64) 0).getLsbD 3 = true →
    (x.toNat % 256, i) ∈ (fun c => [(1, Instr.create c), (2, .destroy c), (3, .suspend c), (4, .resume c), (5, .status c),
      (16, .setvw (BitVec.ofNat 2 (x.toNat / 2 ^ 16)))]) (BitVec.ofNat 6 (x.toNat / 256)) →
    exec (.registerWrite 8 x) s = .next (withSys (withHub s fun h => { h with busy := true }) fun y =>
      { y with agenda := .event i :: y.agenda })) ∧
  (∀ (s : State) (ctx : BitVec 6), Safe s → ∃ t r, exec (.attest ctx) s = .next t ∧
    t.dev = { s.dev with sec := { s.dev.sec with ares := r } } ∧ ∀ k, k % 8 ≠ 1 → t.byte k = s.byte k) ∧
  (∀ (s : State) (ctx : BitVec 6) bs, Safe s → s.dev.sec.ain.toNat % 64 = 0 → s.dev.sec.aout.toNat % 64 = 0 →
    let q := s.work.bytes (PAddr.host s.dev.sec.ain.toNat).key 64
    leNat (slice q 48 16) = 0 → (le64 q 40).toNat ≤ 2 ^ 30 → (mget? s.dev.ctxs ctx.toNat).isSome = true →
    s.work.rawRange ctx.toNat (le64 q 32).toNat (le64 q 40).toNat = some bs →
    let body := s.work.reportBody ctx.toNat (slice q 0 32) bs (le64 q 32).toNat (le64 q 40).toNat
    ∃ t, exec (.attest ctx) s = .next t ∧ t.dev = { s.dev with sec := { s.dev.sec with ares := 0 } } ∧
      ∀ k, t.byte k = if coversByte (PAddr.host s.dev.sec.aout.toNat).key 320 k then
        (body ++ digestBytes (Config.signIdentity (Config.sha512 body))).getD
          ((k - (PAddr.host s.dev.sec.aout.toNat).key) / 8) 0 else s.byte k) ∧
  (∀ (s : State) (ctx : BitVec 6),
    let q := s.work.bytes (PAddr.host s.dev.sec.ain.toNat).key 64
    let va := (le64 q 32).toNat
    let len := (le64 q 40).toNat
    let bad := s.dev.sec.ain.toNat % 64 ≠ 0 ∨ s.dev.sec.aout.toNat % 64 ≠ 0 ∨ 2 ^ 30 < len ∨ leNat (slice q 48 16) ≠ 0
    let ends := fun (r : BitVec 8) => exec (.attest ctx) s = .next { s with dev := { s.dev with sec := { s.dev.sec with ares := r } } }
    (bad → ends 1) ∧ (¬ bad → mget? s.dev.ctxs ctx.toNat = none → ends 2) ∧
    (¬ bad → (mget? s.dev.ctxs ctx.toNat).isSome = true → s.work.rawRange ctx.toNat va len = none → ends 3))

/-! ### The whole machine: words, steps, reset (00, 03) -/

/-- R61–R75: the decoder and the encoder are each other's inverse. -/
def Obligations.DecodeEncode : Prop :=
  ∀ (i : Instr) (x : BitVec 64), decode x = .ok i ↔ i.wf = true ∧ encode i = some x

/-- R61, R62, R70, R74. -/
def Obligations.DecodeWords : Prop :=
  decode 0b00_00000000_0_000_000010_000011_000100_000000_0_0_0_0000_0000000000000000000 =
    .ok (.iadd ⟨false, 0⟩ (.v 2) ⟨.v 3, false⟩ (.reg ⟨.v 4, false⟩)) ∧
  decode 0b00_00100011_0_000_000010_000000_000011_101100_0_0_0_0001_1010100001100100001 =
    .ok (.movi ⟨false, 0⟩ (.v 2) 0x87654321) ∧
  decode 0b00_10000000_1_010_000101_000010_000000_000000_1_0_0_0100_0000000000000001000 =
    .ok (.ld ⟨true, 2⟩ (.v 5) ⟨.v 2, true⟩ .b32 .g 8) ∧
  decode 0b00_01110000_0_000_000000_000000_000000_000000_0_0_0_0000_1111111111111111111 = .ok (.bra ⟨false, 0⟩ (-1)) ∧
  decode 0x3540_3000_0000_0000 = .ok (.tself ⟨false, 0⟩ (.v 3)) ∧
  decode 0x4000_0000_0000_0000 = .ok (.pairBundle .nop .nop) ∧
  decode 0x8000_0000_0000_0000 = .error ⟨.future, false, false⟩ ∧
  decode 0x3C00_0000_0000_0000 = .error ⟨.future, false, false⟩ ∧
  decode 0x0380_0000_0000_0000 = .error ⟨.reserved, false, false⟩ ∧
  decode 0x0000_0000_0400_0000 = .error ⟨.field, false, false⟩ ∧
  decode 0b00_00100010_0_000_000001_000010_000000_000000_0_0_0_0001_0000000000000000000 =
    .error ⟨.operand, false, false⟩

/-- The canonical form of memory (log entry 1) is an invariant. -/
def Obligations.StepKeepsMemory : Prop :=
  ∀ s t : State, Safe s → step s = .next t → Safe t

/-- R3, R9, R380: the state after reset, where `Safe` holds. The byte that every address reads as is log entry 1 (DESIGN CHOICE), and the
owner, the power and the mailbox after reset are log entry 13 (DESIGN CHOICE). -/
def Obligations.ResetState : Prop :=
  Safe State.reset ∧ (∀ k, State.reset.byte k = Memory.default) ∧
  (∀ i, mget? State.reset.dev.ctxs i = none ∧ mget? State.reset.dev.launches i = none ∧
    mget? State.reset.dev.blocks i = none ∧ mget? State.reset.dev.waves i = none ∧ mget? State.reset.dev.tags i = none ∧
    (State.reset.ctx i).tasks.versions = []) ∧
  State.reset.dev.mmu.tlbCluster = [] ∧ State.reset.dev.mmu.tlbDie = [] ∧ State.reset.dev.mmu.faults = [] ∧
  State.reset.dev.sys.gtick = 0 ∧ State.reset.dev.bad = [] ∧
  (∀ k, (State.reset.core k).bstore = [] ∧ (State.reset.core k).acc = [] ∧ (State.reset.core k).skew = [] ∧
    (State.reset.core k).order = [] ∧ (State.reset.core k).pmovf = 0 ∧ (State.reset.core k).pmcs = [] ∧
    (State.reset.core k).owner = none ∧ (State.reset.core k).tlb = [] ∧ (State.reset.core k).l1 = []) ∧
  State.reset.dev.tail = {
    ten := false, wrap := false, sen := false, tport := false, tbase := 0, tsize := 0, twptr := 0, tlost := 0, full := false
    sper := 0, frzt := 0, late := false, refused := false, frozen := false, linked := false, arm := false
    flbase := 0, flport := false, flen := false, fllog := 6, flhead := 0, fltail := 0, fllost := 0
    dsel := 0, ddata := 0, dres := 0 } ∧
  State.reset.dev.pow.cec = 0 ∧ State.reset.dev.pow.uec = 0 ∧ State.reset.dev.hub.unatt = 0 ∧
  State.reset.dev.hub.busy = false ∧ State.reset.dev.sys.powered = true

/-- The state whose turn it is in a part that is not frozen: the agenda is empty, or it names a split that is no candidate, which leaves
it (log entry 2). -/
def TurnOf (s s' : State) : Prop :=
  s.dev.tail.frozen = false ∧ ((s.dev.sys.agenda = [] ∧ s' = s) ∨
  ∃ core slot entry rest, s.dev.sys.agenda = .issue core slot entry :: rest ∧ s.work.selectFor core slot entry = none ∧
    s' = withSys s fun y => { y with agenda := rest })

/-- A split issues next: it is the oldest candidate of the quarter of a split that the agenda names, which waits there for its own
turn, or it is the candidate of an issue turn (R138, log entry 2). `u` is the working state of its fetch. -/
def IssuesNext (s : State) (c : Cur) (u : Work) : Prop :=
  (∃ core slot entry rest k, s.dev.tail.frozen = false ∧ s.dev.sys.agenda = .issue core slot entry :: rest ∧
    s.work.selectFor core slot entry = some k ∧ k.cur = c ∧
    u = (withSys s fun y => { y with
      agenda := if k.core = core ∧ k.slot = slot ∧ k.cur.entry = entry then rest else y.agenda, cur := some c }).work) ∨
  ∃ s' k, TurnOf s s' ∧ s.dev.sys.powered = true ∧ s.dev.sys.phase = 0 ∧ s'.work.select = some k ∧ k.cur = c ∧
    u = (withSys s' fun y => { y with phase := 1, cur := some c }).work

/-- A state from which an event runs: no split issues, and stalled splits are looked at again. -/
def eventFrom (s : State) (f : Sys → Sys) : State := withSys s fun y => { f y with cur := none, stalled := [] }

/-- R61, R74, R138, R387, R390. The order of turns is log entry 2 (DESIGN CHOICE), and what a frozen part still serves is log entry 96
(DEDUCED). -/
def Obligations.StepRunsDecoded : Prop :=
  (∀ (s : State) (c : Cur) (u : Work), IssuesNext s c u →
    let v := s.wave c.wid
    let pc := (v.split c.entry).pc
    ((u.matchOf v (v.split c.entry)).isSome = true → step s = exec .pcMatchEntry (landed s u)) ∧
    ((u.matchOf v (v.split c.entry)).isSome = false →
      (∀ p w, u.check v.ctx v.coreOf pc.toNat .x = (.ok p, w) → w.badData p.key 8 = false →
        let r := w.fetchWord v.coreOf (v.slot / 16) p
        let kept := (w.core v.coreOf).copies (v.slot / 16) p.pa
        (r.1 = bundleOf (w.bytes p.key 8) ∨ r.1 ∈ kept) ∧
        (p.kind ≠ 0 ∨ kept = [] → r.1 = bundleOf (w.bytes p.key 8)) ∧
        (∀ i, decode r.1 = .ok i → step s = exec i (landed s r.2)) ∧
        ∀ e, decode r.1 = .error e → step s = exec (.illegalBundle e.sub e.pair e.slot) (landed s r.2)) ∧
      (∀ p w, u.check v.ctx v.coreOf pc.toNat .x = (.ok p, w) → w.badData p.key 8 = true →
        step s = exec .fetchFault (landed s w)) ∧
      ∀ w, (∀ p, (u.check v.ctx v.coreOf pc.toNat .x).1 ≠ .ok p) → (u.check v.ctx v.coreOf pc.toNat .x).2 = w →
        step s = exec .fetchFault (landed s w))) ∧
  (∀ (s : State) i rest, s.dev.tail.frozen = false → s.dev.sys.agenda = .event i :: rest →
    step s = exec i (eventFrom s fun y => { y with agenda := rest })) ∧
  (∀ (s s' : State), TurnOf s s' → s.dev.sys.powered = true →
    (s.dev.sys.phase = 0 ∧ s'.work.select = none) ∨ s.dev.sys.phase = 1 →
    step s = match s'.work.due with
      | some i => exec i (eventFrom s' fun y => { y with phase := 2 })
      | none => exec .staticEnergyTick (eventFrom s' fun y => { y with phase := 0 })) ∧
  (∀ (s s' : State), TurnOf s s' → s.dev.sys.powered = true → 2 ≤ s.dev.sys.phase →
    step s = exec .staticEnergyTick (eventFrom s' fun y => { y with phase := 0 })) ∧
  (∀ (s s' : State), TurnOf s s' → s.dev.sys.powered = false → step s = .fault .poweredOff) ∧
  (∀ (s : State) i, s.dev.tail.frozen = true → firstSome s.dev.sys.agenda servedFrozen = some i →
    step s = exec i (eventFrom s fun y => { y with agenda := y.agenda.erase (.event i) })) ∧
  (∀ (s : State), s.dev.tail.frozen = true → firstSome s.dev.sys.agenda servedFrozen = none →
    step s = .next (eventFrom s id))

/-! ### Completion of the barrier bundles, CSRW and the events of tasks, pages and registers -/

/-- A barrier register of the split's block in a later state. -/
def barAfter (s t : State) (c : Cur) (g : Guard) (bn : BitVec 4) : Barrier :=
  mget (t.block (s.iss c g).bid).bars bn.toNat Barrier.blank

/-- R110, R218, R220, R280–R285, R312, R331, R334, R339, R359, R361, R11, R399. That a closed record leaves its table at once is log entry 16
(DEDUCED), and the bits of the address of a register write are log entry 58 (DESIGN CHOICE). -/
def Obligations.BarriersCsrAndEventsComplete : Prop :=
  (∀ (s : State) (c : Cur) (g : Guard) bn o l, CanIssue s c g ⟨bariUses o, none⟩ ownLane →
    (s.iss c g).act.head? = some l → (barOf s c g bn).arrived = 0 → (barOf s c g bn).pend = 0 →
    let n := popcount ((bariArgs s c g o l).1 &&& s.work.livingWaves (s.iss c g).bid) + (bariArgs s c g o l).2
    n ≠ 0 → ∃ t, exec (.bari g bn o) s = .next t ∧ t.mem = s.mem ∧ (barAfter s t c g bn).init = true ∧
      (barAfter s t c g bn).arrived = 0 ∧ (barAfter s t c g bn).expected = n) ∧
  (∀ (s : State) (c : Cur) (g : Guard) d bn wt, CanIssue s c g ⟨[], some (d, 1)⟩ ownLane → mayArrive s c g bn →
    (s.iss c g).act ≠ [] → (barOf s c g bn).wavesIn &&& waveBit s c = 0 →
    (barOf s c g bn).arrived + 1 ≠ (barOf s c g bn).expected →
    ∃ t, exec (.bara g d bn wt) s = .next t ∧ t.mem = s.mem ∧ (barAfter s t c g bn).phase = (barOf s c g bn).phase ∧
      (barAfter s t c g bn).arrived = (barOf s c g bn).arrived + 1) ∧
  (∀ (s : State) (c : Cur) (g : Guard) d bn wt, CanIssue s c g ⟨[], some (d, 1)⟩ ownLane → mayArrive s c g bn →
    (s.iss c g).act ≠ [] → (barOf s c g bn).wavesIn &&& waveBit s c = 0 → (barOf s c g bn).eng = 0 →
    (barOf s c g bn).arrived + 1 = (barOf s c g bn).expected → (∀ w ∈ s.dev.waves, ∀ x ∈ w.2.splits, x.wait = none) →
    ∃ t, exec (.bara g d bn wt) s = .next t ∧ (barAfter s t c g bn).phase = !(barOf s c g bn).phase ∧
      (barAfter s t c g bn).arrived = 0) ∧
  (∀ (s : State) (c : Cur) (g : Guard) (a : Src) (num : BitVec 12), CanWriteCsr s c g a num →
    (num = 0x020 → (s.wave c.wid).longPending (s.iss c g).act = false) →
    ∃ t, exec (.csrw g num a) s = .next t ∧ t.dev.sys.issue = s.dev.sys.issue + 1 ∧
      ∀ l, (s.iss c g).act.head? = some l → num = 0x022 →
        (t.wave c.wid).frm = BitVec.ofNat 2 (csrValue s c g a 0x022 l)) ∧
  (∀ (s : State) (ctx : BitVec 6) cluster pri, ∃ t, exec (.queueSegmentLink ctx cluster pri) s = .next t ∧ t.mem = s.mem ∧
    ∀ q off x, mget? (s.ctx ctx.toNat).tasks.queues (queueKey cluster pri) = some q → q ≠ [] → queueFull q = true →
      (s.ctx ctx.toNat).tasks.takeSeg (s.ctx ctx.toNat).rec_.segments = some (off, x) →
      mget? (t.ctx ctx.toNat).tasks.queues (queueKey cluster pri) = some (q ++ [⟨off, 0, [], []⟩])) ∧
  (∀ (s : State) (ctx : BitVec 6) seq, ∃ t, exec (.taskPromote ctx seq) s = .next t ∧ t.mem = s.mem ∧
    t.dev.waves = s.dev.waves ∧ ∀ r, (queuedOf s ctx.toNat).find? (fun r => r.seq.toNat == seq) = some r →
      (s.ctx ctx.toNat).state = .running → s.work.promotionDue ctx.toNat r = true →
      { r with pri := r.pri + 1, enq := s.dev.sys.gtick.setWidth 48 } ∈ queuedOf t ctx.toNat) ∧
  (∀ (s : State) (ctx : BitVec 6) pri src dst n, ∃ t, exec (.taskMove ctx pri src dst n) s = .next t ∧ t.mem = s.mem ∧
    t.dev.waves = s.dev.waves ∧ ∀ r rest, n = 1 → dst < 24 → src ≠ dst →
      queueRecs (mget (s.ctx ctx.toNat).tasks.queues (queueKey src pri) []) = r :: rest → r.pri = pri →
      (∀ q ∈ (s.ctx ctx.toNat).tasks.groups, ∀ g ∈ q.2, ∀ x ∈ g.tasks, x.seq ≠ r.seq) →
      1 ≤ (s.ctx ctx.toNat).tasks.queueRoom (s.ctx ctx.toNat).rec_.segments dst pri →
      { r with cluster := dst } ∈ queueRecs (mget (t.ctx ctx.toNat).tasks.queues (queueKey dst pri) [])) ∧
  (∀ (s : State) cluster, ∃ t, exec (.chuckScan cluster) s = .next t ∧ t.mem = s.mem ∧ t.dev.waves = s.dev.waves ∧
    ∀ x, s.work.scanned cluster = [x] → (mget (s.ctx x.ctx).tasks.groups cluster []).find? (fun g => g.keyOf x.task) = none →
      s.work.openGroups cluster < 8 → ∃ g ∈ mget (t.ctx x.ctx).tasks.groups cluster [], g.tasks = [x.task]) ∧
  (∀ (s : State) cluster idx, ∃ t, exec (.chuckWindowExpire cluster idx) s = .next t ∧ t.mem = s.mem ∧
    t.dev.waves = s.dev.waves ∧ ∀ ctx g, (s.work.groupsOf cluster)[idx]? = some (ctx, g) →
      s.work.windowPassed ctx g = true → g ∈ mget (s.ctx ctx).tasks.groups cluster [] → { g with ready := true } ∈ mget (t.ctx ctx).tasks.groups cluster []) ∧
  (∀ (s : State) cluster idx, ∃ t, exec (.taskWavePlace cluster idx) s = .next t ∧
    ∀ ctx g, s.work.nextGroup cluster = some idx → (s.work.groupsOf cluster)[idx]? = some (ctx, g) →
      g ∉ mget (t.ctx ctx).tasks.groups cluster []) ∧
  (∀ (s : State) (ctx : BitVec 6) dom, ∃ t, exec (.taskCommit ctx dom) s = .next t ∧
    ∀ d f, s.work.domain ctx.toNat dom = some d → d.tasks = [f] → f.state = .finished → f.drop = false →
      OwnDeps s ctx.toNat dom → ∃ d', t.work.domain ctx.toNat dom = some d' ∧ d'.tasks = [] ∧ d'.lastSeq = f.task.seq) ∧
  (∀ (s : State) m, ∃ t, exec (.faultRecordService m) s = .next t ∧
    ∀ r e a lv, s.work.oldestRecord = some r → walk s.work r.ctx (r.vpage * 65536) = .leaf e a lv →
      (∀ x ∈ r.waiters, ∃ wid l g, x = .split wid l g) → s.dev.mmu.short = [] → r ∉ t.dev.mmu.faults) ∧
  (∀ (s : State), ∃ t, exec .evacuationPageSend s = .next t ∧
    (s.work.evacRuns = true → s.work.anyPort = false → t.dev.hub.evacOn = false) ∧
    ∀ p, s.work.evacRuns = true → s.work.anyPort = true →
      s.work.evacOrder.find? s.work.allSent = none → s.work.nextSent = some (.page p) →
      (t.ctx p.ctx).evb = (s.ctx p.ctx).evb + BitVec.ofNat 64 (sentSize p.level)) ∧
  (∀ (s : State) (ctx : BitVec 6), ∃ t, exec (.pageReturn ctx) s = .next t ∧
    (s.work.anyPort = true → s.work.sysBack ctx.toNat = true → (s.ctx ctx.toNat).state = .returning →
      s.dev.hub.links = [] → (t.ctx ctx.toNat).mem.sysAway = false)) ∧
  (∀ (s : State) (ctx : BitVec 6) f, ∃ t, exec (.mapRequest ctx f) s = .next t ∧
    ∀ at_ w, Safe s → (mget? s.dev.ctxs ctx.toNat).isSome = true → leafReqOk f = true →
      (s.ctx ctx.toNat).mem.sysAway = false → f.v = true → f.kind ≠ 0 →
      (s.work.leafAt ctx.toNat f.va.toNat f.level).getD 0 % 2 = 0 →
      s.work.entryFor ctx.toNat f.va.toNat (s.ctx ctx.toNat).rec_.root f.level tableLevels = (some at_, w) →
      w.num (PAddr.hbm at_).key 8 % 2 = 0 → t.work.num (PAddr.hbm at_).key 8 = leafWord f false % 2 ^ 64) ∧
  (∀ (s : State) (ctx : BitVec 6) (va : BitVec 56) n, ∃ t, exec (.invalidation ctx va n) s = .next t ∧ t.mem = s.mem ∧
    ∀ k, ∀ x ∈ (t.core k).tlb, x.ctx = ctx.toNat → va.toNat + n ≤ x.vpn * 2 ^ pageBits x.level ∨
      (x.vpn + 1) * 2 ^ pageBits x.level ≤ va.toNat) ∧
  (∀ (s : State) (x : BitVec 64), (∀ a, ∃ t, exec (.registerWrite a x) s = .next t) ∧
    ∃ t, exec (.registerWrite 0x40001028 x) s = .next t ∧ t.dev.tail.sper = x.setWidth 32 ∧ t.mem = s.mem) ∧
  (∀ (s : State) (ctx : BitVec 6), ∃ t r, exec (.attest ctx) s = .next t ∧
    t.dev = { s.dev with sec := { s.dev.sec with ares := r } })
end

