-- ==== Sys2Proof/Laws/Maps.lean ====
section
/-! SUPPORT. Reading a finite map after it was changed, memory's reads after writes, and that every change of memory keeps
its canonical form. -/

namespace Sys2Proof.Machine

/-! ### Finite maps -/

@[simp] theorem mget?_nil {α : Type} (k : Nat) : mget? ([] : FMap α) k = none := rfl

@[simp] theorem mget?_mput_self {α : Type} (m : FMap α) (k : Nat) (v : α) : mget? (mput m k v) k = some v := by
  induction m with
  | nil => simp [mput, mget?]
  | cons c m ih =>
    obtain ⟨j, x⟩ := c
    simp only [mput]
    split
    · simp [mget?]
    · split
      · simp [mget?]
      · simp [mget?, *]

theorem mget?_mput_ne {α : Type} (m : FMap α) {k j : Nat} (v : α) (h : j ≠ k) :
    mget? (mput m k v) j = mget? m j := by
  induction m with
  | nil => simp [mput, mget?, Ne.symm h]
  | cons c m ih =>
    obtain ⟨i, x⟩ := c
    simp only [mput]
    split
    · simp [mget?, Ne.symm h]
    · split
      · next h1 h2 => subst h2; simp [mget?, Ne.symm h]
      · simp only [mget?, ih]

theorem mget?_mput {α : Type} (m : FMap α) (k j : Nat) (v : α) :
    mget? (mput m k v) j = if j = k then some v else mget? m j := by
  split
  · next h => subst h; exact mget?_mput_self m j v
  · next h => exact mget?_mput_ne m v h

@[simp] theorem mget?_mdel_self {α : Type} (m : FMap α) (k : Nat) : mget? (mdel m k) k = none := by
  induction m with
  | nil => rfl
  | cons c m ih =>
    obtain ⟨i, x⟩ := c
    simp only [mdel]
    split
    · exact ih
    · next h => simp [mget?, h, ih]

theorem mget?_mdel_ne {α : Type} (m : FMap α) {k j : Nat} (h : j ≠ k) : mget? (mdel m k) j = mget? m j := by
  induction m with
  | nil => rfl
  | cons c m ih =>
    obtain ⟨i, x⟩ := c
    simp only [mdel]
    split
    · next h1 => subst h1; simp [mget?, Ne.symm h, ih]
    · simp only [mget?, ih]

@[simp] theorem mget_mput_self {α : Type} (m : FMap α) (k : Nat) (v d : α) : mget (mput m k v) k d = v := by
  simp [mget]

theorem mget_mput_ne {α : Type} (m : FMap α) {k j : Nat} (v d : α) (h : j ≠ k) :
    mget (mput m k v) j d = mget m j d := by
  simp [mget, mget?_mput_ne m v h]

@[simp] theorem mget_mset_self {α : Type} [DecidableEq α] (m : FMap α) (k : Nat) (v d : α) :
    mget (mset m k v d) k d = v := by
  unfold mset
  split
  · next h => subst h; simp [mget]
  · simp

theorem mget_mset_ne {α : Type} [DecidableEq α] (m : FMap α) {k j : Nat} (v d : α) (h : j ≠ k) :
    mget (mset m k v d) j d = mget m j d := by
  unfold mset
  split
  · simp [mget, mget?_mdel_ne m h]
  · exact mget_mput_ne m v d h

@[simp] theorem mget_mmod_self {α : Type} (m : FMap α) (k : Nat) (d : α) (f : α → α) :
    mget (mmod m k d f) k d = f (mget m k d) := by
  simp [mmod]

theorem mget_mmod_ne {α : Type} (m : FMap α) {k j : Nat} (d : α) (f : α → α) (h : j ≠ k) :
    mget (mmod m k d f) j d = mget m j d := by
  simp [mmod, mget_mput_ne m _ d h]

/-! ### Memory -/

theorem Memory.wf_tail {c : Host.Cell} {m : Memory} (h : Memory.wf (c :: m) = true) : Memory.wf m = true := by
  cases m with
  | nil => rfl
  | cons d m => simp [Memory.wf] at h; exact h.2

theorem Memory.wf_head {c : Host.Cell} {m : Memory} (h : Memory.wf (c :: m) = true) : c.2 ≠ Memory.default := by
  cases m with
  | nil => simpa [Memory.wf] using h
  | cons d m => simp [Memory.wf] at h; exact h.1.1

/-- In canonical memory every later key is above the first one. -/
theorem Memory.wf_above {c : Host.Cell} {m : Memory} (h : Memory.wf (c :: m) = true) : ∀ d ∈ m, c.1 < d.1 := by
  induction m generalizing c with
  | nil => simp
  | cons d m ih =>
    have h1 : c.1 < d.1 := by simp [Memory.wf] at h; exact h.1.2
    intro x hx
    rcases List.mem_cons.mp hx with rfl | hx
    · exact h1
    · exact Nat.lt_trans h1 (ih (Memory.wf_tail h) x hx)

/-- A cell below every key of canonical memory can be put before it. -/
theorem Memory.wf_cons {c : Host.Cell} {m : Memory} (hc : c.2 ≠ Memory.default) (ha : ∀ d ∈ m, c.1 < d.1)
    (h : Memory.wf m = true) : Memory.wf (c :: m) = true := by
  cases m with
  | nil => simpa [Memory.wf] using hc
  | cons d m => simp [Memory.wf, hc, ha d (by simp)]; exact h

/-- A key of memory after a write is a key of memory before it, or the one written. -/
theorem Memory.mem_write {m : Memory} {k : Nat} {b : Byte} {d : Host.Cell} (h : d ∈ m.write k b) :
    d ∈ m ∨ d.1 = k := by
  induction m with
  | nil =>
    simp only [Memory.write] at h
    split at h
    · simp at h
    · simp at h; exact .inr (by rw [h])
  | cons c m ih =>
    obtain ⟨j, x⟩ := c
    simp only [Memory.write] at h
    split at h
    · split at h
      · exact .inl h
      · rcases List.mem_cons.mp h with rfl | h
        · exact .inr rfl
        · exact .inl h
    · split at h
      · split at h
        · exact .inl (List.mem_cons_of_mem _ h)
        · rcases List.mem_cons.mp h with rfl | h
          · exact .inr rfl
          · exact .inl (List.mem_cons_of_mem _ h)
      · rcases List.mem_cons.mp h with rfl | h
        · exact .inl (List.mem_cons_self ..)
        · rcases ih h with h | h
          · exact .inl (List.mem_cons_of_mem _ h)
          · exact .inr h

/-- A write keeps the canonical form. -/
theorem Memory.wf_write {m : Memory} (k : Nat) (b : Byte) (h : Memory.wf m = true) :
    Memory.wf (m.write k b) = true := by
  induction m with
  | nil =>
    simp only [Memory.write]
    split
    · rfl
    · next hb => simpa [Memory.wf] using hb
  | cons c m ih =>
    obtain ⟨j, x⟩ := c
    have ht := Memory.wf_tail h
    have hh := Memory.wf_head h
    have ha := Memory.wf_above h
    simp only [Memory.write]
    split
    · next hk =>
      split
      · exact h
      · next hb =>
        refine Memory.wf_cons hb ?_ h
        intro d hd
        rcases List.mem_cons.mp hd with rfl | hd
        · exact hk
        · exact Nat.lt_trans hk (ha d hd)
    · next hk =>
      split
      · next he =>
        subst he
        split
        · exact ht
        · next hb => exact Memory.wf_cons hb ha ht
      · next he =>
        refine Memory.wf_cons hh ?_ (ih ht)
        intro d hd
        rcases Memory.mem_write hd with hd | hd
        · exact ha d hd
        · simp only [hd]; omega

/-- Dropping cells keeps the canonical form. -/
theorem Memory.wf_filter {m : Memory} (p : Host.Cell → Bool) (h : Memory.wf m = true) :
    Memory.wf (m.filter p) = true := by
  induction m with
  | nil => rfl
  | cons c m ih =>
    have ht := ih (Memory.wf_tail h)
    simp only [List.filter_cons]
    split
    · exact Memory.wf_cons (Memory.wf_head h) (fun d hd => Memory.wf_above h d (List.mem_filter.mp hd).1) ht
    · exact ht

theorem MemOp.wf_apply {m : Memory} (o : MemOp) (h : Memory.wf m = true) : Memory.wf (o.apply m) = true := by
  cases o with
  | put k b => exact Memory.wf_write k b h
  | zero k n => exact Memory.wf_filter _ h

/-- Applying a step's changes keeps the canonical form. -/
theorem applyLog_wf {m : Memory} (log : List MemOp) (h : Memory.wf m = true) : Memory.wf (applyLog log m) = true := by
  induction log with
  | nil => exact h
  | cons o log ih => exact MemOp.wf_apply o ih

/-- No key below the first one of canonical memory is listed. -/
theorem Memory.read_below {m : Memory} {k : Nat} (h : ∀ d ∈ m, k < d.1) : m.read k = Memory.default := by
  have : mget? m k = none := by
    induction m with
    | nil => rfl
    | cons c m ih =>
      obtain ⟨j, x⟩ := c
      have hj : k < j := h (j, x) (by simp)
      have hne : j ≠ k := by omega
      simp only [mget?, hne, if_false]
      exact ih fun d hd => h d (List.mem_cons_of_mem _ hd)
  simp [Memory.read, mget, this]

theorem Memory.read_cons (j : Nat) (x : Byte) (m : Memory) (k : Nat) :
    Memory.read ((j, x) :: m) k = if j = k then x else Memory.read m k := by
  simp only [Memory.read, mget, mget?]
  split <;> rfl

/-- A read after a write: the byte written at its key, and what stood there at every other key. -/
theorem Memory.read_write {m : Memory} (k j : Nat) (b : Byte) (h : Memory.wf m = true) :
    (m.write k b).read j = if j = k then b else m.read j := by
  induction m with
  | nil =>
    simp only [Memory.write]
    split
    · next hb =>
      split
      · next hj => subst hb; rfl
      · rfl
    · rw [Memory.read_cons]
      by_cases hj : j = k
      · subst hj; simp
      · have : ¬ k = j := fun e => hj e.symm
        simp [hj, this]
  | cons c m ih =>
    obtain ⟨i, x⟩ := c
    have ht := Memory.wf_tail h
    have ha := Memory.wf_above h
    simp only [Memory.write]
    split
    · next hk =>
      have below : Memory.read ((i, x) :: m) k = Memory.default := Memory.read_below fun d hd => by
        rcases List.mem_cons.mp hd with rfl | hd
        · exact hk
        · exact Nat.lt_trans hk (ha d hd)
      split
      · next hb =>
        by_cases hj : j = k
        · subst hj; rw [below, hb]; simp
        · simp [hj]
      · rw [Memory.read_cons k b]
        by_cases hj : j = k
        · subst hj; simp
        · have : ¬ k = j := fun e => hj e.symm
          simp [hj, this]
    · next hk =>
      split
      · next he =>
        subst he
        split
        · next hb =>
          by_cases hj : j = i
          · subst hj; rw [Memory.read_below ha, hb]; simp
          · have : ¬ i = j := fun e => hj e.symm
            simp [hj, Memory.read_cons, this]
        · rw [Memory.read_cons, Memory.read_cons]
          by_cases hj : j = i
          · subst hj; simp
          · have : ¬ i = j := fun e => hj e.symm
            simp [hj, this]
      · next he =>
        rw [Memory.read_cons, Memory.read_cons, ih ht]
        by_cases hj : j = k
        · subst hj; simp [he]
        · simp [hj]

/-- The byte at a key after some cells of one range are cleared. -/
theorem Memory.read_clear {m : Memory} (base n k : Nat) :
    (m.clear base n).read k =
      if base ≤ k ∧ k < base + 8 * n ∧ k % 8 = base % 8 then Memory.default else m.read k := by
  induction m with
  | nil => simp [Memory.clear, Memory.read, mget]
  | cons c m ih =>
    obtain ⟨i, x⟩ := c
    have hc : Memory.clear ((i, x) :: m) base n =
        if base ≤ i ∧ i < base + 8 * n ∧ i % 8 = base % 8 then Memory.clear m base n
        else (i, x) :: Memory.clear m base n := by
      simp only [Memory.clear, List.filter_cons]
      by_cases h : base ≤ i ∧ i < base + 8 * n ∧ i % 8 = base % 8
      · obtain ⟨h1, h2, h3⟩ := h; simp [h1, h2, h3]
      · rw [if_neg h, if_pos]
        simp only [Bool.not_eq_true', Bool.and_eq_false_iff, decide_eq_false_iff_not]
        by_cases h1 : base ≤ i
        · by_cases h2 : i < base + 8 * n
          · exact .inr fun h3 => h ⟨h1, h2, h3⟩
          · exact .inl (.inr h2)
        · exact .inl (.inl h1)
    rw [hc]
    by_cases h : base ≤ i ∧ i < base + 8 * n ∧ i % 8 = base % 8
    · rw [if_pos h, ih, Memory.read_cons]
      by_cases hk : i = k
      · subst hk; simp [h]
      · simp [hk]
    · rw [if_neg h, Memory.read_cons, Memory.read_cons, ih]
      by_cases hk : i = k
      · subst hk; simp [h]
      · simp [hk]

/-- What a step reads of a byte is what memory holds once its changes are applied. -/
theorem Work.byte_applied (w : Work) (k : Nat) (h : Memory.wf w.base = true) :
    w.byte k = (applyLog w.log w.base).read k := by
  have key : ∀ log : List MemOp, (logRead log k).getD (w.base.read k) = (applyLog log w.base).read k := by
    intro log
    induction log with
    | nil => rfl
    | cons o log ih =>
      cases o with
      | put j b =>
        simp only [logRead, applyLog, MemOp.apply]
        rw [Memory.read_write _ _ _ (applyLog_wf log h)]
        by_cases hj : j = k
        · subst hj; simp
        · have : ¬ k = j := fun e => hj e.symm
          simp [hj, this, ih]
      | zero j n =>
        simp only [logRead, applyLog, MemOp.apply]
        rw [Memory.read_clear]
        by_cases hj : j ≤ k ∧ k < j + 8 * n ∧ k % 8 = j % 8
        · simp [hj]
        · rw [if_neg hj, if_neg hj]; exact ih
  exact key w.log

end Sys2Proof.Machine
end

