-- ==== Sys2Proof/Laws/State.lean ====
section
/-! SUPPORT. What each update of a step's working state changes and keeps: one lemma for each field. -/

namespace Sys2Proof.Machine

/-! ### setWave -/

@[simp] theorem Work.setWave_base (w : Work) (i : Nat) (x : Wave) : (w.setWave i x).base = w.base := rfl
@[simp] theorem Work.setWave_log (w : Work) (i : Nat) (x : Wave) : (w.setWave i x).log = w.log := rfl
@[simp] theorem Work.setWave_sys (w : Work) (i : Nat) (x : Wave) : (w.setWave i x).dev.sys = w.dev.sys := rfl
@[simp] theorem Work.setWave_cores (w : Work) (i : Nat) (x : Wave) : (w.setWave i x).dev.cores = w.dev.cores := rfl
@[simp] theorem Work.setWave_blocks (w : Work) (i : Nat) (x : Wave) : (w.setWave i x).dev.blocks = w.dev.blocks := rfl
@[simp] theorem Work.setWave_launches (w : Work) (i : Nat) (x : Wave) : (w.setWave i x).dev.launches = w.dev.launches := rfl
@[simp] theorem Work.setWave_ctxs (w : Work) (i : Nat) (x : Wave) : (w.setWave i x).dev.ctxs = w.dev.ctxs := rfl
@[simp] theorem Work.setWave_tags (w : Work) (i : Nat) (x : Wave) : (w.setWave i x).dev.tags = w.dev.tags := rfl
@[simp] theorem Work.setWave_bad (w : Work) (i : Nat) (x : Wave) : (w.setWave i x).dev.bad = w.dev.bad := rfl
@[simp] theorem Work.setWave_mmu (w : Work) (i : Nat) (x : Wave) : (w.setWave i x).dev.mmu = w.dev.mmu := rfl
@[simp] theorem Work.setWave_hub (w : Work) (i : Nat) (x : Wave) : (w.setWave i x).dev.hub = w.dev.hub := rfl
@[simp] theorem Work.setWave_tail (w : Work) (i : Nat) (x : Wave) : (w.setWave i x).dev.tail = w.dev.tail := rfl
@[simp] theorem Work.setWave_sec (w : Work) (i : Nat) (x : Wave) : (w.setWave i x).dev.sec = w.dev.sec := rfl
@[simp] theorem Work.setWave_pow (w : Work) (i : Nat) (x : Wave) : (w.setWave i x).dev.pow = w.dev.pow := rfl
@[simp] theorem Work.setWave_waves (w : Work) (i : Nat) (x : Wave) : (w.setWave i x).dev.waves = mput w.dev.waves i x := rfl

/-! ### modWave -/

@[simp] theorem Work.modWave_base (w : Work) (i : Nat) (f : Wave → Wave) : (w.modWave i f).base = w.base := rfl
@[simp] theorem Work.modWave_log (w : Work) (i : Nat) (f : Wave → Wave) : (w.modWave i f).log = w.log := rfl
@[simp] theorem Work.modWave_sys (w : Work) (i : Nat) (f : Wave → Wave) : (w.modWave i f).dev.sys = w.dev.sys := rfl
@[simp] theorem Work.modWave_cores (w : Work) (i : Nat) (f : Wave → Wave) : (w.modWave i f).dev.cores = w.dev.cores := rfl
@[simp] theorem Work.modWave_blocks (w : Work) (i : Nat) (f : Wave → Wave) : (w.modWave i f).dev.blocks = w.dev.blocks := rfl
@[simp] theorem Work.modWave_launches (w : Work) (i : Nat) (f : Wave → Wave) : (w.modWave i f).dev.launches = w.dev.launches := rfl
@[simp] theorem Work.modWave_ctxs (w : Work) (i : Nat) (f : Wave → Wave) : (w.modWave i f).dev.ctxs = w.dev.ctxs := rfl
@[simp] theorem Work.modWave_tags (w : Work) (i : Nat) (f : Wave → Wave) : (w.modWave i f).dev.tags = w.dev.tags := rfl
@[simp] theorem Work.modWave_bad (w : Work) (i : Nat) (f : Wave → Wave) : (w.modWave i f).dev.bad = w.dev.bad := rfl
@[simp] theorem Work.modWave_mmu (w : Work) (i : Nat) (f : Wave → Wave) : (w.modWave i f).dev.mmu = w.dev.mmu := rfl
@[simp] theorem Work.modWave_hub (w : Work) (i : Nat) (f : Wave → Wave) : (w.modWave i f).dev.hub = w.dev.hub := rfl
@[simp] theorem Work.modWave_tail (w : Work) (i : Nat) (f : Wave → Wave) : (w.modWave i f).dev.tail = w.dev.tail := rfl
@[simp] theorem Work.modWave_sec (w : Work) (i : Nat) (f : Wave → Wave) : (w.modWave i f).dev.sec = w.dev.sec := rfl
@[simp] theorem Work.modWave_pow (w : Work) (i : Nat) (f : Wave → Wave) : (w.modWave i f).dev.pow = w.dev.pow := rfl
@[simp] theorem Work.modWave_waves (w : Work) (i : Nat) (f : Wave → Wave) : (w.modWave i f).dev.waves = mput w.dev.waves i (f (w.wave i)) := rfl

/-! ### setCore -/

@[simp] theorem Work.setCore_base (w : Work) (i : Nat) (x : Core) : (w.setCore i x).base = w.base := rfl
@[simp] theorem Work.setCore_log (w : Work) (i : Nat) (x : Core) : (w.setCore i x).log = w.log := rfl
@[simp] theorem Work.setCore_sys (w : Work) (i : Nat) (x : Core) : (w.setCore i x).dev.sys = w.dev.sys := rfl
@[simp] theorem Work.setCore_waves (w : Work) (i : Nat) (x : Core) : (w.setCore i x).dev.waves = w.dev.waves := rfl
@[simp] theorem Work.setCore_blocks (w : Work) (i : Nat) (x : Core) : (w.setCore i x).dev.blocks = w.dev.blocks := rfl
@[simp] theorem Work.setCore_launches (w : Work) (i : Nat) (x : Core) : (w.setCore i x).dev.launches = w.dev.launches := rfl
@[simp] theorem Work.setCore_ctxs (w : Work) (i : Nat) (x : Core) : (w.setCore i x).dev.ctxs = w.dev.ctxs := rfl
@[simp] theorem Work.setCore_tags (w : Work) (i : Nat) (x : Core) : (w.setCore i x).dev.tags = w.dev.tags := rfl
@[simp] theorem Work.setCore_bad (w : Work) (i : Nat) (x : Core) : (w.setCore i x).dev.bad = w.dev.bad := rfl
@[simp] theorem Work.setCore_mmu (w : Work) (i : Nat) (x : Core) : (w.setCore i x).dev.mmu = w.dev.mmu := rfl
@[simp] theorem Work.setCore_hub (w : Work) (i : Nat) (x : Core) : (w.setCore i x).dev.hub = w.dev.hub := rfl
@[simp] theorem Work.setCore_tail (w : Work) (i : Nat) (x : Core) : (w.setCore i x).dev.tail = w.dev.tail := rfl
@[simp] theorem Work.setCore_sec (w : Work) (i : Nat) (x : Core) : (w.setCore i x).dev.sec = w.dev.sec := rfl
@[simp] theorem Work.setCore_pow (w : Work) (i : Nat) (x : Core) : (w.setCore i x).dev.pow = w.dev.pow := rfl
@[simp] theorem Work.setCore_cores (w : Work) (i : Nat) (x : Core) : (w.setCore i x).dev.cores = mput w.dev.cores i x := rfl

/-! ### modCore -/

@[simp] theorem Work.modCore_base (w : Work) (i : Nat) (f : Core → Core) : (w.modCore i f).base = w.base := rfl
@[simp] theorem Work.modCore_log (w : Work) (i : Nat) (f : Core → Core) : (w.modCore i f).log = w.log := rfl
@[simp] theorem Work.modCore_sys (w : Work) (i : Nat) (f : Core → Core) : (w.modCore i f).dev.sys = w.dev.sys := rfl
@[simp] theorem Work.modCore_waves (w : Work) (i : Nat) (f : Core → Core) : (w.modCore i f).dev.waves = w.dev.waves := rfl
@[simp] theorem Work.modCore_blocks (w : Work) (i : Nat) (f : Core → Core) : (w.modCore i f).dev.blocks = w.dev.blocks := rfl
@[simp] theorem Work.modCore_launches (w : Work) (i : Nat) (f : Core → Core) : (w.modCore i f).dev.launches = w.dev.launches := rfl
@[simp] theorem Work.modCore_ctxs (w : Work) (i : Nat) (f : Core → Core) : (w.modCore i f).dev.ctxs = w.dev.ctxs := rfl
@[simp] theorem Work.modCore_tags (w : Work) (i : Nat) (f : Core → Core) : (w.modCore i f).dev.tags = w.dev.tags := rfl
@[simp] theorem Work.modCore_bad (w : Work) (i : Nat) (f : Core → Core) : (w.modCore i f).dev.bad = w.dev.bad := rfl
@[simp] theorem Work.modCore_mmu (w : Work) (i : Nat) (f : Core → Core) : (w.modCore i f).dev.mmu = w.dev.mmu := rfl
@[simp] theorem Work.modCore_hub (w : Work) (i : Nat) (f : Core → Core) : (w.modCore i f).dev.hub = w.dev.hub := rfl
@[simp] theorem Work.modCore_tail (w : Work) (i : Nat) (f : Core → Core) : (w.modCore i f).dev.tail = w.dev.tail := rfl
@[simp] theorem Work.modCore_sec (w : Work) (i : Nat) (f : Core → Core) : (w.modCore i f).dev.sec = w.dev.sec := rfl
@[simp] theorem Work.modCore_pow (w : Work) (i : Nat) (f : Core → Core) : (w.modCore i f).dev.pow = w.dev.pow := rfl
@[simp] theorem Work.modCore_cores (w : Work) (i : Nat) (f : Core → Core) : (w.modCore i f).dev.cores = mput w.dev.cores i (f (w.core i)) := rfl

/-! ### setBlock -/

@[simp] theorem Work.setBlock_base (w : Work) (i : Nat) (x : Block) : (w.setBlock i x).base = w.base := rfl
@[simp] theorem Work.setBlock_log (w : Work) (i : Nat) (x : Block) : (w.setBlock i x).log = w.log := rfl
@[simp] theorem Work.setBlock_sys (w : Work) (i : Nat) (x : Block) : (w.setBlock i x).dev.sys = w.dev.sys := rfl
@[simp] theorem Work.setBlock_cores (w : Work) (i : Nat) (x : Block) : (w.setBlock i x).dev.cores = w.dev.cores := rfl
@[simp] theorem Work.setBlock_waves (w : Work) (i : Nat) (x : Block) : (w.setBlock i x).dev.waves = w.dev.waves := rfl
@[simp] theorem Work.setBlock_launches (w : Work) (i : Nat) (x : Block) : (w.setBlock i x).dev.launches = w.dev.launches := rfl
@[simp] theorem Work.setBlock_ctxs (w : Work) (i : Nat) (x : Block) : (w.setBlock i x).dev.ctxs = w.dev.ctxs := rfl
@[simp] theorem Work.setBlock_tags (w : Work) (i : Nat) (x : Block) : (w.setBlock i x).dev.tags = w.dev.tags := rfl
@[simp] theorem Work.setBlock_bad (w : Work) (i : Nat) (x : Block) : (w.setBlock i x).dev.bad = w.dev.bad := rfl
@[simp] theorem Work.setBlock_mmu (w : Work) (i : Nat) (x : Block) : (w.setBlock i x).dev.mmu = w.dev.mmu := rfl
@[simp] theorem Work.setBlock_hub (w : Work) (i : Nat) (x : Block) : (w.setBlock i x).dev.hub = w.dev.hub := rfl
@[simp] theorem Work.setBlock_tail (w : Work) (i : Nat) (x : Block) : (w.setBlock i x).dev.tail = w.dev.tail := rfl
@[simp] theorem Work.setBlock_sec (w : Work) (i : Nat) (x : Block) : (w.setBlock i x).dev.sec = w.dev.sec := rfl
@[simp] theorem Work.setBlock_pow (w : Work) (i : Nat) (x : Block) : (w.setBlock i x).dev.pow = w.dev.pow := rfl
@[simp] theorem Work.setBlock_blocks (w : Work) (i : Nat) (x : Block) : (w.setBlock i x).dev.blocks = mput w.dev.blocks i x := rfl

/-! ### modBlock -/

@[simp] theorem Work.modBlock_base (w : Work) (i : Nat) (f : Block → Block) : (w.modBlock i f).base = w.base := rfl
@[simp] theorem Work.modBlock_log (w : Work) (i : Nat) (f : Block → Block) : (w.modBlock i f).log = w.log := rfl
@[simp] theorem Work.modBlock_sys (w : Work) (i : Nat) (f : Block → Block) : (w.modBlock i f).dev.sys = w.dev.sys := rfl
@[simp] theorem Work.modBlock_cores (w : Work) (i : Nat) (f : Block → Block) : (w.modBlock i f).dev.cores = w.dev.cores := rfl
@[simp] theorem Work.modBlock_waves (w : Work) (i : Nat) (f : Block → Block) : (w.modBlock i f).dev.waves = w.dev.waves := rfl
@[simp] theorem Work.modBlock_launches (w : Work) (i : Nat) (f : Block → Block) : (w.modBlock i f).dev.launches = w.dev.launches := rfl
@[simp] theorem Work.modBlock_ctxs (w : Work) (i : Nat) (f : Block → Block) : (w.modBlock i f).dev.ctxs = w.dev.ctxs := rfl
@[simp] theorem Work.modBlock_tags (w : Work) (i : Nat) (f : Block → Block) : (w.modBlock i f).dev.tags = w.dev.tags := rfl
@[simp] theorem Work.modBlock_bad (w : Work) (i : Nat) (f : Block → Block) : (w.modBlock i f).dev.bad = w.dev.bad := rfl
@[simp] theorem Work.modBlock_mmu (w : Work) (i : Nat) (f : Block → Block) : (w.modBlock i f).dev.mmu = w.dev.mmu := rfl
@[simp] theorem Work.modBlock_hub (w : Work) (i : Nat) (f : Block → Block) : (w.modBlock i f).dev.hub = w.dev.hub := rfl
@[simp] theorem Work.modBlock_tail (w : Work) (i : Nat) (f : Block → Block) : (w.modBlock i f).dev.tail = w.dev.tail := rfl
@[simp] theorem Work.modBlock_sec (w : Work) (i : Nat) (f : Block → Block) : (w.modBlock i f).dev.sec = w.dev.sec := rfl
@[simp] theorem Work.modBlock_pow (w : Work) (i : Nat) (f : Block → Block) : (w.modBlock i f).dev.pow = w.dev.pow := rfl
@[simp] theorem Work.modBlock_blocks (w : Work) (i : Nat) (f : Block → Block) : (w.modBlock i f).dev.blocks = mput w.dev.blocks i (f (w.block i)) := rfl

/-! ### setLaunch -/

@[simp] theorem Work.setLaunch_base (w : Work) (i : Nat) (x : Launch) : (w.setLaunch i x).base = w.base := rfl
@[simp] theorem Work.setLaunch_log (w : Work) (i : Nat) (x : Launch) : (w.setLaunch i x).log = w.log := rfl
@[simp] theorem Work.setLaunch_sys (w : Work) (i : Nat) (x : Launch) : (w.setLaunch i x).dev.sys = w.dev.sys := rfl
@[simp] theorem Work.setLaunch_cores (w : Work) (i : Nat) (x : Launch) : (w.setLaunch i x).dev.cores = w.dev.cores := rfl
@[simp] theorem Work.setLaunch_waves (w : Work) (i : Nat) (x : Launch) : (w.setLaunch i x).dev.waves = w.dev.waves := rfl
@[simp] theorem Work.setLaunch_blocks (w : Work) (i : Nat) (x : Launch) : (w.setLaunch i x).dev.blocks = w.dev.blocks := rfl
@[simp] theorem Work.setLaunch_ctxs (w : Work) (i : Nat) (x : Launch) : (w.setLaunch i x).dev.ctxs = w.dev.ctxs := rfl
@[simp] theorem Work.setLaunch_tags (w : Work) (i : Nat) (x : Launch) : (w.setLaunch i x).dev.tags = w.dev.tags := rfl
@[simp] theorem Work.setLaunch_bad (w : Work) (i : Nat) (x : Launch) : (w.setLaunch i x).dev.bad = w.dev.bad := rfl
@[simp] theorem Work.setLaunch_mmu (w : Work) (i : Nat) (x : Launch) : (w.setLaunch i x).dev.mmu = w.dev.mmu := rfl
@[simp] theorem Work.setLaunch_hub (w : Work) (i : Nat) (x : Launch) : (w.setLaunch i x).dev.hub = w.dev.hub := rfl
@[simp] theorem Work.setLaunch_tail (w : Work) (i : Nat) (x : Launch) : (w.setLaunch i x).dev.tail = w.dev.tail := rfl
@[simp] theorem Work.setLaunch_sec (w : Work) (i : Nat) (x : Launch) : (w.setLaunch i x).dev.sec = w.dev.sec := rfl
@[simp] theorem Work.setLaunch_pow (w : Work) (i : Nat) (x : Launch) : (w.setLaunch i x).dev.pow = w.dev.pow := rfl
@[simp] theorem Work.setLaunch_launches (w : Work) (i : Nat) (x : Launch) : (w.setLaunch i x).dev.launches = mput w.dev.launches i x := rfl

/-! ### modLaunch -/

@[simp] theorem Work.modLaunch_base (w : Work) (i : Nat) (f : Launch → Launch) : (w.modLaunch i f).base = w.base := rfl
@[simp] theorem Work.modLaunch_log (w : Work) (i : Nat) (f : Launch → Launch) : (w.modLaunch i f).log = w.log := rfl
@[simp] theorem Work.modLaunch_sys (w : Work) (i : Nat) (f : Launch → Launch) : (w.modLaunch i f).dev.sys = w.dev.sys := rfl
@[simp] theorem Work.modLaunch_cores (w : Work) (i : Nat) (f : Launch → Launch) : (w.modLaunch i f).dev.cores = w.dev.cores := rfl
@[simp] theorem Work.modLaunch_waves (w : Work) (i : Nat) (f : Launch → Launch) : (w.modLaunch i f).dev.waves = w.dev.waves := rfl
@[simp] theorem Work.modLaunch_blocks (w : Work) (i : Nat) (f : Launch → Launch) : (w.modLaunch i f).dev.blocks = w.dev.blocks := rfl
@[simp] theorem Work.modLaunch_ctxs (w : Work) (i : Nat) (f : Launch → Launch) : (w.modLaunch i f).dev.ctxs = w.dev.ctxs := rfl
@[simp] theorem Work.modLaunch_tags (w : Work) (i : Nat) (f : Launch → Launch) : (w.modLaunch i f).dev.tags = w.dev.tags := rfl
@[simp] theorem Work.modLaunch_bad (w : Work) (i : Nat) (f : Launch → Launch) : (w.modLaunch i f).dev.bad = w.dev.bad := rfl
@[simp] theorem Work.modLaunch_mmu (w : Work) (i : Nat) (f : Launch → Launch) : (w.modLaunch i f).dev.mmu = w.dev.mmu := rfl
@[simp] theorem Work.modLaunch_hub (w : Work) (i : Nat) (f : Launch → Launch) : (w.modLaunch i f).dev.hub = w.dev.hub := rfl
@[simp] theorem Work.modLaunch_tail (w : Work) (i : Nat) (f : Launch → Launch) : (w.modLaunch i f).dev.tail = w.dev.tail := rfl
@[simp] theorem Work.modLaunch_sec (w : Work) (i : Nat) (f : Launch → Launch) : (w.modLaunch i f).dev.sec = w.dev.sec := rfl
@[simp] theorem Work.modLaunch_pow (w : Work) (i : Nat) (f : Launch → Launch) : (w.modLaunch i f).dev.pow = w.dev.pow := rfl
@[simp] theorem Work.modLaunch_launches (w : Work) (i : Nat) (f : Launch → Launch) : (w.modLaunch i f).dev.launches = mput w.dev.launches i (f (w.launch i)) := rfl

/-! ### setCtx -/

@[simp] theorem Work.setCtx_base (w : Work) (i : Nat) (x : Context) : (w.setCtx i x).base = w.base := rfl
@[simp] theorem Work.setCtx_log (w : Work) (i : Nat) (x : Context) : (w.setCtx i x).log = w.log := rfl
@[simp] theorem Work.setCtx_sys (w : Work) (i : Nat) (x : Context) : (w.setCtx i x).dev.sys = w.dev.sys := rfl
@[simp] theorem Work.setCtx_cores (w : Work) (i : Nat) (x : Context) : (w.setCtx i x).dev.cores = w.dev.cores := rfl
@[simp] theorem Work.setCtx_waves (w : Work) (i : Nat) (x : Context) : (w.setCtx i x).dev.waves = w.dev.waves := rfl
@[simp] theorem Work.setCtx_blocks (w : Work) (i : Nat) (x : Context) : (w.setCtx i x).dev.blocks = w.dev.blocks := rfl
@[simp] theorem Work.setCtx_launches (w : Work) (i : Nat) (x : Context) : (w.setCtx i x).dev.launches = w.dev.launches := rfl
@[simp] theorem Work.setCtx_tags (w : Work) (i : Nat) (x : Context) : (w.setCtx i x).dev.tags = w.dev.tags := rfl
@[simp] theorem Work.setCtx_bad (w : Work) (i : Nat) (x : Context) : (w.setCtx i x).dev.bad = w.dev.bad := rfl
@[simp] theorem Work.setCtx_mmu (w : Work) (i : Nat) (x : Context) : (w.setCtx i x).dev.mmu = w.dev.mmu := rfl
@[simp] theorem Work.setCtx_hub (w : Work) (i : Nat) (x : Context) : (w.setCtx i x).dev.hub = w.dev.hub := rfl
@[simp] theorem Work.setCtx_tail (w : Work) (i : Nat) (x : Context) : (w.setCtx i x).dev.tail = w.dev.tail := rfl
@[simp] theorem Work.setCtx_sec (w : Work) (i : Nat) (x : Context) : (w.setCtx i x).dev.sec = w.dev.sec := rfl
@[simp] theorem Work.setCtx_pow (w : Work) (i : Nat) (x : Context) : (w.setCtx i x).dev.pow = w.dev.pow := rfl
@[simp] theorem Work.setCtx_ctxs (w : Work) (i : Nat) (x : Context) : (w.setCtx i x).dev.ctxs = mput w.dev.ctxs i x := rfl

/-! ### modCtx -/

@[simp] theorem Work.modCtx_base (w : Work) (i : Nat) (f : Context → Context) : (w.modCtx i f).base = w.base := rfl
@[simp] theorem Work.modCtx_log (w : Work) (i : Nat) (f : Context → Context) : (w.modCtx i f).log = w.log := rfl
@[simp] theorem Work.modCtx_sys (w : Work) (i : Nat) (f : Context → Context) : (w.modCtx i f).dev.sys = w.dev.sys := rfl
@[simp] theorem Work.modCtx_cores (w : Work) (i : Nat) (f : Context → Context) : (w.modCtx i f).dev.cores = w.dev.cores := rfl
@[simp] theorem Work.modCtx_waves (w : Work) (i : Nat) (f : Context → Context) : (w.modCtx i f).dev.waves = w.dev.waves := rfl
@[simp] theorem Work.modCtx_blocks (w : Work) (i : Nat) (f : Context → Context) : (w.modCtx i f).dev.blocks = w.dev.blocks := rfl
@[simp] theorem Work.modCtx_launches (w : Work) (i : Nat) (f : Context → Context) : (w.modCtx i f).dev.launches = w.dev.launches := rfl
@[simp] theorem Work.modCtx_tags (w : Work) (i : Nat) (f : Context → Context) : (w.modCtx i f).dev.tags = w.dev.tags := rfl
@[simp] theorem Work.modCtx_bad (w : Work) (i : Nat) (f : Context → Context) : (w.modCtx i f).dev.bad = w.dev.bad := rfl
@[simp] theorem Work.modCtx_mmu (w : Work) (i : Nat) (f : Context → Context) : (w.modCtx i f).dev.mmu = w.dev.mmu := rfl
@[simp] theorem Work.modCtx_hub (w : Work) (i : Nat) (f : Context → Context) : (w.modCtx i f).dev.hub = w.dev.hub := rfl
@[simp] theorem Work.modCtx_tail (w : Work) (i : Nat) (f : Context → Context) : (w.modCtx i f).dev.tail = w.dev.tail := rfl
@[simp] theorem Work.modCtx_sec (w : Work) (i : Nat) (f : Context → Context) : (w.modCtx i f).dev.sec = w.dev.sec := rfl
@[simp] theorem Work.modCtx_pow (w : Work) (i : Nat) (f : Context → Context) : (w.modCtx i f).dev.pow = w.dev.pow := rfl
@[simp] theorem Work.modCtx_ctxs (w : Work) (i : Nat) (f : Context → Context) : (w.modCtx i f).dev.ctxs = mput w.dev.ctxs i (f (w.ctx i)) := rfl

/-! ### modTasks -/

@[simp] theorem Work.modTasks_base (w : Work) (i : Nat) (f : CtxTasks → CtxTasks) : (w.modTasks i f).base = w.base := rfl
@[simp] theorem Work.modTasks_log (w : Work) (i : Nat) (f : CtxTasks → CtxTasks) : (w.modTasks i f).log = w.log := rfl
@[simp] theorem Work.modTasks_sys (w : Work) (i : Nat) (f : CtxTasks → CtxTasks) : (w.modTasks i f).dev.sys = w.dev.sys := rfl
@[simp] theorem Work.modTasks_cores (w : Work) (i : Nat) (f : CtxTasks → CtxTasks) : (w.modTasks i f).dev.cores = w.dev.cores := rfl
@[simp] theorem Work.modTasks_waves (w : Work) (i : Nat) (f : CtxTasks → CtxTasks) : (w.modTasks i f).dev.waves = w.dev.waves := rfl
@[simp] theorem Work.modTasks_blocks (w : Work) (i : Nat) (f : CtxTasks → CtxTasks) : (w.modTasks i f).dev.blocks = w.dev.blocks := rfl
@[simp] theorem Work.modTasks_launches (w : Work) (i : Nat) (f : CtxTasks → CtxTasks) : (w.modTasks i f).dev.launches = w.dev.launches := rfl
@[simp] theorem Work.modTasks_tags (w : Work) (i : Nat) (f : CtxTasks → CtxTasks) : (w.modTasks i f).dev.tags = w.dev.tags := rfl
@[simp] theorem Work.modTasks_bad (w : Work) (i : Nat) (f : CtxTasks → CtxTasks) : (w.modTasks i f).dev.bad = w.dev.bad := rfl
@[simp] theorem Work.modTasks_mmu (w : Work) (i : Nat) (f : CtxTasks → CtxTasks) : (w.modTasks i f).dev.mmu = w.dev.mmu := rfl
@[simp] theorem Work.modTasks_hub (w : Work) (i : Nat) (f : CtxTasks → CtxTasks) : (w.modTasks i f).dev.hub = w.dev.hub := rfl
@[simp] theorem Work.modTasks_tail (w : Work) (i : Nat) (f : CtxTasks → CtxTasks) : (w.modTasks i f).dev.tail = w.dev.tail := rfl
@[simp] theorem Work.modTasks_sec (w : Work) (i : Nat) (f : CtxTasks → CtxTasks) : (w.modTasks i f).dev.sec = w.dev.sec := rfl
@[simp] theorem Work.modTasks_pow (w : Work) (i : Nat) (f : CtxTasks → CtxTasks) : (w.modTasks i f).dev.pow = w.dev.pow := rfl
@[simp] theorem Work.modTasks_ctxs (w : Work) (i : Nat) (f : CtxTasks → CtxTasks) : (w.modTasks i f).dev.ctxs = mput w.dev.ctxs i { w.ctx i with tasks := f (w.ctx i).tasks } := rfl

/-! ### modSys -/

@[simp] theorem Work.modSys_base (w : Work) (f : Sys → Sys) : (w.modSys f).base = w.base := rfl
@[simp] theorem Work.modSys_log (w : Work) (f : Sys → Sys) : (w.modSys f).log = w.log := rfl
@[simp] theorem Work.modSys_cores (w : Work) (f : Sys → Sys) : (w.modSys f).dev.cores = w.dev.cores := rfl
@[simp] theorem Work.modSys_waves (w : Work) (f : Sys → Sys) : (w.modSys f).dev.waves = w.dev.waves := rfl
@[simp] theorem Work.modSys_blocks (w : Work) (f : Sys → Sys) : (w.modSys f).dev.blocks = w.dev.blocks := rfl
@[simp] theorem Work.modSys_launches (w : Work) (f : Sys → Sys) : (w.modSys f).dev.launches = w.dev.launches := rfl
@[simp] theorem Work.modSys_ctxs (w : Work) (f : Sys → Sys) : (w.modSys f).dev.ctxs = w.dev.ctxs := rfl
@[simp] theorem Work.modSys_tags (w : Work) (f : Sys → Sys) : (w.modSys f).dev.tags = w.dev.tags := rfl
@[simp] theorem Work.modSys_bad (w : Work) (f : Sys → Sys) : (w.modSys f).dev.bad = w.dev.bad := rfl
@[simp] theorem Work.modSys_mmu (w : Work) (f : Sys → Sys) : (w.modSys f).dev.mmu = w.dev.mmu := rfl
@[simp] theorem Work.modSys_hub (w : Work) (f : Sys → Sys) : (w.modSys f).dev.hub = w.dev.hub := rfl
@[simp] theorem Work.modSys_tail (w : Work) (f : Sys → Sys) : (w.modSys f).dev.tail = w.dev.tail := rfl
@[simp] theorem Work.modSys_sec (w : Work) (f : Sys → Sys) : (w.modSys f).dev.sec = w.dev.sec := rfl
@[simp] theorem Work.modSys_pow (w : Work) (f : Sys → Sys) : (w.modSys f).dev.pow = w.dev.pow := rfl
@[simp] theorem Work.modSys_sys (w : Work) (f : Sys → Sys) : (w.modSys f).dev.sys = f w.dev.sys := rfl

/-! ### modMmu -/

@[simp] theorem Work.modMmu_base (w : Work) (f : Mmu → Mmu) : (w.modMmu f).base = w.base := rfl
@[simp] theorem Work.modMmu_log (w : Work) (f : Mmu → Mmu) : (w.modMmu f).log = w.log := rfl
@[simp] theorem Work.modMmu_sys (w : Work) (f : Mmu → Mmu) : (w.modMmu f).dev.sys = w.dev.sys := rfl
@[simp] theorem Work.modMmu_cores (w : Work) (f : Mmu → Mmu) : (w.modMmu f).dev.cores = w.dev.cores := rfl
@[simp] theorem Work.modMmu_waves (w : Work) (f : Mmu → Mmu) : (w.modMmu f).dev.waves = w.dev.waves := rfl
@[simp] theorem Work.modMmu_blocks (w : Work) (f : Mmu → Mmu) : (w.modMmu f).dev.blocks = w.dev.blocks := rfl
@[simp] theorem Work.modMmu_launches (w : Work) (f : Mmu → Mmu) : (w.modMmu f).dev.launches = w.dev.launches := rfl
@[simp] theorem Work.modMmu_ctxs (w : Work) (f : Mmu → Mmu) : (w.modMmu f).dev.ctxs = w.dev.ctxs := rfl
@[simp] theorem Work.modMmu_tags (w : Work) (f : Mmu → Mmu) : (w.modMmu f).dev.tags = w.dev.tags := rfl
@[simp] theorem Work.modMmu_bad (w : Work) (f : Mmu → Mmu) : (w.modMmu f).dev.bad = w.dev.bad := rfl
@[simp] theorem Work.modMmu_hub (w : Work) (f : Mmu → Mmu) : (w.modMmu f).dev.hub = w.dev.hub := rfl
@[simp] theorem Work.modMmu_tail (w : Work) (f : Mmu → Mmu) : (w.modMmu f).dev.tail = w.dev.tail := rfl
@[simp] theorem Work.modMmu_sec (w : Work) (f : Mmu → Mmu) : (w.modMmu f).dev.sec = w.dev.sec := rfl
@[simp] theorem Work.modMmu_pow (w : Work) (f : Mmu → Mmu) : (w.modMmu f).dev.pow = w.dev.pow := rfl
@[simp] theorem Work.modMmu_mmu (w : Work) (f : Mmu → Mmu) : (w.modMmu f).dev.mmu = f w.dev.mmu := rfl

/-! ### modHub -/

@[simp] theorem Work.modHub_base (w : Work) (f : Hub → Hub) : (w.modHub f).base = w.base := rfl
@[simp] theorem Work.modHub_log (w : Work) (f : Hub → Hub) : (w.modHub f).log = w.log := rfl
@[simp] theorem Work.modHub_sys (w : Work) (f : Hub → Hub) : (w.modHub f).dev.sys = w.dev.sys := rfl
@[simp] theorem Work.modHub_cores (w : Work) (f : Hub → Hub) : (w.modHub f).dev.cores = w.dev.cores := rfl
@[simp] theorem Work.modHub_waves (w : Work) (f : Hub → Hub) : (w.modHub f).dev.waves = w.dev.waves := rfl
@[simp] theorem Work.modHub_blocks (w : Work) (f : Hub → Hub) : (w.modHub f).dev.blocks = w.dev.blocks := rfl
@[simp] theorem Work.modHub_launches (w : Work) (f : Hub → Hub) : (w.modHub f).dev.launches = w.dev.launches := rfl
@[simp] theorem Work.modHub_ctxs (w : Work) (f : Hub → Hub) : (w.modHub f).dev.ctxs = w.dev.ctxs := rfl
@[simp] theorem Work.modHub_tags (w : Work) (f : Hub → Hub) : (w.modHub f).dev.tags = w.dev.tags := rfl
@[simp] theorem Work.modHub_bad (w : Work) (f : Hub → Hub) : (w.modHub f).dev.bad = w.dev.bad := rfl
@[simp] theorem Work.modHub_mmu (w : Work) (f : Hub → Hub) : (w.modHub f).dev.mmu = w.dev.mmu := rfl
@[simp] theorem Work.modHub_tail (w : Work) (f : Hub → Hub) : (w.modHub f).dev.tail = w.dev.tail := rfl
@[simp] theorem Work.modHub_sec (w : Work) (f : Hub → Hub) : (w.modHub f).dev.sec = w.dev.sec := rfl
@[simp] theorem Work.modHub_pow (w : Work) (f : Hub → Hub) : (w.modHub f).dev.pow = w.dev.pow := rfl
@[simp] theorem Work.modHub_hub (w : Work) (f : Hub → Hub) : (w.modHub f).dev.hub = f w.dev.hub := rfl

/-! ### modTail -/

@[simp] theorem Work.modTail_base (w : Work) (f : Tailstock → Tailstock) : (w.modTail f).base = w.base := rfl
@[simp] theorem Work.modTail_log (w : Work) (f : Tailstock → Tailstock) : (w.modTail f).log = w.log := rfl
@[simp] theorem Work.modTail_sys (w : Work) (f : Tailstock → Tailstock) : (w.modTail f).dev.sys = w.dev.sys := rfl
@[simp] theorem Work.modTail_cores (w : Work) (f : Tailstock → Tailstock) : (w.modTail f).dev.cores = w.dev.cores := rfl
@[simp] theorem Work.modTail_waves (w : Work) (f : Tailstock → Tailstock) : (w.modTail f).dev.waves = w.dev.waves := rfl
@[simp] theorem Work.modTail_blocks (w : Work) (f : Tailstock → Tailstock) : (w.modTail f).dev.blocks = w.dev.blocks := rfl
@[simp] theorem Work.modTail_launches (w : Work) (f : Tailstock → Tailstock) : (w.modTail f).dev.launches = w.dev.launches := rfl
@[simp] theorem Work.modTail_ctxs (w : Work) (f : Tailstock → Tailstock) : (w.modTail f).dev.ctxs = w.dev.ctxs := rfl
@[simp] theorem Work.modTail_tags (w : Work) (f : Tailstock → Tailstock) : (w.modTail f).dev.tags = w.dev.tags := rfl
@[simp] theorem Work.modTail_bad (w : Work) (f : Tailstock → Tailstock) : (w.modTail f).dev.bad = w.dev.bad := rfl
@[simp] theorem Work.modTail_mmu (w : Work) (f : Tailstock → Tailstock) : (w.modTail f).dev.mmu = w.dev.mmu := rfl
@[simp] theorem Work.modTail_hub (w : Work) (f : Tailstock → Tailstock) : (w.modTail f).dev.hub = w.dev.hub := rfl
@[simp] theorem Work.modTail_sec (w : Work) (f : Tailstock → Tailstock) : (w.modTail f).dev.sec = w.dev.sec := rfl
@[simp] theorem Work.modTail_pow (w : Work) (f : Tailstock → Tailstock) : (w.modTail f).dev.pow = w.dev.pow := rfl
@[simp] theorem Work.modTail_tail (w : Work) (f : Tailstock → Tailstock) : (w.modTail f).dev.tail = f w.dev.tail := rfl

/-! ### modSec -/

@[simp] theorem Work.modSec_base (w : Work) (f : Security → Security) : (w.modSec f).base = w.base := rfl
@[simp] theorem Work.modSec_log (w : Work) (f : Security → Security) : (w.modSec f).log = w.log := rfl
@[simp] theorem Work.modSec_sys (w : Work) (f : Security → Security) : (w.modSec f).dev.sys = w.dev.sys := rfl
@[simp] theorem Work.modSec_cores (w : Work) (f : Security → Security) : (w.modSec f).dev.cores = w.dev.cores := rfl
@[simp] theorem Work.modSec_waves (w : Work) (f : Security → Security) : (w.modSec f).dev.waves = w.dev.waves := rfl
@[simp] theorem Work.modSec_blocks (w : Work) (f : Security → Security) : (w.modSec f).dev.blocks = w.dev.blocks := rfl
@[simp] theorem Work.modSec_launches (w : Work) (f : Security → Security) : (w.modSec f).dev.launches = w.dev.launches := rfl
@[simp] theorem Work.modSec_ctxs (w : Work) (f : Security → Security) : (w.modSec f).dev.ctxs = w.dev.ctxs := rfl
@[simp] theorem Work.modSec_tags (w : Work) (f : Security → Security) : (w.modSec f).dev.tags = w.dev.tags := rfl
@[simp] theorem Work.modSec_bad (w : Work) (f : Security → Security) : (w.modSec f).dev.bad = w.dev.bad := rfl
@[simp] theorem Work.modSec_mmu (w : Work) (f : Security → Security) : (w.modSec f).dev.mmu = w.dev.mmu := rfl
@[simp] theorem Work.modSec_hub (w : Work) (f : Security → Security) : (w.modSec f).dev.hub = w.dev.hub := rfl
@[simp] theorem Work.modSec_tail (w : Work) (f : Security → Security) : (w.modSec f).dev.tail = w.dev.tail := rfl
@[simp] theorem Work.modSec_pow (w : Work) (f : Security → Security) : (w.modSec f).dev.pow = w.dev.pow := rfl
@[simp] theorem Work.modSec_sec (w : Work) (f : Security → Security) : (w.modSec f).dev.sec = f w.dev.sec := rfl

/-! ### modPow -/

@[simp] theorem Work.modPow_base (w : Work) (f : Power → Power) : (w.modPow f).base = w.base := rfl
@[simp] theorem Work.modPow_log (w : Work) (f : Power → Power) : (w.modPow f).log = w.log := rfl
@[simp] theorem Work.modPow_sys (w : Work) (f : Power → Power) : (w.modPow f).dev.sys = w.dev.sys := rfl
@[simp] theorem Work.modPow_cores (w : Work) (f : Power → Power) : (w.modPow f).dev.cores = w.dev.cores := rfl
@[simp] theorem Work.modPow_waves (w : Work) (f : Power → Power) : (w.modPow f).dev.waves = w.dev.waves := rfl
@[simp] theorem Work.modPow_blocks (w : Work) (f : Power → Power) : (w.modPow f).dev.blocks = w.dev.blocks := rfl
@[simp] theorem Work.modPow_launches (w : Work) (f : Power → Power) : (w.modPow f).dev.launches = w.dev.launches := rfl
@[simp] theorem Work.modPow_ctxs (w : Work) (f : Power → Power) : (w.modPow f).dev.ctxs = w.dev.ctxs := rfl
@[simp] theorem Work.modPow_tags (w : Work) (f : Power → Power) : (w.modPow f).dev.tags = w.dev.tags := rfl
@[simp] theorem Work.modPow_bad (w : Work) (f : Power → Power) : (w.modPow f).dev.bad = w.dev.bad := rfl
@[simp] theorem Work.modPow_mmu (w : Work) (f : Power → Power) : (w.modPow f).dev.mmu = w.dev.mmu := rfl
@[simp] theorem Work.modPow_hub (w : Work) (f : Power → Power) : (w.modPow f).dev.hub = w.dev.hub := rfl
@[simp] theorem Work.modPow_tail (w : Work) (f : Power → Power) : (w.modPow f).dev.tail = w.dev.tail := rfl
@[simp] theorem Work.modPow_sec (w : Work) (f : Power → Power) : (w.modPow f).dev.sec = w.dev.sec := rfl
@[simp] theorem Work.modPow_pow (w : Work) (f : Power → Power) : (w.modPow f).dev.pow = f w.dev.pow := rfl

end Sys2Proof.Machine
end

