-- ==== Sys2Proof/Laws/Bundle.lean ====
section
/-! SUPPORT. What the issue of a bundle does once its registers are full: one lemma for the pipeline, and one for each
shape of effect. -/

namespace Sys2Proof.Machine

/-! ### Readiness -/

theorem firstSome_none {α β : Type} (l : List α) (f : α → Option β) (h : ∀ x ∈ l, f x = none) :
    firstSome l f = none := by
  induction l with
  | nil => rfl
  | cons a l ih =>
    simp only [firstSome, h a (List.mem_cons_self ..)]
    exact ih fun x hx => h x (List.mem_cons_of_mem _ hx)

/-- Full registers make a bundle ready. -/
theorem ready_of_full {v : Wave} {e : Iss} {u : Uses} {at_ : Nat → Nat → Nat} (h : Full v e u at_) :
    v.ready e u at_ = .ok := by
  have hall : ∀ l ∈ e.act, ∀ x ∈ (u.src.filter (·.field < 3) ++ (match u.dst with
      | some (r, n) => [(⟨r, n, 3, false⟩ : Use)]
      | none => []) ++ u.src.filter (3 ≤ ·.field)),
      ∀ y ∈ v.useLocs e x (at_ x.field l), v.stat y.2 = none := by
    intro l hl x hx
    refine h l hl x ?_
    simp only [List.append_assoc, List.mem_append, List.mem_filter] at hx
    simp only [Uses.all, List.mem_append]
    rcases hx with hx | hx | hx
    · exact .inl hx.1
    · exact .inr hx
    · exact .inl hx.1
  simp only [Wave.ready]
  rw [firstSome_none]
  · dsimp only
    rw [firstSome_none]
    · dsimp only
      rw [if_neg]
      simp only [Bool.not_eq_true, List.any_eq_false]
      intro l hl x hx y hy
      simpa using hall l hl x hx y hy
    · intro x hx
      refine firstSome_none _ _ fun l hl => firstSome_none _ _ fun y hy => ?_
      have hx' : x ∈ u.all := by simp only [Uses.all, List.mem_append]; exact .inl (List.mem_filter.mp hx).1
      rw [h l hl x hx' y hy]
  · intro l hl
    refine firstSome_none _ _ fun x hx => firstSome_none _ _ fun y hy => ?_
    rw [hall l hl x hx y hy]

/-- Reading full registers through the stamped wave. -/
theorem full_setSplit {v : Wave} {e : Iss} {u : Uses} {at_ : Nat → Nat → Nat} (n : Nat) (sp : Split)
    (h : Full v e u at_) : Full (v.setSplit n sp) e u at_ := h

/-! ### The stamp -/

theorem Work.wave_eq (w : Work) (i : Nat) : w.wave i = mget w.dev.waves i Wave.blank := rfl

@[simp] theorem Work.setWave_wave (w : Work) (i : Nat) (x : Wave) : (w.setWave i x).wave i = x := by
  simp [Work.wave]

theorem Work.setWave_wave_ne (w : Work) {i j : Nat} (x : Wave) (h : j ≠ i) : (w.setWave i x).wave j = w.wave j := by
  simp [Work.wave, mget_mput_ne _ _ _ h]

@[simp] theorem Work.modWave_wave (w : Work) (i : Nat) (f : Wave → Wave) : (w.modWave i f).wave i = f (w.wave i) := by
  simp [Work.wave]

@[simp] theorem Work.modSys_wave (w : Work) (f : Sys → Sys) (i : Nat) : (w.modSys f).wave i = w.wave i := rfl
@[simp] theorem Work.modCtx_wave (w : Work) (k : Nat) (f : Context → Context) (i : Nat) :
    (w.modCtx k f).wave i = w.wave i := rfl
@[simp] theorem Work.modCore_wave (w : Work) (k : Nat) (f : Core → Core) (i : Nat) :
    (w.modCore k f).wave i = w.wave i := rfl
@[simp] theorem Work.modTail_wave (w : Work) (f : Tailstock → Tailstock) (i : Nat) :
    (w.modTail f).wave i = w.wave i := rfl

/-- The state in which the effect of a bundle runs: the split is stamped with the issue's number. -/
theorem Work.stamp_wave (w : Work) (c : Cur) :
    (w.stamp c).wave c.wid = (w.wave c.wid).setSplit c.entry
      { (w.wave c.wid).split c.entry with lastIssue := w.dev.sys.issue + 1 } := by
  simp [Work.stamp]

theorem Work.stamp_wave_ne (w : Work) (c : Cur) {j : Nat} (h : j ≠ c.wid) :
    mget? (w.stamp c).dev.waves j = mget? w.dev.waves j := by
  simp [Work.stamp, mget?_mput_ne _ _ h]

@[simp] theorem Work.stamp_issue (w : Work) (c : Cur) : (w.stamp c).dev.sys.issue = w.dev.sys.issue + 1 := by
  simp [Work.stamp]

@[simp] theorem Work.stamp_ctxs (w : Work) (c : Cur) : (w.stamp c).dev.ctxs = w.dev.ctxs := by
  simp [Work.stamp]

/-- The stamp does not change which lanes are speculative. -/
theorem Work.stamp_speculative (w : Work) (c : Cur) (l : Nat) :
    (w.stamp c).speculative c.wid l = w.speculative c.wid l := by
  have hl : ∀ v : Wave, ∀ n sp, (v.setSplit n sp).lane l = v.lane l := fun _ _ _ => rfl
  have hc : ∀ v : Wave, ∀ n sp, (v.setSplit n sp).ctx = v.ctx := fun _ _ _ => rfl
  simp only [Work.speculative, Work.stamp_wave, hl, hc, Work.isFrontier, Work.domain, Work.ctx, Work.stamp_ctxs]

/-! ### The pipeline -/

/-- Under `@!p0` no lane is active (R63). -/
theorem never_act {s : State} {c : Cur} {g : Guard} (h : neverGuard g = true) : (s.iss c g).act = [] := by
  simp only [neverGuard, Bool.and_eq_true, beq_iff_eq] at h
  change ((lanesOf ((s.wave c.wid).split c.entry).mask).filter
    fun l => guardPasses g ((s.wave c.wid).lane l)) = []
  simp only [List.filter_eq_nil_iff]
  intro l _
  simp [guardPasses, h.1, h.2, Lane.pred]

/-- A bundle that can issue runs its effect, which is none under `@!p0` (R63); unless the effect waits, the step answers the
state that `finish` gives. -/
theorem runBundle_effect {s : State} {c : Cur} {g : Guard} {u : Uses} {irrev : Bool}
    {at_ : Iss → Work → Nat → Nat → Nat} {f : Iss → Work → Eff} {instrs : Nat} {x : Eff}
    (h : CanIssue s c g u (at_ (s.iss c g) (s.work.stamp c)))
    (hi : irrev = true → Irrevocable s c g)
    (hx : (if neverGuard g then ⟨s.work.stamp c, .next, clsCtrl, 1⟩ else f (s.iss c g) (s.work.stamp c)) = x)
    (hf : x.fin ≠ .stall ∧ ∀ k, x.fin ≠ .hold k) :
    runBundle g u irrev at_ f instrs s =
      let w := (Work.finish (s.iss c g) false x instrs).settleNow c.wid
      .next ⟨applyLog w.log s.mem, w.dev⟩ := by
  have hentry : (mget? (mget s.dev.waves c.wid Wave.blank).entries c.entry).isNone = false := by
    have := h.entry
    simp only [State.wave] at this
    cases hx : mget? (mget s.dev.waves c.wid Wave.blank).entries c.entry with
    | none => rw [hx] at this; simp at this
    | some y => rfl
  have hdef : (s.work.stamp c).deferred (s.iss c g) u (at_ (s.iss c g) (s.work.stamp c)) = [] := by
    simp only [Work.deferred, List.filter_eq_nil_iff]
    intro l hl
    have hl' : l ∈ (s.iss c g).act := (List.mem_filter.mp hl).1
    have hF : Full ((s.work.stamp c).wave c.wid) { s.iss c g with act := [l] } u
        (at_ (s.iss c g) (s.work.stamp c)) := by
      rw [Work.stamp_wave]
      intro l' hl''
      have : l' = l := by simpa using hl''
      subst this
      exact h.full l' hl'
    rw [show ((s.work.stamp c).wave (s.iss c g).wid).ready _ u _ = .ok from ready_of_full hF]
    simp
  have hready : ((s.work.stamp c).wave c.wid).ready (s.iss c g) u (at_ (s.iss c g) (s.work.stamp c)) = .ok := by
    refine ready_of_full ?_
    rw [Work.stamp_wave]
    exact h.full
  have hst : ((s.work.wave c.wid).stepctl && (s.iss c g).level == 0 && !((s.work.wave c.wid).split c.entry).handler)
      = false := by
    have : (s.work.wave c.wid).stepctl = false := h.unstepped
    rw [this]; rfl
  have hpark : ∀ w : Work, ∀ e : Iss, w.parkFrontier e [] = (e, w) := fun _ _ => rfl
  have hspec : (if irrev then (s.work.stamp c).parkSpec (s.iss c g) else (s.iss c g, s.work.stamp c)) =
      (s.iss c g, s.work.stamp c) := by
    cases irrev with
    | false => rfl
    | true =>
      have := hi rfl
      have h0 : (s.work.stamp c).anySpeculative (s.iss c g).wid (s.iss c g).act = [] := by
        simp only [Irrevocable, Work.anySpeculative, List.filter_eq_nil_iff] at this ⊢
        intro l hl
        rw [show (s.iss c g).wid = c.wid from rfl, Work.stamp_speculative]
        exact this l hl
      simp only [if_true, Work.parkSpec, h0, hpark]
  simp only [runBundle, h.cur, hentry, Bool.false_eq_true, if_false, commit]
  have hb : (s.work.issueBundle c g u irrev at_ f instrs) = Work.finish (s.iss c g) false x instrs := by
    have he : s.work.iss c g = s.iss c g := rfl
    obtain ⟨w, fin, cls, units⟩ := x
    obtain ⟨h1, h2⟩ := hf
    simp only [Work.issueBundle, he, hst, hspec, hdef, hpark, if_neg h.lanes, hready, hx]
  have : (⟨s.mem, [], s.dev⟩ : Work) = s.work := rfl
  simp only [this, hb]

/-- The state that a bundle leaves which `@!p0` guards: its lanes go on, and the issue is charged as control (R63, R364). -/
theorem runBundle_never {s : State} {c : Cur} {g : Guard} {u : Uses} {irrev : Bool}
    {at_ : Iss → Work → Nat → Nat → Nat} {f : Iss → Work → Eff} {instrs : Nat} (cls units : Nat)
    (h : CanIssue s c g u (at_ (s.iss c g) (s.work.stamp c)))
    (hi : irrev = true → Irrevocable s c g) (hn : neverGuard g = true) :
    runBundle g u irrev at_ f instrs s =
      let w := (((s.work.stamp c).advance (s.iss c g)).after (s.iss c g) false
        (chargeOf g cls units).1 (chargeOf g cls units).2 instrs).settleNow c.wid
      .next ⟨applyLog w.log s.mem, w.dev⟩ := by
  have hg : g.neg = true ∧ g.p = 0 := by simpa [neverGuard] using hn
  rw [runBundle_effect h hi (x := ⟨s.work.stamp c, .next, clsCtrl, 1⟩) (by rw [if_pos hn]) (by simp)]
  simp only [Work.finish, chargeOf, if_pos hg]

/-- The state that any other bundle leaves. -/
theorem runBundle_done {s : State} {c : Cur} {g : Guard} {u : Uses} {irrev : Bool}
    {at_ : Iss → Work → Nat → Nat → Nat} {f : Iss → Work → Eff} {instrs : Nat} {x : Eff}
    (h : CanIssue s c g u (at_ (s.iss c g) (s.work.stamp c)))
    (hi : irrev = true → Irrevocable s c g) (hn : neverGuard g = false)
    (hx : f (s.iss c g) (s.work.stamp c) = x)
    (hf : x.fin ≠ .stall ∧ ∀ k, x.fin ≠ .hold k) :
    runBundle g u irrev at_ f instrs s =
      let w := (Work.finish (s.iss c g) false
        { x with cls := (chargeOf g x.cls x.units).1, units := (chargeOf g x.cls x.units).2 } instrs).settleNow c.wid
      .next ⟨applyLog w.log s.mem, w.dev⟩ := by
  have hg : ¬ (g.neg = true ∧ g.p = 0) := by simpa [neverGuard] using hn
  rw [runBundle_effect h hi (x := x) (by simp [hn, hx]) hf]
  simp only [chargeOf, if_neg hg]

/-! ### Energy and performance counters -/

/-- Work `w'` is work `w` with performance counters of one core changed, and perhaps overflows on the agenda. -/
structure Counted (w w' : Work) (core : Nat) : Prop where
  base : w'.base = w.base
  log : w'.log = w.log
  dev : w'.dev = { w.dev with
    sys := { w.dev.sys with agenda := w'.dev.sys.agenda }, cores := w'.dev.cores }
  core_ : ∀ k, w'.core k = { w.core k with pmcs := (w'.core k).pmcs }
  others : ∀ k, k ≠ core → w'.core k = w.core k

theorem Counted.refl (w : Work) (core : Nat) : Counted w w core := ⟨rfl, rfl, rfl, fun _ => rfl, fun _ _ => rfl⟩

theorem Counted.trans {a b d : Work} {core : Nat} (h : Counted a b core) (k : Counted b d core) :
    Counted a d core where
  base := k.base.trans h.base
  log := k.log.trans h.log
  dev := by have := k.dev; rw [h.dev] at this; simpa using this
  core_ := fun i => by have := k.core_ i; rw [h.core_ i] at this; simpa using this
  others := fun i hi => (k.others i hi).trans (h.others i hi)

@[simp] theorem Work.modCore_core (w : Work) (i : Nat) (f : Core → Core) : (w.modCore i f).core i = f (w.core i) := by
  simp [Work.core]

theorem Work.modCore_core_ne (w : Work) {i j : Nat} (f : Core → Core) (h : j ≠ i) :
    (w.modCore i f).core j = w.core j := by
  simp [Work.core, mget_mput_ne _ _ _ h]

theorem Counted.modPmcs (w : Work) (core : Nat) (f : Core → FMap Pmc) :
    Counted w (w.modCore core fun k => { k with pmcs := f k }) core where
  base := rfl
  log := rfl
  dev := rfl
  core_ := fun k => by
    by_cases hk : k = core
    · subst hk; simp
    · simp [Work.modCore_core_ne _ _ hk]
  others := fun k hk => Work.modCore_core_ne _ _ hk

theorem Counted.agenda (w : Work) (core : Nat) (f : List Turn → List Turn) :
    Counted w (w.modSys fun s => { s with agenda := f s.agenda }) core :=
  ⟨rfl, rfl, rfl, fun _ => rfl, fun _ _ => rfl⟩

theorem pmcAdd_counted (w : Work) (core i n : Nat) : Counted w (w.pmcAdd core i n) core := by
  dsimp only [Work.pmcAdd]
  repeat' split
  all_goals first
    | exact Counted.modPmcs w core _
    | exact (Counted.modPmcs w core _).trans (Counted.agenda _ core fun a => _ :: a)

theorem count_counted (w : Work) (core ctx event n : Nat) : Counted w (w.count core ctx event n) core := by
  simp only [Work.count]
  split
  · exact Counted.refl w core
  · next h =>
    clear h
    generalize (w.core core).pmcs = ps
    induction ps generalizing w with
    | nil => exact Counted.refl w core
    | cons p ps ih =>
      simp only [List.foldl_cons]
      split
      · exact (pmcAdd_counted w core _ _).trans (ih _)
      · exact ih w

theorem Counted.waves_eq {w w' : Work} {core : Nat} (h : Counted w w' core) : w'.dev.waves = w.dev.waves := by
  rw [h.dev]

theorem Counted.ctxs_eq {w w' : Work} {core : Nat} (h : Counted w w' core) : w'.dev.ctxs = w.dev.ctxs := by
  rw [h.dev]

/-- What a charge does: the counter of the context on the core gains the units, and nothing else changes. -/
structure Charged (w w' : Work) (ctx core u : Nat) : Prop where
  base : w'.base = w.base
  log : w'.log = w.log
  dev : w'.dev = { w.dev with ctxs := w'.dev.ctxs }
  energy : (w'.ctx ctx).energyOn core = ((w.ctx ctx).energyOn core).add u
  ctx_ : ∀ k, w'.ctx k = { w.ctx k with energy := (w'.ctx k).energy }
  others : ∀ k, k ≠ ctx → w'.ctx k = w.ctx k

@[simp] theorem Work.modCtx_ctx (w : Work) (i : Nat) (f : Context → Context) : (w.modCtx i f).ctx i = f (w.ctx i) := by
  simp [Work.ctx]

theorem Work.modCtx_ctx_ne (w : Work) {i j : Nat} (f : Context → Context) (h : j ≠ i) :
    (w.modCtx i f).ctx j = w.ctx j := by
  simp [Work.ctx, mget_mput_ne _ _ _ h]

theorem energy_add_zero (x : Energy) : x.add 0 = x := rfl

theorem charge_charged (w : Work) (ctx core cls n : Nat) :
    Charged w (w.charge ctx core cls n) ctx core (n * ((w.ctx ctx).rec_.ewt.getD cls 0).toNat) := by
  simp only [Work.charge]
  split
  · next h => exact ⟨rfl, rfl, rfl, by rw [h, energy_add_zero], fun _ => rfl, fun _ _ => rfl⟩
  · refine ⟨rfl, rfl, rfl, ?_, ?_, fun k hk => Work.modCtx_ctx_ne _ _ hk⟩
    · simp [Context.energyOn]
    · intro k
      by_cases hk : k = ctx
      · subst hk; simp
      · simp [Work.modCtx_ctx_ne _ _ hk]

/-! ### The shape of effect that changes only its wave -/

theorem mput_mput {α : Type} (m : FMap α) (k : Nat) (a b : α) : mput (mput m k a) k b = mput m k b := by
  induction m with
  | nil => simp [mput]
  | cons c m ih =>
    obtain ⟨j, x⟩ := c
    simp only [mput]
    split
    · simp [mput]
    · split
      · simp [mput]
      · next h1 h2 => simp [mput, h1, h2, ih]

@[simp] theorem Wave.setSplit_split (v : Wave) (n : Nat) (sp : Split) : (v.setSplit n sp).split n = sp := by
  simp [Wave.split, Wave.setSplit]

theorem Wave.setSplit_setSplit (v : Wave) (n : Nat) (a b : Split) :
    (v.setSplit n a).setSplit n b = v.setSplit n b := by
  simp [Wave.setSplit, mput_mput]

theorem stamp_counted_like (w : Work) (c : Cur) :
    (w.stamp c).base = w.base ∧ (w.stamp c).log = w.log ∧
      (w.stamp c).dev = { w.dev with sys := (w.stamp c).dev.sys, waves := (w.stamp c).dev.waves } ∧
      (w.stamp c).dev.sys = { w.dev.sys with
        issue := w.dev.sys.issue + 1, stalled := [], yields := (w.stamp c).dev.sys.yields } :=
  ⟨rfl, rfl, rfl, rfl⟩

/-- A bundle whose effect, with its lanes placed, leaves the stamped state but for its wave. -/
theorem issued_of_after {s t : State} {c : Cur} {g : Guard} {instrs cls units : Nat} {v : Wave} {w2 : Work}
    {ids : Nat} (hw2 : ((s.work.stamp c).modSys fun y => { y with nextId := y.nextId + ids }).setWave c.wid v = w2)
    (ht : t = let w := (w2.after (s.iss c g) false (chargeOf g cls units).1 (chargeOf g cls units).2
        instrs).settleNow c.wid
      ⟨applyLog w.log s.mem, w.dev⟩) : Issued s t c g [chargeOf g cls units] ids v := by
  subst ht
  dsimp only
  have hafter : w2.after (s.iss c g) false (chargeOf g cls units).1 (chargeOf g cls units).2 instrs =
      ((w2.charge (s.iss c g).ctx (s.iss c g).core (chargeOf g cls units).1 (chargeOf g cls units).2).count
        (s.iss c g).core (s.iss c g).ctx 0x02 1).count (s.iss c g).core (s.iss c g).ctx 0x03 instrs := rfl
  rw [hafter]
  have hC := charge_charged w2 (s.iss c g).ctx (s.iss c g).core (chargeOf g cls units).1 (chargeOf g cls units).2
  generalize w2.charge (s.iss c g).ctx (s.iss c g).core (chargeOf g cls units).1 (chargeOf g cls units).2 = w3 at hC ⊢
  have hK := (count_counted w3 (s.iss c g).core (s.iss c g).ctx 0x02 1).trans
    (count_counted _ (s.iss c g).core (s.iss c g).ctx 0x03 instrs)
  generalize ((w3.count (s.iss c g).core (s.iss c g).ctx 0x02 1).count (s.iss c g).core (s.iss c g).ctx 0x03 instrs)
    = w4 at hK ⊢
  have h2w : w2.dev.waves = mput (s.work.stamp c).dev.waves c.wid v := by rw [← hw2]; rfl
  have h2c : w2.dev.ctxs = s.dev.ctxs := by rw [← hw2]; rfl
  have h2k : w2.dev.cores = s.dev.cores := by rw [← hw2]; rfl
  have h2l : w2.log = [] := by rw [← hw2]; rfl
  have h2d : w2.dev = { s.dev with sys := w2.dev.sys, waves := w2.dev.waves } := by rw [← hw2]; rfl
  have h2s : w2.dev.sys = { s.dev.sys with
        issue := s.dev.sys.issue + 1, stalled := [], yields := w2.dev.sys.yields
        nextId := s.dev.sys.nextId + ids } := by rw [← hw2]; rfl
  have h3d : w3.dev = { w2.dev with ctxs := w3.dev.ctxs } := hC.dev
  have h4d := hK.dev
  have hwaves : w4.dev.waves = w2.dev.waves := by rw [h4d, h3d]
  have hcores3 : w3.dev.cores = s.dev.cores := by rw [h3d]; exact h2k
  have hctx4 : w4.dev.ctxs = w3.dev.ctxs := by rw [h4d]
  constructor
  · simp [State.wave, Work.settleNow, Work.wave, hwaves, h2w]
  · have := hC.energy
    simp only [Work.ctx, h2c] at this
    simp only [State.ctx, Work.settleNow, Work.modWave_ctxs, hctx4]
    simp only [Energy.charged, List.foldl_cons, List.foldl_nil]
    exact this
  · simp only [Work.settleNow, Work.modWave_log, hK.log, hC.log, h2l]; rfl
  · intro j hj
    simp [Work.settleNow, mget?_mput_ne _ _ hj, hwaves, h2w, Work.stamp_wave_ne _ _ hj]
    rfl
  · intro k
    have := hK.core_ k
    simp only [Work.core, hcores3] at this
    exact this
  · intro k hk
    have := hK.others k hk
    simp only [Work.core, hcores3] at this
    exact this
  · intro k
    have := hC.ctx_ k
    simp only [Work.ctx, h2c] at this
    simp only [State.ctx, Work.settleNow, Work.modWave_ctxs, hctx4]
    exact this
  · intro k hk
    have := hC.others k hk
    simp only [Work.ctx, h2c] at this
    simp only [State.ctx, Work.settleNow, Work.modWave_ctxs, hctx4]
    exact this
  · simp only [Work.settleNow, Work.modWave_sys]
    rw [h4d, h3d]
    exact congrArg (fun y : Sys => { y with agenda := w4.dev.sys.agenda }) h2s
  · simp only [Work.settleNow, Work.modWave, Work.setWave, Work.modDev]
    rw [h4d, h3d, h2d]

/-- The wave in which an effect runs: it is stamped with the issue's number. -/
def State.stamped (s : State) (c : Cur) : Wave :=
  (s.wave c.wid).setSplit c.entry { (s.wave c.wid).split c.entry with lastIssue := s.stamp }

theorem stamped_eq (s : State) (c : Cur) : (s.work.stamp c).wave c.wid = s.stamped c := Work.stamp_wave _ _

/-- The issue of a bundle that `@!p0` guards: the lanes go on, and nothing else happens (R63). -/
theorem issued_never {s : State} {c : Cur} {g : Guard} {u : Uses} {irrev : Bool}
    {at_ : Iss → Work → Nat → Nat → Nat} {f : Iss → Work → Eff} {instrs : Nat} (cls units : Nat)
    (h : CanIssue s c g u (at_ (s.iss c g) (s.work.stamp c)))
    (hi : irrev = true → Irrevocable s c g) (hn : neverGuard g = true) :
    ∃ t, runBundle g u irrev at_ f instrs s = .next t ∧
      Issued s t c g [chargeOf g cls units] 0 ((s.wave c.wid).goOn c.entry s.stamp) := by
  refine ⟨_, runBundle_never cls units h hi hn, ?_⟩
  refine issued_of_after (w2 := (s.work.stamp c).advance (s.iss c g)) (instrs := instrs) ?_ rfl
  have hwid : (s.iss c g).wid = c.wid := rfl
  have hent : (s.iss c g).entry = c.entry := rfl
  have hpc : (s.iss c g).pc = ((s.wave c.wid).split c.entry).pc := rfl
  simp only [Work.advance, hwid, hent, Work.modWave, stamped_eq, State.stamped, Wave.setSplit_setSplit,
    Wave.setSplit_split, Wave.goOn, hpc]
  rfl

/-- The issue of a bundle whose effect leaves the stamped state but for its wave, which becomes `v` beside the stamp, and
whose lanes all go on. -/
theorem issued_next {s : State} {c : Cur} {g : Guard} {u : Uses} {irrev : Bool}
    {at_ : Iss → Work → Nat → Nat → Nat} {f : Iss → Work → Eff} {instrs cls units : Nat} (ids : Nat) {v : Wave}
    (h : CanIssue s c g u (at_ (s.iss c g) (s.work.stamp c)))
    (hi : irrev = true → Irrevocable s c g)
    (hf : f (s.iss c g) (s.work.stamp c) = ⟨((s.work.stamp c).modSys fun y => { y with nextId := y.nextId + ids }).setWave c.wid
      (v.setSplit c.entry { (s.wave c.wid).split c.entry with lastIssue := s.stamp }), .next, cls, units⟩)
    (hv : v.split c.entry = (s.wave c.wid).split c.entry)
    (hn : (s.iss c g).act = [] → v = s.wave c.wid ∧ ids = 0) :
    ∃ t, runBundle g u irrev at_ f instrs s = .next t ∧ Issued s t c g [chargeOf g cls units] ids (v.goOn c.entry s.stamp) := by
  cases hg : neverGuard g with
  | true =>
    obtain ⟨rfl, rfl⟩ := hn (never_act hg)
    exact issued_never cls units h hi hg
  | false =>
  refine ⟨_, runBundle_done h hi hg hf (by simp), ?_⟩
  refine issued_of_after (w2 := Work.advance (((s.work.stamp c).modSys fun y => { y with nextId := y.nextId + ids }).setWave c.wid
      (v.setSplit c.entry { (s.wave c.wid).split c.entry with lastIssue := s.stamp })) (s.iss c g))
    (instrs := instrs) ?_ rfl
  have hwid : (s.iss c g).wid = c.wid := rfl
  have hent : (s.iss c g).entry = c.entry := rfl
  have hpc : (s.iss c g).pc = ((s.wave c.wid).split c.entry).pc := rfl
  simp only [Work.advance, hwid, hent, Work.modWave, Work.setWave_wave, Wave.setSplit_setSplit,
    Wave.setSplit_split, Wave.goOn, hv, hpc]
  simp [Work.setWave, Work.modDev, mput_mput]

/-- The issue of a bundle whose effect leaves the stamped state but for its wave, and places the lanes itself. -/
theorem issued_gone {s : State} {c : Cur} {g : Guard} {u : Uses} {irrev : Bool}
    {at_ : Iss → Work → Nat → Nat → Nat} {f : Iss → Work → Eff} {instrs cls units : Nat} (ids : Nat) {v : Wave}
    (h : CanIssue s c g u (at_ (s.iss c g) (s.work.stamp c)))
    (hi : irrev = true → Irrevocable s c g)
    (hf : f (s.iss c g) (s.work.stamp c) =
      ⟨((s.work.stamp c).modSys fun y => { y with nextId := y.nextId + ids }).setWave c.wid v, .gone, cls, units⟩)
    (hn : neverGuard g = true → v = (s.wave c.wid).goOn c.entry s.stamp ∧ ids = 0) :
    ∃ t, runBundle g u irrev at_ f instrs s = .next t ∧ Issued s t c g [chargeOf g cls units] ids v := by
  cases hg : neverGuard g with
  | true =>
    obtain ⟨rfl, rfl⟩ := hn hg
    exact issued_never cls units h hi hg
  | false => exact ⟨_, runBundle_done h hi hg hf (by simp), issued_of_after rfl rfl⟩

end Sys2Proof.Machine
end

