-- ==== Sys2Proof/Laws/Registers.lean ====
section
/-! SUPPORT. What a write of a destination does to a wave's registers (R18, R23, R25, R26). -/

namespace Sys2Proof.Machine

/-! ### One home -/

theorem Wave.wr_cases (v : Wave) (x : Loc) (y : Word) :
    (x.1 = 0 ∧ v.wr x y = { v with vregs := mset v.vregs x.2 y 0, vstat := mdel v.vstat x.2 }) ∨
    (x.1 = 1 ∧ v.wr x y = { v with kregs := mset v.kregs x.2 y 0, kstat := mdel v.kstat x.2 }) ∨
    (x.1 = 2 ∧ v.wr x y = { v with hregs := mset v.hregs x.2 y 0, hstat := mdel v.hstat x.2 }) ∨
    (3 ≤ x.1 ∧ v.wr x y = v) := by
  obtain ⟨a, b⟩ := x
  match a with
  | 0 => exact .inl ⟨rfl, rfl⟩
  | 1 => exact .inr (.inl ⟨rfl, rfl⟩)
  | 2 => exact .inr (.inr (.inl ⟨rfl, rfl⟩))
  | n + 3 => exact .inr (.inr (.inr ⟨by simp, rfl⟩))

/-- A write changes registers and their marks alone. -/
theorem Wave.wr_rest (v : Wave) (x : Loc) (y : Word) : v.wr x y = { v with
    vregs := (v.wr x y).vregs, vstat := (v.wr x y).vstat, kregs := (v.wr x y).kregs, kstat := (v.wr x y).kstat,
    hregs := (v.wr x y).hregs, hstat := (v.wr x y).hstat } := by
  rcases v.wr_cases x y with ⟨_, h⟩ | ⟨_, h⟩ | ⟨_, h⟩ | ⟨_, h⟩ <;> rw [h]

theorem Wave.wr_setSplit (v : Wave) (n : Nat) (sp : Split) (x : Loc) (y : Word) :
    (v.setSplit n sp).wr x y = (v.wr x y).setSplit n sp := by
  obtain ⟨a, b⟩ := x
  match a with
  | 0 => rfl
  | 1 => rfl
  | 2 => rfl
  | n + 3 => rfl

theorem Wave.wr_lane (v : Wave) (x : Loc) (y : Word) (l : Nat) : (v.wr x y).lane l = v.lane l := by
  rw [Wave.wr_rest]; rfl

theorem Wave.wr_loc (v : Wave) (x : Loc) (y : Word) (e : Iss) (r : Reg) (l : Nat) :
    (v.wr x y).loc e r l = v.loc e r l := by
  cases r <;> simp only [Wave.loc, Wave.wr_lane]

theorem Wave.rd_wr_self (v : Wave) (x : Loc) (y : Word) (h : x.1 < 3) : (v.wr x y).rd x = y := by
  obtain ⟨a, b⟩ := x
  match a with
  | 0 => simp [Wave.wr, Wave.rd]
  | 1 => simp [Wave.wr, Wave.rd]
  | 2 => simp [Wave.wr, Wave.rd]
  | n + 3 => exact absurd h (by simp)

theorem Wave.rd_wr_ne (v : Wave) (x z : Loc) (y : Word) (h : z ≠ x) : (v.wr x y).rd z = v.rd z := by
  obtain ⟨a, b⟩ := x
  obtain ⟨c, d⟩ := z
  have hne : c = a → d ≠ b := fun hc hd => h (by rw [hc, hd])
  match a, c with
  | 0, 0 => simp [Wave.wr, Wave.rd, mget_mset_ne _ _ _ (hne rfl)]
  | 1, 1 => simp [Wave.wr, Wave.rd, mget_mset_ne _ _ _ (hne rfl)]
  | 2, 2 => simp [Wave.wr, Wave.rd, mget_mset_ne _ _ _ (hne rfl)]
  | 0, 1 => rfl
  | 0, 2 => rfl
  | 1, 0 => rfl
  | 1, 2 => rfl
  | 2, 0 => rfl
  | 2, 1 => rfl
  | n + 3, _ => rfl
  | 0, n + 3 => rfl
  | 1, n + 3 => rfl
  | 2, n + 3 => rfl

theorem Wave.stat_wr_self (v : Wave) (x : Loc) (y : Word) : (v.wr x y).stat x = none := by
  obtain ⟨a, b⟩ := x
  match a with
  | 0 => simp [Wave.wr, Wave.stat]
  | 1 => simp [Wave.wr, Wave.stat]
  | 2 => simp [Wave.wr, Wave.stat]
  | n + 3 => rfl

theorem Wave.stat_wr_ne (v : Wave) (x z : Loc) (y : Word) (h : z ≠ x) : (v.wr x y).stat z = v.stat z := by
  obtain ⟨a, b⟩ := x
  obtain ⟨c, d⟩ := z
  have hne : c = a → d ≠ b := fun hc hd => h (by rw [hc, hd])
  match a, c with
  | 0, 0 => simp [Wave.wr, Wave.stat, mget?_mdel_ne _ (hne rfl)]
  | 1, 1 => simp [Wave.wr, Wave.stat, mget?_mdel_ne _ (hne rfl)]
  | 2, 2 => simp [Wave.wr, Wave.stat, mget?_mdel_ne _ (hne rfl)]
  | 0, 1 => rfl
  | 0, 2 => rfl
  | 1, 0 => rfl
  | 1, 2 => rfl
  | 2, 0 => rfl
  | 2, 1 => rfl
  | n + 3, _ => rfl
  | 0, n + 3 => rfl
  | 1, n + 3 => rfl
  | 2, n + 3 => rfl

/-! ### Many homes -/

/-- Words written to homes, one after the other. -/
def Wave.wrAll (v : Wave) (xs : List (Loc × Word)) : Wave := xs.foldl (fun v p => v.wr p.1 p.2) v

theorem Wave.wrAll_rd (v : Wave) (xs : List (Loc × Word)) (x : Loc) (y : Word) (hx : x.1 < 3)
    (h : ∀ p ∈ xs, p.1 = x → p.2 = y) (hm : (∃ p ∈ xs, p.1 = x) ∨ v.rd x = y) : (v.wrAll xs).rd x = y := by
  induction xs generalizing v with
  | nil => simpa [Wave.wrAll] using hm
  | cons p xs ih =>
    refine ih (v.wr p.1 p.2) (fun q hq => h q (List.mem_cons_of_mem _ hq)) ?_
    by_cases hp : p.1 = x
    · right
      rw [← hp, Wave.rd_wr_self _ _ _ (by rw [hp]; exact hx)]
      exact h p (List.mem_cons_self ..) hp
    · rcases hm with ⟨q, hq, hqx⟩ | hm
      · rcases List.mem_cons.mp hq with rfl | hq
        · exact absurd hqx hp
        · exact .inl ⟨q, hq, hqx⟩
      · right
        rw [Wave.rd_wr_ne _ _ _ _ (Ne.symm hp)]
        exact hm

theorem Wave.wrAll_stat (v : Wave) (xs : List (Loc × Word)) (x : Loc)
    (hm : (∃ p ∈ xs, p.1 = x) ∨ v.stat x = none) : (v.wrAll xs).stat x = none := by
  induction xs generalizing v with
  | nil => simpa [Wave.wrAll] using hm
  | cons p xs ih =>
    refine ih (v.wr p.1 p.2) ?_
    by_cases hp : p.1 = x
    · right; rw [← hp, Wave.stat_wr_self]
    · rcases hm with ⟨q, hq, hqx⟩ | hm
      · rcases List.mem_cons.mp hq with rfl | hq
        · exact absurd hqx hp
        · exact .inl ⟨q, hq, hqx⟩
      · right
        rw [Wave.stat_wr_ne _ _ _ _ (Ne.symm hp)]
        exact hm

theorem Wave.wrAll_keeps (v : Wave) (xs : List (Loc × Word)) (x : Loc) (h : ∀ p ∈ xs, p.1 ≠ x) :
    (v.wrAll xs).rd x = v.rd x ∧ (v.wrAll xs).stat x = v.stat x := by
  induction xs generalizing v with
  | nil => exact ⟨rfl, rfl⟩
  | cons p xs ih =>
    have hp := h p (List.mem_cons_self ..)
    have := ih (v.wr p.1 p.2) fun q hq => h q (List.mem_cons_of_mem _ hq)
    rw [Wave.rd_wr_ne _ _ _ _ (Ne.symm hp), Wave.stat_wr_ne _ _ _ _ (Ne.symm hp)] at this
    exact this

theorem Wave.wrAll_rest (v : Wave) (xs : List (Loc × Word)) : v.wrAll xs = { v with
    vregs := (v.wrAll xs).vregs, vstat := (v.wrAll xs).vstat, kregs := (v.wrAll xs).kregs,
    kstat := (v.wrAll xs).kstat, hregs := (v.wrAll xs).hregs, hstat := (v.wrAll xs).hstat } := by
  have key : ∃ a b c d e f, v.wrAll xs =
      { v with vregs := a, vstat := b, kregs := c, kstat := d, hregs := e, hstat := f } := by
    induction xs generalizing v with
    | nil => exact ⟨_, _, _, _, _, _, rfl⟩
    | cons p xs ih =>
      obtain ⟨a, b, c, d, e, f, h⟩ := ih (v.wr p.1 p.2)
      refine ⟨a, b, c, d, e, f, h.trans ?_⟩
      rw [Wave.wr_rest v]
  obtain ⟨a, b, c, d, e, f, h⟩ := key
  rw [h]

theorem Wave.wrAll_setSplit (v : Wave) (n : Nat) (sp : Split) (xs : List (Loc × Word)) :
    (v.setSplit n sp).wrAll xs = (v.wrAll xs).setSplit n sp := by
  induction xs generalizing v with
  | nil => rfl
  | cons p xs ih =>
    simp only [Wave.wrAll, List.foldl_cons] at ih ⊢
    rw [Wave.wr_setSplit, ih]

theorem Wave.wrAll_loc (v : Wave) (xs : List (Loc × Word)) (e : Iss) (r : Reg) (l : Nat) :
    (v.wrAll xs).loc e r l = v.loc e r l := by
  induction xs generalizing v with
  | nil => rfl
  | cons p xs ih =>
    have := ih (v.wr p.1 p.2)
    rw [Wave.wr_loc] at this
    exact this

/-- The homes and words of one lane's group. -/
def Wave.group (v : Wave) (e : Iss) (r : Reg) (l : Nat) (ys : List Word) : List (Loc × Word) :=
  ys.zipIdx.map fun y => (v.loc e (regAt r y.2) l, y.1)

theorem Wave.put_eq (v : Wave) (e : Iss) (r : Reg) (l : Nat) (ys : List Word) :
    v.put e r l ys = v.wrAll (v.group e r l ys) := by
  have key : ∀ (zs : List (Word × Nat)) (u : Wave), (∀ q i, u.loc e q i = v.loc e q i) →
      zs.foldl (fun v y => v.wr (v.loc e (regAt r y.2) l) y.1) u =
        u.wrAll (zs.map fun y => (v.loc e (regAt r y.2) l, y.1)) := by
    intro zs
    induction zs with
    | nil => intro u _; rfl
    | cons z zs ih =>
      intro u hu
      simp only [List.foldl_cons, List.map_cons, Wave.wrAll, hu]
      exact ih _ fun q i => by rw [Wave.wr_loc, hu]
  exact key _ v fun _ _ => rfl

theorem Wave.group_loc (v u : Wave) (e : Iss) (r : Reg) (l : Nat) (ys : List Word)
    (h : ∀ q i, u.loc e q i = v.loc e q i) : u.group e r l ys = v.group e r l ys := by
  simp only [Wave.group, h]

theorem Wave.putAll_eq (v : Wave) (e : Iss) (r : Reg) (f : Nat → List Word) :
    v.putAll e r f = v.wrAll ((writers e r).flatMap fun l => v.group e r l (f l)) := by
  have key : ∀ (ls : List Nat) (u : Wave), (∀ q i, u.loc e q i = v.loc e q i) →
      ls.foldl (fun v l => v.put e r l (f l)) u = u.wrAll (ls.flatMap fun l => v.group e r l (f l)) := by
    intro ls
    induction ls with
    | nil => intro u _; rfl
    | cons l ls ih =>
      intro u hu
      rw [List.foldl_cons, ih _ fun q i => by rw [Wave.put_eq, Wave.wrAll_loc, hu]]
      rw [Wave.put_eq, Wave.group_loc v u e r l (f l) hu]
      simp only [Wave.wrAll, List.flatMap_cons, List.foldl_append]
  unfold Wave.putAll writers
  split
  · cases hact : e.act with
    | nil => rfl
    | cons l ls =>
      simp only [List.take_succ_cons, List.take_zero, List.flatMap_cons, List.flatMap_nil, List.append_nil]
      exact Wave.put_eq v e r l (f l)
  · exact key e.act v fun _ _ => rfl

theorem Wave.putAll_setSplit (v : Wave) (n : Nat) (sp : Split) (e : Iss) (r : Reg) (f : Nat → List Word) :
    (v.setSplit n sp).putAll e r f = (v.putAll e r f).setSplit n sp := by
  rw [Wave.putAll_eq, Wave.putAll_eq]
  exact Wave.wrAll_setSplit v n sp _

/-! ### Homes are distinct -/

/-- The environment of an issue as the part makes it: lanes below 32, and a stack of 32 to 1,024 words. -/
structure IssOk (e : Iss) : Prop where
  low : 32 ≤ e.s
  high : e.s ≤ 1024
  lanes : ∀ l ∈ e.act, l < 32

theorem stackPos_inj {s w m n : Nat} (hs : 32 ≤ s) (hm : m < 32) (hn : n < 32)
    (h : stackPos s w m = stackPos s w n) : m = n := by
  unfold stackPos at h
  have h1 := Nat.div_add_mod (24 * w + m) s
  have h2 := Nat.div_add_mod (24 * w + n) s
  rw [h] at h1
  generalize (24 * w + n) % s = x at h1 h2
  generalize (24 * w + m) / s = a at h1
  generalize (24 * w + n) / s = b at h2
  have hab : a = b := by
    rcases Nat.lt_trichotomy a b with hlt | heq | hlt
    · have : s * (a + 1) ≤ s * b := Nat.mul_le_mul_left s hlt
      rw [Nat.mul_add] at this
      omega
    · exact heq
    · have : s * (b + 1) ≤ s * a := Nat.mul_le_mul_left s hlt
      rw [Nat.mul_add] at this
      omega
  subst hab
  omega

theorem regAt_isK (r : Reg) (i : Nat) : (regAt r i).isK = r.isK := by cases r <;> rfl

theorem regAt_idx (r : Reg) (i : Nat) (h : r.idx + i < 32) : (regAt r i).idx = r.idx + i := by
  cases r with
  | v n =>
    simp only [regAt, Reg.idx] at *
    rw [BitVec.toNat_add, BitVec.toNat_ofNat]
    omega
  | k n =>
    simp only [regAt, Reg.idx] at *
    rw [BitVec.toNat_add, BitVec.toNat_ofNat]
    omega

theorem reg_ext {a b : Reg} (hk : a.isK = b.isK) (hi : a.idx = b.idx) : a = b := by
  cases a <;> cases b <;> simp only [Reg.isK, Reg.idx] at * <;> simp_all [BitVec.toNat_inj]

/-- Two registers have one home only where they are the same register of the same lane, or both are k. -/
theorem loc_inj {v : Wave} {e : Iss} (ok : IssOk e) {a b : Reg} {l m : Nat}
    (h : v.loc e a l = v.loc e b m) : (a.isK = true ∧ b.isK = true ∧ a = b) ∨ (a.isK = false ∧ a = b ∧ l = m) ∨
      (a.isK = true ∧ b.isK = true ∧ (v.loc e a l).1 = 3) ∨ False := by
  have hlow := ok.low
  have hhigh := ok.high
  cases a with
  | v x =>
    have hx := x.isLt
    cases b with
    | v y =>
      have hy := y.isLt
      right; left
      refine ⟨rfl, ?_⟩
      simp only [Wave.loc] at h
      split at h <;> split at h
      · simp only [Prod.mk.injEq, true_and] at h
        have : x.toNat = y.toNat := by omega
        exact ⟨by rw [BitVec.toNat_inj.mp this], by omega⟩
      · simp at h
      · simp at h
      · simp only [Prod.mk.injEq, true_and] at h
        have p1 : stackPos e.s (v.lane l).wdepth.toNat x.toNat < e.s := Nat.mod_lt _ (by omega)
        have p2 : stackPos e.s (v.lane m).wdepth.toNat y.toNat < e.s := Nat.mod_lt _ (by omega)
        have hl : l = m := by omega
        subst hl
        have : stackPos e.s (v.lane l).wdepth.toNat x.toNat = stackPos e.s (v.lane l).wdepth.toNat y.toNat := by omega
        exact ⟨by rw [BitVec.toNat_inj.mp (stackPos_inj hlow hx hy this)], rfl⟩
    | k y =>
      simp only [Wave.loc] at h
      split at h <;> split at h <;> simp at h
  | k x =>
    cases b with
    | v y =>
      simp only [Wave.loc] at h
      split at h <;> split at h <;> simp at h
    | k y =>
      simp only [Wave.loc] at h ⊢
      split at h
      · next hx => subst hx; exact .inr (.inr (.inl ⟨rfl, rfl, by simp⟩))
      · split at h
        · simp at h
        · simp only [Prod.mk.injEq, true_and] at h
          exact .inl ⟨rfl, rfl, by rw [BitVec.toNat_inj.mp h]⟩

theorem loc_file {v : Wave} {e : Iss} {r : Reg} {l : Nat} (h : r ≠ .k 31) : (v.loc e r l).1 < 3 := by
  cases r with
  | v n => simp only [Wave.loc]; split <;> simp
  | k n =>
    simp only [Wave.loc]
    split
    · next hn => exact absurd (by rw [hn]) h
    · simp

/-- Writing a destination does what `Wrote` says. -/
theorem putAll_wrote {v : Wave} {e : Iss} {d : Reg} {n : Nat} {f : Nat → List Word} (ok : IssOk e)
    (hn : d.idx + n ≤ 32) (hf : ∀ l ∈ writers e d, (f l).length = n) : Wrote v (v.putAll e d f) e d n f := by
  rw [Wave.putAll_eq]
  have memb : ∀ p, p ∈ (writers e d).flatMap (fun l => v.group e d l (f l)) ↔
      ∃ l ∈ writers e d, ∃ i < n, p = (v.loc e (regAt d i) l, (f l).getD i 0) := by
    intro p
    simp only [List.mem_flatMap, Wave.group, List.mem_map]
    constructor
    · rintro ⟨l, hl, y, hy, rfl⟩
      have := List.mem_zipIdx' hy
      refine ⟨l, hl, y.2, ?_, ?_⟩
      · rw [← hf l hl]; exact this.1
      · simp [this.2, List.getD_eq_getElem?_getD, List.getElem?_eq_getElem this.1]
    · rintro ⟨l, hl, i, hi, rfl⟩
      have hi' : i < (f l).length := by rw [hf l hl]; exact hi
      refine ⟨l, hl, ((f l)[i], i), ?_, ?_⟩
      · rw [List.mem_zipIdx_iff_getElem?]; simp [hi']
      · simp [List.getD_eq_getElem?_getD, List.getElem?_eq_getElem hi']
  have one : ∀ l ∈ writers e d, ∀ m ∈ writers e d, d.isK = true → l = m := by
    intro l hl m hm hk
    simp only [writers, hk, if_true] at hl hm
    cases hact : e.act with
    | nil => rw [hact] at hl; simp at hl
    | cons a as => rw [hact] at hl hm; simp at hl hm; rw [hl, hm]
  constructor
  · intro l hl i hi hkz
    have hfile : (v.loc e (regAt d i) l).1 < 3 := loc_file hkz
    simp only [Wave.val, Wave.wrAll_loc]
    refine Wave.wrAll_rd _ _ _ _ hfile ?_ (.inl ⟨_, (memb _).mpr ⟨l, hl, i, hi, rfl⟩, rfl⟩)
    intro p hp hpx
    obtain ⟨m, hm, j, hj, rfl⟩ := (memb p).mp hp
    dsimp only at hpx ⊢
    have same : ∀ {a b : Reg}, a = regAt d j → b = regAt d i → a = b → j = i := by
      intro a b ha hb hab
      have h1 := regAt_idx d j (by omega)
      have h2 := regAt_idx d i (by omega)
      rw [← ha, hab, hb, h2] at h1
      omega
    rcases loc_inj ok hpx with ⟨hk, _, hab⟩ | ⟨hk, hab, hlm⟩ | ⟨hk, _, h3⟩ | hF
    · have hji := same rfl rfl hab
      have hlm := one m hm l hl (by rw [← regAt_isK d j]; exact hk)
      subst hji; subst hlm; rfl
    · have hji := same rfl rfl hab
      subst hji; subst hlm; rfl
    · rw [hpx] at h3; omega
    · exact hF.elim
  · intro l hl i hi
    exact Wave.wrAll_stat _ _ _ (.inl ⟨_, (memb _).mpr ⟨l, hl, i, hi, rfl⟩, rfl⟩)
  · intro x hx
    refine Wave.wrAll_keeps _ _ _ fun p hp => ?_
    obtain ⟨m, hm, j, hj, rfl⟩ := (memb p).mp hp
    exact hx m hm j hj
  · exact Wave.wrAll_rest v _

end Sys2Proof.Machine
end

