-- ==== Sys2Proof/Laws/Effects.lean ====
section
/-! SUPPORT. One lemma for each shape of effect that changes only its wave: registers, registers with flags, lanes,
producers. -/

namespace Sys2Proof.Machine

/-! ### Lanes -/

theorem lanesOf_lt {m : Word} {l : Nat} (h : l ∈ lanesOf m) : l < 32 := by
  simp only [lanesOf, List.mem_filter, List.mem_range] at h
  exact h.1

theorem lanesOf_nodup (m : Word) : (lanesOf m).Nodup := List.Nodup.sublist List.filter_sublist List.nodup_range

theorem iss_act_nodup (s : State) (c : Cur) (g : Guard) : (s.iss c g).act.Nodup :=
  List.Nodup.sublist List.filter_sublist (lanesOf_nodup _)

theorem iss_act_lt (s : State) (c : Cur) (g : Guard) : ∀ l ∈ (s.iss c g).act, l < 32 :=
  fun _ hl => lanesOf_lt (List.mem_filter.mp hl).1

theorem iss_ok {s : State} {c : Cur} {g : Guard} (h : StackOk s c g) : IssOk (s.iss c g) :=
  ⟨by have := h.1; omega, h.2, iss_act_lt s c g⟩

@[simp] theorem Wave.modLanes_lane_self (v : Wave) (l : Nat) (f : Lane → Lane) :
    Wave.lane { v with lanes := mmod v.lanes l Lane.blank f } l = f (v.lane l) := by simp [Wave.lane]

theorem Wave.modLanes_lane_ne (v : Wave) {l m : Nat} (f : Lane → Lane) (h : m ≠ l) :
    Wave.lane { v with lanes := mmod v.lanes l Lane.blank f } m = v.lane m := by
  simp [Wave.lane, mget_mmod_ne _ _ _ h]

/-- A step in each lane of a list, each of which changes its own lane alone. -/
theorem laned_foldl {v : Wave} {ls : List Nat} (hn : ls.Nodup) (step : Wave → Nat → Wave) (f : Nat → Lane → Lane)
    (hs : ∀ u l, l ∈ ls → u.lane l = v.lane l → (step u l).lane l = f l (u.lane l) ∧
      (∀ m, m ≠ l → (step u l).lane m = u.lane m) ∧ step u l = { u with lanes := (step u l).lanes }) :
    Laned v (ls.foldl step v) ls f := by
  have key : ∀ (ks : List Nat) (u : Wave), ks.Nodup → (∀ l ∈ ks, l ∈ ls) → (∀ l ∈ ks, u.lane l = v.lane l) →
      Laned u (ks.foldl step u) ks f := by
    intro ks
    induction ks with
    | nil => intro u _ _ _; exact ⟨by simp, fun _ _ => rfl, rfl⟩
    | cons k ks ih =>
      intro u hnd hsub heq
      obtain ⟨hk, hnd'⟩ := List.nodup_cons.mp hnd
      obtain ⟨h1, h2, h3⟩ := hs u k (hsub k (List.mem_cons_self ..)) (heq k (List.mem_cons_self ..))
      have hne : ∀ l ∈ ks, l ≠ k := fun l hl he => hk (he ▸ hl)
      have := ih (step u k) hnd' (fun l hl => hsub l (List.mem_cons_of_mem _ hl))
        (fun l hl => by rw [h2 l (hne l hl)]; exact heq l (List.mem_cons_of_mem _ hl))
      refine ⟨?_, ?_, ?_⟩
      · intro l hl
        rcases List.mem_cons.mp hl with rfl | hl
        · rw [List.foldl_cons, this.off _ hk, h1]
        · rw [List.foldl_cons, this.on l hl, h2 l (hne l hl)]
      · intro l hl
        have hl1 : l ≠ k := fun he => hl (he ▸ List.mem_cons_self ..)
        have hl2 : l ∉ ks := fun he => hl (List.mem_cons_of_mem _ he)
        rw [List.foldl_cons, this.off l hl2, h2 l hl1]
      · refine this.rest.trans ?_
        rw [List.foldl_cons]
        generalize (List.foldl step (step u k) ks).lanes = x
        rw [h3]
  exact key ls v hn (fun _ h => h) fun _ _ => rfl

theorem orFlags_lane (v : Wave) (l : Nat) (f : BitVec 7) :
    (v.orFlags l f).lane l = (v.lane l).flagged f ∧ (∀ m, m ≠ l → (v.orFlags l f).lane m = v.lane m) ∧
      v.orFlags l f = { v with lanes := (v.orFlags l f).lanes } := by
  unfold Wave.orFlags
  split
  · next h => subst h; exact ⟨by simp [Lane.flagged], fun _ _ => rfl, rfl⟩
  · exact ⟨by simp [Lane.flagged], fun m hm => Wave.modLanes_lane_ne _ _ hm, rfl⟩

/-! ### Registers -/

/-- With no active lane nothing is written. -/
theorem putAll_nil {v : Wave} {e : Iss} {d : Reg} {f : Nat → List Word} (h : e.act = []) : v.putAll e d f = v := by
  simp only [Wave.putAll, h]
  split <;> rfl

/-- A bundle that writes registers (see `Results`). -/
theorem results_writes {mk : Guard → Instr} {u : Uses} {at_ : Wave → Iss → Nat → Nat → Nat} {d : Reg} {n cls : Nat}
    {f : Wave → Iss → Nat → List Word} {atw : Iss → Work → Nat → Nat → Nat}
    (hexec : ∀ g s, exec (mk g) s = runBundle g u false atw (writes d cls fun e v l => f v e l) 1 s)
    (hat : ∀ (s : State) (c : Cur) (g : Guard), atw (s.iss c g) (s.work.stamp c) = at_ (s.wave c.wid) (s.iss c g))
    (hd : ∀ g, (mk g).wf = true → d.idx + n ≤ 32)
    (hlen : ∀ v e l, (f v e l).length = n)
    (hst : ∀ v e l k sp, f (v.setSplit k sp) e l = f v e l) : Results mk u at_ d n cls f := by
  intro s c g hwf hS h
  rw [← hat] at h
  have hw := putAll_wrote (v := s.wave c.wid) (f := f (s.wave c.wid) (s.iss c g)) (iss_ok hS) (hd g hwf)
    fun l _ => hlen _ _ l
  obtain ⟨t, ht, hI⟩ := issued_next (f := writes d cls fun e v l => f v e l) (irrev := false) (instrs := 1)
    (cls := cls) (units := 1) (v := (s.wave c.wid).putAll (s.iss c g) d (f (s.wave c.wid) (s.iss c g))) 0 h
    (fun h => absurd h (by simp)) (by
      have hwid : (s.iss c g).wid = c.wid := rfl
      have hff : (fun l => f (s.stamped c) (s.iss c g) l) = f (s.wave c.wid) (s.iss c g) := by
        funext l; exact hst _ _ _ _ _
      simp only [writes, hwid, stamped_eq, hff]
      simp only [State.stamped, Wave.putAll_setSplit]
      rfl) (by rw [hw.rest]; rfl) (fun h0 => ⟨putAll_nil h0, rfl⟩)
  exact ⟨t, _, by rw [hexec]; exact ht, hI, hw⟩

/-- A bundle that writes registers and sets flags (see `ResultsF`). -/
theorem results_writesF {mk : Guard → Instr} {u : Uses} {d : Reg} {n cls : Nat}
    {f : Wave → Iss → Nat → List Word × BitVec 7}
    (hexec : ∀ g s, exec (mk g) s = bundle g u false (writesF d cls fun e v l => f v e l) s)
    (hd : ∀ g, (mk g).wf = true → d.idx + n ≤ 32)
    (hlen : ∀ v e l, (f v e l).1.length = n)
    (hst : ∀ v e l k sp, f (v.setSplit k sp) e l = f v e l) : ResultsF mk u d n cls f := by
  intro s c g hwf hS h
  have hw := putAll_wrote (v := s.wave c.wid) (f := fun l => (f (s.wave c.wid) (s.iss c g) l).1) (iss_ok hS)
    (hd g hwf) fun l _ => hlen _ _ l
  have hL := laned_foldl (v := (s.wave c.wid).putAll (s.iss c g) d fun l => (f (s.wave c.wid) (s.iss c g) l).1)
    (iss_act_nodup s c g) (fun v l => v.orFlags l (f (s.wave c.wid) (s.iss c g) l).2)
    (fun l x => x.flagged (f (s.wave c.wid) (s.iss c g) l).2) (fun u l _ _ => orFlags_lane u l _)
  have hset : ∀ (ls : List Nat) (F : Nat → BitVec 7) (u : Wave) (k : Nat) (sp : Split),
      ls.foldl (fun v l => v.orFlags l (F l)) (u.setSplit k sp) =
        (ls.foldl (fun v l => v.orFlags l (F l)) u).setSplit k sp := by
    intro ls F
    induction ls with
    | nil => intro u k sp; rfl
    | cons l ls ih =>
      intro u k sp
      have : (u.setSplit k sp).orFlags l (F l) = (u.orFlags l (F l)).setSplit k sp := by
        simp only [Wave.orFlags]
        split <;> rfl
      rw [List.foldl_cons, List.foldl_cons, this, ih]
  obtain ⟨t, ht, hI⟩ := issued_next (f := writesF d cls fun e v l => f v e l) (irrev := false) (instrs := 1)
    (u := u) (at_ := fun _ _ _ l => l) (cls := cls) (units := 1) (v := (s.iss c g).act.foldl (fun v l => v.orFlags l (f (s.wave c.wid) (s.iss c g) l).2)
      ((s.wave c.wid).putAll (s.iss c g) d fun l => (f (s.wave c.wid) (s.iss c g) l).1)) 0 h
    (fun h => absurd h (by simp)) (by
      have hwid : (s.iss c g).wid = c.wid := rfl
      have hff : (fun l => f (s.stamped c) (s.iss c g) l) = f (s.wave c.wid) (s.iss c g) := by
        funext l; exact hst _ _ _ _ _
      simp only [writesF, hwid, stamped_eq, hff, Wave.putFlags]
      simp only [State.stamped, Wave.putAll_setSplit, hset]
      rfl) (by rw [hL.rest, hw.rest]; rfl) (fun h0 => ⟨by rw [h0, putAll_nil h0]; rfl, rfl⟩)
  exact ⟨t, _, _, by rw [hexec]; exact ht, hI, hw, hL⟩

/-- A bundle that changes its active lanes alone (see `ResultsL`). -/
theorem results_lanes {mk : Guard → Instr} {u : Uses} {cls : Nat} {f : Wave → Iss → Nat → Lane → Lane}
    {eff : Iss → Work → Eff} {step : Wave → Iss → Wave → Nat → Wave}
    (hexec : ∀ g s, exec (mk g) s = bundle g u false eff s)
    (heff : ∀ (e : Iss) (w : Work), eff e w = ⟨w.setWave e.wid (e.act.foldl (step (w.wave e.wid) e) (w.wave e.wid)), .next, cls, 1⟩)
    (hs : ∀ v e u l, u.lane l = v.lane l → (step v e u l).lane l = f v e l (u.lane l) ∧
      (∀ m, m ≠ l → (step v e u l).lane m = u.lane m) ∧ step v e u l = { u with lanes := (step v e u l).lanes })
    (hst : ∀ v e u l k sp, step (v.setSplit k sp) e (u.setSplit k sp) l = (step v e u l).setSplit k sp) :
    ResultsL mk u cls f := by
  intro s c g _ h
  have hL := laned_foldl (v := s.wave c.wid) (iss_act_nodup s c g) (step (s.wave c.wid) (s.iss c g))
    (f (s.wave c.wid) (s.iss c g)) (fun u l _ hu => hs _ _ u l hu)
  have hset : ∀ (ls : List Nat) (v u : Wave) (e : Iss) (k : Nat) (sp : Split),
      ls.foldl (step (v.setSplit k sp) e) (u.setSplit k sp) = (ls.foldl (step v e) u).setSplit k sp := by
    intro ls
    induction ls with
    | nil => intro v u e k sp; rfl
    | cons l ls ih => intro v u e k sp; rw [List.foldl_cons, List.foldl_cons, hst, ih]
  obtain ⟨t, ht, hI⟩ := issued_next (f := eff) (irrev := false) (instrs := 1)
    (u := u) (at_ := fun _ _ _ l => l) (cls := cls) (units := 1)
    (v := (s.iss c g).act.foldl (step (s.wave c.wid) (s.iss c g)) (s.wave c.wid)) 0 h
    (fun h => absurd h (by simp)) (by
      have hwid : (s.iss c g).wid = c.wid := rfl
      rw [heff]
      simp only [hwid, stamped_eq]
      simp only [State.stamped, hset]
      rfl) (by rw [hL.rest]; rfl) (fun h0 => ⟨by rw [h0]; rfl, rfl⟩)
  exact ⟨t, _, by rw [hexec]; exact ht, hI, hL⟩

/-- A bundle that writes a predicate. -/
theorem results_writesP {mk : Guard → Instr} {u : Uses} {cls : Nat} {p : BitVec 3} {f : Wave → Iss → Nat → Bool}
    (hexec : ∀ g s, exec (mk g) s = bundle g u false (writesP p cls fun e v l => f v e l) s)
    (hst : ∀ v e l k sp, f (v.setSplit k sp) e l = f v e l) :
    ResultsL mk u cls fun v e l x => x.setPred p (f v e l) := by
  refine results_lanes (step := fun v e u l => { u with lanes := mmod u.lanes l Lane.blank fun x => x.setPred p (f v e l) })
    hexec (fun e w => rfl) ?_ ?_
  · intro v e u l _
    exact ⟨Wave.modLanes_lane_self _ _ _, fun m hm => Wave.modLanes_lane_ne _ _ hm, rfl⟩
  · intro v e u l k sp
    simp only [hst]
    rfl

/-! ### Producers -/

theorem Wave.setStat_cases (v : Wave) (x : Loc) (t : RegStat) :
    (v.setStat x (some t)) = { v with
      vstat := (v.setStat x (some t)).vstat, kstat := (v.setStat x (some t)).kstat
      hstat := (v.setStat x (some t)).hstat } := by
  obtain ⟨a, b⟩ := x
  match a with
  | 0 => rfl
  | 1 => rfl
  | 2 => rfl
  | n + 3 => rfl

theorem Wave.stat_setStat_self (v : Wave) (x : Loc) (t : RegStat) (h : x.1 < 3) :
    (v.setStat x (some t)).stat x = some t := by
  obtain ⟨a, b⟩ := x
  match a with
  | 0 => simp [Wave.setStat, Wave.stat]
  | 1 => simp [Wave.setStat, Wave.stat]
  | 2 => simp [Wave.setStat, Wave.stat]
  | n + 3 => exact absurd h (by simp)

theorem Wave.stat_setStat_ne (v : Wave) (x z : Loc) (t : RegStat) (h : z ≠ x) :
    (v.setStat x (some t)).stat z = v.stat z := by
  obtain ⟨a, b⟩ := x
  obtain ⟨c, d⟩ := z
  have hne : c = a → d ≠ b := fun hc hd => h (by rw [hc, hd])
  match a, c with
  | 0, 0 => simp [Wave.setStat, Wave.stat, mget?_mput_ne _ _ (hne rfl)]
  | 1, 1 => simp [Wave.setStat, Wave.stat, mget?_mput_ne _ _ (hne rfl)]
  | 2, 2 => simp [Wave.setStat, Wave.stat, mget?_mput_ne _ _ (hne rfl)]
  | 0, 1 => rfl
  | 0, 2 => rfl
  | 1, 0 => rfl
  | 1, 2 => rfl
  | 2, 0 => rfl
  | 2, 1 => rfl
  | n + 3, _ => rfl
  | 0, n + 3 => rfl
  | 1, n + 3 => rfl
  | 2, n + 3 => rfl

/-- The homes of a list marked empty. -/
def Wave.markAll (v : Wave) (xs : List Loc) (t : RegStat) : Wave := xs.foldl (fun v x => v.setStat x (some t)) v

theorem Wave.markAll_spec (v : Wave) (xs : List Loc) (t : RegStat) :
    (∀ x ∈ xs, x.1 < 3 → (v.markAll xs t).stat x = some t) ∧ (∀ x, x ∉ xs → (v.markAll xs t).stat x = v.stat x) ∧
      (∀ x, v.stat x = some t → x.1 < 3 → (v.markAll xs t).stat x = some t) ∧
      v.markAll xs t = { v with
        vstat := (v.markAll xs t).vstat, kstat := (v.markAll xs t).kstat, hstat := (v.markAll xs t).hstat } := by
  induction xs generalizing v with
  | nil => exact ⟨by simp, fun _ _ => rfl, fun _ h _ => h, rfl⟩
  | cons y ys ih =>
    obtain ⟨h1, h2, h3, h4⟩ := ih (v.setStat y (some t))
    have hstep : v.markAll (y :: ys) t = (v.setStat y (some t)).markAll ys t := rfl
    rw [hstep]
    refine ⟨?_, ?_, ?_, ?_⟩
    · intro x hx hf
      rcases List.mem_cons.mp hx with rfl | hx
      · exact h3 _ (Wave.stat_setStat_self _ _ _ hf) hf
      · exact h1 x hx hf
    · intro x hx
      rw [h2 x fun h => hx (List.mem_cons_of_mem _ h)]
      exact Wave.stat_setStat_ne _ _ _ _ fun h => hx (h ▸ List.mem_cons_self ..)
    · intro x hx hf
      refine h3 x ?_ hf
      by_cases he : x = y
      · subst he; exact Wave.stat_setStat_self _ _ _ hf
      · rw [Wave.stat_setStat_ne _ _ _ _ he]; exact hx
    · refine h4.trans ?_
      generalize ((v.setStat y (some t)).markAll ys t).vstat = a
      generalize ((v.setStat y (some t)).markAll ys t).kstat = b
      generalize ((v.setStat y (some t)).markAll ys t).hstat = d
      rw [Wave.setStat_cases]

/-- One lane's producer begins in a wave. -/
def Wave.begin1 (v : Wave) (e : Iss) (o : Out) (i stamp : Nat) : Wave :=
  { v.markAll o.dst (.empty e.pc stamp) with outs := mput v.outs i o }

theorem begin_eq (w : Work) (e : Iss) (o : Out) :
    w.begin_ e o = (w.modSys fun y => { y with nextId := y.nextId + 1 }).setWave e.wid
      ((w.wave e.wid).begin1 e o w.dev.sys.nextId w.dev.sys.issue) := by
  have hm : ((w.wave e.wid).markAll o.dst (.empty e.pc w.dev.sys.issue)).outs = (w.wave e.wid).outs := by
    rw [((w.wave e.wid).markAll_spec o.dst (.empty e.pc w.dev.sys.issue)).2.2.2]
  unfold Wave.begin1
  rw [← hm]
  rfl

/-- Producers begin in the lanes of a list. -/
def Wave.beginAll (v : Wave) (e : Iss) (kind : OutKind) (stamp : Nat) (fills : Nat → List Loc)
    (f : Nat → List Word × BitVec 7) (i : Nat) : List Nat → Wave
  | [] => v
  | l :: ls =>
    (v.begin1 e ⟨kind, l, e.pc, fills l, (f l).1, none, (f l).2, 0, none, none⟩ i stamp).beginAll e kind stamp fills f
      (i + 1) ls

theorem beginAll_foldl (e : Iss) (kind : OutKind) (fills : Nat → List Loc) (f : Nat → List Word × BitVec 7)
    (ls : List Nat) (w : Work) (hw : mput w.dev.waves e.wid (w.wave e.wid) = w.dev.waves) :
    ls.foldl (fun w l => w.begin_ e ⟨kind, l, e.pc, fills l, (f l).1, none, (f l).2, 0, none, none⟩) w =
      (w.modSys fun y => { y with nextId := y.nextId + ls.length }).setWave e.wid
        ((w.wave e.wid).beginAll e kind w.dev.sys.issue fills f w.dev.sys.nextId ls) := by
  induction ls generalizing w with
  | nil =>
    simp only [List.foldl_nil, List.length_nil, Nat.add_zero, Wave.beginAll]
    show w = { w with dev := { w.dev with waves := mput w.dev.waves e.wid (w.wave e.wid) } }
    rw [hw]
  | cons l ls ih =>
    rw [List.foldl_cons, ih _ (by simp [begin_eq, Work.wave, mput_mput]), begin_eq]
    simp only [Wave.beginAll, Work.setWave_wave, List.length_cons]
    simp [Work.setWave, Work.modSys, Work.modDev, mput_mput, Nat.add_comm, Nat.add_left_comm]

theorem begin1_spec (v : Wave) (e : Iss) (o : Out) (i stamp : Nat) :
    mget? (v.begin1 e o i stamp).outs i = some o ∧
      (∀ j, j ≠ i → mget? (v.begin1 e o i stamp).outs j = mget? v.outs j) ∧
      (∀ x ∈ o.dst, x.1 < 3 → (v.begin1 e o i stamp).stat x = some (.empty e.pc stamp)) ∧
      (∀ x, x ∉ o.dst → (v.begin1 e o i stamp).stat x = v.stat x) ∧
      (∀ x, v.stat x = some (.empty e.pc stamp) → x.1 < 3 →
        (v.begin1 e o i stamp).stat x = some (.empty e.pc stamp)) ∧
      v.begin1 e o i stamp = { v with
        outs := (v.begin1 e o i stamp).outs, vstat := (v.begin1 e o i stamp).vstat
        kstat := (v.begin1 e o i stamp).kstat, hstat := (v.begin1 e o i stamp).hstat } := by
  obtain ⟨h1, h2, h3, h4⟩ := v.markAll_spec o.dst (.empty e.pc stamp)
  refine ⟨?_, ?_, h1, h2, h3, ?_⟩
  · simp [Wave.begin1]
  · intro j hj
    simp only [Wave.begin1, mget?_mput_ne _ _ hj]
  · unfold Wave.begin1
    dsimp only
    rw [h4]

theorem beginAll_spec (e : Iss) (kind : OutKind) (stamp : Nat) (fills : Nat → List Loc)
    (f : Nat → List Word × BitVec 7) (hf : ∀ l, ∀ x ∈ fills l, x.1 < 3) (ls : List Nat) (v : Wave) (i : Nat) :
    (∀ j l, ls[j]? = some l → mget? (v.beginAll e kind stamp fills f i ls).outs (i + j) =
      some ⟨kind, l, e.pc, fills l, (f l).1, none, (f l).2, 0, none, none⟩) ∧
    (∀ j, (j < i ∨ i + ls.length ≤ j) → mget? (v.beginAll e kind stamp fills f i ls).outs j = mget? v.outs j) ∧
    (∀ l ∈ ls, ∀ x ∈ fills l, (v.beginAll e kind stamp fills f i ls).stat x = some (.empty e.pc stamp)) ∧
    (∀ x, (∀ l ∈ ls, x ∉ fills l) → (v.beginAll e kind stamp fills f i ls).stat x = v.stat x) ∧
    (∀ x, v.stat x = some (.empty e.pc stamp) → x.1 < 3 →
      (v.beginAll e kind stamp fills f i ls).stat x = some (.empty e.pc stamp)) ∧
    v.beginAll e kind stamp fills f i ls = { v with
      outs := (v.beginAll e kind stamp fills f i ls).outs, vstat := (v.beginAll e kind stamp fills f i ls).vstat
      kstat := (v.beginAll e kind stamp fills f i ls).kstat, hstat := (v.beginAll e kind stamp fills f i ls).hstat } := by
  induction ls generalizing v i with
  | nil => exact ⟨by simp, fun _ _ => rfl, by simp, fun _ _ => rfl, fun _ h _ => h, rfl⟩
  | cons l ls ih =>
    obtain ⟨b1, b2, b3, b4, b5, b6⟩ := begin1_spec v e ⟨kind, l, e.pc, fills l, (f l).1, none, (f l).2, 0, none, none⟩ i stamp
    obtain ⟨c1, c2, c3, c4, c5, c6⟩ := ih
      (v.begin1 e ⟨kind, l, e.pc, fills l, (f l).1, none, (f l).2, 0, none, none⟩ i stamp) (i + 1)
    simp only [Wave.beginAll]
    refine ⟨?_, ?_, ?_, ?_, ?_, ?_⟩
    · intro j k hk
      cases j with
      | zero =>
        simp at hk
        subst hk
        exact (c2 i (.inl (by omega))).trans b1
      | succ j =>
        have := c1 j k (by simpa using hk)
        rw [show i + (j + 1) = i + 1 + j by omega]
        exact this
    · intro j hj
      simp only [List.length_cons] at hj
      rw [c2 j (by omega), b2 j (by omega)]
    · intro k hk x hx
      rcases List.mem_cons.mp hk with rfl | hk
      · exact c5 x (b3 x hx (hf k x hx)) (hf k x hx)
      · exact c3 k hk x hx
    · intro x hx
      rw [c4 x fun k hk => hx k (List.mem_cons_of_mem _ hk), b4 x (hx l (List.mem_cons_self ..))]
    · intro x hx h3
      exact c5 x (b5 x hx h3) h3
    · refine c6.trans ?_
      generalize (Wave.beginAll (v.begin1 e ⟨kind, l, e.pc, fills l, (f l).1, none, (f l).2, 0, none, none⟩ i stamp) e kind
        stamp fills f (i + 1) ls) = y
      rw [b6]

theorem markAll_setSplit (v : Wave) (xs : List Loc) (t : RegStat) (k : Nat) (sp : Split) :
    (v.setSplit k sp).markAll xs t = (v.markAll xs t).setSplit k sp := by
  induction xs generalizing v with
  | nil => rfl
  | cons x xs ih =>
    have : (v.setSplit k sp).setStat x (some t) = (v.setStat x (some t)).setSplit k sp := by
      obtain ⟨a, b⟩ := x
      match a with
      | 0 => rfl
      | 1 => rfl
      | 2 => rfl
      | n + 3 => rfl
    simp only [Wave.markAll, List.foldl_cons] at ih ⊢
    rw [this, ih]

theorem beginAll_setSplit (v : Wave) (e : Iss) (kind : OutKind) (stamp : Nat) (fills : Nat → List Loc)
    (f : Nat → List Word × BitVec 7) (i : Nat) (ls : List Nat) (k : Nat) (sp : Split) :
    (v.setSplit k sp).beginAll e kind stamp fills f i ls = (v.beginAll e kind stamp fills f i ls).setSplit k sp := by
  induction ls generalizing v i with
  | nil => rfl
  | cons l ls ih =>
    simp only [Wave.beginAll]
    rw [← ih]
    congr 1
    simp only [Wave.begin1, markAll_setSplit]
    rfl

/-- The issue of a bundle that begins a producer in each active lane. -/
theorem issued_produces {s : State} {c : Cur} {g : Guard} {u : Uses} {d : Reg} {n : Nat} {kind : OutKind} {cls : Nat}
    {f : Nat → List Word × BitVec 7} {eff : Iss → Work → Eff} (h : CanIssue s c g u ownLane)
    (heff : eff (s.iss c g) (s.work.stamp c) = ⟨(s.work.stamp c).produce (s.iss c g) d n kind f, .next, cls, 1⟩) :
    ∃ t v, bundle g u false eff s = .next t ∧
      Issued s t c g [chargeOf g cls 1] (s.iss c g).act.length (v.goOn c.entry s.stamp) ∧
      Began (s.wave c.wid) v (s.iss c g) d n kind s.dev.sys.nextId s.stamp f := by
  have hfile : ∀ l, ∀ x ∈ (s.iss c g).fills (s.wave c.wid) d n l, x.1 < 3 := by
    intro l x hx
    simp only [Iss.fills] at hx
    split at hx
    · simp at hx
    · obtain ⟨h1, h2⟩ := List.mem_filter.mp hx
      simp only [Wave.dstLocs, List.mem_map] at h1
      obtain ⟨i, _, rfl⟩ := h1
      by_cases hk : regAt d i = .k 31
      · rw [hk] at h2; simp [Wave.loc] at h2
      · exact loc_file hk
  obtain ⟨c1, c2, c3, c4, _, c6⟩ := beginAll_spec (s.iss c g) kind s.stamp
    ((s.iss c g).fills (s.wave c.wid) d n) f hfile (s.iss c g).act (s.wave c.wid) s.dev.sys.nextId
  have hwid : (s.iss c g).wid = c.wid := rfl
  obtain ⟨t, ht, hI⟩ := issued_next (u := u) (at_ := fun _ _ _ l => l) (irrev := false) (instrs := 1) (f := eff)
    (v := (s.wave c.wid).beginAll (s.iss c g) kind s.stamp ((s.iss c g).fills (s.wave c.wid) d n) f s.dev.sys.nextId
      (s.iss c g).act) (cls := cls) (units := 1) (s.iss c g).act.length h (fun h => absurd h (by simp)) (by
      rw [heff]
      simp only [Work.produce]
      rw [beginAll_foldl _ _ _ _ _ _ (by
        rw [hwid, stamped_eq]
        simp [Work.stamp, mput_mput, State.stamped, State.wave, State.stamp, State.work, Work.wave])]
      rw [hwid, stamped_eq, ← beginAll_setSplit]
      rfl) (by rw [c6]; rfl) (fun h0 => ⟨by rw [h0]; rfl, by rw [h0]; rfl⟩)
  exact ⟨t, _, ht, hI, c1, c2, c3, c4, c6⟩

/-- A bundle that is a producer (see `Producers`). -/
theorem producers_produces {mk : Guard → Instr} {u : Uses} {d : Reg} {n : Nat} {kind : OutKind} {cls : Nat}
    {f : Wave → Iss → Nat → List Word × BitVec 7}
    (hexec : ∀ g s, exec (mk g) s = bundle g u false (produces d n kind cls fun e v l => f v e l) s)
    (hst : ∀ v e l k sp, f (v.setSplit k sp) e l = f v e l) : Producers mk u d n kind cls f := by
  intro s c g _ h
  have hwid : (s.iss c g).wid = c.wid := rfl
  obtain ⟨t, v, ht, hI, hB⟩ := issued_produces (f := f (s.wave c.wid) (s.iss c g)) (d := d) (n := n) (kind := kind)
    (cls := cls) (eff := produces d n kind cls fun e v l => f v e l) h (by
      have hff : (fun l => f (s.stamped c) (s.iss c g) l) = f (s.wave c.wid) (s.iss c g) := by
        funext l; exact hst _ _ _ _ _
      simp only [produces, hwid, stamped_eq, hff])
  exact ⟨t, v, by rw [hexec]; exact ht, hI, hB⟩

end Sys2Proof.Machine
end

