-- ==== Sys2Proof/Laws/Control.lean ====
section
/-! SUPPORT. Where control goes: grouping lanes by target, placing the groups, checks that all pass, and the state that a
bundle leaves. -/

namespace Sys2Proof.Machine

/-- What grouping by target gives: each group holds exactly the lanes of its target. -/
theorem groupBy_spec (ls : List (Nat × Pc)) (hl : ∀ x ∈ ls, x.1 < 32) :
    (∀ g ∈ groupBy ls, ∀ l, g.2.getLsbD l = true ↔ (l, g.1) ∈ ls) ∧
    (∀ x ∈ ls, ∃ g ∈ groupBy ls, g.1 = x.2) := by
  have key : ∀ (ls done : List (Nat × Pc)) (gs : List (Pc × Word)), (∀ x ∈ ls, x.1 < 32) →
      ((∀ g ∈ gs, ∀ l, g.2.getLsbD l = true ↔ (l, g.1) ∈ done) ∧ (∀ x ∈ done, ∃ g ∈ gs, g.1 = x.2)) →
      let r := ls.foldl (fun gs x => if gs.any fun g => g.1 == x.2 then
        gs.map fun g => if g.1 == x.2 then (g.1, g.2 ||| (1#32 <<< x.1)) else g
        else gs ++ [(x.2, 1#32 <<< x.1)]) gs
      (∀ g ∈ r, ∀ l, g.2.getLsbD l = true ↔ (l, g.1) ∈ done ++ ls) ∧ (∀ x ∈ done ++ ls, ∃ g ∈ r, g.1 = x.2) := by
    intro ls
    induction ls with
    | nil => intro done gs _ h; simpa using h
    | cons x ls ih =>
      intro done gs hlt h
      simp only [List.foldl_cons]
      have hx := hlt x (List.mem_cons_self ..)
      have bit : ∀ l, (1#32 <<< x.1).getLsbD l = true ↔ l = x.1 := by
        intro l
        simp only [BitVec.getLsbD_shiftLeft, BitVec.getLsbD_one]
        simp only [Bool.and_eq_true, decide_eq_true_eq, Bool.not_eq_true', decide_eq_false_iff_not]
        omega
      generalize hr : (if (gs.any fun g => g.1 == x.2) = true then
        gs.map fun g => if (g.1 == x.2) = true then (g.1, g.2 ||| (1#32 <<< x.1)) else g
        else gs ++ [(x.2, 1#32 <<< x.1)]) = gs'
      suffices hi : (∀ g ∈ gs', ∀ l, g.2.getLsbD l = true ↔ (l, g.1) ∈ done ++ [x]) ∧
          (∀ y ∈ done ++ [x], ∃ g ∈ gs', g.1 = y.2) by
        simpa using ih (done ++ [x]) gs' (fun y hy => hlt y (List.mem_cons_of_mem _ hy)) hi
      subst hr
      split
      · next hany =>
        simp only [List.any_eq_true, beq_iff_eq] at hany
        obtain ⟨g0, hg0, he⟩ := hany
        constructor
        · intro g hg l
          simp only [List.mem_map] at hg
          obtain ⟨g', hg', rfl⟩ := hg
          have hb := h.1 g' hg' l
          by_cases hp : g'.1 = x.2
          · simp only [hp, beq_self_eq_true, if_true, BitVec.getLsbD_or, Bool.or_eq_true, bit, List.mem_append, List.mem_singleton]
            rw [hb, hp]
            constructor
            · rintro (h1 | rfl)
              · exact .inl h1
              · exact .inr rfl
            · rintro (h1 | h1)
              · exact .inl h1
              · exact .inr (congrArg Prod.fst h1)
          · have hpb : (g'.1 == x.2) = false := by simpa using hp
            simp only [hpb, Bool.false_eq_true, if_false, List.mem_append, List.mem_singleton, hb]
            constructor
            · exact .inl
            · rintro (h1 | h1)
              · exact h1
              · exact absurd (congrArg Prod.snd h1) hp
        · intro y hy
          rcases List.mem_append.mp hy with hy | hy
          · obtain ⟨g, hg, e⟩ := h.2 y hy
            exact ⟨_, List.mem_map.mpr ⟨g, hg, rfl⟩, by split <;> exact e⟩
          · have : y = x := by simpa using hy
            subst this
            exact ⟨_, List.mem_map.mpr ⟨g0, hg0, rfl⟩, by split <;> exact he⟩
      · next hany =>
        have hn : ∀ g ∈ gs, g.1 ≠ x.2 := by
          intro g hg he
          exact hany (List.any_eq_true.mpr ⟨g, hg, by simpa using he⟩)
        constructor
        · intro g hg l
          rcases List.mem_append.mp hg with hg | hg
          · rw [h.1 g hg l]
            simp only [List.mem_append, List.mem_singleton]
            constructor
            · exact .inl
            · rintro (h1 | h1)
              · exact h1
              · exact absurd (congrArg Prod.snd h1) (hn g hg)
          · have : g = (x.2, 1#32 <<< x.1) := by simpa using hg
            subst this
            simp only [bit, List.mem_append, List.mem_singleton]
            constructor
            · rintro rfl; exact .inr rfl
            · rintro (h1 | h1)
              · obtain ⟨g, hg, e⟩ := h.2 _ h1
                exact absurd e (hn g hg)
              · exact congrArg Prod.fst h1
        · intro y hy
          rcases List.mem_append.mp hy with hy | hy
          · obtain ⟨g, hg, e⟩ := h.2 y hy
            exact ⟨g, List.mem_append_left _ hg, e⟩
          · have : y = x := by simpa using hy
            subst this
            exact ⟨_, List.mem_append_right _ (List.mem_singleton_self _), rfl⟩
  have := key ls [] [] hl ⟨by simp, by simp⟩
  simpa [groupBy] using this

/-- A group is put in a free entry or on the stack; the other splits stay. -/
theorem addGroup_spec (v : Wave) (s : Split) :
    ((∃ n, mget? v.entries n = none ∧ v.addGroup s = v.setSplit n s) ∨
      v.addGroup s = { v with overflow := s :: v.overflow }) := by
  simp only [Wave.addGroup]
  split
  · next n h =>
    refine .inl ⟨n, ?_, rfl⟩
    have := List.find?_some h
    simpa using this
  · exact .inr rfl

/-- Groups added one after the other. -/
theorem addGroups_spec (gs : List Split) (v : Wave) :
    let v' := gs.foldl Wave.addGroup v
    (∀ n x, mget? v.entries n = some x → mget? v'.entries n = some x) ∧
    (∃ more, v'.overflow = more ++ v.overflow) ∧
    (∀ n x, mget? v'.entries n = some x → mget? v.entries n = some x ∨ x ∈ gs) ∧
    (∀ x ∈ v'.overflow, x ∈ v.overflow ∨ x ∈ gs) ∧
    (∀ x ∈ gs, (∃ n, mget? v'.entries n = some x) ∨ x ∈ v'.overflow) ∧
    v' = { v with entries := v'.entries, overflow := v'.overflow } := by
  induction gs generalizing v with
  | nil => exact ⟨fun _ _ h => h, ⟨[], rfl⟩, fun _ _ h => .inl h, fun _ h => .inl h, by simp, rfl⟩
  | cons g gs ih =>
    simp only [List.foldl_cons]
    obtain ⟨h1, ⟨more, h2⟩, h3, h4, h5, h6⟩ := ih (v.addGroup g)
    generalize gs.foldl Wave.addGroup (v.addGroup g) = v' at *
    rcases addGroup_spec v g with ⟨n, hn, he⟩ | he
    · rw [he] at h1 h2 h3 h4 h6
      have hk : ∀ m x, mget? v.entries m = some x → mget? (mput v.entries n g) m = some x := by
        intro m x hx
        have : m ≠ n := by rintro rfl; rw [hn] at hx; simp at hx
        rw [mget?_mput_ne _ _ this]; exact hx
      refine ⟨fun m x hx => h1 m x (hk m x hx), ⟨more, h2⟩, ?_, ?_, ?_, h6⟩
      · intro m x hx
        rcases h3 m x hx with h | h
        · simp only [Wave.setSplit, mget?_mput] at h
          split at h
          · exact .inr (by cases h; exact List.mem_cons_self ..)
          · exact .inl h
        · exact .inr (List.mem_cons_of_mem _ h)
      · intro x hx
        rcases h4 x hx with h | h
        · exact .inl h
        · exact .inr (List.mem_cons_of_mem _ h)
      · intro x hx
        rcases List.mem_cons.mp hx with rfl | hx
        · exact .inl ⟨n, h1 n x (by simp [Wave.setSplit])⟩
        · exact h5 x hx
    · rw [he] at h1 h2 h3 h4 h6
      refine ⟨h1, ⟨more ++ [g], by simpa using h2⟩, ?_, ?_, ?_, h6⟩
      · intro m x hx
        rcases h3 m x hx with h | h
        · exact .inl h
        · exact .inr (List.mem_cons_of_mem _ h)
      · intro x hx
        rcases h4 x hx with h | h
        · rcases List.mem_cons.mp h with rfl | h
          · exact .inr (List.mem_cons_self ..)
          · exact .inl h
        · exact .inr (List.mem_cons_of_mem _ h)
      · intro x hx
        rcases List.mem_cons.mp hx with rfl | hx
        · exact .inr (by rw [h2]; simp)
        · exact h5 x hx

/-- The lanes of a mask built from a list. -/
theorem maskOf_bit (ls : List Nat) (l : Nat) (h : ∀ x ∈ ls, x < 32) : (maskOf ls).getLsbD l = true ↔ l ∈ ls := by
  have key : ∀ (ls : List Nat) (m : Word), (∀ x ∈ ls, x < 32) →
      ((ls.foldl (fun m l => m ||| (1#32 <<< l)) m).getLsbD l = true ↔ m.getLsbD l = true ∨ l ∈ ls) := by
    intro ls
    induction ls with
    | nil => intro m _; simp
    | cons x ls ih =>
      intro m hx
      have hb := hx x (List.mem_cons_self ..)
      rw [List.foldl_cons, ih _ fun y hy => hx y (List.mem_cons_of_mem _ hy)]
      simp only [BitVec.getLsbD_or, Bool.or_eq_true, BitVec.getLsbD_shiftLeft, BitVec.getLsbD_one, Bool.and_eq_true,
        decide_eq_true_eq, Bool.not_eq_true', decide_eq_false_iff_not, List.mem_cons]
      constructor
      · rintro ((h | h) | h)
        · exact .inl h
        · exact .inr (.inl (by omega))
        · exact .inr (.inr h)
      · rintro (h | rfl | h)
        · exact .inl (.inl h)
        · exact .inl (.inr (by omega))
        · exact .inr h
  simpa [maskOf] using key ls 0 h

theorem mask_zero {m : Word} (h : m = 0) (l : Nat) : m.getLsbD l = false := by subst h; simp

theorem mask_ne_zero {m : Word} (l : Nat) (h : m.getLsbD l = true) : m ≠ 0 := by rintro rfl; simp at h

/-- Placing a split's lanes by target sends them there (R101). -/
theorem placeGroups_sends (v : Wave) (entry stamp : Nat) (act : List Nat) (fallPc : Pc) (ts : List (Nat × Pc))
    (f : Nat → Option Pc) (hact : ∀ l ∈ act, l < 32 ∧ (v.split entry).mask.getLsbD l = true)
    (hts : ∀ x ∈ ts, x.1 ∈ act) (hf : ∀ l p, l ∈ act → (f l = some p ↔ (l, p) ∈ ts)) :
    Sends v ((v.setSplit entry { v.split entry with lastIssue := stamp }).placeGroups entry
      ((v.split entry).mask &&& ~~~(maskOf act)) fallPc (groupBy ts)) entry stamp
      (fun l => if l ∈ act then f l else some fallPc) := by
  obtain ⟨hg1, hg2⟩ := groupBy_spec ts fun x hx => (hact x.1 (hts x hx)).1
  have hfall : ∀ l, ((v.split entry).mask &&& ~~~(maskOf act)).getLsbD l = true ↔
      (v.split entry).mask.getLsbD l = true ∧ l ∉ act := by
    intro l
    simp only [BitVec.getLsbD_and, BitVec.getLsbD_not, Bool.and_eq_true, decide_eq_true_eq, Bool.not_eq_true',
      ← Bool.not_eq_true, maskOf_bit act l fun x hx => (hact x hx).1]
    constructor
    · exact fun h => ⟨h.1, h.2.2⟩
    · exact fun h => ⟨h.1, BitVec.lt_of_getLsbD h.1, h.2⟩
  generalize hm : (v.split entry).mask &&& ~~~(maskOf act) = fall at hfall ⊢
  simp only [Wave.placeGroups, Wave.setSplit_split, Wave.setSplit_setSplit]
  generalize hgs : (groupBy ts).filter (fun g => decide (g.2 ≠ 0)) = gs
  have hgsm : ∀ g, g ∈ gs ↔ g ∈ groupBy ts ∧ g.2 ≠ 0 := by intro g; rw [← hgs]; simp
  -- every placed split comes from the fall-through lanes or from a group
  let mk := fun (p : Pc × Word) => { v.split entry with
    state := .ready, reason := .none, hold := .none, trap := none, denied := [], pages := [], wait := none, busy := none
    resumed := false, lastIssue := stamp, mask := p.2, pc := p.1 }
  have hmk : ∀ p, Placed (mk p) (v.split entry) stamp p.1 := fun p => ⟨⟨rfl, rfl, rfl, rfl, rfl⟩, rfl, ⟨rfl, rfl⟩, rfl⟩
  have good : ∀ (first : Option (Pc × Word)) (rest : List (Pc × Word)) (v1 : Wave),
      (match first with
        | some p => v1 = v.setSplit entry (mk p)
        | none => v1 = { v with entries := mdel v.entries entry } ∧ rest = []) →
      (∀ p, (first = some p ∨ p ∈ rest) → ∀ l, p.2.getLsbD l = true →
        (v.split entry).mask.getLsbD l = true ∧ (if l ∈ act then f l else some fallPc) = some p.1) →
      (∀ l p, (v.split entry).mask.getLsbD l = true → (if l ∈ act then f l else some fallPc) = some p →
        ∃ q, (first = some q ∨ q ∈ rest) ∧ q.2.getLsbD l = true ∧ q.1 = p) →
      Sends v ((rest.map mk).foldl Wave.addGroup v1) entry stamp (fun l => if l ∈ act then f l else some fallPc) := by
    intro first rest v1 h1 hsound hcomplete
    obtain ⟨a1, ⟨more, a2⟩, a3, a4, a5, a6⟩ := addGroups_spec (rest.map mk) v1
    generalize (rest.map mk).foldl Wave.addGroup v1 = v' at *
    have hov : v1.overflow = v.overflow := by
      cases first with
      | some p => rw [h1]; rfl
      | none => rw [h1.1]
    have hrest : v1 = { v with entries := v1.entries, overflow := v1.overflow } := by
      cases first with
      | some p => rw [h1]; rfl
      | none => rw [h1.1]
    have hent : ∀ n, n ≠ entry → mget? v1.entries n = mget? v.entries n := by
      intro n hn
      cases first with
      | some p => simp only at h1; rw [h1]; exact mget?_mput_ne _ _ hn
      | none => rw [h1.1]; exact mget?_mdel_ne _ hn
    constructor
    · intro l p hl ht
      obtain ⟨q, hq, hql, rfl⟩ := hcomplete l p hl ht
      refine ⟨mk q, ?_, hql, hmk q⟩
      rcases hq with hq | hq
      · subst hq
        simp only at h1
        exact .inl ⟨entry, a1 _ _ (by rw [h1]; simp [Wave.setSplit])⟩
      · exact a5 _ (List.mem_map_of_mem hq)
    · have hs : ∀ q, (first = some q ∨ q ∈ rest) → ∀ l, (mk q).mask.getLsbD l = true →
          (v.split entry).mask.getLsbD l = true ∧ (if l ∈ act then f l else some fallPc) = some (mk q).pc :=
        fun q hq => hsound q hq
      have hin : ∀ x ∈ rest.map mk, ∀ l, x.mask.getLsbD l = true →
          (v.split entry).mask.getLsbD l = true ∧ (if l ∈ act then f l else some fallPc) = some x.pc := by
        intro x hx
        obtain ⟨q, hq, rfl⟩ := List.mem_map.mp hx
        exact hs q (.inr hq)
      rintro x (⟨n, hx⟩ | hx)
      · rcases a3 n x hx with h | h
        · by_cases hn : n = entry
          · subst hn
            cases first with
            | some p =>
              simp only at h1
              rw [h1] at h
              simp only [Wave.setSplit, mget?_mput_self, Option.some.injEq] at h
              subst h
              exact .inr (.inr (hs p (.inl rfl)))
            | none => rw [h1.1] at h; simp at h
          · rw [hent n hn] at h
            exact .inl ⟨n, hn, h⟩
        · exact .inr (.inr (hin x h))
      · rcases a4 x hx with h | h
        · rw [hov] at h; exact .inr (.inl h)
        · exact .inr (.inr (hin x h))
    · intro n x hn hx
      exact a1 n x (by rw [hent n hn]; exact hx)
    · exact ⟨more, by rw [a2, hov]⟩
    · rw [a6, hrest]
  have hfold : ∀ (rest : List (Pc × Word)) (v1 : Wave), rest.foldl (fun v g => v.addGroup (mk g)) v1 =
      (rest.map mk).foldl Wave.addGroup v1 := by
    intro rest v1; rw [List.foldl_map]
  have gsound : ∀ p ∈ gs, ∀ l, p.2.getLsbD l = true →
      (v.split entry).mask.getLsbD l = true ∧ (if l ∈ act then f l else some fallPc) = some p.1 := by
    intro p hp l hl
    have h1 := (hg1 p ((hgsm p).mp hp).1 l).mp hl
    have h2 := hts _ h1
    exact ⟨(hact l h2).2, by rw [if_pos h2]; exact (hf l p.1 h2).mpr h1⟩
  have gcomplete : ∀ l p, l ∈ act → f l = some p → ∃ q ∈ gs, q.2.getLsbD l = true ∧ q.1 = p := by
    intro l p hl hp
    have h1 := (hf l p hl).mp hp
    obtain ⟨q, hq, he⟩ := hg2 _ h1
    have h2 : q.2.getLsbD l = true := (hg1 q hq l).mpr (by rw [he]; exact h1)
    exact ⟨q, (hgsm q).mpr ⟨hq, mask_ne_zero l h2⟩, h2, he⟩
  split
  · next hne =>
    have := good (some (fallPc, fall)) gs (v.setSplit entry (mk (fallPc, fall))) rfl ?_ ?_
    · rw [← hfold] at this; exact this
    · rintro p (hp | hp) l hl
      · cases hp
        have := (hfall l).mp hl
        exact ⟨this.1, by rw [if_neg this.2]⟩
      · exact gsound p hp l hl
    · intro l p hl ht
      by_cases h : l ∈ act
      · rw [if_pos h] at ht
        obtain ⟨q, hq, h1, h2⟩ := gcomplete l p h ht
        exact ⟨q, .inr hq, h1, h2⟩
      · rw [if_neg h] at ht
        exact ⟨(fallPc, fall), .inl rfl, (hfall l).mpr ⟨hl, h⟩, by simpa using ht⟩
  · next hz =>
    have hz : fall = 0 := by simpa using hz
    have hin : ∀ l, (v.split entry).mask.getLsbD l = true → l ∈ act := by
      intro l hl
      refine Classical.byContradiction fun h => ?_
      have := (hfall l).mpr ⟨hl, h⟩
      rw [mask_zero hz] at this
      exact absurd this (by simp)
    cases gs with
    | nil =>
      have h := good none [] { v with entries := mdel v.entries entry } ⟨rfl, rfl⟩ (by simp) (by
        intro l p hl ht
        rw [if_pos (hin l hl)] at ht
        obtain ⟨q, hq, _⟩ := gcomplete l p (hin l hl) ht
        simp at hq)
      · have e : mdel (mput v.entries entry { v.split entry with lastIssue := stamp }) entry = mdel v.entries entry := by
          generalize { v.split entry with lastIssue := stamp } = y
          generalize v.entries = m
          induction m with
          | nil => simp [mput, mdel]
          | cons c m ih =>
            obtain ⟨j, x⟩ := c
            simp only [mput]
            split
            · simp [mdel]
            · split
              · next hj => subst hj; simp [mdel]
              · next hj => simp [mdel, hj, ih]
        simpa [Wave.setSplit, e] using h
    | cons p gs =>
      have := good (some p) gs (v.setSplit entry (mk p)) rfl ?_ ?_
      · rw [← hfold] at this; exact this
      · rintro q (hq | hq) l hl
        · cases hq; exact gsound p (List.mem_cons_self ..) l hl
        · exact gsound q (List.mem_cons_of_mem _ hq) l hl
      · intro l q hl ht
        rw [if_pos (hin l hl)] at ht
        obtain ⟨r, hr, h1, h2⟩ := gcomplete l q (hin l hl) ht
        rcases List.mem_cons.mp hr with rfl | hr
        · exact ⟨r, .inl rfl, h1, h2⟩
        · exact ⟨r, .inr hr, h1, h2⟩

/-- Checks that all pass let the bundle go on (R141). -/
theorem judge_ok {w : Work} {e : Iss} {outs : List (Nat × Motion)} {acc : Acc} {cls units : Nat} {go : Iss → Work → Eff}
    (h : ∀ x ∈ outs, x.2 = .ok) : w.judge e outs acc cls units go = go e w := by
  have h1 : outs.filter (fun x => x.2.failed) = [] := by
    simp only [List.filter_eq_nil_iff]
    intro x hx
    rw [h x hx]
    simp [Motion.failed]
  have h2 : joinMotions (outs.map (·.2)) = .ok := by
    have : (outs.map (·.2)).find? (fun m => m != Motion.ok) = none := by
      simp only [List.find?_eq_none, List.mem_map]
      rintro m ⟨x, hx, rfl⟩
      simp [h x hx]
    simp only [joinMotions, this]
  have h3 : w.anySpeculative e.wid [] = [] := rfl
  have h4 : w.parkFrontier e [] = (e, w) := rfl
  have h5 : (outs.filter fun x => !([] : List Nat).contains x.1) = outs := by simp
  simp only [Work.judge, h1, List.map_nil, h3, h4, h5, h2]
  simp

/-- A bundle whose effect lets the lanes go on leaves the state of `done` (R61, R364). -/
theorem runBundle_next {s : State} {c : Cur} {g : Guard} {u : Uses} {irrev : Bool}
    {at_ : Iss → Work → Nat → Nat → Nat} {f : Iss → Work → Eff} {w : Work} {cls units : Nat}
    (h : CanIssue s c g u (at_ (s.iss c g) (s.work.stamp c))) (hi : irrev = true → Irrevocable s c g)
    (hf : f (s.iss c g) (s.work.stamp c) = ⟨w, .next, cls, units⟩)
    (hn : neverGuard g = true → w = s.work.stamp c) :
    runBundle g u irrev at_ f 1 s = .next (s.done c g cls units (w.advance (s.iss c g))) := by
  cases hg : neverGuard g with
  | true => rw [runBundle_never cls units h hi hg, hn hg]; rfl
  | false =>
    rw [runBundle_done h hi hg hf (by simp)]
    simp only [State.done, Work.finish]

/-- The same for an effect that places the lanes itself. -/
theorem runBundle_gone {s : State} {c : Cur} {g : Guard} {u : Uses} {irrev : Bool}
    {at_ : Iss → Work → Nat → Nat → Nat} {f : Iss → Work → Eff} {w : Work} {cls units : Nat}
    (h : CanIssue s c g u (at_ (s.iss c g) (s.work.stamp c))) (hi : irrev = true → Irrevocable s c g)
    (hf : f (s.iss c g) (s.work.stamp c) = ⟨w, .gone, cls, units⟩)
    (hn : neverGuard g = true → w = (s.work.stamp c).advance (s.iss c g)) :
    runBundle g u irrev at_ f 1 s = .next (s.done c g cls units w) := by
  cases hg : neverGuard g with
  | true => rw [runBundle_never cls units h hi hg, hn hg]; rfl
  | false =>
    rw [runBundle_done h hi hg hf (by simp)]
    simp only [State.done, Work.finish]

/-- The active lanes of an issue lie in the split. -/
theorem iss_act_mask (s : State) (c : Cur) (g : Guard) :
    ∀ l ∈ (s.iss c g).act, l < 32 ∧ ((s.wave c.wid).split c.entry).mask.getLsbD l = true := by
  intro l hl
  have h1 := iss_act_lt s c g l hl
  have h2 : l ∈ lanesOf ((s.wave c.wid).split c.entry).mask := (List.mem_filter.mp hl).1
  exact ⟨h1, by simpa [lanesOf] using (List.mem_filter.mp h2).2⟩

/-- No number is used up. -/
theorem noIds (w : Work) : (w.modSys fun y => { y with nextId := y.nextId + 0 }) = w := rfl

/-- With no active lane, a transfer lets the split go on. -/
theorem placeGroups_nil {s : State} {c : Cur} {g : Guard} (h : (s.iss c g).mask ≠ 0) :
    (s.stamped c).placeGroups c.entry (((s.stamped c).split c.entry).mask &&& ~~~(maskOf [])) ((s.iss c g).pc + 8)
      (groupBy []) = (s.wave c.wid).goOn c.entry s.stamp := by
  have h1 : ∀ x : Word, x &&& ~~~(maskOf []) = x := by
    intro x
    rw [show ~~~(maskOf []) = BitVec.allOnes 32 from rfl, BitVec.and_allOnes]
  have hm : ((s.stamped c).split c.entry).mask ≠ 0 := by
    rw [show ((s.stamped c).split c.entry).mask = (s.iss c g).mask by simp [State.stamped]; rfl]
    exact h
  have hpc : (s.iss c g).pc = ((s.wave c.wid).split c.entry).pc := rfl
  simp only [Wave.placeGroups, groupBy, List.foldl_nil, List.filter_nil, h1, if_pos hm]
  simp only [State.stamped, Wave.setSplit_split, Wave.setSplit_setSplit, Wave.goOn, hpc]

/-- A transfer of the active lanes to targets that hang on nothing that the issue changes (R101). -/
theorem transfers_of {i : Instr} {s : State} {c : Cur} {g : Guard} {u : Uses} {f : Iss → Work → Eff}
    {t : Nat → Pc} (hi : exec i s = bundle g u false f s) (h : CanIssue s c g u ownLane)
    (hf : f (s.iss c g) (s.work.stamp c) =
      (s.work.stamp c).transfer (s.iss c g) ((s.iss c g).act.map fun l => (l, t l))) :
    ∃ t' v, exec i s = .next t' ∧ Issued s t' c g [chargeOf g clsCtrl 1] 0 v ∧
      Sends (s.wave c.wid) v c.entry s.stamp ((s.iss c g).targets fun l => some (t l)) := by
  have hw := stamped_eq s c
  obtain ⟨t', h1, h2⟩ := issued_gone (g := g) (u := u) (irrev := false) (at_ := fun _ _ _ l => l) (f := f) (instrs := 1)
    (cls := clsCtrl) (units := 1) 0
    (v := (s.stamped c).placeGroups c.entry (((s.stamped c).split c.entry).mask &&& ~~~(maskOf (s.iss c g).act))
      ((s.iss c g).pc + 8) (groupBy ((s.iss c g).act.map fun l => (l, t l)))) h (by simp) (by
      rw [hf, noIds]
      simp only [Work.transfer, Work.modWave, show (s.iss c g).wid = c.wid from rfl,
        show (s.iss c g).entry = c.entry from rfl, hw]) (fun hg => ⟨by
          simp only [never_act hg, List.map_nil]
          exact placeGroups_nil h.lanes, rfl⟩)
  refine ⟨t', _, by rw [hi]; exact h1, h2, ?_⟩
  have := placeGroups_sends (s.wave c.wid) c.entry s.stamp (s.iss c g).act ((s.iss c g).pc + 8)
    ((s.iss c g).act.map fun l => (l, t l)) (fun l => some (t l)) (iss_act_mask s c g) (by simp)
    (by intro l p hl; simp only [List.mem_map, Prod.mk.injEq, Option.some.injEq]
        constructor
        · rintro rfl; exact ⟨l, hl, rfl, rfl⟩
        · rintro ⟨m, hm, rfl, rfl⟩; rfl)
  have hm : ((s.stamped c).split c.entry).mask = ((s.wave c.wid).split c.entry).mask := by
    simp [State.stamped]
  rw [hm]
  exact this

end Sys2Proof.Machine
end

