-- ==== Sys2Proof/Laws/Access.lean ====
section
/-! SUPPORT. What an access does when every lane's checks pass and no lane waits or parks. -/

namespace Sys2Proof.Machine

/-- The checks are made for the lanes in their order. -/
theorem aims_lanes (w : Work) (ls : List Nat) (f : Work → Nat → (Motion × Acs) × Work)
    (hf : ∀ w l, (f w l).1.2.lane = l) : (w.aims ls f).1.map (fun x => x.2.lane) = ls := by
  have key : ∀ (ls : List Nat) (a : List (Motion × Acs)) (w : Work),
      ((ls.foldl (fun (r : List (Motion × Acs) × Work) l => (r.1 ++ [(f r.2 l).1], (f r.2 l).2)) (a, w)).1.map
        fun x => x.2.lane) = a.map (fun x => x.2.lane) ++ ls := by
    intro ls
    induction ls with
    | nil => intro a w; simp
    | cons l ls ih => intro a w; rw [List.foldl_cons, ih]; simp [hf]
  exact key ls [] w

/-- A check answers for its lane. -/
theorem aim_lane (w : Work) (e : Iss) (sp : Space) (acc : Acc) (n al l ea : Nat) :
    (w.aim e sp acc n al l ea).1.2.lane = l := by
  simp only [Work.aim]
  split
  · rfl
  · split
    · repeat' split
      all_goals rfl
    · split <;> rfl

/-- Every access stands when every check passes. -/
theorem acsOf_all {e : Iss} {xs : List (Motion × Acs)} (hp : ∀ x ∈ xs, x.1 = .ok) (hl : ∀ x ∈ xs, x.2.lane ∈ e.act) :
    acsOf e xs = xs.map (·.2) := by
  have : (xs.filter fun x => x.1 == .ok && e.act.contains x.2.lane) = xs := by
    rw [List.filter_eq_self]
    intro x hx
    simp [hp x hx, hl x hx]
  simp only [acsOf, this]

theorem foldl_map_fst {α β σ : Type} (step : List (Nat × α) × σ → Nat × β → List (Nat × α) × σ)
    (h : ∀ a p, (step a p).1.map (·.1) = a.1.map (·.1) ++ [p.1]) (ls : List (Nat × β)) (a : List (Nat × α) × σ) :
    (ls.foldl step a).1.map (·.1) = a.1.map (·.1) ++ ls.map (·.1) := by
  induction ls generalizing a with
  | nil => simp
  | cons p ls ih => rw [List.foldl_cons, ih, h]; simp

/-- A classification keeps the lanes in their order. -/
theorem classify_lanes (w : Work) (ctx wid : Nat) (ls : List (Nat × BitVec 12)) :
    (w.classify ctx wid ls).map (·.1) = ls.map (·.1) := by
  simp only [Work.classify]
  rw [foldl_map_fst]
  · simp
  · intro a p
    split
    · repeat' split
      all_goals simp
    · repeat' split
      all_goals simp

/-- Checks that all pass take no lane out of a queue. -/
theorem leaveQueues_ok {w : Work} {e : Iss} {outs : List (Nat × Motion)} (h : ∀ x ∈ outs, x.2 = .ok) :
    w.leaveQueues e outs = w := by
  have : outs.filter (fun x => x.2.failed) = [] := by
    simp only [List.filter_eq_nil_iff]
    intro x hx
    rw [h x hx]
    simp [Motion.failed]
  simp only [Work.leaveQueues, this, List.map_nil]
  rfl

/-- The colour step when every lane goes. -/
theorem colourStep_go {w : Work} {e : Iss} {xs : List Acs} {cls : Nat} {go : Iss → Work → List Acs → Eff}
    (hm : e.mask ≠ 0) (hl : ∀ x ∈ xs, x.lane ∈ e.act)
    (hg : ∀ p ∈ w.classify e.ctx e.wid (xs.map fun x => (x.lane, w.tagOf x)), p.2 = .go) :
    w.colourStep e xs cls go = go e (xs.foldl (fun w x => w.withdraw e.ctx e.wid x.lane []) w) xs := by
  have hlen : (w.classify e.ctx e.wid (xs.map fun x => (x.lane, w.tagOf x))) =
      xs.map fun x => (x.lane, Step1.go) := by
    have h1 := classify_lanes w e.ctx e.wid (xs.map fun x => (x.lane, w.tagOf x))
    have h2 : (w.classify e.ctx e.wid (xs.map fun x => (x.lane, w.tagOf x))) =
        ((w.classify e.ctx e.wid (xs.map fun x => (x.lane, w.tagOf x))).map (·.1)).map fun l => (l, Step1.go) := by
      rw [List.map_map]
      conv => lhs; rw [← List.map_id (w.classify e.ctx e.wid (xs.map fun x => (x.lane, w.tagOf x)))]
      refine List.map_congr_left fun p hp => ?_
      have := hg p hp
      simp [← this]
    rw [h2, h1]
    simp
  have hout : ∀ x ∈ (xs.zip (xs.map fun x => (x.lane, Step1.go))).map fun y => w.colourOut e (lineOf y.1.ea) y.2,
      x.2 = .ok := by
    intro x hx
    obtain ⟨y, hy, rfl⟩ := List.mem_map.mp hx
    have : y.2 ∈ xs.map fun x => (x.lane, Step1.go) := (List.of_mem_zip hy).2
    obtain ⟨z, hz, he⟩ := List.mem_map.mp this
    simp [Work.colourOut, ← he, Work.colourCheck]
  simp only [Work.colourStep, hlen]
  rw [leaveQueues_ok hout, judge_ok hout]
  have hf : (xs.map fun x => (x.lane, Step1.go)).filter (fun p => e.act.contains p.1) = xs.map fun x => (x.lane, Step1.go) := by
    rw [List.filter_eq_self]
    intro p hp
    obtain ⟨x, hx, rfl⟩ := List.mem_map.mp hp
    simp [hl x hx]
  have hw : waitsOf (xs.map fun x => (x.lane, Step1.go)) = [] := by
    simp [waitsOf]
  have hk : keepActive e xs = xs := by
    simp only [keepActive, List.filter_eq_self]
    intro x hx
    simp [hl x hx]
  simp only [hf, hw]
  have hp : ∀ w : Work, w.parkColour e [] = (e, w) := fun _ => rfl
  simp only [hp, if_neg hm, hk, List.foldl_map]
  rfl

/-- An access in which every lane goes ahead performs its lanes. -/
theorem access_go {c : Cur} {w : Work} {e : Iss} {sp : Space} {acc : Acc} {n al : Nat} {atomic store : Bool} {cls : Nat} {ea : Nat → Nat}
    {go : Iss → Work → List Acs → Eff} {r : List (Motion × Acs) × Work} (hc : e.wid = c.wid) (hm : e.mask ≠ 0)
    (hs : store = false → acc = .r) (hr : (w.aims e.act fun w l => w.aim e sp acc n al l (ea l)) = r)
    (h : GoesAhead c e sp atomic store r) (ha : e.act ≠ []) :
    w.access e sp acc n al atomic cls ea go = go e (settled c e sp r) (r.1.map (·.2)) := by
  have hl : ∀ x ∈ r.1, x.2.lane ∈ e.act := by
    intro x hx
    rw [← aims_lanes w e.act (fun w l => w.aim e sp acc n al l (ea l)) fun w l => aim_lane _ _ _ _ _ _ _ _, hr]
    exact List.mem_map_of_mem (f := fun x : Motion × Acs => x.2.lane) hx
  have hacs := acsOf_all h.pass hl
  simp only [Work.access, hr]
  rw [judge_ok (by intro x hx; obtain ⟨y, hy, rfl⟩ := List.mem_map.mp hx; exact h.pass y hy)]
  simp only [hacs]
  have hirr : r.2.parkIrrevocable e sp atomic (r.1.map (·.2)) = (e, r.2) := by
    simp only [Work.parkIrrevocable]
    rw [hc, h.irrevocable]
    rfl
  simp only [hirr, List.isEmpty_iff, if_neg ha, hacs]
  have hl' : ∀ x ∈ r.1.map (·.2), x.lane ∈ e.act := by
    intro x hx
    obtain ⟨y, hy, rfl⟩ := List.mem_map.mp hx
    exact hl y hy
  have hlate : (if acc == .r then [] else ((r.1.map (·.2)).filter ((settled c e sp r).pastWriteSet e)).map (·.lane)) = [] := by
    split
    · rfl
    · next hne =>
      have : store = true := by
        cases store with
        | true => rfl
        | false => exact absurd (hs rfl) (by simpa using hne)
      have hroom := h.room this
      simp only [List.map_eq_nil_iff, List.filter_eq_nil_iff]
      intro x hx
      obtain ⟨y, hy, rfl⟩ := List.mem_map.mp hx
      rw [hroom y hy]; simp
  have hk : keepActive e (r.1.map (·.2)) = r.1.map (·.2) := by
    simp only [keepActive, List.filter_eq_self]
    intro x hx
    simp [hl' x hx]
  have hpf : ∀ w : Work, w.parkFrontier e [] = (e, w) := fun _ => rfl
  cases sp with
  | g =>
    simp only
    rw [colourStep_go hm hl' (by rw [hc, List.map_map]; exact h.plain rfl)]
    have hset : (r.1.map (·.2)).foldl (fun w x => w.withdraw e.ctx e.wid x.lane []) r.2 = settled c e .g r := by
      simp only [settled, List.foldl_map, hc]
    simp only [hset, hlate, hpf, hk, if_neg ha]
  | c => simp only [settled] at hlate ⊢; simp only [hlate, hpf, hk, if_neg ha]
  | x => simp only [settled] at hlate ⊢; simp only [hlate, hpf, hk, if_neg ha]
  | h => simp only [settled] at hlate ⊢; simp only [hlate, hpf, hk, if_neg ha]
  | l => simp only [settled] at hlate ⊢; simp only [hlate, hpf, hk, if_neg ha]

end Sys2Proof.Machine
end

