-- ==== Sys2Proof/Laws/Memory.lean ====
section
/-! SUPPORT. What a meaning, a bundle and the choice of the next instruction do to memory: its canonical form is kept. -/

namespace Sys2Proof.Machine

/-- An effect keeps the canonical form. -/
theorem commit_wf {f : Work → Work} {s t : State} (h : commit f s = .next t) (hs : s.mem.wf = true) : t.mem.wf = true := by
  cases h; exact applyLog_wf _ hs

/-- A bundle keeps the canonical form. -/
theorem runBundle_wf {g : Guard} {u : Uses} {irrev : Bool} {at_ : Iss → Work → Nat → Nat → Nat} {f : Iss → Work → Eff}
    {n : Nat} {s t : State} (h : runBundle g u irrev at_ f n s = .next t) (hs : s.mem.wf = true) : t.mem.wf = true := by
  unfold runBundle at h
  split at h
  · cases h
  · split at h
    · cases h
    · exact commit_wf h hs

/-- The fetch keeps the canonical form. -/
theorem nextOf_wf {s t : State} {i : Instr} (h : nextOf s = some (i, t)) (hs : s.mem.wf = true) : t.mem.wf = true := by
  simp only [nextOf, Option.map_eq_some_iff] at h
  obtain ⟨x, -, hx⟩ := h
  cases hx
  exact applyLog_wf _ hs

end Sys2Proof.Machine
end

