-- ==== Sys2Proof/Laws/Updates.lean ====
section
/-! SUPPORT. What each named update of a core, an energy counter and a barrier changes and keeps, field by field, and what the
caches of a core hold after a sector or a bundle is put in them. -/

namespace Sys2Proof.Machine

/-! ### Core.joins -/

@[simp] theorem Core.joins_owner (c : Core) (ctx : Nat) : (c.joins ctx).owner = c.owner := rfl
@[simp] theorem Core.joins_al (c : Core) (ctx : Nat) : (c.joins ctx).al = c.al := rfl
@[simp] theorem Core.joins_missed (c : Core) (ctx : Nat) : (c.joins ctx).missed = c.missed := rfl
@[simp] theorem Core.joins_statp (c : Core) (ctx : Nat) : (c.joins ctx).statp = c.statp := rfl
@[simp] theorem Core.joins_bstore (c : Core) (ctx : Nat) : (c.joins ctx).bstore = c.bstore := rfl
@[simp] theorem Core.joins_bstoreBad (c : Core) (ctx : Nat) : (c.joins ctx).bstoreBad = c.bstoreBad := rfl
@[simp] theorem Core.joins_acc (c : Core) (ctx : Nat) : (c.joins ctx).acc = c.acc := rfl
@[simp] theorem Core.joins_accErr0 (c : Core) (ctx : Nat) : (c.joins ctx).accErr0 = c.accErr0 := rfl
@[simp] theorem Core.joins_accErr1 (c : Core) (ctx : Nat) : (c.joins ctx).accErr1 = c.accErr1 := rfl
@[simp] theorem Core.joins_skew (c : Core) (ctx : Nat) : (c.joins ctx).skew = c.skew := rfl
@[simp] theorem Core.joins_order (c : Core) (ctx : Nat) : (c.joins ctx).order = c.order := rfl
@[simp] theorem Core.joins_l1 (c : Core) (ctx : Nat) : (c.joins ctx).l1 = c.l1 := rfl
@[simp] theorem Core.joins_ro (c : Core) (ctx : Nat) : (c.joins ctx).ro = c.ro := rfl
@[simp] theorem Core.joins_icache (c : Core) (ctx : Nat) : (c.joins ctx).icache = c.icache := rfl
@[simp] theorem Core.joins_fbufs (c : Core) (ctx : Nat) : (c.joins ctx).fbufs = c.fbufs := rfl
@[simp] theorem Core.joins_tlb (c : Core) (ctx : Nat) : (c.joins ctx).tlb = c.tlb := rfl
@[simp] theorem Core.joins_chans (c : Core) (ctx : Nat) : (c.joins ctx).chans = c.chans := rfl
@[simp] theorem Core.joins_xfers (c : Core) (ctx : Nat) : (c.joins ctx).xfers = c.xfers := rfl
@[simp] theorem Core.joins_mcasts (c : Core) (ctx : Nat) : (c.joins ctx).mcasts = c.mcasts := rfl
@[simp] theorem Core.joins_resolves (c : Core) (ctx : Nat) : (c.joins ctx).resolves = c.resolves := rfl
@[simp] theorem Core.joins_pmcs (c : Core) (ctx : Nat) : (c.joins ctx).pmcs = c.pmcs := rfl
@[simp] theorem Core.joins_pmovf (c : Core) (ctx : Nat) : (c.joins ctx).pmovf = c.pmovf := rfl
@[simp] theorem Core.joins_gated (c : Core) (ctx : Nat) : (c.joins ctx).gated = c.gated := rfl
@[simp] theorem Core.joins_idleSince (c : Core) (ctx : Nat) : (c.joins ctx).idleSince = c.idleSince := rfl
@[simp] theorem Core.joins_stopped (c : Core) (ctx : Nat) : (c.joins ctx).stopped = c.stopped := rfl
@[simp] theorem Core.joins_errs (c : Core) (ctx : Nat) : (c.joins ctx).errs = c.errs := rfl
@[simp] theorem Core.joins_sampled (c : Core) (ctx : Nat) : (c.joins ctx).sampled = c.sampled := rfl

/-- A context that joins a core where no other stood shares the tick's static power (R365, R369). -/
theorem Core.joins_resident (c : Core) (ctx : Nat) (h : ∀ x ∈ c.resident, x = ctx) :
    (c.joins ctx).resident = ctx :: c.resident := by
  simpa [Core.joins] using h

/-! ### Split.union -/

@[simp] theorem Split.union_state (a b : Split) : (a.union b).state = a.state := rfl
@[simp] theorem Split.union_reason (a b : Split) : (a.union b).reason = a.reason := rfl
@[simp] theorem Split.union_hold (a b : Split) : (a.union b).hold = a.hold := rfl
@[simp] theorem Split.union_pc (a b : Split) : (a.union b).pc = a.pc := rfl
@[simp] theorem Split.union_level (a b : Split) : (a.union b).level = a.level := rfl
@[simp] theorem Split.union_handler (a b : Split) : (a.union b).handler = a.handler := rfl
@[simp] theorem Split.union_trap (a b : Split) : (a.union b).trap = a.trap := rfl
@[simp] theorem Split.union_wait (a b : Split) : (a.union b).wait = a.wait := rfl
@[simp] theorem Split.union_pages (a b : Split) : (a.union b).pages = a.pages := rfl
@[simp] theorem Split.union_busy (a b : Split) : (a.union b).busy = a.busy := rfl
@[simp] theorem Split.union_kept (a b : Split) : (a.union b).kept = a.kept := rfl
@[simp] theorem Split.union_mask (a b : Split) : (a.union b).mask = a.mask ||| b.mask := rfl
@[simp] theorem Split.union_resumed (a b : Split) : (a.union b).resumed = (a.resumed || b.resumed) := rfl

/-! ### Core.dropCode -/

@[simp] theorem Core.dropCode_owner (c : Core) : (c.dropCode).owner = c.owner := rfl
@[simp] theorem Core.dropCode_al (c : Core) : (c.dropCode).al = c.al := rfl
@[simp] theorem Core.dropCode_missed (c : Core) : (c.dropCode).missed = c.missed := rfl
@[simp] theorem Core.dropCode_statp (c : Core) : (c.dropCode).statp = c.statp := rfl
@[simp] theorem Core.dropCode_bstore (c : Core) : (c.dropCode).bstore = c.bstore := rfl
@[simp] theorem Core.dropCode_bstoreBad (c : Core) : (c.dropCode).bstoreBad = c.bstoreBad := rfl
@[simp] theorem Core.dropCode_acc (c : Core) : (c.dropCode).acc = c.acc := rfl
@[simp] theorem Core.dropCode_accErr0 (c : Core) : (c.dropCode).accErr0 = c.accErr0 := rfl
@[simp] theorem Core.dropCode_accErr1 (c : Core) : (c.dropCode).accErr1 = c.accErr1 := rfl
@[simp] theorem Core.dropCode_skew (c : Core) : (c.dropCode).skew = c.skew := rfl
@[simp] theorem Core.dropCode_order (c : Core) : (c.dropCode).order = c.order := rfl
@[simp] theorem Core.dropCode_l1 (c : Core) : (c.dropCode).l1 = c.l1 := rfl
@[simp] theorem Core.dropCode_ro (c : Core) : (c.dropCode).ro = c.ro := rfl
@[simp] theorem Core.dropCode_icache (c : Core) : (c.dropCode).icache = [] := rfl
@[simp] theorem Core.dropCode_fbufs (c : Core) : (c.dropCode).fbufs = [] := rfl
@[simp] theorem Core.dropCode_tlb (c : Core) : (c.dropCode).tlb = c.tlb := rfl
@[simp] theorem Core.dropCode_chans (c : Core) : (c.dropCode).chans = c.chans := rfl
@[simp] theorem Core.dropCode_xfers (c : Core) : (c.dropCode).xfers = c.xfers := rfl
@[simp] theorem Core.dropCode_mcasts (c : Core) : (c.dropCode).mcasts = c.mcasts := rfl
@[simp] theorem Core.dropCode_resolves (c : Core) : (c.dropCode).resolves = c.resolves := rfl
@[simp] theorem Core.dropCode_pmcs (c : Core) : (c.dropCode).pmcs = c.pmcs := rfl
@[simp] theorem Core.dropCode_pmovf (c : Core) : (c.dropCode).pmovf = c.pmovf := rfl
@[simp] theorem Core.dropCode_gated (c : Core) : (c.dropCode).gated = c.gated := rfl
@[simp] theorem Core.dropCode_idleSince (c : Core) : (c.dropCode).idleSince = c.idleSince := rfl
@[simp] theorem Core.dropCode_stopped (c : Core) : (c.dropCode).stopped = c.stopped := rfl
@[simp] theorem Core.dropCode_errs (c : Core) : (c.dropCode).errs = c.errs := rfl
@[simp] theorem Core.dropCode_sampled (c : Core) : (c.dropCode).sampled = c.sampled := rfl
@[simp] theorem Core.dropCode_resident (c : Core) : (c.dropCode).resident = c.resident := rfl

/-! ### Core.dropCaches -/

@[simp] theorem Core.dropCaches_owner (c : Core) : (c.dropCaches).owner = c.owner := rfl
@[simp] theorem Core.dropCaches_al (c : Core) : (c.dropCaches).al = c.al := rfl
@[simp] theorem Core.dropCaches_missed (c : Core) : (c.dropCaches).missed = c.missed := rfl
@[simp] theorem Core.dropCaches_statp (c : Core) : (c.dropCaches).statp = c.statp := rfl
@[simp] theorem Core.dropCaches_bstore (c : Core) : (c.dropCaches).bstore = c.bstore := rfl
@[simp] theorem Core.dropCaches_bstoreBad (c : Core) : (c.dropCaches).bstoreBad = c.bstoreBad := rfl
@[simp] theorem Core.dropCaches_acc (c : Core) : (c.dropCaches).acc = c.acc := rfl
@[simp] theorem Core.dropCaches_accErr0 (c : Core) : (c.dropCaches).accErr0 = c.accErr0 := rfl
@[simp] theorem Core.dropCaches_accErr1 (c : Core) : (c.dropCaches).accErr1 = c.accErr1 := rfl
@[simp] theorem Core.dropCaches_skew (c : Core) : (c.dropCaches).skew = c.skew := rfl
@[simp] theorem Core.dropCaches_order (c : Core) : (c.dropCaches).order = c.order := rfl
@[simp] theorem Core.dropCaches_l1 (c : Core) : (c.dropCaches).l1 = [] := rfl
@[simp] theorem Core.dropCaches_ro (c : Core) : (c.dropCaches).ro = [] := rfl
@[simp] theorem Core.dropCaches_icache (c : Core) : (c.dropCaches).icache = [] := rfl
@[simp] theorem Core.dropCaches_fbufs (c : Core) : (c.dropCaches).fbufs = [] := rfl
@[simp] theorem Core.dropCaches_tlb (c : Core) : (c.dropCaches).tlb = [] := rfl
@[simp] theorem Core.dropCaches_chans (c : Core) : (c.dropCaches).chans = c.chans := rfl
@[simp] theorem Core.dropCaches_xfers (c : Core) : (c.dropCaches).xfers = c.xfers := rfl
@[simp] theorem Core.dropCaches_mcasts (c : Core) : (c.dropCaches).mcasts = c.mcasts := rfl
@[simp] theorem Core.dropCaches_resolves (c : Core) : (c.dropCaches).resolves = c.resolves := rfl
@[simp] theorem Core.dropCaches_pmcs (c : Core) : (c.dropCaches).pmcs = c.pmcs := rfl
@[simp] theorem Core.dropCaches_pmovf (c : Core) : (c.dropCaches).pmovf = c.pmovf := rfl
@[simp] theorem Core.dropCaches_gated (c : Core) : (c.dropCaches).gated = c.gated := rfl
@[simp] theorem Core.dropCaches_idleSince (c : Core) : (c.dropCaches).idleSince = c.idleSince := rfl
@[simp] theorem Core.dropCaches_stopped (c : Core) : (c.dropCaches).stopped = c.stopped := rfl
@[simp] theorem Core.dropCaches_errs (c : Core) : (c.dropCaches).errs = c.errs := rfl
@[simp] theorem Core.dropCaches_sampled (c : Core) : (c.dropCaches).sampled = c.sampled := rfl
@[simp] theorem Core.dropCaches_resident (c : Core) : (c.dropCaches).resident = c.resident := rfl

/-! ### Core.vacate -/

@[simp] theorem Core.vacate_owner (c : Core) (ctx now : Nat) : (c.vacate ctx now).owner = if c.stopped.isSome then c.owner else none := rfl
@[simp] theorem Core.vacate_al (c : Core) (ctx now : Nat) : (c.vacate ctx now).al = c.al := rfl
@[simp] theorem Core.vacate_missed (c : Core) (ctx now : Nat) : (c.vacate ctx now).missed = c.missed := rfl
@[simp] theorem Core.vacate_statp (c : Core) (ctx now : Nat) : (c.vacate ctx now).statp = c.statp := rfl
@[simp] theorem Core.vacate_bstore (c : Core) (ctx now : Nat) : (c.vacate ctx now).bstore = c.bstore := rfl
@[simp] theorem Core.vacate_bstoreBad (c : Core) (ctx now : Nat) : (c.vacate ctx now).bstoreBad = c.bstoreBad := rfl
@[simp] theorem Core.vacate_acc (c : Core) (ctx now : Nat) : (c.vacate ctx now).acc = c.acc := rfl
@[simp] theorem Core.vacate_accErr0 (c : Core) (ctx now : Nat) : (c.vacate ctx now).accErr0 = c.accErr0 := rfl
@[simp] theorem Core.vacate_accErr1 (c : Core) (ctx now : Nat) : (c.vacate ctx now).accErr1 = c.accErr1 := rfl
@[simp] theorem Core.vacate_skew (c : Core) (ctx now : Nat) : (c.vacate ctx now).skew = c.skew := rfl
@[simp] theorem Core.vacate_order (c : Core) (ctx now : Nat) : (c.vacate ctx now).order = [] := rfl
@[simp] theorem Core.vacate_l1 (c : Core) (ctx now : Nat) : (c.vacate ctx now).l1 = [] := rfl
@[simp] theorem Core.vacate_ro (c : Core) (ctx now : Nat) : (c.vacate ctx now).ro = [] := rfl
@[simp] theorem Core.vacate_icache (c : Core) (ctx now : Nat) : (c.vacate ctx now).icache = [] := rfl
@[simp] theorem Core.vacate_fbufs (c : Core) (ctx now : Nat) : (c.vacate ctx now).fbufs = [] := rfl
@[simp] theorem Core.vacate_tlb (c : Core) (ctx now : Nat) : (c.vacate ctx now).tlb = c.tlb.filter fun t => t.ctx ≠ ctx := rfl
@[simp] theorem Core.vacate_chans (c : Core) (ctx now : Nat) : (c.vacate ctx now).chans = [] := rfl
@[simp] theorem Core.vacate_xfers (c : Core) (ctx now : Nat) : (c.vacate ctx now).xfers = [] := rfl
@[simp] theorem Core.vacate_mcasts (c : Core) (ctx now : Nat) : (c.vacate ctx now).mcasts = [] := rfl
@[simp] theorem Core.vacate_resolves (c : Core) (ctx now : Nat) : (c.vacate ctx now).resolves = [] := rfl
@[simp] theorem Core.vacate_pmcs (c : Core) (ctx now : Nat) : (c.vacate ctx now).pmcs = c.pmcs := rfl
@[simp] theorem Core.vacate_pmovf (c : Core) (ctx now : Nat) : (c.vacate ctx now).pmovf = c.pmovf := rfl
@[simp] theorem Core.vacate_gated (c : Core) (ctx now : Nat) : (c.vacate ctx now).gated = c.gated := rfl
@[simp] theorem Core.vacate_idleSince (c : Core) (ctx now : Nat) : (c.vacate ctx now).idleSince = now := rfl
@[simp] theorem Core.vacate_stopped (c : Core) (ctx now : Nat) : (c.vacate ctx now).stopped = c.stopped := rfl
@[simp] theorem Core.vacate_errs (c : Core) (ctx now : Nat) : (c.vacate ctx now).errs = c.errs := rfl
@[simp] theorem Core.vacate_sampled (c : Core) (ctx now : Nat) : (c.vacate ctx now).sampled = c.sampled := rfl
@[simp] theorem Core.vacate_resident (c : Core) (ctx now : Nat) : (c.vacate ctx now).resident = c.resident.filter fun x => x ≠ ctx := rfl

/-! ### Core.release -/

@[simp] theorem Core.release_owner (c : Core) (ctx now : Nat) : (c.release ctx now).owner = none := rfl
@[simp] theorem Core.release_al (c : Core) (ctx now : Nat) : (c.release ctx now).al = c.al := rfl
@[simp] theorem Core.release_missed (c : Core) (ctx now : Nat) : (c.release ctx now).missed = c.missed := rfl
@[simp] theorem Core.release_statp (c : Core) (ctx now : Nat) : (c.release ctx now).statp = c.statp := rfl
@[simp] theorem Core.release_bstore (c : Core) (ctx now : Nat) : (c.release ctx now).bstore = c.bstore := rfl
@[simp] theorem Core.release_bstoreBad (c : Core) (ctx now : Nat) : (c.release ctx now).bstoreBad = c.bstoreBad := rfl
@[simp] theorem Core.release_acc (c : Core) (ctx now : Nat) : (c.release ctx now).acc = c.acc := rfl
@[simp] theorem Core.release_accErr0 (c : Core) (ctx now : Nat) : (c.release ctx now).accErr0 = c.accErr0 := rfl
@[simp] theorem Core.release_accErr1 (c : Core) (ctx now : Nat) : (c.release ctx now).accErr1 = c.accErr1 := rfl
@[simp] theorem Core.release_skew (c : Core) (ctx now : Nat) : (c.release ctx now).skew = c.skew := rfl
@[simp] theorem Core.release_order (c : Core) (ctx now : Nat) : (c.release ctx now).order = [] := rfl
@[simp] theorem Core.release_l1 (c : Core) (ctx now : Nat) : (c.release ctx now).l1 = [] := rfl
@[simp] theorem Core.release_ro (c : Core) (ctx now : Nat) : (c.release ctx now).ro = [] := rfl
@[simp] theorem Core.release_icache (c : Core) (ctx now : Nat) : (c.release ctx now).icache = [] := rfl
@[simp] theorem Core.release_fbufs (c : Core) (ctx now : Nat) : (c.release ctx now).fbufs = [] := rfl
@[simp] theorem Core.release_tlb (c : Core) (ctx now : Nat) : (c.release ctx now).tlb = c.tlb.filter fun t => t.ctx ≠ ctx := rfl
@[simp] theorem Core.release_chans (c : Core) (ctx now : Nat) : (c.release ctx now).chans = [] := rfl
@[simp] theorem Core.release_xfers (c : Core) (ctx now : Nat) : (c.release ctx now).xfers = [] := rfl
@[simp] theorem Core.release_mcasts (c : Core) (ctx now : Nat) : (c.release ctx now).mcasts = [] := rfl
@[simp] theorem Core.release_resolves (c : Core) (ctx now : Nat) : (c.release ctx now).resolves = [] := rfl
@[simp] theorem Core.release_pmcs (c : Core) (ctx now : Nat) : (c.release ctx now).pmcs = c.pmcs := rfl
@[simp] theorem Core.release_pmovf (c : Core) (ctx now : Nat) : (c.release ctx now).pmovf = c.pmovf := rfl
@[simp] theorem Core.release_gated (c : Core) (ctx now : Nat) : (c.release ctx now).gated = c.gated := rfl
@[simp] theorem Core.release_idleSince (c : Core) (ctx now : Nat) : (c.release ctx now).idleSince = now := rfl
@[simp] theorem Core.release_stopped (c : Core) (ctx now : Nat) : (c.release ctx now).stopped = none := rfl
@[simp] theorem Core.release_errs (c : Core) (ctx now : Nat) : (c.release ctx now).errs = c.errs := rfl
@[simp] theorem Core.release_sampled (c : Core) (ctx now : Nat) : (c.release ctx now).sampled = c.sampled := rfl
@[simp] theorem Core.release_resident (c : Core) (ctx now : Nat) : (c.release ctx now).resident = c.resident.filter fun x => x ≠ ctx := rfl

/-! ### Core.keep -/

@[simp] theorem Core.keep_owner (c : Core) (q pa : Nat) (x : BitVec 64) : (c.keep q pa x).owner = c.owner := rfl
@[simp] theorem Core.keep_al (c : Core) (q pa : Nat) (x : BitVec 64) : (c.keep q pa x).al = c.al := rfl
@[simp] theorem Core.keep_missed (c : Core) (q pa : Nat) (x : BitVec 64) : (c.keep q pa x).missed = c.missed := rfl
@[simp] theorem Core.keep_statp (c : Core) (q pa : Nat) (x : BitVec 64) : (c.keep q pa x).statp = c.statp := rfl
@[simp] theorem Core.keep_bstore (c : Core) (q pa : Nat) (x : BitVec 64) : (c.keep q pa x).bstore = c.bstore := rfl
@[simp] theorem Core.keep_bstoreBad (c : Core) (q pa : Nat) (x : BitVec 64) : (c.keep q pa x).bstoreBad = c.bstoreBad := rfl
@[simp] theorem Core.keep_acc (c : Core) (q pa : Nat) (x : BitVec 64) : (c.keep q pa x).acc = c.acc := rfl
@[simp] theorem Core.keep_accErr0 (c : Core) (q pa : Nat) (x : BitVec 64) : (c.keep q pa x).accErr0 = c.accErr0 := rfl
@[simp] theorem Core.keep_accErr1 (c : Core) (q pa : Nat) (x : BitVec 64) : (c.keep q pa x).accErr1 = c.accErr1 := rfl
@[simp] theorem Core.keep_skew (c : Core) (q pa : Nat) (x : BitVec 64) : (c.keep q pa x).skew = c.skew := rfl
@[simp] theorem Core.keep_order (c : Core) (q pa : Nat) (x : BitVec 64) : (c.keep q pa x).order = c.order := rfl
@[simp] theorem Core.keep_l1 (c : Core) (q pa : Nat) (x : BitVec 64) : (c.keep q pa x).l1 = c.l1 := rfl
@[simp] theorem Core.keep_ro (c : Core) (q pa : Nat) (x : BitVec 64) : (c.keep q pa x).ro = c.ro := rfl
@[simp] theorem Core.keep_tlb (c : Core) (q pa : Nat) (x : BitVec 64) : (c.keep q pa x).tlb = c.tlb := rfl
@[simp] theorem Core.keep_chans (c : Core) (q pa : Nat) (x : BitVec 64) : (c.keep q pa x).chans = c.chans := rfl
@[simp] theorem Core.keep_xfers (c : Core) (q pa : Nat) (x : BitVec 64) : (c.keep q pa x).xfers = c.xfers := rfl
@[simp] theorem Core.keep_mcasts (c : Core) (q pa : Nat) (x : BitVec 64) : (c.keep q pa x).mcasts = c.mcasts := rfl
@[simp] theorem Core.keep_resolves (c : Core) (q pa : Nat) (x : BitVec 64) : (c.keep q pa x).resolves = c.resolves := rfl
@[simp] theorem Core.keep_pmcs (c : Core) (q pa : Nat) (x : BitVec 64) : (c.keep q pa x).pmcs = c.pmcs := rfl
@[simp] theorem Core.keep_pmovf (c : Core) (q pa : Nat) (x : BitVec 64) : (c.keep q pa x).pmovf = c.pmovf := rfl
@[simp] theorem Core.keep_gated (c : Core) (q pa : Nat) (x : BitVec 64) : (c.keep q pa x).gated = c.gated := rfl
@[simp] theorem Core.keep_idleSince (c : Core) (q pa : Nat) (x : BitVec 64) : (c.keep q pa x).idleSince = c.idleSince := rfl
@[simp] theorem Core.keep_stopped (c : Core) (q pa : Nat) (x : BitVec 64) : (c.keep q pa x).stopped = c.stopped := rfl
@[simp] theorem Core.keep_errs (c : Core) (q pa : Nat) (x : BitVec 64) : (c.keep q pa x).errs = c.errs := rfl
@[simp] theorem Core.keep_sampled (c : Core) (q pa : Nat) (x : BitVec 64) : (c.keep q pa x).sampled = c.sampled := rfl
@[simp] theorem Core.keep_resident (c : Core) (q pa : Nat) (x : BitVec 64) : (c.keep q pa x).resident = c.resident := rfl

/-! ### Energy.add -/

@[simp] theorem Energy.add_e (c : Energy) (u : Nat) : (c.add u).e = c.e := rfl
@[simp] theorem Energy.add_sat (c : Energy) (u : Nat) : (c.add u).sat = c.sat := rfl
@[simp] theorem Energy.add_base (c : Energy) (u : Nat) : (c.add u).base = c.base := rfl
@[simp] theorem Energy.add_pend (c : Energy) (u : Nat) : (c.add u).pend = c.pend + u := rfl

@[simp] theorem Energy.settle_pend (c : Energy) : c.settle.pend = 0 := by
  unfold Energy.settle; split <;> rfl
@[simp] theorem Energy.settle_base (c : Energy) : c.settle.base = c.base := by
  unfold Energy.settle; split <;> rfl
/-- The counter after a tick is the exact sum, or all ones where 64 bits do not hold it (R363). -/
theorem Energy.settle_e (c : Energy) : c.settle.e.toNat = min (c.e.toNat + c.pend) (2 ^ 64 - 1) := by
  have := c.e.isLt
  unfold Energy.settle
  split
  · rw [show (BitVec.allOnes 64).toNat = 2 ^ 64 - 1 from BitVec.toNat_allOnes]; omega
  · simp only [BitVec.toNat_add, BitVec.toNat_ofNat]; omega
theorem Energy.settle_sat (c : Energy) : c.settle.sat = (c.sat || decide (2 ^ 64 ≤ c.e.toNat + c.pend)) := by
  unfold Energy.settle
  split
  case isTrue h => simp only [decide_eq_true h, Bool.or_true]
  case isFalse h => simp only [decide_eq_false h, Bool.or_false]

/-! ### Barrier.complete -/

@[simp] theorem Barrier.complete_members (c : Barrier) : (c.complete).members = c.members &&& ~~~c.gone := rfl
@[simp] theorem Barrier.complete_wavesIn (c : Barrier) : (c.complete).wavesIn = 0 := rfl
@[simp] theorem Barrier.complete_expected (c : Barrier) : (c.complete).expected = popcount (c.members &&& ~~~c.gone) + c.eng := rfl
@[simp] theorem Barrier.complete_arrived (c : Barrier) : (c.complete).arrived = 0 := rfl
@[simp] theorem Barrier.complete_eng (c : Barrier) : (c.complete).eng = c.eng := rfl
@[simp] theorem Barrier.complete_lastErr (c : Barrier) : (c.complete).lastErr = c.err := rfl
@[simp] theorem Barrier.complete_init (c : Barrier) : (c.complete).init = (c.init && popcount (c.members &&& ~~~c.gone) + c.eng != 0) := rfl
@[simp] theorem Barrier.complete_err (c : Barrier) : (c.complete).err = false := rfl
@[simp] theorem Barrier.complete_phase (c : Barrier) : (c.complete).phase = !c.phase := rfl
@[simp] theorem Barrier.complete_pend (c : Barrier) : (c.complete).pend = c.pend := rfl
@[simp] theorem Barrier.complete_engIn (c : Barrier) : (c.complete).engIn = 0 := rfl
@[simp] theorem Barrier.complete_heldArr (c : Barrier) : (c.complete).heldArr = c.heldArr := rfl
@[simp] theorem Barrier.complete_gone (c : Barrier) : (c.complete).gone = 0 := rfl
@[simp] theorem Barrier.complete_wide (c : Barrier) : (c.complete).wide = false := rfl
@[simp] theorem Barrier.complete_lastWide (c : Barrier) : (c.complete).lastWide = c.wide := rfl

/-! ### What a cache holds after a line or a bundle is put in it -/

theorem mem_mput {α : Type} {m : FMap α} {k : Nat} {v : α} {y : Nat × α} (h : y ∈ mput m k v) : y = (k, v) ∨ y ∈ m := by
  induction m with
  | nil => exact .inl (List.mem_singleton.1 h)
  | cons x m ih =>
    obtain ⟨j, z⟩ := x
    simp only [mput] at h
    split at h
    · exact List.mem_cons.1 h
    · split at h
      · exact (List.mem_cons.1 h).imp_right (List.mem_cons_of_mem _)
      · rcases List.mem_cons.1 h with rfl | h
        · exact .inr List.mem_cons_self
        · exact (ih h).imp_right (List.mem_cons_of_mem _)

theorem mem_mdel {α : Type} {m : FMap α} {k : Nat} {y : Nat × α} (h : y ∈ mdel m k) : y ∈ m := by
  induction m with
  | nil => exact h
  | cons x m ih =>
    obtain ⟨j, z⟩ := x
    simp only [mdel] at h
    split at h
    · exact List.mem_cons_of_mem _ (ih h)
    · exact (List.mem_cons.1 h).elim (fun e => e ▸ List.mem_cons_self) fun h => List.mem_cons_of_mem _ (ih h)

/-- A cache holds the new sector or what it held; a full one loses only another line. -/
theorem mem_putSector {m : FMap Sector} {s n : Nat} {x : Sector} {y : Nat × Sector} (h : y ∈ putSector m s x n) :
    y = (s, x) ∨ y ∈ m := by
  simp only [putSector] at h
  split at h
  · exact mem_mput h
  · split at h
    · exact mem_mput (List.mem_filter.1 h).1
    · exact mem_mput h

theorem mem_putBundle {m : FMap (BitVec 64)} {pa n : Nat} {x : BitVec 64} {y : Nat × BitVec 64}
    (h : y ∈ putBundle m pa x n) : y = (pa, x) ∨ y ∈ m := by
  simp only [putBundle] at h
  split at h
  · exact mem_mput h
  · split at h
    · exact mem_mput (mem_mdel h)
    · exact mem_mput h

@[simp] theorem mget?_putBundle_self (m : FMap (BitVec 64)) (pa : Nat) (x : BitVec 64) (n : Nat) :
    mget? (putBundle m pa x n) pa = some x := by
  simp only [putBundle]
  split
  · exact mget?_mput_self m pa x
  · split
    · rename_i y hy
      have hne : pa ≠ y.1 := fun e => by simpa [e] using List.find?_some hy
      rw [mget?_mdel_ne _ hne, mget?_mput_self]
    · exact mget?_mput_self m pa x

/-- A fetched bundle may be fetched again by its quarter (R159, R195). -/
theorem Core.mem_copies_keep (c : Core) (q pa : Nat) (x : BitVec 64) (h : c.copies q pa = []) :
    x ∈ (c.keep q pa x).copies q pa := by
  have h' : mget? (mget c.fbufs q []) pa = none ∧ mget? c.icache pa = none := by simpa [Core.copies] using h
  simp [Core.copies, Core.keep, h'.1, h'.2]

end Sys2Proof.Machine
end

