-- ==== Sys2Proof/Tests/Slice0.lean ====
section
/-! SUPPORT. Own tests: ill-formed terms refused, words decoded, one step each of some instructions, and for each statement
states and operands that meet its hypotheses. -/

namespace Sys2Proof.Tests

open Sys2Proof.Machine

-- The kernel checks these one after another: each waits for the ones before it, and as many threads would wait.
set_option Elab.async false

/-! ### Small states -/

def aLane : Lane := { Lane.blank with alive := true }
def aSplit (pc : Pc) (mask : Word) : Split := { Split.blank with pc := pc, mask := mask }

/-- A wave of two living lanes in slot 0 of core 0, one split of both at 0x1000. -/
def aWave : Wave := { Wave.blank with
  ctx := 1, lid := 1, bid := 1, place := some (0, 0), lanes := [(0, aLane), (1, aLane)]
  entries := [(0, aSplit 0x1000 3)] }

def aLaunch : Launch := { Launch.blank with ctx := 1, s := 64, l := 4096, clusters := [0], state := .running }
def aBlock : Block := { Block.blank with ctx := 1, lid := 1, core := some 0, waves := [1] }

/-- A part with that wave issuing, its block, launch and context, and what `f` changes. -/
def live (f : Dev → Dev) : State := { State.reset with dev := f { Dev.reset with
  waves := [(1, aWave)], launches := [(1, aLaunch)], blocks := [(1, aBlock)], ctxs := [(1, Context.blank)]
  cores := [(0, { Core.reset with owner := some 1 })]
  sys := { Sys.reset with cur := some ⟨1, 0⟩, nextId := 100, issue := 8 } } }

def withW (f : Wave → Wave) (d : Dev) : Dev := { d with waves := [(1, f aWave)] }
def withC (f : Core → Core) (d : Dev) : Dev := { d with cores := [(0, f { Core.reset with owner := some 1 })] }
def withB (f : Block → Block) (d : Dev) : Dev := { d with blocks := [(1, f aBlock)] }
def withL (f : Launch → Launch) (d : Dev) : Dev := { d with launches := [(1, f aLaunch)] }
def withX (f : Context → Context) (d : Dev) : Dev := { d with ctxs := [(1, f Context.blank)] }

def s0 : State := live id
def c0 : Cur := ⟨1, 0⟩
def p0 : Guard := ⟨false, 0⟩
/-- `@!p1`, which every lane of a new wave passes. -/
def np1 : Guard := ⟨true, 1⟩
def v (n : BitVec 5) : Src := ⟨.v n, false⟩
def k (n : BitVec 5) : Src := ⟨.k n, false⟩
def fv (n : BitVec 5) : FSrc := ⟨v n, false, false⟩
def rn : Rnd := .st .rn

/-- A test on the state that an instruction answers. -/
def after (o : Host.Outcome State Fault Refusal) (p : State → Bool) : Bool :=
  match o with
  | .next t => p t
  | _ => false

/-! ### The conditions under which a bundle issues, as a test -/

def issues (s : State) (c : Cur) (g : Guard) (u : Uses) (at_ : Nat → Nat → Nat) : Bool :=
  s.dev.sys.cur == some c && (mget? (s.wave c.wid).entries c.entry).isSome && (s.iss c g).mask != 0 &&
  ((s.iss c g).act.all fun l => u.all.all fun x => ((s.wave c.wid).useLocs (s.iss c g) x (at_ x.field l)).all fun y =>
    (s.wave c.wid).stat y.2 == none) && !(s.wave c.wid).stepctl

theorem canIssue_of {s : State} {c : Cur} {g : Guard} {u : Uses} {at_ : Nat → Nat → Nat}
    (h : issues s c g u at_ = true) : CanIssue s c g u at_ := by
  simp only [issues, Bool.and_eq_true, beq_iff_eq, bne_iff_ne, List.all_eq_true, Bool.not_eq_true'] at h
  exact ⟨h.1.1.1.1, h.1.1.1.2, h.1.1.2, fun l hl x hx y hy => h.1.2 l hl x hx y hy, h.2⟩

/-- A bundle is well formed, the register stack has a size of R17, and the bundle can issue. -/
def Ready (s : State) (g : Guard) (i : Instr) (u : Uses) (at_ : Nat → Nat → Nat) : Prop :=
  i.wf = true ∧ StackOk s c0 g ∧ CanIssue s c0 g u at_

def ready (s : State) (g : Guard) (i : Instr) (u : Uses) (at_ : Nat → Nat → Nat) : Bool :=
  i.wf && decide (64 ≤ (s.iss c0 g).s ∧ (s.iss c0 g).s ≤ 1024) && issues s c0 g u at_

theorem ready_of {s : State} {g : Guard} {i : Instr} {u : Uses} {at_ : Nat → Nat → Nat} (h : ready s g i u at_ = true) :
    Ready s g i u at_ := by
  simp only [ready, Bool.and_eq_true, decide_eq_true_eq] at h
  exact ⟨h.1.1, h.1.2, canIssue_of h.2⟩

theorem all_ready {s : State} {g : Guard} {xs : List (Instr × Uses)}
    (h : (xs.all fun x => ready s g x.1 x.2 ownLane) = true) : ∀ x ∈ xs, Ready s g x.1 x.2 ownLane :=
  fun x hx => ready_of (List.all_eq_true.1 h x hx)

/-! ### Witnesses: integer and float bundles -/

def u2 (a b : Src) (d : Reg) : Uses := ⟨[useOf a 1 0, useOf b 1 1], some (d, 1)⟩

theorem witness_IntegerArithmetic : ∀ x ∈ [
    (Instr.iadd np1 (.v 31) (v 0) (.imm 0x7FFFF), (⟨[useOf (v 0) 1 0], some (.v 31, 1)⟩ : Uses)),
    (.isub np1 (.k 31) (k 30) (.reg (v 5)), ⟨useOf (k 30) 1 0 :: opdUses (.reg (v 5)), some (.k 31, 1)⟩),
    (.imul np1 (.v 0) (v 0) (.reg (v 0)), u2 (v 0) (v 0) (.v 0)), (.imulh np1 (.v 0) (v 1) (.reg (k 2)) true, u2 (v 1) (k 2) (.v 0)),
    (.imin np1 (.v 0) (v 1) (.reg (v 2)) false, u2 (v 1) (v 2) (.v 0)),
    (.imax np1 (.k 0) (v 1) (.reg (v 2)) true, u2 (v 1) (v 2) (.k 0))], Ready s0 np1 x.1 x.2 ownLane :=
  all_ready (by decide)

theorem witness_LogicAndShifts : ∀ x ∈ [
    (Instr.and p0 (.v 0) (v 1) (.reg (v 2)), u2 (v 1) (v 2) (.v 0)), (.or p0 (.v 0) (v 1) (.reg (v 2)), u2 (v 1) (v 2) (.v 0)),
    (.xor p0 (.v 0) (v 1) (.reg (v 2)), u2 (v 1) (v 2) (.v 0)), (.andn p0 (.v 0) (v 1) (.reg (v 2)), u2 (v 1) (v 2) (.v 0)),
    (.shl p0 (.v 0) (v 1) (.imm 31), ⟨[useOf (v 1) 1 0], some (.v 0, 1)⟩),
    (.shr p0 (.v 0) (v 1) (.imm 32), ⟨[useOf (v 1) 1 0], some (.v 0, 1)⟩),
    (.sar p0 (.v 0) (v 1) (.imm 31), ⟨[useOf (v 1) 1 0], some (.v 0, 1)⟩),
    (.rotl p0 (.v 0) (v 1) (.imm 0), ⟨[useOf (v 1) 1 0], some (.v 0, 1)⟩)], Ready s0 p0 x.1 x.2 ownLane :=
  all_ready (by decide)

def u1 (a : Src) (d : Reg) : Uses := ⟨[useOf a 1 0], some (d, 1)⟩

theorem witness_OneSourceIntegers : ∀ x ∈ [(Instr.iabs p0 (.v 0) (v 1), u1 (v 1) (.v 0)),
    (.ineg p0 (.k 31) (v 31), u1 (v 31) (.k 31)), (.not p0 (.v 31) (k 31), u1 (k 31) (.v 31)),
    (.popc p0 (.v 0) (v 1), u1 (v 1) (.v 0)), (.clz p0 (.v 0) (v 1), u1 (v 1) (.v 0)),
    (.brev p0 (.v 0) (v 1), u1 (v 1) (.v 0))], Ready s0 p0 x.1 x.2 ownLane :=
  all_ready (by decide)

theorem witness_Moves : ∀ x ∈ [(Instr.mov p0 (.v 30) (k 30) true, (⟨[useOf (k 30) 2 0], some (.v 30, 2)⟩ : Uses)),
    (.mov p0 (.v 1) (k 31) false, u1 (k 31) (.v 1)), (.movi p0 (.k 0) 0xFFFFFFFF, ⟨[], some (.k 0, 1)⟩)],
    Ready s0 p0 x.1 x.2 ownLane :=
  all_ready (by decide)

theorem witness_WideIntegers : ∀ x ∈ [
    (Instr.imad p0 (.v 0) (v 1) (v 2) (v 3), (⟨[useOf (v 1) 1 0, useOf (v 2) 1 1, useOf (v 3) 1 2], some (.v 0, 1)⟩ : Uses)),
    (.iadd64 p0 (.v 30) (v 2) (.pair (v 4)), ⟨useOf (v 2) 2 0 :: opd64Uses (.pair (v 4)), some (.v 30, 2)⟩),
    (.iadd64 p0 (.v 0) (v 2) (.zx (v 5)), ⟨useOf (v 2) 2 0 :: opd64Uses (.zx (v 5)), some (.v 0, 2)⟩),
    (.iadd64 p0 (.v 0) (v 2) (.sx (v 5)), ⟨useOf (v 2) 2 0 :: opd64Uses (.sx (v 5)), some (.v 0, 2)⟩),
    (.iadd64 p0 (.k 30) (v 2) (.imm 0x40000), ⟨useOf (v 2) 2 0 :: opd64Uses (.imm 0x40000), some (.k 30, 2)⟩),
    (.lea p0 (.v 0) (v 2) (v 3) true 7, ⟨[useOf (v 2) 2 0, useOf (v 3) 1 1], some (.v 0, 2)⟩),
    (.imadw p0 (.v 0) (v 2) (v 3) (v 4) false,
      ⟨[useOf (v 2) 1 0, useOf (v 3) 1 1, useOf (v 4) 2 2], some (.v 0, 2)⟩)], Ready s0 p0 x.1 x.2 ownLane :=
  all_ready (by decide)

theorem witness_FieldsAndBytes : ∀ x ∈ [
    (Instr.bfx p0 (.v 0) (v 1) (.imm 31 32) true, u1 (v 1) (.v 0)),
    (.bfi p0 (.v 0) (v 1) (.imm 0 32) (v 3), ⟨[useOf (v 1) 1 0, useOf (v 3) 1 2], some (.v 0, 1)⟩),
    (.bfi p0 (.v 0) (v 1) (.reg (v 2)) (v 3), ⟨useOf (v 1) 1 0 :: (fieldUses (.reg (v 2)) ++ [useOf (v 3) 1 2]), some (.v 0, 1)⟩),
    (.bperm p0 (.v 0) (v 28) (v 3) true, ⟨[useOf (v 28) 4 0, useOf (v 3) 1 1], some (.v 0, 1)⟩),
    (.bsel p0 (.v 0) (v 1) (v 2) (.reg (v 3)), ⟨[useOf (v 1) 1 0, useOf (v 2) 1 1, useOf (v 3) 1 2], some (.v 0, 1)⟩),
    (.bsel p0 (.v 0) (v 1) (v 2) (.imm 0xFFFF), u2 (v 1) (v 2) (.v 0)),
    (.isel p0 (.v 0) (v 1) (.reg (v 2)) 7 true, u2 (v 1) (v 2) (.v 0))], Ready s0 p0 x.1 x.2 ownLane :=
  all_ready (by decide)

theorem witness_PredicatesAndCompares : ∀ x ∈ [
    (Instr.iset p0 7 (v 1) (.reg (v 2)) .ge true, (⟨[useOf (v 1) 1 0, useOf (v 2) 1 1], none⟩ : Uses)),
    (.pset p0 0 1 false 2 true .xor, ⟨[], none⟩), (.pmov p0 (.put (v 1) 0x7F), ⟨[useOf (v 1) 1 0], none⟩),
    (.vote p0 (.all 1) 0 true, ⟨[], none⟩), (.vote p0 (.any 1) 7 false, ⟨[], none⟩),
    (.fset p0 true 1 (fv 2) (fv 30) .geu true, ⟨[useOf (v 2) 2 0, useOf (v 30) 2 1], none⟩)], Ready s0 p0 x.1 x.2 ownLane :=
  all_ready (by decide)

theorem witness_CrossLaneResults :
    (∀ x ∈ [(Instr.redux p0 (.v 0) ⟨1, false⟩ .xor, u1 (v 1) (.v 0)),
      (.vote p0 (.ballot (.v 0)) 1 true, (⟨[], some (.v 0, 1)⟩ : Uses)),
      (.pmov p0 (.get (.v 0)), ⟨[], some (.v 0, 1)⟩)], Ready s0 p0 x.1 x.2 ownLane) ∧
    Ready s0 p0 (.shfl p0 (.v 0) ⟨1, false⟩ (.reg (v 2)) 5 .down) ⟨[useOf (v 1) 1 0, useOf (v 2) 1 1], some (.v 0, 1)⟩
      (fun f l => if f = 0 then shflLane (s0.wave 1) (s0.iss c0 p0) (.reg (v 2)) (32 >>> 5) .down l else l) ∧
    Ready s0 p0 (.movk p0 5 ⟨7, true⟩ 31) ⟨[useOf ⟨.v 7, true⟩ 1 0], some (.k 5, 1)⟩ (fun f l => if f = 0 then 31 else l) :=
  ⟨all_ready (by decide), ready_of (by decide), ready_of (by decide)⟩

def uf (n : Nat) (a b : FSrc) (d : Reg) : Uses := ⟨[useOf a.src n 0, useOf b.src n 1], some (d, n)⟩

theorem witness_FloatArithmetic : ∀ x ∈ [(Instr.fadd p0 false .dyn (.v 0) (fv 1) (fv 2), uf 1 (fv 1) (fv 2) (.v 0)),
    (.fsub p0 true rn (.v 0) (fv 2) (fv 30), uf 2 (fv 2) (fv 30) (.v 0)),
    (.fmul p0 false (.st .rd) (.v 0) (fv 1) (fv 2), uf 1 (fv 1) (fv 2) (.v 0)),
    (.ffma p0 true rn (.v 0) true true (fv 2) (fv 4), uf 2 (fv 2) (fv 4) (.v 0)),
    (.fmin p0 false (.v 0) (fv 1) (fv 2), uf 1 (fv 1) (fv 2) (.v 0)),
    (.fmax p0 true (.v 0) (fv 2) (fv 4), uf 2 (fv 2) (fv 4) (.v 0)),
    (.fclass p0 true (.v 1) (fv 2), ⟨[useOf (v 2) 2 0], some (.v 1, 1)⟩)], Ready s0 p0 x.1 x.2 ownLane :=
  all_ready (by decide)

/-- A launch whose slot 0 holds FP64 and slot 1 FP8. -/
def sSlots : State := live (withL fun l => { l with slots := [7, 4] })

theorem witness_Conversions :
    (∀ x ∈ [(Instr.frnd p0 true rn (.v 0) (v 2), (⟨[useOf (v 2) 2 0], some (.v 0, 2)⟩ : Uses)),
      (.f2i p0 false rn (.v 0) (v 2) 3, ⟨[useOf (v 2) 1 0], some (.v 0, 2)⟩),
      (.i2f p0 true rn (.v 0) (v 2) 1, ⟨[useOf (v 2) 1 0], some (.v 0, 2)⟩),
      (.f2f p0 true .dyn (.v 1) (v 2), ⟨[useOf (v 2) 2 0], some (.v 1, 1)⟩),
      (.f2f p0 false rn (.v 2) (v 1), ⟨[useOf (v 1) 1 0], some (.v 2, 2)⟩),
      (.tfence p0, ⟨[], none⟩)], Ready s0 p0 x.1 x.2 ownLane) ∧
    (∀ l ∈ (s0.iss c0 p0).act, ((s0.wave 1).lane l).fpsr &&& ((s0.wave 1).lane l).fpen = 0) ∧
    (s0.wave 1).longPending (s0.iss c0 p0).act = false ∧
    slotFmt (slotAt 0 sSlots c0) = 7 ∧
    (∀ x ∈ [(Instr.cvt p0 true (.v 1) (v 2) 0, (⟨[useOf (v 2) 2 0], some (.v 1, 1)⟩ : Uses)),
      (.cvt p0 false (.v 2) (v 1) 0, ⟨[useOf (v 1) 1 0], some (.v 2, 2)⟩)], Ready sSlots p0 x.1 x.2 ownLane) ∧
    slotBits (slotAt 1 sSlots c0) = 8 ∧ (Reg.v 28).aligned (32 / slotBits (slotAt 1 sSlots c0)) = true ∧
    ∀ x ∈ [(Instr.cvtp p0 (.v 0) (v 28) 1, (⟨[useOf (v 28) 4 0], some (.v 0, 1)⟩ : Uses)),
      (.cvtu p0 (.v 28) (v 1) 1, ⟨[useOf (v 1) 1 0], some (.v 28, 4)⟩)], Ready sSlots p0 x.1 x.2 ownLane :=
  ⟨all_ready (by decide), by decide, by decide, by decide, all_ready (by decide), by decide, by decide,
    all_ready (by decide)⟩

/-- A core whose algebra table 0 has dimension 4 and no terms. -/
def sTable : State := live (withC fun c => { c with al := [(0, 4 :: List.replicate 67 0)] })

theorem witness_PackedAndAlgebra :
    (∀ x ∈ [(Instr.hadd2 p0 true rn (.v 0) (fv 1) (fv 2), u2 (v 1) (v 2) (.v 0)),
      (.hmul2 p0 false rn (.v 0) (fv 1) (fv 2), u2 (v 1) (v 2) (.v 0)),
      (.hfma2 p0 false .dyn (.v 0) true false (fv 1) (fv 2), u2 (v 1) (v 2) (.v 0))], Ready s0 p0 x.1 x.2 ownLane) ∧
    tableDim (tableAt 0 sTable c0) = 4 ∧ (Reg.v 28).aligned 4 = true ∧
    ∀ x ∈ [(Instr.almul p0 rn (.v 0) (v 4) (v 28) 0, (⟨[useOf (v 4) 4 0, useOf (v 28) 4 1], some (.v 0, 4)⟩ : Uses)),
      (.almac p0 rn (.v 28) (v 4) (v 8) 0, ⟨[useOf (v 4) 4 0, useOf (v 8) 4 1], some (.v 28, 4)⟩),
      (.alconj p0 (.v 4) (v 4) 0, ⟨[useOf (v 4) 4 0], some (.v 4, 4)⟩),
      (.alnorm p0 rn (.v 1) (v 28) 0, ⟨[useOf (v 28) 4 0], some (.v 1, 1)⟩)], Ready sTable p0 x.1 x.2 ownLane :=
  ⟨all_ready (by decide), by decide, by decide, all_ready (by decide)⟩

theorem witness_LongProducers : ∀ x ∈ [(Instr.idiv p0 (.v 0) (v 1) (v 2) false, u2 (v 1) (v 2) (.v 0)),
    (.irem p0 (.v 0) (v 1) (v 2) true, u2 (v 1) (v 2) (.v 0)), (.fdiv p0 true rn (.v 0) (fv 2) (fv 4), uf 2 (fv 2) (fv 4) (.v 0)),
    (.fsqrt p0 false rn (.v 0) (fv 1), u1 (v 1) (.v 0)), (.frcp p0 false rn (.v 0) (fv 1), u1 (v 1) (.v 0)),
    (.frsq p0 false rn (.v 0) (fv 1), u1 (v 1) (.v 0)), (.fexp2 p0 false rn (.v 0) (fv 1), u1 (v 1) (.v 0)),
    (.flog2 p0 false rn (.v 0) (fv 1), u1 (v 1) (.v 0)), (.fsin p0 false rn (.v 0) (fv 1), u1 (v 1) (.v 0)),
    (.fcos p0 false rn (.v 0) (fv 1), u1 (v 1) (.v 0))], Ready s0 p0 x.1 x.2 ownLane :=
  all_ready (by decide)

/-! ### Witnesses: control, traps, special registers, producers, pairs -/

/-- The part with that wave, and no bundle in progress. -/
def idle (f : Dev → Dev) : State := live fun d => f { d with sys := { d.sys with cur := none } }

/-- Two splits of the wave, the second at `pc`. -/
def sTwo (pc : Pc) : State := live (withW fun v => { v with entries := [(0, aSplit 0x1000 1), (1, aSplit pc 2)] })

theorem witness_Branches :
    CanIssue s0 c0 np1 noUses ownLane ∧ CanIssue s0 c0 np1 ⟨[useOf (v 30) 2 0], none⟩ ownLane ∧
    (∀ l ∈ (s0.iss c0 np1).act, targetOf s0 c0 np1 (v 30) 0x3FFFF l % 8 = 0 ∧ targetOf s0 c0 np1 (v 30) 0x3FFFF l < 2 ^ 56) ∧
    CanIssue s0 c0 ⟨false, 0⟩ noUses ownLane ∧ CanIssue (sTwo 0x1000) c0 ⟨false, 0⟩ noUses ownLane ∧
    (∀ x ∈ ((sTwo 0x1000).wave 1).splits, x.pc = ((sTwo 0x1000).iss c0 ⟨false, 0⟩).pc ∧ x.state = .ready ∧
      x.level = ((sTwo 0x1000).iss c0 ⟨false, 0⟩).level ∧ x.handler = (((sTwo 0x1000).wave 1).split 0).handler) ∧
    CanIssue (sTwo 0x1008) c0 ⟨false, 0⟩ noUses ownLane ∧ ((sTwo 0x1008).wave 1).splits.length ≠ 1 ∧
    ∃ x ∈ ((sTwo 0x1008).wave 1).splits, ¬(x.pc = ((sTwo 0x1008).iss c0 ⟨false, 0⟩).pc ∧ x.state = .ready ∧
      x.level = ((sTwo 0x1008).iss c0 ⟨false, 0⟩).level ∧ x.handler = (((sTwo 0x1008).wave 1).split 0).handler) :=
  ⟨canIssue_of (by decide), canIssue_of (by decide), by decide, canIssue_of (by decide), canIssue_of (by decide), by decide,
    canIssue_of (by decide), by decide, aSplit 0x1008 2, by decide⟩

/-- A wave whose lanes stand at depth `d` with `hlow` and a stack. -/
def sDeep (d : BitVec 12) (hlow : Nat) (st : List StackEntry) : State := live (withW fun v => { v with
  lanes := [(0, { aLane with wdepth := d, hlow := hlow, stack := st }), (1, { aLane with wdepth := d, hlow := hlow, stack := st })] })

/-- The deepest push, which spills and just fits (R19, R21). -/
def sPush : State := sDeep 4094 112 []
/-- A pop that fills the window. -/
def sFill : State := sDeep 2 3984 [⟨true, false, 3984⟩, ⟨false, false, 4080⟩]

def roomy (v : Wave) (s l : Nat) : Bool :=
  (v.lane l).wdepth != 4095 &&
    decide ((v.lane l).phigh + pushBytes s (v.lane l) ≤ (v.lane l).hlow ∧ (v.lane l).hlow ≤ 4096) &&
    ((spillLocs s l (v.lane l).wdepth.toNat).all fun y => v.stat y == none)

theorem room_of {v : Wave} {s l : Nat} (h : roomy v s l = true) : Room v s l := by
  simp only [roomy, Bool.and_eq_true, bne_iff_ne, decide_eq_true_eq, List.all_eq_true, beq_iff_eq] at h
  exact ⟨h.1.1, h.1.2, fun _ => h.2⟩

theorem rooms {v : Wave} {s : Nat} {ls : List Nat} (h : (ls.all (roomy v s)) = true) : ∀ l ∈ ls, Room v s l :=
  fun l hl => room_of (List.all_eq_true.1 h l hl)

def popsHere (s : State) (v : Wave) (wid sz l : Nat) : Bool :=
  (v.lane l).wdepth != 0 && ((popPlan sz (v.lane l)).all fun x => !x.global &&
    !s.work.badData (PAddr.lane wid l x.off).key (if x.block then 96 else 16)) &&
    ((fillLocs sz l (v.lane l).wdepth.toNat).all fun y => !v.pending y) &&
    ((popPlan sz (v.lane l)).map (·.block) == if fills sz (v.lane l) then [true, false] else [false]) &&
    ((v.lane l).held.all fun h => !(v.lane l).head.entered.getLsbD h.1)

theorem popsHere_of {s : State} {v : Wave} {wid sz : Nat} {ls : List Nat} (h : (ls.all (popsHere s v wid sz)) = true) :
    ∀ l ∈ ls, PopsHere s v wid sz l := by
  intro l hl
  have := List.all_eq_true.1 h l hl
  simp only [popsHere, Bool.and_eq_true, bne_iff_ne, List.all_eq_true, beq_iff_eq, Bool.not_eq_true'] at this
  exact ⟨this.1.1.1.1, this.1.1.1.2, this.1.1.2, this.1.2, this.2⟩

theorem witness_CallsAndReturns :
    Safe sPush ∧ CanIssue sPush c0 p0 noUses ownLane ∧ (sPush.iss c0 p0).act ≠ [] ∧ (sPush.iss c0 p0).shadow = false ∧
    ((sPush.iss c0 p0).pc + (1#19).signExtend 56 * 8).toNat % 8 = 0 ∧
    (∀ l ∈ (sPush.iss c0 p0).act, Room (sPush.wave 1) (sPush.iss c0 p0).s l) ∧
    CanIssue sPush c0 p0 ⟨[useOf (v 0) 2 0], none⟩ ownLane ∧
    (∀ l ∈ (sPush.iss c0 p0).act, targetOf sPush c0 p0 (v 0) 1 l % 8 = 0 ∧ targetOf sPush c0 p0 (v 0) 1 l < 2 ^ 56) ∧
    Passes sPush c0 p0 (pushCheck sPush c0) ∧ (branchTarget (sPush.iss c0 p0).pc 1).toNat % 8 = 0 ∧
    CanIssue sFill c0 p0 noUses ownLane ∧ StackOk sFill c0 p0 ∧
    (∀ l ∈ (sFill.iss c0 p0).act, PopsHere sFill (sFill.wave 1) 1 (sFill.iss c0 p0).s l) ∧
    Passes sFill c0 p0 (popCheck sFill c0) ∧
    -- lanes at depth 0 exit
    CanIssue s0 c0 p0 noUses ownLane ∧ (s0.iss c0 p0).shadow = false ∧
    s0.work.finHeld 1 ((s0.iss c0 p0).act.filter fun l => ((s0.wave 1).lane l).wdepth = 0) = [] ∧
    Passes s0 c0 p0 (popCheck s0 c0) := by
  unfold Passes
  exact ⟨rfl, canIssue_of (by decide), by decide, by decide, by decide, rooms (by decide), canIssue_of (by decide), by decide,
    by decide, by decide, canIssue_of (by decide), ⟨by decide, by decide⟩, popsHere_of (by decide), by decide,
    canIssue_of (by decide), by decide, by decide, by decide⟩

/-- A wave with a handler at 0x2000. -/
def sTvec : State := live (withW fun v => { v with
  tvec := 0x2000, lanes := [(0, { aLane with hlow := 4096 }), (1, { aLane with hlow := 4096 })] })

theorem witness_ProgramTraps :
    Safe sTvec ∧ CanIssue sTvec c0 np1 noUses ownLane ∧ (sTvec.iss c0 np1).act ≠ [] ∧ Irrevocable sTvec c0 np1 ∧
    CanEnter (sTvec.wave 1) 0 (sTvec.iss c0 np1).s (maskOf (sTvec.iss c0 np1).act) ∧
    CanIssue sTvec c0 always noUses ownLane ∧ Irrevocable sTvec c0 always ∧
    CanEnter (sTvec.wave 1) 0 (sTvec.iss c0 always).s (sTvec.iss c0 always).mask ∧
    CanIssue s0 c0 ⟨false, 1⟩ noUses ownLane ∧ (s0.iss c0 ⟨false, 1⟩).act = [] :=
  ⟨rfl, canIssue_of (by decide), by decide, rfl, ⟨by decide, by decide, by decide, ⟨by decide, by decide⟩, rooms (by decide)⟩,
    canIssue_of (by decide), rfl, ⟨by decide, by decide, by decide, ⟨by decide, by decide⟩, rooms (by decide)⟩, canIssue_of (by decide), by decide⟩

/-- The kept values of a trap of both lanes. -/
def aTrap : TrapVals := ⟨0x03, 0x1000, 3, 0x40, 0⟩
def trapped (tvec : Pc) (d : Dev) : Dev := withW (fun v => { v with
  tvec := tvec, lanes := [(0, { aLane with hlow := 4096 }), (1, { aLane with hlow := 4096 })]
  entries := [(0, { aSplit 0x1000 3 with state := .trapped, trap := some aTrap })] }) d

theorem witness_HandlerEntry :
    let s := idle (trapped 0x2000)
    let t := idle (trapped 0)
    Safe s ∧ s.dev.sys.cur.map (·.wid) ≠ some 1 ∧ (s.wave 1).nextTrapped = some (0, aTrap) ∧
    CanEnter (s.wave 1) 0 (s.launch (s.wave 1).lid).s aTrap.mask ∧
    t.dev.sys.cur.map (·.wid) ≠ some 1 ∧ (t.wave 1).nextTrapped = some (0, aTrap) ∧
    (t.wave 1).mayEnter 0 ((t.wave 1).split 0) = true ∧ (t.wave 1).tvec = 0 ∧ (s0.wave 1).nextTrapped = none :=
  ⟨rfl, by decide, by decide, ⟨by decide, by decide, by decide, ⟨by decide, by decide⟩, rooms (by decide)⟩, by decide, by decide, by decide, by decide,
    by decide⟩

/-- A wave in a trap handler with both lanes, their frames pushed. -/
def sHandler (mask : Word) : State := live (withW fun v => { v with
  tlevel := 1, traps := [(1, aTrap)], tvec := 0x2000
  lanes := [(0, { aLane with wdepth := 1, head := ⟨0x1000, true, 0⟩, hlow := 4080, stack := [⟨false, false, 4080⟩] }),
    (1, { aLane with wdepth := 1, head := ⟨0x1000, true, 0⟩, hlow := 4080, stack := [⟨false, false, 4080⟩] })]
  entries := [(0, { aSplit 0x2010 mask with level := 1 })] })

/-- A wave in a PC-match handler with both lanes. -/
def sShadow (mask : Word) : State := live (withW fun v => { v with
  pmatch := some ⟨3, 0x1000, 3⟩, entries := [(0, { aSplit 0x3010 mask with handler := true })] })

/-- A comparator of the context at the split's PC. -/
def sMatch : State := live (withX fun c => { c with pcm := [(3, 0x1000, 0x3000)] })

theorem witness_HandlerReturns :
    CanIssue (sHandler 3) c0 always noUses ownLane ∧ ((sHandler 3).wave 1).tlevel ≠ 0 ∧
    (∀ l ∈ ((sHandler 3).iss c0 always).act, (((sHandler 3).wave 1).lane l).head.trap = true) ∧
    (∀ l ∈ ((sHandler 3).iss c0 always).act, PopsHere (sHandler 3) ((sHandler 3).wave 1) 1 ((sHandler 3).iss c0 always).s l) ∧
    (((sHandler 3).wave 1).split 0).mask = ((sHandler 3).wave 1).rttLanes (((sHandler 3).wave 1).split 0) ∧
    Passes (sHandler 3) c0 always (popCheck (sHandler 3) c0) ∧
    (∀ x ∈ ((sHandler 3).wave 1).entries, x.2.state ≠ .trapped) ∧ ((sHandler 3).wave 1).entering = none ∧
    CanIssue (sShadow 3) c0 always noUses ownLane ∧ ((sShadow 3).wave 1).pmatch = some ⟨3, 0x1000, 3⟩ ∧
    ((sShadow 3).iss c0 always).shadow = true ∧
    (((sShadow 3).wave 1).split 0).mask = ((sShadow 3).wave 1).rttLanes (((sShadow 3).wave 1).split 0) ∧
    CanIssue (sHandler 1) c0 always noUses ownLane ∧
    (((sHandler 1).wave 1).split 0).mask ≠ ((sHandler 1).wave 1).rttLanes (((sHandler 1).wave 1).split 0) ∧
    (∀ l ∈ ((sHandler 1).iss c0 always).act, (((sHandler 1).wave 1).lane l).head.trap = true) ∧
    CanIssue (sShadow 2) c0 always noUses ownLane ∧ ((sShadow 2).iss c0 always).shadow = true ∧
    (((sShadow 2).wave 1).split 0).mask ≠ ((sShadow 2).wave 1).rttLanes (((sShadow 2).wave 1).split 0) ∧
    sMatch.work.matchOf (sMatch.wave 1) ((sMatch.wave 1).split 0) = some (3, 0x3000) ∧
    (s0.work.check (s0.iss c0 always).ctx (s0.iss c0 always).core (s0.iss c0 always).pc.toNat .x).1 = .page 0 0 ∧
    0 ∉ ((s0.wave 1).split 0).denied := by
  unfold Passes
  exact ⟨canIssue_of (by decide), by decide, by decide, popsHere_of (by decide), by decide, by decide, by decide, by decide,
    canIssue_of (by decide), by decide, by decide, by decide, canIssue_of (by decide), by decide, by decide,
    canIssue_of (by decide), by decide, by decide, by decide, by decide, by decide⟩

theorem witness_SpecialRegisterReads :
    (∀ x ∈ [(Instr.csrr p0 (.v 30) 0x030, (⟨[], some (.v 30, csrRegs 0x030)⟩ : Uses)),
      (.csrr p0 (.k 31) 0x000, ⟨[], some (.k 31, csrRegs 0x000)⟩)], Ready s0 p0 x.1 x.2 ownLane) ∧
    (0x030#12).toNat ∉ slowCsrs ∧ (0x063#12).toNat ∈ slowCsrs ∧
    CanIssue s0 c0 p0 ⟨[], some (.v 1, csrRegs 0x063)⟩ ownLane :=
  ⟨all_ready (by decide), by decide, by decide, canIssue_of (by decide)⟩

theorem witness_SpecialRegisterWrites :
    CanWriteCsr s0 c0 p0 (v 31) 0x020 ∧ (s0.wave 1).longPending (s0.iss c0 p0).act = false ∧
    CanWriteCsr s0 c0 p0 (v 30) 0x030 ∧ CanWriteCsr s0 c0 p0 (v 1) 0x021 ∧ CanWriteCsr s0 c0 p0 (v 1) 0x022 ∧
    CanWriteCsr s0 c0 p0 (v 30) 0x032 ∧ CanWriteCsr s0 c0 p0 (v 1) 0x070 ∧ CanWriteCsr s0 c0 p0 (v 1) 0x063 ∧
    CanWriteCsr s0 c0 p0 (v 30) 0x071 ∧ CanWriteCsr s0 c0 p0 (v 1) 0x072 ∧ (s0.iss c0 p0).act.head? = some 0 ∧
    (0x036#12).toNat ∉ writable ∧ CanWriteCsr s0 c0 p0 (v 1) 0x036 ∧
    CanWriteCsr s0 c0 ⟨false, 1⟩ (v 1) 0x022 ∧ (s0.iss c0 ⟨false, 1⟩).act = [] :=
  ⟨⟨canIssue_of (by decide), rfl⟩, by decide, ⟨canIssue_of (by decide), rfl⟩, ⟨canIssue_of (by decide), rfl⟩,
    ⟨canIssue_of (by decide), rfl⟩, ⟨canIssue_of (by decide), rfl⟩, ⟨canIssue_of (by decide), rfl⟩,
    ⟨canIssue_of (by decide), rfl⟩, ⟨canIssue_of (by decide), rfl⟩, ⟨canIssue_of (by decide), rfl⟩, by decide, by decide,
    ⟨canIssue_of (by decide), rfl⟩, ⟨canIssue_of (by decide), rfl⟩, by decide⟩

/-- A load that lane 1 has begun, a division of lane 0, and a slow special register whose data is bad. -/
def sOuts : State := idle (withW fun v => { v with
  outs := [(5, ⟨.load, 1, 0xFF8, [(0, 1024)], [7], none, 0, 0, none, none⟩), (6, ⟨.long, 0, 0xFF8, [(0, 3)], [1], none, 32, 0, none, none⟩),
    (7, ⟨.csr, 0, 0xFF8, [(1, 4), (1, 5)], [1, 2], some (0x80, 0), 0, 0, none, none⟩)]
  vstat := [(3, .empty 0xFF8 1), (1024, .empty 0xFF8 1)], kstat := [(4, .empty 0xFF8 1), (5, .empty 0xFF8 1)] })

theorem witness_ProducersComplete :
    (mget? (sOuts.wave 1).outs 5).map (·.kind) = some .load ∧ (mget? (sOuts.wave 1).outs 6).map (·.kind) = some .long ∧
    (mget? (sOuts.wave 1).outs 7).map (·.kind) = some .csr ∧ (∃ o, mget? (sOuts.wave 1).outs 5 = some o ∧ completes sOuts (.loadDataReturn 1 5) 1 5 o) ∧
    (∃ o, mget? (sOuts.wave 1).outs 6 = some o ∧ completes sOuts (.longOpComplete 1 6) 1 6 o) ∧
    (∃ o, mget? (sOuts.wave 1).outs 7 = some o ∧ completes sOuts (.slowCsrReturn 1 7) 1 7 o) ∧
    (∀ o, mget? (sOuts.wave 1).outs 8 = some o → o.kind ≠ .load) :=
  ⟨by decide, by decide, by decide, ⟨_, rfl, .inl ⟨rfl, by decide, by decide⟩⟩, ⟨_, rfl, .inr (.inl ⟨rfl, rfl⟩)⟩,
    ⟨_, rfl, .inr (.inr ⟨rfl, rfl⟩)⟩, fun _ h => by cases h⟩

theorem witness_PairBundles :
    let x : Half := .rr .fadd (.v 2) (.k 31)
    let y : Half := .shfl (.v 3) 4 31
    StackOk s0 c0 always ∧ CanIssue s0 c0 always ⟨halfUses x 3 ++ halfUses y 11, none⟩ (pairLane x y) :=
  ⟨⟨by decide, by decide⟩, canIssue_of (by decide)⟩

/-! ### Witnesses: memory -/

/-- Context 1 with VA 0 to 2²⁶ mapped at PA 2²⁶ by a leaf of level 2 (tables at 0x8000, 0x1000 and 0x2000), and with the
whole HBM open to its accesses. -/
def mappedWith (f : Dev → Dev) : State :=
  { live fun d => f { d with
      ctxs := [(1, { Context.blank with rec_ := { CtxRec.blank with root := 0x8000, chipw := 4096, q := 2 ^ 40 } })]
      hub := { d.hub with
        access := (List.range 27).map fun t => (88 * t + 1, 0xC007#16)
        frames := [⟨0, 2048, 0x81⟩] } } with
    mem := [(8 * 0x1000, 0x01), (8 * 0x1001, 0x20), (8 * 0x2000, 0x3F), (8 * 0x2003, 0x04), (8 * 0x8000, 0x01),
      (8 * 0x8001, 0x10)] }
def mapped : State := mappedWith id

def inSpace (s : State) (g : Guard) (sp : Space) (a : Src) (off : BitVec 16) (n : Nat) : Bool :=
  sp != .g && ((s.iss c0 g).act.all fun l => ((s.wave 1).lane l).alive && eaOf s c0 g a off l % n == 0 &&
    decide (eaOf s c0 g a off l + n ≤ s.work.spaceSize (s.iss c0 g) sp l)) &&
    (s.work.anySpeculative 1 (s.iss c0 g).act).isEmpty

theorem inSpace_of {s : State} {g : Guard} {sp : Space} {a : Src} {off : BitVec 16} {n : Nat}
    (h : inSpace s g sp a off n = true) : InSpace s c0 g sp a off n := by
  simp only [inSpace, Bool.and_eq_true, bne_iff_ne, List.all_eq_true, beq_iff_eq, decide_eq_true_eq,
    List.isEmpty_iff] at h
  exact ⟨h.1.1, fun l hl => ⟨(h.1.2 l hl).1.1, (h.1.2 l hl).1.2, (h.1.2 l hl).2⟩, fun _ => h.2⟩

/-- A launch with 64 scratchpad bytes a block, 32 bytes of cluster memory and 4 KiB a lane. -/
def spaced (f : Wave → Wave) : State := mappedWith fun d => withL (fun l => { l with beta := 64, lend := 32 })
  (withW (fun v => f { v with lanes := [(0, { aLane with hlow := 4096 }), (1, { aLane with hlow := 4096 })] }) d)
def oneLane (v : Wave) : Wave := { v with entries := [(0, aSplit 0x1000 1)] }

-- the last access of each space, and the last byte
theorem witness_LoadsAndStoresInSpaces :
    CanIssue (spaced id) c0 p0 ⟨[useOf (v 0) 1 0], some (.v 28, Width.b128.regs)⟩ ownLane ∧
    InSpace (spaced id) c0 p0 .c (v 0) 48 (widthBytes .b128) ∧ InSpace (spaced id) c0 p0 .h (v 0) 4080 (widthBytes .b128) ∧
    InSpace (spaced id) c0 p0 .l (v 0) 4095 (widthBytes .u8) ∧
    Safe (spaced id) ∧ CanIssue (spaced id) c0 p0 ⟨[useOf (v 0) 1 0, useOf (v 30) Width.b64.regs 1], none⟩ ownLane ∧
    InSpace (spaced id) c0 p0 .l (v 0) 4088 (widthBytes .b64) ∧ InSpace (spaced id) c0 p0 .c (v 0) 56 (widthBytes .b64) :=
  ⟨canIssue_of (by decide), inSpace_of (by decide), inSpace_of (by decide), inSpace_of (by decide), rfl,
    canIssue_of (by decide), inSpace_of (by decide), inSpace_of (by decide)⟩

theorem witness_MemoryAccesses :
    CanIssue mapped c0 p0 ⟨[addrUse (v 30) .g], some (.v 0, Width.b32.regs)⟩ ownLane ∧
    GoesAhead c0 (mapped.iss c0 p0) .g false false (aimsOf mapped c0 p0 (aimOf mapped c0 p0 .g .r 4 (v 30) 0x100)) ∧
    CanIssue mapped c0 p0 ⟨[addrUse (v 30) .g, useOf (v 3) Width.b32.regs 1], none⟩ ownLane ∧
    GoesAhead c0 (mapped.iss c0 p0) .g false true (aimsOf mapped c0 p0 (aimOf mapped c0 p0 .g .w 4 (v 30) 0x7FFC)) ∧
    (let r := aimsOf mapped c0 p0 fun w l =>
        let x := aimOf mapped c0 p0 .g .r 4 (v 30) 0x100 w l;
        (x.2.plainLine x.1, x.2);
      (∀ x ∈ r.1, x.1 = .ok) ∧
      r.2.anySpeculative 1 (((r.1.map (·.2)).filter (r.2.irrevocable .g false)).map (·.lane)) = []) ∧
    (let r := (mapped.work.stamp c0).aims [0, 1] (aimOf mapped c0 p0 .g .w 4 (v 30) 0x100);
      GoesAhead c0 (mapped.iss c0 p0) .g false false r ∧ ∀ x ∈ r.1, r.2.pastWriteSet (mapped.iss c0 p0) x.2 = false) ∧
    GoesAhead c0 (mapped.iss c0 p0) .g false false ((mapped.work.stamp c0).aims [0, 1] (aimOf mapped c0 p0 .g .r 4 (v 30) 0x100)) ∧
    ((mapped.iss c0 p0).act.filter fun l => !(mapped.wave 1).cbBit 3 l) = [0, 1] :=
  ⟨canIssue_of (by decide), ⟨by decide, fun _ => by decide, by decide, fun h => by cases h⟩, canIssue_of (by decide),
    ⟨by decide, fun _ => by decide, by decide, fun _ => by decide⟩, ⟨by decide, by decide⟩,
    ⟨⟨by decide, fun _ => by decide, by decide, fun h => by cases h⟩, by decide⟩,
    ⟨by decide, fun _ => by decide, by decide, fun h => by cases h⟩, by decide⟩

theorem witness_GlobalStores :
    Safe mapped ∧ CanIssue mapped c0 p0 ⟨[addrUse (v 30) .g, useOf (v 3) Width.b32.regs 1], none⟩ ownLane ∧
    GoesAhead c0 (mapped.iss c0 p0) .g false true (aimsOf mapped c0 p0 (aimOf mapped c0 p0 .g .w 4 (v 30) 0x7FFC)) ∧
    (∀ l ∈ (mapped.iss c0 p0).act, ((mapped.wave 1).lane l).alive = true ∧ ((mapped.wave 1).lane l).ordered = none) ∧
    (∀ x ∈ mapped.dev.ctxs, x.2.tasks.deps = []) ∧
    -- a stored byte that is no leaf's, and a leaf's byte to which nothing is stored
    let r := aimsOf mapped c0 p0 (aimOf mapped c0 p0 .g .w 4 (v 30) 0x7FFC);
    (∀ x ∈ r.1, x.2.phys.map (·.at_) = some 0x2000 ∧ storesTo mapped 4 (8 * 0x4007FFF) x.2 = true) ∧
      ∀ x ∈ r.1, storesTo mapped 4 (8 * 0x2000) x.2 = false :=
  ⟨rfl, canIssue_of (by decide), ⟨by decide, fun _ => by decide, by decide, fun _ => by decide⟩, by decide, by decide,
    by decide, by decide⟩

/-- PCMBASE at a place that can be read, and at one that cannot. -/
theorem witness_ComparatorLoads :
    CanWriteCsr mapped c0 p0 (v 30) 0x071 ∧ (mapped.iss c0 p0).act.head? = some 0 ∧
    (((mapped.work.stamp c0).modCtx 1 fun y => { y with pcmbase := 0 }).headRead 1 0 256).toOption.isSome = true ∧
    CanWriteCsr s0 c0 p0 (v 1) 0x072 ∧ (s0.iss c0 p0).act.head? = some 0 ∧
    (((s0.work.stamp c0).modCtx 1 fun y => { y with pcmen := 0 }).headRead 1 0 256).toOption.isSome = false :=
  ⟨⟨canIssue_of (by decide), rfl⟩, by decide, by decide, ⟨canIssue_of (by decide), rfl⟩, by decide, by decide⟩

theorem witness_Atomics :
    Safe (spaced oneLane) ∧ Acked mapped c0 p0 ∧
    CanIssue (spaced oneLane) c0 p0 ⟨atomUses (v 0) (v 2) (some (v 4)) true .c, some (.v 6, 2)⟩ ownLane ∧
    ((spaced oneLane).iss c0 p0).act = [0] ∧ InSpace (spaced oneLane) c0 p0 .c (v 0) 0 8 ∧
    CanIssue (spaced oneLane) c0 p0 ⟨atomUses (v 0) (v 2) none false .h, none⟩ ownLane ∧
    InSpace (spaced oneLane) c0 p0 .h (v 0) 0 4 ∧
    CanIssue mapped c0 p0 ⟨atomUses (v 30) (v 2) none false .g, none⟩ ownLane ∧
    GoesAhead c0 (mapped.iss c0 p0) .g true true (aimsOf mapped c0 p0 (aimAtom mapped c0 p0 .add false .g (v 30))) ∧
    CanIssue mapped c0 p0 ⟨atomUses (v 30) (v 2) (some (v 4)) true .g, some (.v 6, 2)⟩ ownLane ∧
    GoesAhead c0 (mapped.iss c0 p0) .g true true (aimsOf mapped c0 p0 (aimAtom mapped c0 p0 .cas true .g (v 30))) :=
  ⟨rfl, by unfold Acked; decide, canIssue_of (by decide), by decide, inSpace_of (by decide), canIssue_of (by decide),
    inSpace_of (by decide), canIssue_of (by decide), ⟨by decide, fun _ => by decide, by decide, fun _ => by decide⟩, canIssue_of (by decide),
    ⟨by decide, fun _ => by decide, by decide, fun _ => by decide⟩⟩

theorem witness_FencesAndPrefetch :
    CanIssue s0 c0 p0 ⟨[], none⟩ ownLane ∧ Acked s0 c0 p0 ∧ Irrevocable s0 c0 p0 ∧
    CanIssue s0 c0 p0 ⟨[addrUse (v 30) .g], none⟩ ownLane :=
  ⟨canIssue_of (by decide), by unfold Acked; decide, rfl, canIssue_of (by decide)⟩

theorem witness_Colours :
    (Instr.clrget p0 (.v 0) (v 30) 0x7F).wf = true ∧ StackOk mapped c0 p0 ∧
    CanIssue mapped c0 p0 ⟨[addrUse (v 30) .g], some (.v 0, 1)⟩ ownLane ∧
    (∀ x ∈ (aimsOf mapped c0 p0 (aimClrget mapped c0 p0 (v 30) 0x7F)).1, x.1 = .ok) ∧
    Ready s0 p0 (.monq p0 (.v 0) (v 1)) ⟨[useOf (v 1) 1 0], some (.v 0, 1)⟩ ownLane ∧
    CanIssue mapped c0 p0 ⟨[useOf (v 30) 2 0, useOf (v 1) 1 1, useOf (v 2) 1 2], none⟩ ownLane ∧ Irrevocable mapped c0 p0 ∧
    (∀ x ∈ (aimsClrset mapped c0 p0 (v 30) (v 1) (v 2)).1, x.1 = .ok) ∧
    ∀ x ∈ (aimsClrset mapped c0 p0 (v 30) (v 1) (v 2)).2.clrClassify (mapped.iss c0 p0)
      ((aimsClrset mapped c0 p0 (v 30) (v 1) (v 2)).1.map (·.2)), x.waits = none ∧ x.enters = [] ∧ x.out = .ok :=
  ⟨by decide, ⟨by decide, by decide⟩, canIssue_of (by decide), by decide, ready_of (by decide), canIssue_of (by decide), rfl,
    by decide, by decide⟩

/-- A context with one live allocation. -/
def sAlloc : State := live (withX fun c => { c with mem := { c.mem with allocs := [⟨0, 4, [some 1]⟩] } })

theorem witness_Allocation :
    CanIssue mapped c0 p0 ⟨[useOf (v 1) 1 0], some (.v 30, 2)⟩ ownLane ∧ Irrevocable mapped c0 p0 ∧
    ((mapped.work.stamp c0).allocLanes (mapped.iss c0 p0).ctx (pageLevel .m64)
      (fun l => ((mapped.wave 1).val (mapped.iss c0 p0) (.v 1) l).toNat) (mapped.iss c0 p0).act).1.isSome = true ∧
    Ready mapped p0 (.alloc p0 (.v 30) (v 1) .m64) ⟨[useOf (v 1) 1 0], some (.v 30, 2)⟩ ownLane ∧
    (∀ l ∈ (mapped.iss c0 p0).act, ((mapped.wave 1).val (mapped.iss c0 p0) (.v 1) l).toNat = 0) ∧
    CanIssue sAlloc c0 p0 ⟨[useOf (v 30) 2 0], none⟩ ownLane ∧ Irrevocable sAlloc c0 p0 ∧
    ∀ l ∈ (sAlloc.iss c0 p0).act, ∃ x ∈ (sAlloc.ctx (sAlloc.iss c0 p0).ctx).mem.allocs,
      x.va = ((sAlloc.wave 1).val64 (sAlloc.iss c0 p0) (.v 30) l).toNat :=
  ⟨canIssue_of (by decide), rfl, by decide, ready_of (by decide), by decide, canIssue_of (by decide), rfl, by decide⟩


/-! ### Witnesses: waits, ends, shapes and engines -/

/-- A part whose block has barrier 15 as `b`. -/
def sBar (b : Barrier) : State := live (withB fun x => { x with bars := [(15, b)] })
/-- A barrier of wave 0 that waits for `n` arrivals. -/
def aBar (n : Nat) : Barrier := { Barrier.blank with members := 1, expected := n, init := true }

def barReady (s : State) (d : Reg) (w : Bool) : Bool := ready s p0 (.bara p0 d 15 w) ⟨[], some (d, 1)⟩ ownLane

theorem witness_Barriers :
    let t := sBar { aBar 2 with wavesIn := 1, arrived := 1 }
    CanIssue s0 c0 p0 ⟨bariUses (.imm 0xFFFF 255), none⟩ ownLane ∧ (s0.iss c0 p0).act.head? = some 0 ∧
    (barOf s0 c0 p0 15).arrived = 0 ∧ (barOf s0 c0 p0 15).pend = 0 ∧
    popcount ((bariArgs s0 c0 p0 (.imm 0xFFFF 255) 0).1 &&& s0.work.livingWaves (s0.iss c0 p0).bid) +
      (bariArgs s0 c0 p0 (.imm 0xFFFF 255) 0).2 ≠ 0 ∧
    Ready (sBar (aBar 2)) p0 (.bara p0 (.v 0) 15 false) ⟨[], some (.v 0, 1)⟩ ownLane ∧
    mayArrive (sBar (aBar 2)) c0 p0 15 ∧ ((sBar (aBar 2)).iss c0 p0).act ≠ [] ∧
    (barOf (sBar (aBar 2)) c0 p0 15).wavesIn &&& waveBit (sBar (aBar 2)) c0 = 0 ∧
    (barOf (sBar (aBar 2)) c0 p0 15).arrived + 1 ≠ (barOf (sBar (aBar 2)) c0 p0 15).expected ∧
    Ready t p0 (.bara p0 (.v 31) 15 false) ⟨[], some (.v 31, 1)⟩ ownLane ∧ mayArrive t c0 p0 15 ∧
    (barOf t c0 p0 15).wavesIn &&& waveBit t c0 ≠ 0 ∧
    Ready (sBar (aBar 1)) p0 (.bara p0 (.v 0) 15 false) ⟨[], some (.v 0, 1)⟩ ownLane ∧
    Ready (sBar (aBar 1)) p0 (.bara p0 (.k 31) 15 true) ⟨[], some (.k 31, 1)⟩ ownLane ∧ LastArrival (sBar (aBar 1)) c0 p0 15 := by
  have last : LastArrival (sBar (aBar 1)) c0 p0 15 :=
    ⟨by unfold mayArrive; decide, by decide, by decide, by decide, by decide, by decide⟩
  unfold mayArrive
  exact ⟨canIssue_of (by decide), by decide, by decide, by decide, by decide, ready_of (by decide), by decide, by decide,
    by decide, by decide, ready_of (by decide), by decide, by decide, ready_of (by decide), ready_of (by decide), last⟩

theorem witness_BarrierQueries :
    ∀ x ∈ [(Instr.barq p0 (.v 31) 15, (⟨[], some (.v 31, 1)⟩ : Uses)), (.barq np1 (.k 0) 0, ⟨[], some (.k 0, 1)⟩)],
      Ready s0 p0 x.1 x.2 ownLane :=
  all_ready (by decide)

/-- A wave with a descriptor of tag 3 in k0: met while no copy of the tag is in flight. -/
def sWait (q : List CpaOp) : State := live (withW fun x => { x with kregs := [(0, 0x107F)], cpas := q })

/-- The wait of a parked split of both lanes. -/
def aWaitRec (t : BitVec 64) : WaitRec := ⟨false, [(0, .tag 3 0)], 0, true, some t, .v 0, 3, 0, false⟩
def parked (q : List CpaOp) (t : BitVec 64) : State := idle (withW fun x => { x with
  cpas := q, entries := [(0, { aSplit 0x1000 3 with state := .parked, reason := .wait, wait := some (aWaitRec t) })] })
def aParked (t : BitVec 64) : Split :=
  { aSplit 0x1000 3 with state := .parked, reason := .wait, wait := some (aWaitRec t) }
def sBusyTag : List CpaOp := [⟨3, [⟨0, 3, [], none, 0, none⟩]⟩]

theorem parked_wait {q : List CpaOp} {t : BitVec 64} (h : ((parked q t).wave 1).splitOf 1 = some (aParked t) ∧
    ((parked q t).wave 1).splits.filter (fun x => x.wait.isSome) = [aParked t] ∧
    (parked q t).work.badTag 1 (aWaitRec t) = none) : ParkedWait (parked q t) 1 1 (aParked t) (aWaitRec t) :=
  ⟨fun x => (by cases x), ⟨rfl, rfl⟩, fun o x => (by cases x), ⟨h.1, rfl⟩, h.2.1, h.2.2, (by decide : 64 ≤ 64 ∧ 64 ≤ 1024)⟩

theorem witness_Waits :
    let ds : List Desc := [.tag 3 31, .none, .none, .none]
    (∀ q ∈ [[], sBusyTag],
      CanIssue (sWait q) c0 p0 (waitUses ((sWait q).wave 1) ((sWait q).iss c0 p0) (.v 0) ⟨0, false⟩ ⟨31, false⟩ ⟨31, false⟩)
        ownLane ∧
      ((sWait q).iss c0 p0).act.head? = some 0 ∧
      descsOf (((sWait q).wave 1).kWord ((sWait q).iss c0 p0) 0) (((sWait q).wave 1).kWord ((sWait q).iss c0 p0) 31) =
        .ok ds ∧ ds.any Desc.irrevocable = false ∧
      (∀ x ∈ (condsOf (sWait q) c0 p0 ds 0).1, x.1 = true ∧ x.2.1 = .ok) ∧
      let r := waitOf (sWait q) c0 p0 (.v 0) ⟨31, false⟩ true (condsOf (sWait q) c0 p0 ds 0).1
      ((condsOf (sWait q) c0 p0 ds 0).2.waitReads 1 r).badTags 1 r = []) ∧
    -- a wait that its deadline ends, one that a condition ends, and one that goes on
    ParkedWait (parked sBusyTag 0) 1 1 (aParked 0) (aWaitRec 0) ∧
    ((parked sBusyTag 0).dev.sys.gtick - 0).toNat < 2 ^ 63 ∧ ParkedWait (parked [] 1) 1 1 (aParked 1) (aWaitRec 1) ∧
    ¬ ((parked [] 1).dev.sys.gtick - 1).toNat < 2 ^ 63 ∧ (aWaitRec 1).bara = false ∧
    ((parked [] 1).work.latch 1 (aWaitRec 1)).done = true ∧
    ParkedWait (parked sBusyTag 1) 1 1 (aParked 1) (aWaitRec 1) ∧
    ((parked sBusyTag 1).work.latch 1 (aWaitRec 1)).done = false := by
  refine ⟨?_, parked_wait (by decide), by decide, parked_wait (by decide), by decide, by decide, by decide,
    parked_wait (by decide), by decide⟩
  intro q hq
  rcases List.mem_cons.1 hq with rfl | hq
  · exact ⟨canIssue_of (by decide), by decide, rfl, by decide, by decide, by decide⟩
  · rcases List.mem_singleton.1 hq with rfl
    exact ⟨canIssue_of (by decide), by decide, rfl, by decide, by decide, by decide⟩

theorem witness_LanesAndWavesEnd :
    let t := idle (withW fun x => { x with lanes := [], entries := [] })
    CanIssue s0 c0 p0 ⟨[], none⟩ ownLane ∧ s0.work.finHeld 1 (s0.iss c0 p0).act = [] ∧
    (∃ x, mget? t.dev.waves 1 = some x ∧ x.living = [] ∧ x.outs = [] ∧ x.cpas = []) ∧
    (∀ x, mget? s0.dev.waves 1 = some x → x.living ≠ [] ∨ x.outs ≠ [] ∨ x.cpas ≠ []) ∧ mget? s0.dev.waves 2 = none :=
  ⟨canIssue_of (by decide), by decide, ⟨_, rfl, by decide, by decide, by decide⟩,
    fun _ h => by cases h; exact .inl (by decide), by decide⟩

/-- 64 scratchpad bytes of a slot ring at 0 of one slot of 128 bytes (R229). -/
def aShape : BitVec 512 := 1#24 ++ 1#8 ++ 1#12 ++ 0#20 ++ 0#448

theorem witness_Shapes :
    CanIssue (spaced id) c0 p0 ⟨[addrUse (v 0) .c], none⟩ ownLane ∧ ShapeSlot (spaced id) c0 p0 (v 0) 0 0 ∧
    (spaced id).work.badData (PAddr.scratch ((spaced id).iss c0 p0).bid (eaOf (spaced id) c0 p0 (v 0) 0 0)).key 64 = false ∧
    Safe (spaced id) ∧ CanIssue mapped c0 p0 ⟨[addrUse (v 30) .g], none⟩ ownLane ∧ (mapped.iss c0 p0).act.head? = some 0 ∧
    Irrevocable mapped c0 p0 ∧
    (let x := shapeAim mapped c0 p0 .r (v 30) 0x7FC0 0;
      x.1.1 = .ok ∧ x.1.2.phys.isSome = true ∧ x.2.badData x.1.2.key 64 = false) ∧
    (let x := shapeAim mapped c0 p0 .w (v 30) 0x7FC0 0; x.1.1 = .ok ∧ x.1.2.phys.isSome = true) ∧
    CanIssue s0 c0 p0 ⟨[useOf (v 30) (ShField.regs .base) 0], none⟩ ownLane ∧
    (shSetField (shapeOf s0 c0 p0 15) .base (shArg s0 c0 p0 .base (v 30) 0)).isSome = true ∧
    (shSetField 0 .slots 255).isSome = true ∧ (shSetField 0 .slots 256).isSome = false ∧
    (shSetField 0 .slotb 524160).isSome = true ∧ (shSetField 0 .rank 4).isSome = true ∧
    (shSetField 0 .rank 0).isSome = false ∧ shapeSlots (shapeOf s0 c0 p0 15) = 0 ∧
    Ready s0 p0 (.shget p0 (.v 30) 15 (.str 3)) ⟨[], some (.v 30, ShField.regs (.str 3))⟩ ownLane :=
  ⟨canIssue_of (by decide), ⟨by decide, by decide, by decide⟩, by decide, rfl, canIssue_of (by decide), by decide, rfl,
    ⟨by decide, by decide, by decide⟩, ⟨by decide, by decide⟩, canIssue_of (by decide), by decide, by decide, by decide,
    by decide, by decide, by decide, by decide +kernel, ready_of (by decide)⟩

/-- A shape of rank 1: `n` elements of format 0 at `base`, one box, a ring of two slots of 128 bytes at 0 (R229). -/
def aTensor (base n : Nat) : BitVec 512 :=
  BitVec.ofNat 64 (2 * 2 ^ 32 + 2 ^ 20) ++ 0#192 ++ BitVec.ofNat 64 (n * 2 ^ 48) ++ 0#64 ++ BitVec.ofNat 64 n ++
    BitVec.ofNat 64 base

/-- The mapped part with 4 KiB of scratchpad a block, a tensor of two elements in sh15, and what `f` changes of the core. -/
def engined (r : BitVec 512) (f : Core → Core) : State := mappedWith fun d => withL (fun l => { l with beta := 4096 })
  (withB (fun b => { b with sh := [(15, r)] }) (withC f d))

theorem witness_Copies :
    let s := mappedWith fun d => withL (fun l => { l with beta := 64 }) (withW (fun x => { x with vregs := [(2, 0x7FE0)] })
      (withW oneLane d))
    let x : CpaLane := ⟨0, 3, List.replicate 32 0, none, 0, none⟩
    let t := idle (withW fun y => { y with cpas := [⟨3, [x]⟩] })
    CanIssue s c0 p0 ⟨cpaUses (v 0) (v 2) none, none⟩ ownLane ∧ Irrevocable s c0 p0 ∧ neverGuard p0 = false ∧
    (s.wave 1).tagCount 3 ≠ 63 ∧ (∀ x ∈ (cpaAims s c0 p0 (v 0) (v 2) none 32).1, x.1 = .ok) ∧
    CanIssue s c0 ⟨true, 0⟩ ⟨cpaUses (v 0) (v 2) none, none⟩ ownLane ∧ neverGuard ⟨true, 0⟩ = true ∧
    Safe t ∧ (t.wave 1).cpas = [⟨3, [x]⟩] ∧ x.bad = none ∧ x.bytes.length = 32 ∧ t.work.viaHeld x.via = false ∧
    ∀ o ∈ (t.wave 1).cpas, o.tag = 0 → o.lanes = [] :=
  ⟨canIssue_of (by decide), rfl, by decide, by decide, by decide, canIssue_of (by decide), by decide, rfl, by decide, rfl,
    by decide, by decide, by decide⟩

/-- A load and a store of a tensor, a transfer of each. -/
def aTransfer (st : Bool) (base : Nat) : Transfer := ⟨15, 1, aTensor base 2, st, 1, [0], none, none, 0⟩

theorem witness_BlockCopies :
    let s := engined (aTensor 0 2) id
    (∀ x ∈ [((0, 0) : BitVec 4 × BitVec 4), (15, 15)],
      CanIssue s c0 p0 ⟨futUse none 1, none⟩ ownLane ∧ Irrevocable s c0 p0 ∧ (s.iss c0 p0).act.head? = some 0 ∧
      s.work.shapeCheck (s.iss c0 p0) 0 (bcopyOf s c0 p0 false 15 x.1 none none).shape false = .ok ∧
      s.work.engineNames (s.iss c0 p0) 0 none none = .ok ∧
      (bcopyOf s c0 p0 false 15 x.1 none none).count = x.1.toNat + 1 ∧
      BitVec.toNat x.2 ∉ (bcopyOf s c0 p0 false 15 x.1 none none).slices) ∧
    (∀ st, (engined 0 fun c => { c with xfers := [aTransfer st 0] }).work.enginesRun 0 = true ∧
      ((engined 0 fun c => { c with xfers := [aTransfer st 0] }).core 0).transferFree = true ∧
      ((engined 0 fun c => { c with xfers := [aTransfer st 0] }).work.moveTransfer 0 (aTransfer st 0)).1.2 = .all ∧
      (aTransfer st 0).done ≤ shElems (aTransfer st 0).shape) ∧
    (s.core 0).xfers = [] ∧ s.work.enginesRun 1 = false ∧
    -- a store stops at the first byte of scratchpad whose data is uncorrectable
    (let b := engined 0 fun c => { c with xfers := [aTransfer true 0] };
      let t : State := { b with dev := { b.dev with bad := [(PAddr.scratch 1 0).key] } };
      t.work.enginesRun 0 = true ∧ (t.core 0).transferFree = true ∧ (t.work.moveTransfer 0 (aTransfer true 0)).1.2 = .stop Cause.dataerr 0) := by
  refine ⟨?_, ?_, by decide, by decide, ⟨by decide, by decide, by decide +kernel⟩⟩
  · intro x hx
    rcases List.mem_cons.1 hx with rfl | hx
    · exact ⟨canIssue_of (by decide), rfl, by decide, by decide +kernel, by decide, by decide, by decide⟩
    · rcases List.mem_singleton.1 hx with rfl
      exact ⟨canIssue_of (by decide), rfl, by decide, by decide +kernel, by decide, by decide, by decide⟩
  · intro st
    cases st <;> exact ⟨by decide, by decide, by decide +kernel, by decide +kernel⟩

/-- Two blocks of the launch in roles 0 and 1, the first with credits. -/
def sRoles (f : Core → Core) : State := live fun d => { withL (fun l => { l with beta := 65536 })
  (withW (fun x => { x with vregs := [(1, 65536)] }) (withC f d)) with
    blocks := [(1, { aBlock with free := [(1, 1)] }), (2, { aBlock with idx := 1, core := some 1, lcore := 1 })] }

theorem witness_Multicast :
    let s := sRoles id
    let m : Mcast := ⟨1, [2], 2 ^ 20 - 16, List.replicate 16 7, none, none⟩
    let t := sRoles fun c => { c with mcasts := [m] }
    CanIssue s c0 p0 ⟨[useOf (v 0) 1 0, useOf (v 1) 1 1], none⟩ ownLane ∧ Irrevocable s c0 p0 ∧
    (s.iss c0 p0).act.head? = some 0 ∧ mcastArgs s c0 p0 (v 0) (v 1) 0 = (0, 65536) ∧
    (2#8).getLsbD (roleHere s c0 p0) = false ∧ 0 + 65536 ≤ (s.launch (s.iss c0 p0).lid).beta ∧
    (∀ q ∈ rolesIn (2#8), (s.work.roleBlock (s.iss c0 p0).bid q).isSome = true ∧
      mget (s.block (s.iss c0 p0).bid).free q 0 ≠ 0) ∧
    Safe t ∧ (t.core 0).mcasts = [m] ∧ t.work.enginesRun 0 = true ∧ m.bad = none ∧
    (∀ r ∈ m.receivers, (mget? t.dev.blocks r).isSome = true ∧ m.off + m.bytes.length ≤ 2 ^ 20) ∧
    (s.core 0).mcasts = [] ∧ s.work.roleBlock (s.iss c0 p0).bid (1#3).toNat = some 2 :=
  ⟨canIssue_of (by decide), rfl, by decide, by decide, by decide, by decide, by decide, rfl, by decide, by decide, rfl,
    by decide, by decide, by decide⟩

/-- A channel that runs for block 1. -/
def aChan (st : Bool) (f q : Nat) : Channel := ⟨some 1, aTensor 0 2, st, 2, f, q, .run, none, none⟩

theorem witness_Channels :
    let s := engined (aTensor 0 2) id
    let t := engined 0 fun c => { c with chans := [(3, aChan false 1 0)] }
    let e := engined 0 fun c => { c with chans := [(3, { aChan false 1 0 with state := .err })] }
    CanIssue s c0 p0 ⟨futUse none 1, none⟩ ownLane ∧ Irrevocable s c0 p0 ∧ (s.iss c0 p0).act.head? = some 0 ∧
    s.work.shapeCheck (s.iss c0 p0) 0 (shapeOf s c0 p0 15) true = .ok ∧ s.work.engineNames (s.iss c0 p0) 0 none none = .ok ∧
    (chanOf s c0 p0 3).state = .idle ∧ BlockIdle s (s.iss c0 p0).bid ∧
    CanIssue t c0 p0 ⟨[], none⟩ ownLane ∧ (t.iss c0 p0).act ≠ [] ∧ (chanOf t c0 p0 3).owner = some (t.iss c0 p0).bid ∧
    (chanOf t c0 p0 3).state = .run ∧ (chanOf t c0 p0 3).ready (shapeSlots (chanOf t c0 p0 3).shape) ≠ 0 ∧
    CanIssue e c0 p0 ⟨[], none⟩ ownLane ∧ (chanOf e c0 p0 3).owner = some (e.iss c0 p0).bid ∧
    (chanOf e c0 p0 3).state = .err ∧ Ready t p0 (.strmq p0 (.v 31) 3) ⟨[], some (.v 31, 1)⟩ ownLane ∧
    (∀ x ∈ [aChan false 0 0, aChan true 0 1],
      (engined 0 fun c => { c with chans := [(3, x)] }).work.enginesRun 0 = true ∧ x.mayMove = true ∧
      ((engined 0 fun c => { c with chans := [(3, x)] }).work.moveTile 0 3 x).1.2 = .all ∧ x.f + 1 ≠ x.n) ∧
    (aChan true 0 0).mayMove = false := by
  unfold BlockIdle
  refine ⟨canIssue_of (by decide), rfl, by decide, by decide +kernel, by decide, by decide, by decide, canIssue_of (by decide), by decide,
    by decide, by decide, by decide +kernel, canIssue_of (by decide), by decide, by decide, ready_of (by decide), ?_,
    by decide +kernel⟩
  intro x hx
  rcases List.mem_cons.1 hx with rfl | hx
  · exact ⟨by decide, by decide +kernel, by decide +kernel, by decide⟩
  · rcases List.mem_singleton.1 hx with rfl
    exact ⟨by decide, by decide +kernel, by decide +kernel, by decide⟩

/-- The mapped part with the future's word at VA 0 in state `st`, and registrations of the context. -/
def futured (st : Byte) (rs : List Registration) : State :=
  let s := mappedWith fun d => withW oneLane { d with
    ctxs := d.ctxs.map fun x => (x.1, { x.2 with tasks := { x.2.tasks with regs := rs } }) }
  { s with mem := s.mem ++ [(8 * (2 ^ 26 + 7), st)] }

theorem witness_Futures :
    let s := mapped
    let one := mappedWith (withW oneLane)
    let full := futured 0x80 []
    let key := 8 * 2 ^ 26
    let t := futured 0x40 [⟨key, 2 ^ 48 - 1, 3⟩]
    let r := futured 0x80 [⟨key, 5, 3⟩]
    CanIssue s c0 p0 ⟨[useOf (v 30) 2 0], none⟩ ownLane ∧ Irrevocable s c0 p0 ∧
    (∀ x ∈ (futAims s c0 p0 .rw (v 30) 0x10).1, x.1 = .ok) ∧
    ((futAims s c0 p0 .rw (v 30) 0x10).2.newFutures (s.iss c0 p0) ((futAims s c0 p0 .rw (v 30) 0x10).1.map (·.2))).1 = none ∧
    Safe one ∧ CanIssue one c0 p0 ⟨[useOf (v 30) 2 0], none⟩ ownLane ∧ Irrevocable one c0 p0 ∧
    (∃ x p, (futAims one c0 p0 .rw (v 30) 0).1 = [(.ok, x)] ∧ x.phys = some p ∧ futStateAt one p.key = 0 ∧ NoDeps one ∧
      ∀ i < 16, p.key + 8 * i ≠ (PAddr.hbm p.at_).key) ∧
    CanIssue one c0 p0 ⟨[useOf (v 30) 2 0, useOf (v 0) 2 1], none⟩ ownLane ∧ Acked one c0 p0 ∧
    -- two lanes resolve two futures
    (let m := mappedWith (withW fun x => { x with vregs := [(1024 + 30, 0x20)] });
      let r := futAims m c0 p0 .rw (v 30) 0;
      CanIssue m c0 p0 ⟨[useOf (v 30) 2 0, useOf (v 0) 2 1], none⟩ ownLane ∧ Irrevocable m c0 p0 ∧ Acked m c0 p0 ∧
      (∀ x ∈ r.1, x.1 = .ok) ∧ r.1.length = 2 ∧
      ((r.1.map (·.2)).foldl (resolveLane m c0 p0 false (v 0)) (false, r.2)).1 = false) ∧
    CanIssue s c0 p0 ⟨[useOf (v 28) 2 0], some (.v 30, 2)⟩ ownLane ∧
    (∀ x ∈ (futAims s c0 p0 .r (v 28) 0x10).1, x.1 = .ok) ∧
    Ready full p0 (.futget p0 (.v 30) (v 28) 0) ⟨[useOf (v 28) 2 0], some (.v 30, 2)⟩ ownLane ∧ Irrevocable full c0 p0 ∧
    (∃ x p, (futAims full c0 p0 .r (v 28) 0).1 = [(.ok, x)] ∧ x.phys = some p ∧ 2 ≤ futStateAt full p.key) ∧
    CanIssue one c0 p0 ⟨[useOf (v 28) 2 0], some (.v 30, 2)⟩ ownLane ∧
    (∃ x p, (futAims one c0 p0 .r (v 28) 0).1 = [(.ok, x)] ∧ x.phys = some p ∧ futStateAt one p.key < 2) ∧
    (s.ctx 63).tasks.regs = [] ∧
    Safe t ∧ (t.ctx 1).tasks.regs = [⟨key, 2 ^ 48 - 1, 3⟩] ∧ futStateAt t key < 2 ∧ NoDeps t ∧
    (r.ctx 1).tasks.regs = [⟨key, 5, 3⟩] ∧ 2 ≤ futStateAt r key := by
  unfold NoDeps
  exact ⟨canIssue_of (by decide), rfl, by decide, by decide, rfl, canIssue_of (by decide), rfl,
    ⟨_, _, rfl, rfl, by decide, by decide, by decide⟩, canIssue_of (by decide), by unfold Acked; decide,
    ⟨canIssue_of (by decide), rfl, by unfold Acked; decide, by decide, by decide, by decide +kernel⟩, canIssue_of (by decide), by decide,
    ready_of (by decide), rfl, ⟨_, _, rfl, rfl, by decide⟩, canIssue_of (by decide), ⟨_, _, rfl, rfl, by decide⟩, by decide, rfl,
    by decide, by decide, by decide, by decide, by decide⟩

/-- The mapped part with scratchpad and a tensor, and a block of the launch on the partner too. -/
def paired (r : BitVec 512) (f : Core → Core) : State :=
  let s := engined r f
  { s with dev := { s.dev with
      cores := [(0, f { Core.reset with owner := some 1 }), (1, f { Core.reset with owner := some 1 })]
      blocks := s.dev.blocks ++ [(2, { aBlock with idx := 1, core := some 1, lcore := 1 })] } }

theorem witness_ArrayQueue :
    let s := paired (aTensor 0 2) id
    let k := s.iss c0 p0
    CanIssue s c0 p0 ⟨[useOf (v 0) 1 1], none⟩ ownLane ∧ Irrevocable s c0 p0 ∧ k.act.head? = some 0 ∧
    (let r := shapeOf s c0 p0 15;
      let sa := s.work.slotOf k.lid (shFslot r);
      (∀ t, slotAl sa = some t → s.work.altabAhead k.core t = false) ∧
      ∀ pair, s.work.mmaCheck k 0 pair r 0 sa sa = .ok ∧ s.work.orderFull k.core pair = false) ∧
    CanIssue s c0 p0 ⟨[], none⟩ ownLane ∧ s.work.pairRefused k = false ∧
    CanIssue s c0 p0 ⟨useOf (v 0) 1 1 :: futUse none 2, none⟩ ownLane ∧
    s.work.bldCheck k 0 (shapeOf s c0 p0 15) 0 none none = .ok ∧
    CanIssue s c0 p0 ⟨futUse none 2, none⟩ ownLane ∧
    (∀ pair, ∀ res ∈ [none, some 15],
      s.work.mdrainCheck k 0 pair (shapeOf s c0 p0 15) (Option.map (shapeOf s c0 p0) res) none none = .ok) ∧
    CanIssue s c0 p0 ⟨[addrUse (v 0) .c], none⟩ ownLane ∧ eaOf s c0 p0 (v 0) 3840 0 % 256 = 0 ∧
    eaOf s c0 p0 (v 0) 3840 0 + 256 ≤ (s.launch k.lid).beta ∧
    CanIssue s c0 p0 ⟨[addrUse (v 0) .g], none⟩ ownLane ∧
    ((s.work.stamp c0).aimOrder k .g 256 256 0 ((s.wave 1).ea k .g (.v 0) 0x7F00 0)).1.1 = .ok ∧
    ((s.work.stamp c0).aimOrder k .g 68 128 0 ((s.wave 1).ea k .g (.v 0) 0x7F80 0)).1.1 = .ok ∧
    Ready s p0 (.mq p0 (.v 31)) ⟨[], some (.v 31, 1)⟩ ownLane := by
  refine ⟨canIssue_of (by decide), rfl, by decide, ⟨?_, ?_⟩, canIssue_of (by decide), by decide, canIssue_of (by decide),
    by decide +kernel, canIssue_of (by decide), ?_, canIssue_of (by decide), by decide, by decide, canIssue_of (by decide),
    by decide +kernel, by decide +kernel, ready_of (by decide)⟩
  · exact fun t _ => rfl
  · intro pair; cases pair <;> exact ⟨by decide +kernel, by decide⟩
  · intro pair; cases pair <;> decide +kernel

/-- An operation of the wave at the head of both orders. -/
def anOp (k : ArrKind) : ArrOp := ⟨50, 1, 1, 0, 3, 0, none, false, k⟩
def turned (k : ArrKind) (f : Core → Core) (key : Nat := 0) : State :=
  paired 0 fun c => f { c with order := [{ anOp k with key := key }] }

theorem witness_ArrayRuns :
    (∀ pair, ((turned (.mma false pair true (aTensor 0 1) 0 0 0) id).work.turnOp 0).isSome = true) ∧ rows (aTensor 0 1) ≤ 64 ∧
    (∀ pair, ((turned (.mzero pair true) id).work.turnOp 0).isSome = true) ∧
    (let s := turned (.bld (aTensor 0 1) 65520 none none) id;
      (s.work.turnOp 0).isSome = true ∧ (s.work.bldElems 1 0 1 (aTensor 0 1) 65520 0 1).1.2 = .all) ∧
    (let o := anOp (.mdrain false false true (aTensor 0 1) none none none);
      let s := turned o.kind id;
      s.work.turnOp 0 = some o ∧ s.work.accErr 0 true = false ∧
      (drainVals true false (drainProg s 0) (drainInit s 0) (drainOf s 0 o (aTensor 0 1) none)
        ⟨s.work, 0, drainInit s 0, 0, []⟩ (drainList (aTensor 0 1))).1 = .all) ∧
    (let key := (PAddr.scratch 1 3840).key;
      let t := turned (.epil true 3840) id key;
      let sp : Split := { aSplit 0x1000 3 with busy := some 50 };
      let s : State := { t with dev := { withW (fun x => { x with entries := [(0, sp)] }) t.dev with
        sys := { t.dev.sys with cur := none } } };
      (s.work.turnOp 0).isSome = true ∧ NoWaits s ∧ (s.wave 1).entries = [(0, sp)] ∧ (s.wave 1).overflow = [] ∧
      sp.kept = none ∧ sp.busy = some 50 ∧ sp.mask ≠ 0 ∧ sp.state = .ready ∧
      sp.hold = .none ∧ s.dev.sys.cur.map (·.wid) ≠ some 1 ∧ key % 8 = 3 ∧
      s.work.badData key 256 = false ∧ skCheck (skWords (s.work.bytes key 256)) 0 60 = none) ∧
    (let key := 8 * 2 ^ 26;
      let o := { anOp (.altab 3 0) with key := key };
      let t := turned o.kind id key;
      let s : State := { t with
        mem := t.mem ++ [(8 * 2 ^ 26, 1), (8 * (2 ^ 26 + 4), 8)]
        dev := withW (fun x => { x with entries := [(0, { aSplit 0x1000 3 with busy := some 50 })] }) t.dev };
      s.work.turnOp 0 = some o ∧ (s.wave 1).busyOn 50 = some 0 ∧
      (let e := s.work.issOf 1 0 ((s.wave 1).split 0) (lanesOf 3);
        let d := ((s.work.retireOp 0 o).orderRead e o 68).1;
        d.2 = none ∧ tableRefused d.1 = none)) ∧
    s0.work.turnOp 0 = none := by
  unfold NoWaits
  refine ⟨fun pair => ?_, by decide +kernel, fun pair => ?_, ⟨by decide, by decide +kernel⟩,
    ⟨by decide, by decide, by decide +kernel⟩, ⟨by decide, by decide, by decide, by decide, by decide, by decide, by decide,
      by decide, by decide, by decide, by decide, by decide, by decide +kernel⟩,
    ⟨by decide, by decide, ⟨by decide +kernel, by decide +kernel⟩⟩, by decide⟩
  · cases pair <;> decide
  · cases pair <;> decide

/-! ### Witnesses: tasks and launches -/

def aTask : TaskRec := ⟨false, false, 0, 0, 0x2000, 0, 9, 1, 0, [0, 0, 0, 0, 0, 0, 0, 0], 0, 0, none, 0⟩

/-- A part whose context has three segments of tasks and what `f` changes of its tasks. -/
def tasked (f : CtxTasks → CtxTasks) : State :=
  live (withX fun c => { c with rec_ := { CtxRec.blank with segb := 3 * 4096, gwin := 7 }, tasks := f c.tasks })

/-- A wave in whose lanes one task of domain 1 runs, as its frontier or not. -/
def ordered (front : Bool) : State :=
  let t : TaskRec := { aTask with dom := 1 }
  let d := (tasked fun x => { x with
    doms := [(1, ⟨1, 0, 0, [⟨if front then t else { t with seq := 1 }, .running, 1, 0, [], false⟩]⟩)] }).dev
  live fun _ => withW (fun x => { x with lanes := [(0, { aLane with task := some t }), (1, { aLane with task := some t })] }) d

theorem witness_TaskSelf :
    (∀ x ∈ [(Instr.tself p0 (.v 31), (⟨[], some (.v 31, 1)⟩ : Uses)), (.tself np1 (.k 0), ⟨[], some (.k 0, 1)⟩)],
      Ready (ordered true) p0 x.1 x.2 ownLane) ∧ tselfWord (ordered true) c0 0 ≠ 0 ∧ tselfWord s0 c0 0 = 0 :=
  ⟨all_ready (by decide), by decide, by decide⟩

theorem witness_Spawning :
    let s := tasked id
    let o := live fun _ => withW oneLane s.dev
    let d := tasked fun x => { x with doms := [(15, ⟨1, 0, 0, []⟩)] }
    let f := mappedWith fun d => withW oneLane (withX (fun c => { c with rec_ := { CtxRec.blank with
      root := 0x8000, chipw := 4096, q := 2 ^ 40, segb := 3 * 4096 } }) d)
    let h := live (withX fun c => { c with rec_ := { CtxRec.blank with conf := true } })
    CanIssue d c0 p0 ⟨spawnUses (v 30) (v 8) (some (15, v 28)), none⟩ ownLane ∧ (d.iss c0 p0).act ≠ [] ∧
    d.work.mayEnterDomain (d.iss c0 p0) 15 = true ∧ d.work.otherDomain (d.iss c0 p0) 15 = [] ∧
    (∀ l ∈ (d.iss c0 p0).act, let t := ((d.wave 1).val64 (d.iss c0 p0) (.v 30) l).toNat; t % 8 = 0 ∧ t < 2 ^ 56) ∧
    (d.iss c0 p0).act.length ≤ (tasksOf d c0 p0).queueRoom (d.ctx (d.iss c0 p0).ctx).rec_.segments
      (clusterOf (d.iss c0 p0).core) 3 ∧
    CanIssue o c0 p0 ⟨spawnUses (v 30) (v 8) none, none⟩ ownLane ∧ (o.iss c0 p0).act = [0] ∧
    o.work.otherDomain (o.iss c0 p0) 0 = [] ∧ ((o.wave 1).val64 (o.iss c0 p0) (.v 30) 0).toNat = 0 ∧
    1 ≤ (tasksOf o c0 p0).queueRoom (o.ctx (o.iss c0 p0).ctx).rec_.segments (clusterOf (o.iss c0 p0).core) 3 ∧
    CanIssue f c0 p0 ⟨[useOf (v 30) 2 0, useOf (v 8) 8 1, useOf (v 16) (2 * ((3#2).toNat + 1)) 2], none⟩ ownLane ∧
    Irrevocable f c0 p0 ∧ (∀ y ∈ (spawnfAims f c0 p0 (v 30) (v 16) 3).1, y.2.1 = .ok) ∧
    ((spawnfAims f c0 p0 (v 30) (v 16) 3).2.spawnfLanes (f.iss c0 p0) 0 (f.wave 1) (.v 30) (.v 8)
      ((spawnfAims f c0 p0 (v 30) (v 16) 3).1.map fun y => (y.1, y.2.2))).1 = true ∧
    CanIssue (ordered false) c0 p0 ⟨[], none⟩ ownLane ∧
    (∀ l ∈ ((ordered false).iss c0 p0).act, (((ordered false).wave 1).lane l).ordered.isSome = true) ∧
    CanIssue (ordered true) c0 p0 ⟨[], none⟩ ownLane ∧ Irrevocable (ordered true) c0 p0 ∧
    (∀ l ∈ ((ordered true).iss c0 p0).act, ∃ t, (((ordered true).wave 1).lane l).ordered = some t ∧
      (ordered true).work.isFrontier ((ordered true).iss c0 p0).ctx t = true) ∧
    CanIssue s c0 p0 ⟨[], none⟩ ownLane ∧ Irrevocable s c0 p0 ∧ CanIssue s c0 p0 ⟨[useOf (v 0) 1 0], none⟩ ownLane ∧
    (s.iss c0 p0).act.head? = some 0 ∧ s.work.conf (s.iss c0 p0).ctx = false ∧
    CanIssue h c0 p0 ⟨[useOf (v 0) 1 0], none⟩ ownLane ∧ Irrevocable h c0 p0 ∧ h.work.conf (h.iss c0 p0).ctx = true := by
  refine ⟨canIssue_of (by decide), by decide, by decide, by decide, by decide, by decide, canIssue_of (by decide), by decide,
    by decide, by decide, by decide, canIssue_of (by decide), rfl, by decide, by decide, canIssue_of (by decide), by decide,
    canIssue_of (by decide), rfl, fun l hl => ⟨{ aTask with dom := 1 }, ?_⟩, canIssue_of (by decide), rfl,
    canIssue_of (by decide), by decide, by decide, canIssue_of (by decide), rfl, by decide⟩
  revert l; decide

/-- A queue of cluster `c` and priority `p` with the records `rs` and the tail `n`. -/
def queued (c : Nat) (p : BitVec 2) (rs : List TaskRec) (n : Nat) : State :=
  tasked fun x => { x with segNext := 1, age := 0, queues := [(queueKey c p, [⟨2, n, rs.zipIdx.map fun y => (y.2, y.1), []⟩])] }

def aGroup (ready : Bool) : Group := ⟨1, 0x2000, 0, 0, 0, [aTask], ready⟩
/-- A group whose task waits, on a launch of one core. -/
def grouped (ready : Bool) (gtick : BitVec 64) : State :=
  let s := tasked fun x => { x with
    queues := [(0, [⟨2, 1, [(0, aTask)], []⟩])], groups := [(0, [aGroup ready])] }
  live fun _ => { withL (fun l => { l with l := 64, roles := [0x100000020] }) s.dev with
    sys := { s.dev.sys with gtick := gtick } }

/-- A domain whose one task is finished, with a version of a sector. -/
def sCommit : State := tasked fun x => { x with
  doms := [(15, ⟨1, 0, 0, [⟨{ aTask with dom := 15, ts := 4 }, .finished, 1, 0, [], false⟩]⟩)]
  versions := [⟨15, 9, 4096, List.replicate 16 7, 1⟩] }

theorem witness_TaskEvents :
    (∃ q x, mget? ((queued 0 0 [] 63).ctx 1).tasks.queues (queueKey 0 0) = some q ∧ q ≠ [] ∧ queueFull q = true ∧
      ((queued 0 0 [] 63).ctx 1).tasks.takeSeg ((queued 0 0 [] 63).ctx 1).rec_.segments = some x) ∧
    queueFull (mget ((queued 0 0 [] 62).ctx 1).tasks.queues (queueKey 0 0) []) = false ∧
    ((queuedOf (queued 0 2 [{ aTask with pri := 2 }] 1) 1).find? (fun r => r.seq.toNat == 9) = some { aTask with pri := 2 } ∧
      ((queued 0 2 [{ aTask with pri := 2 }] 1).ctx 1).state = .running ∧
      (queued 0 2 [{ aTask with pri := 2 }] 1).work.promotionDue 1 { aTask with pri := 2 } = true) ∧
    (∀ r ∈ queuedOf (queued 0 3 [{ aTask with pri := 3 }] 1) 1,
      (queued 0 3 [{ aTask with pri := 3 }] 1).work.promotionDue 1 r = false) ∧
    (queueRecs (mget ((queued 0 0 [aTask] 1).ctx 1).tasks.queues (queueKey 0 0) []) = [aTask] ∧
      (∀ q ∈ ((queued 0 0 [aTask] 1).ctx 1).tasks.groups, ∀ g ∈ q.2, ∀ x ∈ g.tasks, x.seq ≠ aTask.seq) ∧
      1 ≤ ((queued 0 0 [aTask] 1).ctx 1).tasks.queueRoom ((queued 0 0 [aTask] 1).ctx 1).rec_.segments 23 0) ∧
    queueRecs (mget ((tasked id).ctx 1).tasks.queues (queueKey 0 0) []) = [] ∧
    ((queued 0 0 [aTask] 1).work.scanned 0 = [⟨1, aTask, false⟩] ∧
      (mget ((queued 0 0 [aTask] 1).ctx 1).tasks.groups 0 []).find? (fun g => g.keyOf aTask) = none ∧
      (queued 0 0 [aTask] 1).work.openGroups 0 < 8) ∧
    ((grouped false 7).work.groupsOf 0)[0]? = some (1, aGroup false) ∧
    (grouped false 7).work.windowPassed 1 (aGroup false) = true ∧
    aGroup false ∈ mget ((grouped false 7).ctx 1).tasks.groups 0 [] ∧
    (grouped false 6).work.windowPassed 1 (aGroup false) = false ∧ ((grouped false 6).work.groupsOf 0)[1]? = none ∧
    Safe (grouped true 7) ∧ (grouped true 7).work.nextGroup 0 = some 0 ∧ ((grouped true 7).work.groupsOf 0)[0]? = some (1, aGroup true) ∧
    (grouped false 7).work.nextGroup 0 = none ∧
    (Safe sCommit ∧ (∃ d f, sCommit.work.domain 1 15 = some d ∧ d.tasks = [f] ∧ f.state = .finished ∧ f.drop = false) ∧
      OwnDeps sCommit 1 15 ∧ (((sCommit.ctx 1).tasks.versions.filter fun x => x.dom == 15 && x.seq == 9).map (·.sector)).Nodup ∧
      ∀ x ∈ (sCommit.ctx 1).tasks.versions, x.bytes.length = 16) ∧
    sCommit.work.domain 1 14 = none := by
  unfold OwnDeps
  exact ⟨⟨_, _, rfl, by decide, by decide, rfl⟩, by decide, ⟨by decide, by decide, by decide⟩, by decide,
    ⟨by decide, by decide, by decide⟩, by decide, ⟨by decide, by decide, by decide⟩, by decide, by decide, by decide,
    by decide, by decide, rfl, by decide, by decide, by decide,
    ⟨rfl, ⟨_, _, rfl, rfl, rfl, rfl⟩, by decide, by decide, by decide⟩, by decide⟩

/-- A context with a ring of 16 entries at VA 0, the first a launch of one block of one wave (R318). -/
def ringed (f : Context → Context) : State :=
  let s := mappedWith fun d => { d with
    ctxs := [(1, f { Context.blank with tail := 1, rec_ := { CtxRec.blank with
      root := 0x8000, chipw := 4096, q := 2 ^ 40, rlog := 4 } })] }
  { s with mem := s.mem ++ [(8 * (2 ^ 26 + 1), 0x20), (8 * (2 ^ 26 + 8), 1), (8 * (2 ^ 26 + 12), 1), (8 * (2 ^ 26 + 14), 1),
      (8 * (2 ^ 26 + 16), 1), (8 * (2 ^ 26 + 17), 2), (8 * (2 ^ 26 + 18), 0x40)] }

def accepts (s : State) (c : Context) : Bool :=
  match s.work.headRead 1 (c.rec_.entryVa c.head) 256 with
  | .ok bs => ((s.work.modCtx 1 fun c => { c with head := c.head + 1 }).accept 1 c.head fun n => (le64 bs (8 * n)).toNat).isOk
  | .error _ => false

theorem accepted {s : State} {c : Context} (h : accepts s c = true) : ∃ bs l,
    s.work.headRead 1 (c.rec_.entryVa c.head) 256 = .ok bs ∧
    (s.work.modCtx 1 fun c => { c with head := c.head + 1 }).accept 1 c.head (fun n => (le64 bs (8 * n)).toNat) = .ok l := by
  unfold accepts at h
  split at h
  · rename_i bs hb
    refine ⟨bs, ?_⟩
    revert h
    cases (s.work.modCtx 1 fun c => { c with head := c.head + 1 }).accept 1 c.head fun n => (le64 bs (8 * n)).toNat with
    | ok l => exact fun _ => ⟨l, hb, rfl⟩
    | error e => exact fun h => by cases h
  · cases h

/-- A launch of two blocks that can be placed on its one core, its wave ended, and with its blocks retired or not. -/
def sPlace : State := live fun d => withL (fun l => { l with l := 64, roles := [0x100000020], grid := 2, wpb := 1 }) d
def sRetire : State := live (withB fun b => { b with waves := [] })
def sEnd : State := live fun d => { withL (fun l => { l with grid := 1, retired := 1 }) d with blocks := [] }
def sRing (cls : BitVec 3) : State :=
  live fun d => { withX (fun c => { c with
    head := 0xFFFFFFFF, tail := 0xFFFFFFFF, rec_ := { CtxRec.blank with cls := cls } }) d with
    hub := { d.hub with ports := [(0, { Port.blank with up := true })], access := [(88 * 8 + 65, 0xC007)] } }

theorem witness_Launches :
    let c : Context := { Context.blank with tail := 1, rec_ := { CtxRec.blank with
      root := 0x8000, chipw := 4096, q := 2 ^ 40, rlog := 4 } }
    (mget? (ringed id).dev.ctxs 1 = some c ∧ c.state = .running ∧ c.head ≠ c.tail ∧ c.ringStuck = false ∧
      (ringed id).work.inFlight 1 < 16 ∧ ∃ bs l, (ringed id).work.headRead 1 (c.rec_.entryVa c.head) 256 = .ok bs ∧
        ((ringed id).work.modCtx 1 fun c => { c with head := c.head + 1 }).accept 1 c.head
          (fun n => (le64 bs (8 * n)).toNat) = .ok l) ∧
    (ringed fun c => { c with rec_ := { c.rec_ with root := 0 } }).work.headRead 1 0 256 = .error Cause.memfault ∧
    (∀ c, mget? s0.dev.ctxs 1 = some c → c.state ≠ .running ∨ c.head = c.tail ∨ c.ringStuck = true ∨
      16 ≤ s0.work.inFlight 1) ∧
    ((sPlace.ctx 1).state = .running ∧
      ∃ lid lcore slots, sPlace.work.nextBlock 1 = some (lid, lcore, slots) ∧ sPlace.work.mayGive lid lcore = true) ∧ s0.work.nextBlock 1 = none ∧
    ((∃ b, mget? sRetire.dev.blocks 1 = some b ∧ ∀ x ∈ (sRetire.core (b.core.getD 0)).chans, x.2.owner ≠ some 1) ∧
      sRetire.work.retirable 1 = true) ∧ s0.work.retirable 1 = false ∧
    ((sEnd.ctx (sEnd.launch 1).ctx).state = .running ∧ sEnd.work.launchDone 1 = true ∧ (sEnd.launch 1).siga = 0 ∧
      (sEnd.launch 1).futa = 0 ∧ mget? sEnd.dev.launches 1 ≠ none) ∧
    ((live (withX fun c => { c with state := .frozen })).ctx (s0.launch 1).ctx).state ≠ .running ∧
    (∀ cls ∈ [0, 7], Rings (sRing cls) false ∧ (sRing cls).dev.hub.evac = none ∧ ∃ c,
      mget? (sRing cls).dev.ctxs 1 = some c ∧ c.rec_.cls = cls ∧ ((15 : BitVec 32) - c.head).toNat = 2 ^ c.rec_.rlog ∧
      (15 : BitVec 32) ≠ c.head ∧ 2 ^ c.rec_.rlog < ((16 : BitVec 32) - c.head).toNat) ∧
    (Rings (sRing 0) false ∧ mget? (sRing 0).dev.ctxs 2 = none) := by
  unfold Rings
  refine ⟨⟨rfl, by decide, by decide, by decide, by decide, accepted (by decide +kernel)⟩, rfl, fun c h => ?_,
    ⟨by decide, _, _, _, rfl, by decide⟩, by decide, ⟨⟨_, rfl, by decide⟩, by decide⟩, by decide,
    ⟨by decide, by decide, by decide, by decide, by decide⟩, by decide, fun cls hc => ?_, by decide, by decide⟩
  · cases h; exact .inr (.inl rfl)
  · rcases List.mem_cons.1 hc with rfl | hc
    · exact ⟨by decide, rfl, _, rfl, rfl, by decide, by decide, by decide⟩
    · rcases List.mem_singleton.1 hc with rfl
      exact ⟨by decide, rfl, _, rfl, rfl, by decide, by decide, by decide⟩

/-! ### Witnesses: contexts and paging -/

/-- Host memory with a context record at 0 whose reservations fit its evacuation area (R347, R348), and one working port. -/
def recorded (f : Dev → Dev) : State :=
  { live fun d => f { d with hub := { d.hub with ports := [(0, ⟨true, 16, 6, true, false, false, none⟩)] } } with
    mem := [(8 * 9 + 1, 1), (8 * 16 + 1, 0xE8), (8 * 17 + 1, 3), (8 * 40 + 1, 4), (8 * 50 + 1, 1), (8 * 67 + 1, 8)] }

theorem witness_ContextCommands :
    (live fun d => { d with sec := { d.sec with boot := 1 } }).dev.sec.boot ≠ 0 ∧
    s0.dev.sec.boot = 0 ∧ mget? s0.dev.ctxs (2#6).toNat = none ∧
    (live fun d => { d with hub := { d.hub with cmda := 64 } }).dev.hub.cmda.toNat % 128 ≠ 0 ∧
    recordOk (createBytes s0) = false ∧
    (Safe (recorded id) ∧ (recorded id).dev.sec.boot = 0 ∧ (recorded id).dev.hub.cmda.toNat % 128 = 0 ∧
      recordOk (createBytes (recorded id)) = true ∧ (mget? (recorded id).dev.ctxs (1#6).toNat).isSome = true ∧
      mget? (recorded id).dev.ctxs (63#6).toNat = none ∧ (recordOf (createBytes (recorded id))).cls ≠ 7 ∧
      (recorded id).work.rootOk (recordOf (createBytes (recorded id))).root = true ∧
      (((recorded id).work.takeRoot 63 (recordOf (createBytes (recorded id))).root).reserveAll 63 (recordOf (createBytes (recorded id)))).1.isSome = true ∧
      (recorded id).work.evacAreaOk (recordOf (createBytes (recorded id))) = true) ∧
    (∃ x ∈ (tasked fun t => { t with doms := [(1, ⟨1, 0, 0, []⟩)] }).dev.ctxs, x.2.tasks.doms ≠ []) ∧
    (∀ x ∈ s0.dev.ctxs, x.2.tasks.doms = []) ∧
    (∃ c, mget? s0.dev.ctxs (1#6).toNat = some c ∧ c.state = .running ∧ c.broken = false) ∧
    (∃ c, mget? (live (withX fun c => { c with state := .frozen, broken := true })).dev.ctxs (1#6).toNat = some c ∧
      c.broken = true) ∧
    ∃ c, mget? (live (withX fun c => { c with state := .frozen })).dev.ctxs (1#6).toNat = some c ∧ c.state ≠ .running ∧
      c.broken = false :=
  ⟨by decide, by decide, by decide, by decide, by decide +kernel,
    ⟨rfl, rfl, rfl, by decide +kernel, by decide, by decide, by decide +kernel, by decide +kernel, by decide +kernel,
      by decide +kernel⟩, by decide, by decide, ⟨_, rfl, rfl, rfl⟩, ⟨_, rfl, rfl⟩, _, rfl, by decide, rfl⟩

/-- A launch of one core, its lanes' memory so large that two waves do not fit. -/
def aHog : Launch := { aLaunch with roles := [0x100000020], l := 8192, grid := 2, wpb := 1 }
/-- Context 2, of a higher class, wants the core of context 1. -/
def sWant : State := live fun d => { d with
  launches := [(1, aHog), (2, { aHog with ctx := 2 })]
  ctxs := [(1, Context.blank), (2, { Context.blank with rec_ := { CtxRec.blank with cls := 1 } })] }
/-- Its wave is parked, and the launch has a block to place. -/
def sEvict : State := live fun d => { withW (fun x => { x with
  entries := [(0, { aSplit 0x1000 3 with state := .parked, reason := .wait })] }) d with launches := [(1, aHog)] }
def sAway : State := live (withW fun x => { x with place := none, evicted := true })
/-- A load of this part's memory and one of host memory. -/
def sLoads : State := live (withW fun x => { x with
  outs := [(5, ⟨.load, 1, 0xFF8, [(0, 1024)], [7], none, 0, 0, none, none⟩), (6, ⟨.load, 1, 0xFF8, [(0, 1025)], [7], none, 0, 0, some 9, none⟩),
    (7, ⟨.futget, 1, 0xFF8, [(0, 1026)], [7], none, 0, 80, some 11, none⟩)] })

theorem witness_Residency :
    sWant.work.nextVictim = some (1#6).toNat ∧ sWant.work.nextVictim ≠ some (2#6).toNat ∧
    (live (withX fun c => { c with state := .frozen })).work.nextRestore = some ((1#6).toNat, []) ∧
    (∀ fs, s0.work.nextRestore ≠ some ((1#6).toNat, fs)) ∧ sEvict.work.nextEvict = some 1 ∧ s0.work.nextEvict ≠ some 1 ∧
    sAway.work.returnSlot 1 = some (0, 0) ∧ (sAway.wave 1).spillSave = [] ∧ s0.work.returnSlot 1 = none ∧
    (∃ o, mget? (sLoads.wave 1).outs 5 = some o ∧ o.ext = false) ∧ (∃ o, mget? (sLoads.wave 1).outs 6 = some o ∧ o.ext = true ∧
      sLoads.work.viaHeld o.via = false ∧ o.kind ≠ .futget) ∧
    sLoads.dev.tail.frozen = false ∧
    ∃ o, mget? (sLoads.wave 1).outs 7 = some o ∧ o.ext = true ∧ sLoads.work.viaHeld o.via = false ∧ o.kind = .futget :=
  ⟨by decide +kernel, by decide +kernel, by decide +kernel, fun _ h => (by cases h), by decide +kernel, by decide +kernel,
    by decide +kernel, by decide, by decide, ⟨_, rfl, rfl⟩, ⟨_, rfl, rfl, rfl, by decide⟩, rfl, _, rfl, rfl, rfl, rfl⟩

/-- Context 1 with tables down to a leaf of level 4 at 0x4000 for VA 0, its bytes as given. -/
def paged (leaf : List (Nat × Byte)) (f : Dev → Dev) : State :=
  let s := mappedWith f
  { s with mem := [(8 * 0x1000, 0x01), (8 * 0x1001, 0x20), (8 * 0x2000, 0x01), (8 * 0x2001, 0x30), (8 * 0x3000, 0x01),
      (8 * 0x3001, 0x40)] ++ leaf ++ [(8 * 0x8000, 0x01), (8 * 0x8001, 0x10)] }

/-- The page is mapped by system software, the context is leaving or returning, and a host port works or not. -/
def evacuating (st : CtxState) (on up : Bool) (ps : List SentPage) (d : Dev) : Dev := { d with
  hub := { d.hub with evac := some 2, evacOn := on, ports := [(0, ⟨up, 16, 6, true, false, false, none⟩)] }
  ctxs := d.ctxs.map fun x => (x.1, { x.2 with state := st, mem := { x.2.mem with maps := [(0, 4)], pages := ps } }) }

def sLeave (up : Bool) : State := paged [(8 * 0x4000, 0x3F), (8 * 0x4003, 0x04)] (evacuating .evacuating true up [])
def aSent : SentPage := ⟨0x4000, 2 ^ 26, 4, 0, true, 2 ^ 26⟩
def sReturn : State := paged [(8 * 0x4000, 0x1E), (8 * 0x4001, 0x02), (8 * 0x4003, 0x04)] (evacuating .returning false true [aSent])
def sEmptied : State := paged [(8 * 0x4000, 0x1E), (8 * 0x4001, 0x02), (8 * 0x4003, 0x04)]
  (evacuating .evacuating true true [aSent])

/-- A context of which the system's pages are out. -/
def sSystem : State := paged [] fun d => evacuating .returning false true [] { d with
  ctxs := d.ctxs.map fun x => (x.1, { x.2 with mem := { x.2.mem with sysOut := true } }) }

/-- The same while a frame of theirs is lent. -/
def sLent : State := { sSystem with dev := { sSystem.dev with hub := { sSystem.dev.hub with lent := [⟨16, 1, 0xC1⟩] } } }
/-- A context that is leaving and has two frames of its save area to send. -/
def sFrames : State := paged [] fun d => evacuating .evacuating true true [] { d with
  ctxs := d.ctxs.map fun x => (x.1, { x.2 with mem := { x.2.mem with saveArea := (16, 2), tabNext := 16 * 65536 } }) }

/-- A leaf of host memory that system software asks for, in a table that stands. -/
def aLeaf : LeafReq := ⟨true, 4, 0x10000, 1, 0, 0, false, true, true⟩

def aRecord (vpage : Nat) : FaultRec := ⟨0, 1, vpage, .open_, false, false, true, false, 4, [.split 1 0 0], 0⟩
def sRecord (vpage : Nat) : State := mappedWith fun d => { d with mmu := { d.mmu with faults := [aRecord vpage] } }

theorem witness_Paging :
    s0.work.evacRuns = false ∧
    (∀ up, Safe (sLeave up) ∧ (sLeave up).work.evacRuns = true ∧ (sLeave up).work.anyPort = up) ∧
    ((sLeave true).work.evacOrder.find? (sLeave true).work.allSent = none ∧
      (sLeave true).work.nextSent = some (.page ⟨1, 0, 4, 0x4000, 0x400003F⟩) ∧ (sLeave true).work.xtsKey 1 = none ∧
      ∀ x ∈ (sLeave true).dev.ctxs, x.2.tasks.regs = []) ∧
    (Safe sFrames ∧ sFrames.work.evacRuns = true ∧ sFrames.work.anyPort = true ∧
      sFrames.work.evacOrder.find? sFrames.work.allSent = none ∧ sFrames.work.nextSent = some (.frame 1 16) ∧
      ∀ q ∈ (sFrames.ctx 1).mem.pages, q.out = true) ∧
    (sEmptied.work.evacRuns = true ∧ sEmptied.work.anyPort = true ∧
      sEmptied.work.evacOrder.find? sEmptied.work.allSent = some 1) ∧
    (Safe sReturn ∧ sReturn.work.anyPort = true ∧ (sReturn.ctx (1#6).toNat).mem.sysAway = false ∧
      (sReturn.ctx (1#6).toNat).state = .returning ∧ sReturn.work.nextReturn (1#6).toNat = some (0, aSent) ∧
      (∀ x ∈ sReturn.dev.hub.links, x.2.held = []) ∧
      ∀ a ∈ sReturn.work.returnSlots (1#6).toNat aSent, a % 65536 = 0 ∧ a < 2 ^ 52) ∧
    (sSystem.work.anyPort = true ∧ sSystem.work.sysBack (1#6).toNat = true ∧
      (sSystem.ctx (1#6).toNat).state = .returning ∧ sSystem.dev.hub.links = []) ∧
    (sLent.dev.hub.links = [] ∧ (sLent.ctx (1#6).toNat).mem.sysAway = true ∧ sLent.work.sysBack (1#6).toNat = false) ∧
    s0.dev.hub.links = [] ∧ s0.work.anyPort = false ∧
    (Safe sReturn ∧ (mget? sReturn.dev.ctxs (1#6).toNat).isSome = true ∧ leafReqOk aLeaf = true ∧
      (sReturn.ctx (1#6).toNat).mem.sysAway = false ∧ aLeaf.v = true ∧
      aLeaf.kind ≠ 0 ∧ (sReturn.work.leafAt (1#6).toNat aLeaf.va.toNat aLeaf.level).getD 0 % 2 = 0 ∧
      ∃ at_ w, sReturn.work.entryFor (1#6).toNat aLeaf.va.toNat (sReturn.ctx (1#6).toNat).rec_.root aLeaf.level tableLevels =
        (some at_, w) ∧ w.num (PAddr.hbm at_).key 8 % 2 = 0) ∧
    mget? s0.dev.ctxs (0#6).toNat = none ∧ s0.work.oldestRecord = none ∧
    ((sRecord 0).work.oldestRecord = some (aRecord 0) ∧ (∃ e a lv, walk (sRecord 0).work 1 (0 * 65536) = .leaf e a lv) ∧
      ∀ x ∈ (aRecord 0).waiters, ∃ wid l g, x = .split wid l g) ∧
    (sRecord (2 ^ 30)).work.oldestRecord = some (aRecord (2 ^ 30)) ∧
      (∃ lv, walk (sRecord (2 ^ 30)).work 1 (2 ^ 30 * 65536) = .bad lv) ∧
      (sRecord (2 ^ 30)).work.markedPage 1 (2 ^ 30 * 65536) = none ∧ (sRecord (2 ^ 30)).dev.mmu.short = [] := by
  refine ⟨by decide +kernel, fun up => ?_, ⟨by decide +kernel, by decide +kernel, rfl, by decide⟩,
    ⟨rfl, by decide +kernel, by decide +kernel, by decide +kernel, by decide +kernel, by decide⟩,
    ⟨by decide +kernel, by decide +kernel, by decide +kernel⟩,
    ⟨rfl, by decide +kernel, by decide, by decide, by decide +kernel, by decide, by decide +kernel⟩,
    ⟨by decide +kernel, by decide, by decide, by decide⟩, ⟨by decide, by decide, by decide⟩, rfl, by decide +kernel,
    ⟨rfl, rfl, by decide +kernel, by decide, rfl, by decide, by decide +kernel, _, _, rfl, by decide +kernel⟩, rfl, rfl,
    ⟨rfl, ⟨_, _, _, rfl⟩, fun x hx => ?_⟩, rfl, ⟨_, rfl⟩, by decide +kernel, rfl⟩
  · cases up <;> exact ⟨rfl, by decide +kernel, by decide +kernel⟩
  · rcases List.mem_singleton.1 hx with rfl
    exact ⟨1, 0, 0, rfl⟩

/-! ### Witnesses: the part -/

/-- The mapped part with a working host port 0, a working link 15, and access entries of their functions. -/
def outside (f : Dev → Dev) : State := mappedWith fun d => f { d with hub := { d.hub with
  ports := [(0, ⟨true, 16, 128, true, false, false, none⟩)], links := [(15, ⟨true, none, false, [], [], 0⟩)]
  access := (List.range 27).flatMap fun t => [(88 * t + 1, 0xC007), (88 * t + 65, 0xC007), (88 * t + 87, 0xC007)] } }
/-- A part whose links and upstream are as given, at a tick. -/
def linked (up : Bool) (failed : Option (BitVec 64)) (g : BitVec 64) : State := live fun d => { d with
  hub := { d.hub with links := [(15, ⟨up, failed, false, [], [], 0⟩)], upstream := some 15, tickRoot := false, lastSync := 0 }
  sys := { d.sys with gtick := g } }

theorem admits {s : State} {m : Nat} {r : ExtReq} (h : (decide (reqAddr r + reqBytes r ≤ Config.hbmBytes) &&
    ((linePieces (reqAddr r) (reqBytes r)).all fun x => tableAllows s.dev.hub (hbmTarget x.1) m (reqKind r) (some x.1) &&
      mget s.dev.tags (x.1 / 128) 0 == 0) &&
    (match s.work.ctxOfPa (reqAddr r) with
      | some c => s.work.conf c == false
      | none => true) && s.work.badData (PAddr.hbm (reqAddr r)).key (reqBytes r) == false) = true) : Admitted s m r := by
  simp only [Bool.and_eq_true, decide_eq_true_eq, List.all_eq_true, beq_iff_eq] at h
  refine ⟨h.1.1.1, fun x hx => (h.1.1.2 x hx).1, fun x hx => (h.1.1.2 x hx).2, fun c hc => ?_, h.2⟩
  have := h.1.2
  rw [hc] at this
  simpa using this

theorem witness_OutsideRequests :
    let s := outside id
    let t := outside fun d => { d with ctxs := d.ctxs.map fun x => (x.1, { x.2 with state := .evacuating }) }
    let z := outside fun d => { d with tail := { d.tail with frozen := true } }
    Safe s ∧ (portOf s false).up = true ∧ (portOf s false).fnFrozen true = false ∧ Serves s ∧
    (outside fun d => { d with sec := { d.sec with boot := 1 } }).dev.sec.boot ≠ 0 ∧ z.dev.sec.boot = 0 ∧ z.dev.tail.frozen = true ∧
    Admitted s 65 (.read 0x4000040 64) ∧ Admitted s 65 (.write 0x400007F [1, 2]) ∧ NoDeps s ∧
    (portOf s0 true).up = false ∧ ¬ Serves z ∧ (portOf z false).up = true ∧
    (linkOf s 15).up = true ∧ (linkOf s 15).frozen = false ∧ s.work.heldBack 15 (.read 0x4000040 64) = false ∧
    Admitted s 87 (.read 0x4000040 64) ∧ s.work.heldBack 15 (.write 0x400007F [1, 2]) = false ∧
    Admitted s 87 (.write 0x400007F [1, 2]) ∧
    t.work.heldBack 15 (.read 0x4000040 64) = true ∧ (linkOf t 15).up = true ∧ Serves t ∧ (linkOf s0 0).up = false := by
  unfold NoDeps Serves
  exact ⟨rfl, by decide, by decide, by decide, by decide, by decide, by decide, admits (by decide +kernel), admits (by decide +kernel), by decide, by decide,
    by decide, by decide, by decide, by decide, by decide +kernel, admits (by decide +kernel), by decide +kernel,
    admits (by decide +kernel), by decide +kernel, by decide, by decide, by decide⟩

theorem witness_PortsAndLinks :
    (linkOf s0 15).failed = none ∧ (linkOf (linked false (some 1) 1000000) 15).failed = some 1 ∧
    ((linked false (some 1) 1000000).dev.sys.gtick - 1).toNat < 1000000 ∧
    (linkOf (linked false (some 0) 1000000) 15).failed = some 0 ∧
    1000000 ≤ ((linked false (some 0) 1000000).dev.sys.gtick - 0).toNat ∧
    s0.dev.hub.upstream = none ∧ (linked false none 1024).dev.hub.upstream = some 15 ∧ (linked false none 1024).dev.hub.rootLost = false ∧
    (linkOf (linked false none 1024) 15).up = false ∧
    ((linked true none 1023).dev.sys.gtick - (linked true none 1023).dev.hub.lastSync).toNat < 1024 ∧
    (linked true none 1024).dev.hub.upstream = some 15 ∧ (linkOf (linked true none 1024) 15).up = true ∧
    1024 ≤ ((linked true none 1024).dev.sys.gtick - (linked true none 1024).dev.hub.lastSync).toNat := by
  decide

theorem witness_PowerAndClocks :
    Safe s0 ∧ s0.dev.tail.frozen = false ∧ s0.dev.sys.powered = true ∧
    (live fun d => { d with tail := { d.tail with frozen := true } }).dev.tail.frozen = true ∧
    (live fun d => { d with sys := { d.sys with powered := false } }).dev.sys.powered = false ∧
    s0.dev.pow.step = s0.dev.pow.target ∧
    (live fun d => { d with pow := { d.pow with target := 2 } }).dev.pow.step ≠
      (live fun d => { d with pow := { d.pow with target := 2 } }).dev.pow.target :=
  ⟨rfl, by decide, by decide, by decide, by decide, by decide, by decide⟩

theorem witness_MemoryErrors :
    s0.work.waveAt 0 0 = some 1 ∧ (s0.wave 1).stat (0, 1024 * 1 + 1023) = none ∧
    (∀ p ∈ [ErrPlace.hbm 0x3F, .tag 0xFF, .slice 0x1F], ∃ at_ n, (p, at_, n) ∈
      (fun a => [(ErrPlace.hbm a, a.toNat / 32 * 32, 32), (.tag a, a.toNat / 128 * 128, 128), (.slice a, a.toNat / 16 * 16, 16)])
        (match p with
          | .hbm a => a
          | .tag a => a
          | .slice a => a
          | _ => 0)) := by
  refine ⟨by decide, by decide, fun p hp => ?_⟩
  simp only [List.mem_cons, List.not_mem_nil, or_false] at hp
  rcases hp with rfl | rfl | rfl
  · exact ⟨_, _, .head _⟩
  · exact ⟨_, _, .tail _ (.head _)⟩
  · exact ⟨_, _, .tail _ (.tail _ (.head _))⟩

/-- The wave halted by the debugger with its one split's state kept, in a context that is confidential or not. -/
def sHalted (conf : Bool) : State := idle fun d => withX (fun c => { c with rec_ := { CtxRec.blank with conf := conf } })
  (withW (fun x => { x with halted := true, recorded := true
                            entries := [(0, { aSplit 0x1000 3 with state := .parked, reason := .halt, kept := some (.ready, .none) })] }) d)

theorem witness_DebugCommands :
    s0.work.waveAt 191 63 = none ∧ s0.work.waveAt 0 0 = some 1 ∧ (s0.wave 1).halted = false ∧
    (let s := sHalted false;
      s.work.waveAt 0 0 = some 1 ∧ (s.wave 1).halted = true ∧ (s.wave 1).recorded = true ∧
      ((s.wave 1).splits.all fun x => x.kept.any fun y => y.1 != .trapped) = true ∧
      (s.wave 1).entering = none ∧ s.dev.sys.cur.map (·.wid) ≠ some 1 ∧ s.work.conf (s.wave 1).ctx = false ∧
      (woken s 0).work.debugRead 1 31 ⟨1, 30⟩ = some 0 ∧ (woken s 0).work.debugRead 1 31 ⟨15, 0⟩ = none ∧
      ((woken s 0).work.debugWrite 1 31 ⟨3, 15⟩ 5).isSome = true) ∧
    (let i : State := idle (withW fun x => { x with halted := true, entries := [(0, { aSplit 0x1000 3 with state := .parked })] });
      i.work.waveAt 0 0 = some 1 ∧ (i.wave 1).halted = true ∧ (i.wave 1).recorded = false ∧ (i.wave 1).entering = none ∧
      i.dev.sys.cur.map (·.wid) ≠ some 1) ∧
    (sHalted true).work.waveAt 0 0 = some 1 ∧ (sHalted true).work.conf ((sHalted true).wave 1).ctx = true := by
  decide

/-- A counter that stands over. -/
def sOver : State := live (withC fun c => { c with pmcs := [(7, { Pmc.blank with past := 2 ^ 63 })] })

theorem witness_FreezesAndCounters :
    (mget (s0.core 0).pmcs (7#3).toNat Pmc.blank).past = 0 ∧ (mget (sOver.core 0).pmcs (7#3).toNat Pmc.blank).past ≠ 0 ∧
    Safe sOver ∧ s0.dev.tail.sen = false :=
  ⟨by decide, by decide, rfl, by decide⟩

/-- A request to attest an empty range: at AIN a block of zeros. -/
def sAttest : State := live fun d => { d with sec := { d.sec with ain := 64, aout := 4096 } }

/-- A part whose mailbox takes commands of port 0. -/
def sManaged : State := outside fun d => { d with hub := { d.hub with access := [(88 * 8 + 64, 0x8008)] } }

theorem witness_RegistersAndAttestation :
    (0x3FFFFFFF#32).toNat < 2 ^ 30 ∧ (portOf s0 false).up = false ∧ (portOf sManaged false).up = true ∧
    (portOf sManaged false).fn0Frozen = false ∧ sManaged.dev.tail.frozen = false ∧ sManaged.dev.hub.busy = false ∧
    (mget sManaged.dev.hub.access (88 * 8 + 64) 0).getLsbD 15 = true ∧
    (mget sManaged.dev.hub.access (88 * 8 + 64) 0).getLsbD 3 = true ∧
    (∀ x ∈ [(0x3F01#64, Instr.create 63), (0x20010, .setvw 2)], (x.1.toNat % 256, x.2) ∈
      (fun c => [(1, Instr.create c), (2, .destroy c), (3, .suspend c), (4, .resume c), (5, .status c),
        (16, .setvw (BitVec.ofNat 2 (x.1.toNat / 2 ^ 16)))]) (BitVec.ofNat 6 (x.1.toNat / 256))) ∧
    (let q := sAttest.work.bytes (PAddr.host sAttest.dev.sec.ain.toNat).key 64;
      Safe sAttest ∧ sAttest.dev.sec.ain.toNat % 64 = 0 ∧ sAttest.dev.sec.aout.toNat % 64 = 0 ∧ leNat (slice q 48 16) = 0 ∧
      (le64 q 40).toNat ≤ 2 ^ 30 ∧ (mget? sAttest.dev.ctxs (1#6).toNat).isSome = true ∧
      sAttest.work.rawRange (1#6).toNat (le64 q 32).toNat (le64 q 40).toNat = some []) ∧
    Safe s0 ∧ (live fun d => { d with sec := { d.sec with ain := 63 } }).dev.sec.ain.toNat % 64 ≠ 0 ∧
    -- an id without a context, and a range that is not mapped
    mget? sAttest.dev.ctxs (2#6).toNat = none ∧
    (let s : State := { sAttest with mem := [(8 * (64 + 40) + 1, 1)] };
      let q := s.work.bytes (PAddr.host s.dev.sec.ain.toNat).key 64;
      (le64 q 40).toNat ≤ 2 ^ 30 ∧ leNat (slice q 48 16) = 0 ∧ (mget? s.dev.ctxs (1#6).toNat).isSome = true ∧
        s.work.rawRange (1#6).toNat (le64 q 32).toNat (le64 q 40).toNat = none) :=
  ⟨by decide, by decide, by decide, by decide, by decide, by decide, by decide, by decide, by decide,
    ⟨rfl, by decide, by decide, by decide, by decide, by decide, by decide +kernel⟩, rfl, by decide, by decide,
    ⟨by decide, by decide, by decide, by decide +kernel⟩⟩

/-! ### Witnesses: steps -/

/-- The mapped part between two steps: no bundle in progress, and an agenda; the top byte of the bundle at 0x1000 as given. -/
def ready1 (top : Byte) (ag : List Turn) (f : Dev → Dev) : State :=
  let s := mappedWith fun d => f { d with sys := { d.sys with cur := none, agenda := ag } }
  { s with mem := s.mem ++ (if top = 0 then [] else [(8 * (2 ^ 26 + 0x1007), top)]) }
/-- The working state of the fetch. -/
def turnOf (s : State) (f : Sys → Sys) : Work := (withSys s fun y => { f y with cur := some c0 }).work
def drop (y : Sys) : Sys := { y with agenda := [] }

theorem issues_agenda {s : State} (h : s.dev.tail.frozen = false ∧ s.dev.sys.agenda = [.issue 0 0 0] ∧
    (s.work.selectFor 0 0 0).map (fun k => (k.core, k.slot, k.cur)) = some (0, 0, c0)) : IssuesNext s c0 (turnOf s drop) := by
  obtain ⟨k, hk, h2⟩ := Option.map_eq_some_iff.1 h.2.2
  simp only [Prod.mk.injEq] at h2
  exact .inl ⟨0, 0, 0, [], k, h.1, h.2.1, hk, h2.2.2, by
    simp only [h2.1, h2.2.1, h2.2.2, c0, and_self, if_true]; rfl⟩

theorem witness_StepKeepsMemory : Safe State.reset ∧ ∃ t, step State.reset = .next t := ⟨rfl, _, rfl⟩

def fetchOk (s : State) (u : Work) (bad : Bool) : Bool :=
  (match u.check 1 ((s.wave 1).coreOf) ((s.wave 1).split 0).pc.toNat .x with
    | (.ok p, w) => w.badData p.key 8 == bad
    | _ => false) && (u.matchOf (s.wave 1) ((s.wave 1).split 0)).isNone

theorem witness_StepRunsDecoded :
    let s := ready1 0 [.issue 0 0 0] id
    let e := ready1 0x80 [.issue 0 0 0] id
    let x := ready1 0 [.issue 0 0 0] fun d => { d with bad := [8 * (2 ^ 26 + 0x1003)] }
    let m := ready1 0 [.issue 0 0 0] fun d => { d with
      ctxs := d.ctxs.map fun c => (c.1, { c.2 with pcm := [(3, 0x1000, 0x3000)] }) }
    let n : State := { s0 with dev := { s0.dev with sys := { s0.dev.sys with cur := none, agenda := [.issue 0 0 0] } } }
    IssuesNext s c0 (turnOf s drop) ∧ fetchOk s (turnOf s drop) false = true ∧ decode 0 = .ok (.iadd p0 (.v 0) (v 0) (.reg (v 0))) ∧
    IssuesNext e c0 (turnOf e drop) ∧ fetchOk e (turnOf e drop) false = true ∧
    decode 0x8000_0000_0000_0000 = .error ⟨.future, false, false⟩ ∧
    IssuesNext x c0 (turnOf x drop) ∧ fetchOk x (turnOf x drop) true = true ∧
    IssuesNext m c0 (turnOf m drop) ∧ ((turnOf m drop).matchOf (m.wave 1) ((m.wave 1).split 0)).isSome = true ∧
    IssuesNext n c0 (turnOf n drop) ∧
    ((turnOf n drop).matchOf (n.wave 1) ((n.wave 1).split 0)).isSome = false ∧
    ((turnOf n drop).check 1 ((n.wave 1).coreOf) ((n.wave 1).split 0).pc.toNat .x).1 = .page 0 0 ∧
    -- without an agenda the candidate of an issue turn issues
    (let s := ready1 0 [] id;
      s.dev.sys.agenda = [] ∧ s.dev.sys.powered = true ∧ s.dev.sys.phase = 0 ∧ s.work.select.map (·.cur) = some c0) ∧
    -- an entry of the agenda that names no candidate leaves it
    (let s := ready1 0 [.issue 0 0 7] id;
      s.work.selectFor 0 0 7 = none ∧ TurnOf s (withSys s fun y => { y with agenda := [] }) ∧ TurnOf State.reset State.reset) ∧
    (ready1 0 [.event .powerOff] id).dev.sys.agenda = [.event .powerOff] ∧
    (State.reset.dev.sys.agenda = [] ∧ State.reset.dev.sys.powered = true ∧ State.reset.dev.sys.phase = 0 ∧
      State.reset.work.select = none) ∧
    2 ≤ (live fun d => { d with sys := { d.sys with phase := 2 } }).dev.sys.phase ∧
    (live fun d => { d with sys := { d.sys with powered := false } }).dev.sys.powered = false ∧
    -- a frozen part, whose agenda holds what it serves behind what waits, or nothing
    (let z := fun ag => live fun d => { d with sys := { d.sys with agenda := ag }, tail := { d.tail with frozen := true } };
      ∀ ag, (z ag).dev.tail.frozen = true ∧ firstSome [.issue 0 0 0, .event .stallSample, .event .freezeResume] servedFrozen =
        some .freezeResume ∧ firstSome (z []).dev.sys.agenda servedFrozen = none) :=
  ⟨issues_agenda (by decide), by decide, rfl, issues_agenda (by decide), by decide, rfl, issues_agenda (by decide), by decide,
    issues_agenda (by decide), by decide, issues_agenda (by decide), by decide, by decide,
    ⟨by decide, by decide, by decide, by decide⟩,
    ⟨by decide, ⟨rfl, .inr ⟨0, 0, 7, [], rfl, by decide, rfl⟩⟩, rfl, .inl ⟨rfl, rfl⟩⟩, by decide, ⟨by decide, by decide, by decide, by decide⟩, by decide, by decide,
    fun _ => ⟨rfl, rfl, rfl⟩⟩

/-! ### Witnesses: the completion statement of barriers, CSRW and the events -/

theorem witness_BarriersCsrAndEventsComplete :
    (let t := sBar (aBar 2);
      CanIssue s0 c0 p0 ⟨bariUses (.imm 0xFFFF 255), none⟩ ownLane ∧ (s0.iss c0 p0).act.head? = some 0 ∧
      (barOf s0 c0 p0 15).arrived = 0 ∧ (barOf s0 c0 p0 15).pend = 0 ∧
      popcount ((bariArgs s0 c0 p0 (.imm 0xFFFF 255) 0).1 &&& s0.work.livingWaves (s0.iss c0 p0).bid) +
        (bariArgs s0 c0 p0 (.imm 0xFFFF 255) 0).2 ≠ 0 ∧
      CanIssue t c0 p0 ⟨[], some (.v 31, 1)⟩ ownLane ∧ mayArrive t c0 p0 15 ∧ (t.iss c0 p0).act ≠ [] ∧
      (barOf t c0 p0 15).wavesIn &&& waveBit t c0 = 0 ∧ (barOf t c0 p0 15).arrived + 1 ≠ (barOf t c0 p0 15).expected) ∧
    (let t := sBar (aBar 1);
      CanIssue t c0 p0 ⟨[], some (.v 0, 1)⟩ ownLane ∧ mayArrive t c0 p0 15 ∧ (t.iss c0 p0).act ≠ [] ∧
      (barOf t c0 p0 15).wavesIn &&& waveBit t c0 = 0 ∧ (barOf t c0 p0 15).eng = 0 ∧
      (barOf t c0 p0 15).arrived + 1 = (barOf t c0 p0 15).expected ∧ ∀ w ∈ t.dev.waves, ∀ x ∈ w.2.splits, x.wait = none) ∧
    CanWriteCsr s0 c0 p0 (v 1) 0x022 ∧ CanWriteCsr s0 c0 p0 (v 31) 0x020 ∧
    (s0.wave c0.wid).longPending (s0.iss c0 p0).act = false ∧ (s0.iss c0 p0).act.head? = some 0 ∧
    (∃ q x, mget? ((queued 0 0 [] 63).ctx (1#6).toNat).tasks.queues (queueKey 0 0) = some q ∧ q ≠ [] ∧ queueFull q = true ∧
      ((queued 0 0 [] 63).ctx (1#6).toNat).tasks.takeSeg ((queued 0 0 [] 63).ctx (1#6).toNat).rec_.segments = some x) ∧
    (let t := queued 0 2 [{ aTask with pri := 2 }] 1;
      (queuedOf t (1#6).toNat).find? (fun r => r.seq.toNat == 9) = some { aTask with pri := 2 } ∧
      (t.ctx (1#6).toNat).state = .running ∧ t.work.promotionDue (1#6).toNat { aTask with pri := 2 } = true) ∧
    (let t := queued 0 0 [aTask] 1;
      queueRecs (mget (t.ctx (1#6).toNat).tasks.queues (queueKey 0 0) []) = [aTask] ∧
      (∀ q ∈ (t.ctx (1#6).toNat).tasks.groups, ∀ g ∈ q.2, ∀ x ∈ g.tasks, x.seq ≠ aTask.seq) ∧
      1 ≤ (t.ctx (1#6).toNat).tasks.queueRoom (t.ctx (1#6).toNat).rec_.segments 23 0 ∧
      t.work.scanned 0 = [⟨1, aTask, false⟩] ∧ (mget (t.ctx 1).tasks.groups 0 []).find? (fun g => g.keyOf aTask) = none ∧
      t.work.openGroups 0 < 8) ∧
    (((grouped false 7).work.groupsOf 0)[0]? = some (1, aGroup false) ∧
      (grouped false 7).work.windowPassed 1 (aGroup false) = true ∧
      aGroup false ∈ mget ((grouped false 7).ctx 1).tasks.groups 0 []) ∧
    ((grouped true 7).work.nextGroup 0 = some 0 ∧ ((grouped true 7).work.groupsOf 0)[0]? = some (1, aGroup true)) ∧
    ((∃ d f, sCommit.work.domain (1#6).toNat 15 = some d ∧ d.tasks = [f] ∧ f.state = .finished ∧ f.drop = false) ∧
      OwnDeps sCommit (1#6).toNat 15) ∧
    ((sRecord 0).work.oldestRecord = some (aRecord 0) ∧ (∃ e a lv, walk (sRecord 0).work 1 (0 * 65536) = .leaf e a lv) ∧
      (∀ x ∈ (aRecord 0).waiters, ∃ wid l g, x = .split wid l g) ∧ (sRecord 0).dev.mmu.short = []) ∧
    ((sLeave false).work.evacRuns = true ∧ (sLeave false).work.anyPort = false) ∧
    ((sLeave true).work.evacRuns = true ∧ (sLeave true).work.anyPort = true ∧
      (sLeave true).work.evacOrder.find? (sLeave true).work.allSent = none ∧
      (sLeave true).work.nextSent = some (.page ⟨1, 0, 4, 0x4000, 0x400003F⟩)) ∧
    (sSystem.work.anyPort = true ∧ sSystem.work.sysBack (1#6).toNat = true ∧
      (sSystem.ctx (1#6).toNat).state = .returning ∧ sSystem.dev.hub.links = []) ∧
    (Safe sReturn ∧ (mget? sReturn.dev.ctxs (1#6).toNat).isSome = true ∧ leafReqOk aLeaf = true ∧
      (sReturn.ctx (1#6).toNat).mem.sysAway = false ∧ aLeaf.v = true ∧ aLeaf.kind ≠ 0 ∧
      (sReturn.work.leafAt (1#6).toNat aLeaf.va.toNat aLeaf.level).getD 0 % 2 = 0 ∧
      ∃ at_ w, sReturn.work.entryFor (1#6).toNat aLeaf.va.toNat (sReturn.ctx (1#6).toNat).rec_.root aLeaf.level tableLevels =
        (some at_, w) ∧ w.num (PAddr.hbm at_).key 8 % 2 = 0) := by
  unfold OwnDeps mayArrive
  refine ⟨⟨canIssue_of (by decide), by decide, by decide, by decide, by decide, canIssue_of (by decide), by decide, by decide,
      by decide, by decide⟩,
    ⟨canIssue_of (by decide), by decide, by decide, by decide, by decide, by decide, by decide⟩,
    ⟨canIssue_of (by decide), rfl⟩, ⟨canIssue_of (by decide), rfl⟩, by decide, by decide,
    ⟨_, _, rfl, by decide, by decide, rfl⟩, ⟨by decide, by decide, by decide⟩,
    ⟨by decide, by decide, by decide, by decide, by decide, by decide⟩, ⟨by decide, by decide, by decide⟩,
    ⟨by decide, by decide⟩, ⟨⟨_, _, rfl, rfl, rfl, rfl⟩, by decide⟩, ⟨rfl, ⟨_, _, _, rfl⟩, fun x hx => ?_, rfl⟩,
    ⟨by decide +kernel, by decide +kernel⟩, ⟨by decide +kernel, by decide +kernel, by decide +kernel, by decide +kernel⟩,
    ⟨by decide +kernel, by decide, by decide, by decide⟩,
    ⟨rfl, rfl, by decide +kernel, by decide, rfl, by decide, by decide +kernel, _, _, rfl, by decide +kernel⟩⟩
  rcases List.mem_singleton.1 hx with rfl
  exact ⟨1, 0, 0, rfl⟩

/-! ### Decoding: words written out field by field from the encodings of the spec

A word stands as KIND, OPC, GN, GP, D, A, B, C, EA, EB, EC, MOD, IMM19 (R62). -/

def reads (x : BitVec 64 × Instr) : Bool :=
  match decode x.1 with
  | .ok i => i == x.2
  | .error _ => false

theorem test_decode_integer : ([
    (0b00_00000001_0_000_000001_000010_000000_000000_0_0_0_1000_1111111111111111111,
      .isub p0 (.v 1) (v 2) (.imm 0x7FFFF)),
    (0b00_00000010_1_111_111111_111110_111101_000000_0_1_0_0000_0000000000000000000,
      .imul ⟨true, 7⟩ (.k 31) (k 30) (.reg ⟨.k 29, true⟩)),
    (0b00_00000011_0_000_000011_000100_000101_000000_0_0_0_0001_0000000000000000000,
      .imulh p0 (.v 3) (v 4) (.reg (v 5)) true),
    (0b00_00000100_0_000_000001_000010_000011_000100_0_0_1_0000_0000000000000000000,
      .imad p0 (.v 1) (v 2) (v 3) ⟨.v 4, true⟩),
    (0b00_00000101_0_000_000010_000100_000111_000000_0_0_0_0010_0000000000000000000,
      .iadd64 p0 (.v 2) (v 4) (.sx (v 7))),
    (0b00_00000110_0_000_000001_000010_000011_000000_0_0_0_0000_0000000000000000000,
      .idiv p0 (.v 1) (v 2) (v 3) false),
    (0b00_00000111_0_000_000001_000010_000011_000000_0_0_0_0001_0000000000000000000,
      .irem p0 (.v 1) (v 2) (v 3) true),
    (0b00_00001000_0_000_000010_000011_000000_000000_0_0_0_1001_1111111111111111111,
      .imin p0 (.v 2) (v 3) (.imm 0x7FFFF) true),
    (0b00_00001001_0_000_000010_000011_100100_000000_0_0_0_0000_0000000000000000000,
      .imax p0 (.v 2) (v 3) (.reg (k 4)) false),
    (0b00_00001010_0_000_000010_000011_000000_000000_1_0_0_0000_0000000000000000000,
      .iabs p0 (.v 2) ⟨.v 3, true⟩),
    (0b00_00001011_0_000_000010_000011_000000_000000_0_0_0_0000_0000000000000000000,
      .ineg p0 (.v 2) (v 3)),
    (0b00_00001100_0_000_000100_000110_000001_000000_0_0_0_0001_0000000000000000011,
      .lea p0 (.v 4) (v 6) (v 1) true 3),
    (0b00_00001101_0_000_001000_000010_000011_001010_0_0_0_0000_0000000000000000000,
      .imadw p0 (.v 8) (v 2) (v 3) (v 10) false)] : List (BitVec 64 × Instr)).all reads = true := by decide +kernel

theorem test_decode_logic : ([
    (0b00_00010000_0_000_000001_000010_000000_000000_0_0_0_1000_1000000000000000000,
      .and p0 (.v 1) (v 2) (.imm 0x40000)),
    (0b00_00010001_0_000_000001_000010_000011_000000_0_0_0_0000_0000000000000000000,
      .or p0 (.v 1) (v 2) (.reg (v 3))),
    (0b00_00010010_0_000_000001_000010_000011_000000_0_0_0_0000_0000000000000000000,
      .xor p0 (.v 1) (v 2) (.reg (v 3))),
    (0b00_00010011_0_000_000001_000010_000011_000000_0_0_0_0000_0000000000000000000,
      .andn p0 (.v 1) (v 2) (.reg (v 3))),
    (0b00_00010100_0_000_000001_000010_000000_000000_0_0_0_0000_0000000000000000000,
      .not p0 (.v 1) (v 2)),
    (0b00_00010101_0_000_000001_000010_000000_000000_0_0_0_1000_0000000000000011111,
      .shl p0 (.v 1) (v 2) (.imm 31)),
    (0b00_00010110_0_000_000001_000010_000000_000000_0_0_0_1000_0000000000000001000,
      .shr p0 (.v 1) (v 2) (.imm 8)),
    (0b00_00010111_0_000_000001_000010_000011_000000_0_0_0_0000_0000000000000000000,
      .sar p0 (.v 1) (v 2) (.reg (v 3))),
    (0b00_00011000_0_000_000010_000011_000000_000000_0_0_0_1000_0000000000000001000,
      .rotl p0 (.v 2) (v 3) (.imm 8)),
    (0b00_00011001_0_000_000010_000011_000000_000000_0_0_0_0000_0000000000000000000,
      .popc p0 (.v 2) (v 3)),
    (0b00_00011010_0_000_000010_000011_000000_000000_0_0_0_0000_0000000000000000000,
      .clz p0 (.v 2) (v 3)),
    (0b00_00011011_0_000_000010_000011_000000_000000_0_0_0_0000_0000000000000000000,
      .brev p0 (.v 2) (v 3)),
    (0b00_00011100_0_000_000010_000011_000000_000000_0_0_0_1001_0000000010000000100,
      .bfx p0 (.v 2) (v 3) (.imm 4 32) true),
    (0b00_00011101_0_000_000010_000011_000000_000100_0_0_0_1000_0000000000010001000,
      .bfi p0 (.v 2) (v 3) (.imm 8 4) (v 4)),
    (0b00_00011110_0_000_000010_101000_000011_000000_0_0_0_0001_0000000000000000000,
      .bperm p0 (.v 2) (k 8) (v 3) true),
    (0b00_00011111_0_000_000010_000011_000100_000000_0_0_0_1000_0001100000000001000,
      .bsel p0 (.v 2) (v 3) (v 4) (.imm 0xC008))] : List (BitVec 64 × Instr)).all reads = true := by decide +kernel

theorem test_decode_compare : ([
    (0b00_00100000_0_000_000010_000011_000100_000001_0_0_0_0010_0000000000000000000,
      .iset p0 2 (v 3) (.reg (v 4)) .lt true),
    (0b00_00100001_0_000_000010_000011_000000_001111_0_0_0_1000_0000000000000000101,
      .isel p0 (.v 2) (v 3) (.imm 5) 7 true),
    (0b00_00100010_0_000_000010_100100_000000_000000_0_0_0_0001_0000000000000000000,
      .mov p0 (.v 2) (k 4) true),
    (0b00_00100100_0_000_101001_000011_000000_000000_1_0_0_0000_0000000000000011111,
      .movk p0 9 ⟨3, true⟩ 31),
    (0b00_00100101_0_000_000001_000010_000011_000001_0_0_0_0010_0000000000000000000,
      .pset p0 1 2 true 3 false .xor),
    (0b00_00100110_0_000_000000_001001_000000_000000_0_0_0_0001_0000000000011111110,
      .pmov p0 (.put (v 9) 0x7F)),
    (0b00_00100110_0_000_001001_000000_000000_000000_0_0_0_0000_0000000000000000000,
      .pmov p0 (.get (.v 9))),
    (0b00_00110000_0_000_000010_000011_000000_000101_0_0_0_1011_0000000000000011111,
      .shfl p0 (.v 2) ⟨3, false⟩ (.imm 31) 5 .xor),
    (0b00_00110001_0_000_100010_001011_000000_000000_0_0_0_0010_0000000000000000000,
      .vote p0 (.ballot (.k 2)) 3 true),
    (0b00_00110001_0_000_000111_000011_000000_000000_0_0_0_0001_0000000000000000000,
      .vote p0 (.any 7) 3 false),
    (0b00_00110010_0_000_000010_000011_000000_000000_0_0_0_0100_0000000000000000000,
      .redux p0 (.v 2) ⟨3, false⟩ .maxu)] : List (BitVec 64 × Instr)).all reads = true := by decide +kernel

theorem test_decode_float : ([
    (0b00_01000000_0_000_000010_000100_000110_001001_0_0_0_1101_0000000000000000000,
      .fadd p0 true (.st .rd) (.v 2) ⟨v 4, true, false⟩ ⟨v 6, false, true⟩),
    (0b00_01000001_0_000_000001_000010_000011_000110_0_0_0_0010_0000000000000000000,
      .fsub p0 false .dyn (.v 1) ⟨v 2, false, true⟩ ⟨v 3, true, false⟩),
    (0b00_01000010_0_000_000001_000010_000011_000000_0_0_0_0100_0000000000000000000,
      .fmul p0 false (.st .rz) (.v 1) (fv 2) (fv 3)),
    (0b00_01000011_0_000_000001_000010_000011_010000_0_0_0_0000_0000000000000000000,
      .ffma p0 false rn (.v 1) true false (fv 2) (fv 3)),
    (0b00_01000100_0_000_000010_000100_000110_000000_0_0_0_0001_0000000000000000000,
      .fmin p0 true (.v 2) (fv 4) (fv 6)),
    (0b00_01000101_0_000_000001_000010_000011_000000_0_0_0_0000_0000000000000000000,
      .fmax p0 false (.v 1) (fv 2) (fv 3)),
    (0b00_01000110_0_000_000111_000010_000011_000000_0_0_0_0000_0000000000000011100,
      .fset p0 false 7 (fv 2) (fv 3) .geu true),
    (0b00_01000111_0_000_000001_000010_000011_000000_0_0_0_1000_0000000000000000000,
      .fdiv p0 false (.st .ru) (.v 1) (fv 2) (fv 3)),
    (0b00_01001000_0_000_000010_000100_000000_000000_0_0_0_0001_0000000000000000000,
      .fsqrt p0 true rn (.v 2) (fv 4)),
    (0b00_01001001_0_000_000010_000100_000000_000000_0_0_0_0001_0000000000000000000,
      .frcp p0 true rn (.v 2) (fv 4)),
    (0b00_01001010_0_000_000010_000100_000000_000000_0_0_0_0001_0000000000000000000,
      .frsq p0 true rn (.v 2) (fv 4)),
    (0b00_01001011_0_000_000010_000100_000000_000000_0_0_0_0001_0000000000000000000,
      .fexp2 p0 true rn (.v 2) (fv 4)),
    (0b00_01001100_0_000_000010_000100_000000_000000_0_0_0_0001_0000000000000000000,
      .flog2 p0 true rn (.v 2) (fv 4)),
    (0b00_01001101_0_000_000010_000100_000000_000000_0_0_0_0001_0000000000000000000,
      .fsin p0 true rn (.v 2) (fv 4)),
    (0b00_01001110_0_000_000010_000100_000000_000000_0_0_0_0001_0000000000000000000,
      .fcos p0 true rn (.v 2) (fv 4)),
    (0b00_01001111_0_000_000001_000010_000000_000011_0_0_0_0000_0000000000000000000,
      .fclass p0 false (.v 1) ⟨v 2, true, true⟩)] : List (BitVec 64 × Instr)).all reads = true := by decide +kernel

theorem test_decode_convert : ([
    (0b00_01010000_0_000_000010_000100_000000_000000_0_0_0_0101_0000000000000000000,
      .frnd p0 true (.st .rz) (.v 2) (v 4)),
    (0b00_01010001_0_000_000010_000011_000000_000000_0_0_0_0100_0000000000000000011,
      .f2i p0 false (.st .rz) (.v 2) (v 3) 3),
    (0b00_01010010_0_000_000010_000011_000000_000000_0_0_0_0001_0000000000000000001,
      .i2f p0 true rn (.v 2) (v 3) 1),
    (0b00_01010011_0_000_000001_000010_000000_000000_0_0_0_0011_0000000000000000000,
      .f2f p0 true .dyn (.v 1) (v 2)),
    (0b00_01010100_0_000_000001_000010_000000_000000_0_0_0_0001_0000000000000000111,
      .cvt p0 true (.v 1) (v 2) 7),
    (0b00_01010101_0_000_000001_000100_000000_000000_0_0_0_0000_0000000000000000001,
      .cvtp p0 (.v 1) (v 4) 1),
    (0b00_01010110_0_000_000100_000001_000000_000000_0_0_0_0000_0000000000000000001,
      .cvtu p0 (.v 4) (v 1) 1),
    (0b00_01010111_0_011_000000_000000_000000_000000_0_0_0_0000_0000000000000000000,
      .tfence ⟨false, 3⟩),
    (0b00_01100000_0_000_000001_000010_000011_000000_0_0_0_0001_0000000000000000000,
      .hadd2 p0 true rn (.v 1) (fv 2) (fv 3)),
    (0b00_01100001_0_000_000001_000010_000011_000000_0_0_0_0100_0000000000000000000,
      .hmul2 p0 false (.st .rz) (.v 1) (fv 2) (fv 3)),
    (0b00_01100010_0_000_000001_000010_000011_100000_0_0_0_0000_0000000000000000000,
      .hfma2 p0 false rn (.v 1) false true (fv 2) (fv 3)),
    (0b00_01100011_0_000_000100_001000_001100_000000_0_0_0_0000_0000000000000000011,
      .almul p0 rn (.v 4) (v 8) (v 12) 3),
    (0b00_01100100_0_000_000100_001000_001100_000000_0_0_0_0010_0000000000000000001,
      .almac p0 .dyn (.v 4) (v 8) (v 12) 1),
    (0b00_01100101_0_000_000100_001000_000000_000000_0_0_0_0000_0000000000000000010,
      .alconj p0 (.v 4) (v 8) 2),
    (0b00_01100110_0_000_000001_001000_000000_000000_0_0_0_1000_0000000000000000000,
      .alnorm p0 (.st .ru) (.v 1) (v 8) 0),
    (0b00_01100111_0_000_000011_001000_000000_000000_0_0_0_0000_0001111111111111111,
      .altab p0 3 (v 8) 0xFFFF)] : List (BitVec 64 × Instr)).all reads = true := by decide +kernel

theorem test_decode_control : ([
    (0b00_01110001_0_000_000000_000010_000000_000000_1_0_0_0000_1000000000000000000,
      .brx p0 ⟨.v 2, true⟩ 0x40000),
    (0b00_01110010_0_000_000000_000000_000000_000000_0_0_0_0000_0000000000000000101,
      .call p0 5),
    (0b00_01110011_0_000_000000_100010_000000_000000_0_0_0_0000_0000000000000000000,
      .callx p0 (k 2) 0),
    (0b00_01110100_1_001_000000_000000_000000_000000_0_0_0_0000_0000000000000000000,
      .ret ⟨true, 1⟩),
    (0b00_01110101_0_000_000000_000000_000000_000000_0_0_0_0000_0000000000000000000,
      .exit p0),
    (0b00_01110110_0_000_000000_000000_000000_000000_0_0_0_0000_0000000000000000000,
      .merge),
    (0b00_01110111_0_000_000000_000000_000000_000000_0_0_0_0000_0000000000000000000,
      .yield),
    (0b00_01111000_0_000_000000_000000_000000_000000_0_0_0_0000_0000000000000000000,
      .nop p0),
    (0b00_01111001_0_100_000000_000000_000000_000000_0_0_0_0000_0000000000000110001,
      .trap ⟨false, 4⟩ 0x31),
    (0b00_01111010_0_000_000000_000000_000000_000000_0_0_0_0000_0000000000000000000,
      .rtt),
    (0b00_01111011_0_000_000000_000000_000000_000000_0_0_0_0000_0000000000000000000,
      .rts),
    (0b00_01111100_0_000_000000_000000_000000_000000_0_0_0_0000_1111111111111111111,
      .brk p0 0x7FFFF),
    (0b00_11100000_0_000_000010_000000_000000_000000_0_0_0_0000_0000000000000110000,
      .csrr p0 (.v 2) 0x030),
    (0b00_11100001_0_000_000000_000011_000000_000000_0_0_0_0000_0000000000000100010,
      .csrw p0 0x022 (v 3)),
    (0b00_11100010_0_000_000000_111111_000000_000000_0_0_0_0000_0001111111111111111,
      .evt p0 (k 31) 0xFFFF)] : List (BitVec 64 × Instr)).all reads = true := by decide +kernel

theorem test_decode_memory_1 : ([
    (0b00_10000001_0_000_000000_000010_000100_000000_0_0_0_0110_1001000000000000000,
      .st p0 (v 2) (v 4) .b128 .l 0x8000),
    (0b00_10000010_0_000_000101_000010_000000_000000_0_0_0_0011_0000000000000000000,
      .ldr p0 (.v 5) (v 2) .s16 0),
    (0b00_10000011_0_000_000101_000010_000000_000011_0_0_0_0100_0000000000000000100,
      .gath p0 (.v 5) (v 2) .b32 .g 4 3),
    (0b00_10000100_0_000_000000_000010_000101_000010_0_0_0_0100_0010000000000000100,
      .scat p0 (v 2) (v 5) .b32 .c 4 2),
    (0b00_10000101_0_000_000000_000010_000000_000000_0_0_0_0001_0000000000010000000,
      .pref p0 (v 2) true 128),
    (0b00_10010000_0_000_000010_000100_000110_001000_0_0_0_1001_0001011110000000000,
      .atom p0 .cas (.v 2) (v 4) (v 6) (some (v 8)) true .device .acqrel .g),
    (0b00_10010001_0_000_000000_000100_000110_000000_0_0_0_1010_0110100100000000000,
      .red p0 .fadd (v 4) (v 6) false .system true .h),
    (0b00_10010010_0_000_000000_000000_000000_000000_0_0_0_0011_0000000000000000100,
      .fence p0 .full .system),
    (0b00_10010011_0_000_000000_000000_000000_000000_0_0_0_0000_0000000000000000000,
      .ifence p0),
    (0b00_10010100_0_000_000000_000000_000000_000000_0_0_0_0000_0000000000000000000,
      .roinv p0),
    (0b00_10010101_0_000_000000_000010_000011_000100_0_0_0_0000_0000000000000000000,
      .clrset p0 (v 2) (v 3) (v 4)),
    (0b00_10010110_0_000_000001_000010_000000_000000_0_0_0_0000_0000000000010000000,
      .clrget p0 (.v 1) (v 2) 0x80),
    (0b00_10010111_0_000_000001_000010_000000_000000_0_0_0_0000_0000000000000000000,
      .monq p0 (.v 1) (v 2)),
    (0b00_10011000_0_000_000010_000011_000000_000000_0_0_0_0010_0000000000000000000,
      .alloc p0 (.v 2) (v 3) .m64),
    (0b00_10011001_0_000_000000_000010_000000_000000_0_0_0_0000_0000000000000000000,
      .free p0 (v 2)),
    (0b00_10100000_0_000_000001_100010_100011_111111_0_0_1_0011_0000000000000000000,
      .wait p0 (.v 1) ⟨2, false⟩ ⟨3, false⟩ ⟨31, true⟩ true true)] : List (BitVec 64 × Instr)).all reads = true := by decide +kernel

theorem test_decode_memory_2 : ([
    (0b00_10100001_0_000_001111_000000_000000_000000_0_0_0_1000_1111000000000000001,
      .bari p0 15 (.imm 0x8001 7)),
    (0b00_10100010_0_000_111111_001110_000000_000000_0_0_0_0001_0000000000000000000,
      .bara p0 (.k 31) 14 true),
    (0b00_10100011_0_000_000001_001101_000000_000000_0_0_0_0000_0000000000000000000,
      .barq p0 (.v 1) 13)] : List (BitVec 64 × Instr)).all reads = true := by decide +kernel

theorem test_decode_engine_1 : ([
    (0b00_10100100_0_000_000000_000001_000010_000000_0_0_0_1011_0000000000000100000,
      .cpa p0 (v 1) (v 2) none 3 0x20),
    (0b00_10100100_0_000_000000_000001_000010_000011_0_0_0_0010_0000000000000000000,
      .cpa p0 (v 1) (v 2) (some (v 3)) 2 0),
    (0b00_10100101_0_000_001111_001110_000100_000000_0_0_0_0111_0000000000000110010,
      .bcopy p0 true 14 3 2 (some 15) (some (v 4))),
    (0b00_10100110_0_000_001001_000001_000010_000000_0_0_0_0010_0000000000010000001,
      .mcast p0 (v 1) (v 2) 0x81 (some 9)),
    (0b00_10100111_0_000_000000_000000_000000_000000_0_0_0_0000_0000000000001111101,
      .slotf p0 5 15),
    (0b00_10110000_0_000_001111_000010_000000_000000_0_0_0_0000_0000000000001000000,
      .shld p0 15 (v 2) false 0x40),
    (0b00_10110001_0_000_001111_000011_000000_000000_0_0_0_0000_0010000000001000000,
      .shst p0 15 (v 3) true 0x40),
    (0b00_10110010_0_000_001100_000011_000000_000000_0_0_0_0000_0000000000000010011,
      .shset p0 12 .alg (v 3)),
    (0b00_10110011_0_000_000010_001100_000000_000000_0_0_0_0000_0000000000000001000,
      .shget p0 (.v 2) 12 (.str 3)),
    (0b00_10110100_0_000_000100_001100_000110_000000_0_0_0_0111_0000000000000000011,
      .strm p0 true 3 12 (some 4) (some (v 6))),
    (0b00_10110101_0_000_000010_000000_000000_000000_0_0_0_0000_0000000000000000001,
      .strmq p0 (.v 2) 1),
    (0b00_10110110_0_000_000000_000000_000000_000000_0_0_0_0000_0000000000000000010,
      .rsig p0 2),
    (0b00_11000000_0_000_000001_001100_000011_000000_0_0_0_0011_0000000000000000111,
      .mma p0 true true true 12 (v 3) 7),
    (0b00_11000001_0_000_000000_000000_000000_000000_0_0_0_0010_0000000000000000000,
      .mzero p0 true false),
    (0b00_11000010_0_000_000101_001100_000011_000110_0_0_0_0110_0000000000000000000,
      .bld p0 12 (v 3) (some 5) (some (v 6))),
    (0b00_11000011_0_000_000001_001100_001011_000110_0_0_0_1111_0000000000000011010,
      .mdrain p0 true true true 12 (some 11) (some 10) (some (v 6)))] : List (BitVec 64 × Instr)).all reads = true := by decide +kernel

theorem test_decode_engine_2 : ([
    (0b00_11000100_0_000_000000_000011_000000_000000_0_0_0_0000_0010000000100000000,
      .epil p0 (v 3) true 0x100),
    (0b00_11000101_0_000_000011_000000_000000_000000_0_0_0_0000_0000000000000000000,
      .mq p0 (.v 3))] : List (BitVec 64 × Instr)).all reads = true := by decide +kernel

theorem test_decode_task : ([
    (0b00_11010000_0_000_000000_000010_001000_000100_0_0_0_0011_0000000000000001111,
      .spawn p0 3 (v 2) (v 8) (some (15, v 4))),
    (0b00_11010001_0_000_000000_000010_001000_010000_0_0_0_0010_0000000000000000011,
      .spawnf p0 2 (v 2) (v 8) (v 16) 3),
    (0b00_11010010_0_000_000000_000100_000000_000000_0_0_0_0000_0000000000000000000,
      .futnew p0 (v 4) 0),
    (0b00_11010011_0_000_000000_000100_000110_000000_0_0_0_0001_0000000000000010000,
      .futres p0 true (v 4) (v 6) 0x10),
    (0b00_11010100_0_000_000010_000100_000000_000000_0_0_0_0000_0000000000000000000,
      .futget p0 (.v 2) (v 4) 0),
    (0b00_11010110_0_000_000000_000000_000000_000000_0_0_0_0001_0000000000000000000,
      .tabort p0 true),
    (0b00_11010111_0_000_000000_000000_000000_000000_0_0_0_0000_0000000000000000000,
      .tirrev p0)] : List (BitVec 64 × Instr)).all reads = true := by decide +kernel

/-- Pairs: KIND, then OP6, D, A and X13 of each half (R70, R72). -/
theorem test_decode_halves : ([
    (0b01_000001_000001_000010_0000000000000_000010_000011_000000_1111111111111,
      .pairBundle (.rr .iadd (.v 1) (.v 2)) (.ri .iadd (.v 3) 0x1FFF)),
    (0b01_000011_000001_000010_0000000000000_000100_000011_100100_0000000000000,
      .pairBundle (.rr .isub (.v 1) (.v 2)) (.rr .imul (.v 3) (.k 4))),
    (0b01_000101_000001_000010_0000000000000_000110_000111_000111_0000000000000,
      .pairBundle (.rr .and (.v 1) (.v 2)) (.rr .or (.v 7) (.v 7))),
    (0b01_000111_100001_100010_0000000000000_001000_000011_000000_0000000011111,
      .pairBundle (.rr .xor (.k 1) (.k 2)) (.sh .shl (.v 3) 31)),
    (0b01_001001_000001_000000_0000000000001_001010_100011_000000_0000000000100,
      .pairBundle (.sh .shr (.v 1) 1) (.sh .sar (.k 3) 4)),
    (0b01_001011_000001_100010_0000000000000_001100_000011_000000_1000000000000,
      .pairBundle (.rr .mov (.v 1) (.k 2)) (.ri .movi (.v 3) 0x1000)),
    (0b01_001101_000001_000010_0000000000000_001110_100011_100010_0000000000000,
      .pairBundle (.rr .imin (.v 1) (.v 2)) (.rr .imax (.k 3) (.k 2))),
    (0b01_001111_000001_000010_0000000000000_010000_100001_100010_0000000000000,
      .pairBundle (.rr .fadd (.v 1) (.v 2)) (.rr .fsub (.k 1) (.k 2))),
    (0b01_010001_000001_100010_0000000000000_010010_100001_100010_0000000000000,
      .pairBundle (.rr .fmul (.v 1) (.k 2)) (.rr .fmin (.k 1) (.k 2))),
    (0b01_010011_000001_100010_0000000000000_010100_100001_000010_0000000000101,
      .pairBundle (.rr .fmax (.v 1) (.k 2)) (.shfl (.k 1) 2 5)),
    (0b01_010101_000001_000000_0000000000011_010110_100001_000000_0000000000100,
      .pairBundle (.ri .and (.v 1) 3) (.ri .or (.k 1) 4)),
    (0b01_010111_000001_000000_0000000000101_000000_000000_000000_0000000000000,
      .pairBundle (.ri .xor (.v 1) 5) .nop)] : List (BitVec 64 × Instr)).all reads = true := by decide +kernel

/-! ### Well-formedness: an ill-formed term for each check, refused -/

def illFormed (xs : List Instr) : Bool := xs.all fun i => !i.wf
def fo : FSrc := fv 3

theorem test_wf_integer : illFormed [.iadd64 p0 (.v 1) (v 2) (.zx (v 3)), .iadd64 p0 (.v 2) (v 1) (.zx (v 3)),
    .iadd64 p0 (.v 2) (v 4) (.pair (v 3)), .lea p0 (.v 1) (v 2) (v 3) false 0, .lea p0 (.v 2) (v 1) (v 3) false 0,
    .imadw p0 (.v 1) (v 2) (v 3) (v 4) false, .imadw p0 (.v 2) (v 2) (v 3) (v 5) false,
    .bfx p0 (.v 1) (v 2) (.imm 0 33) false, .bfi p0 (.v 1) (v 2) (.imm 0 33) (v 3), .bperm p0 (.v 1) (v 2) (v 3) false,
    .mov p0 (.v 1) (v 2) true, .mov p0 (.v 2) (v 1) true, .shfl p0 (.v 1) ⟨2, false⟩ (.imm 0) 6 .idx,
    .csrr p0 (.v 1) 0x030, .csrr p0 (.v 2) 0x005, .csrw p0 0x032 (v 3)] = true := by decide

theorem test_wf_float : illFormed [.fadd p0 true rn (.v 1) (fv 2) (fv 4), .fadd p0 true rn (.v 2) fo (fv 4),
    .fsub p0 true rn (.v 2) (fv 4) fo, .fmul p0 true rn (.v 2) fo (fv 4), .ffma p0 true rn (.v 1) false false (fv 2) (fv 4),
    .fmin p0 true (.v 1) (fv 2) (fv 4), .fmax p0 true (.v 2) fo (fv 4), .fset p0 true 1 fo (fv 4) .eq false,
    .fdiv p0 true rn (.v 2) (fv 4) fo, .fsqrt p0 true rn (.v 2) fo, .frcp p0 true rn (.v 1) (fv 2), .frsq p0 true rn (.v 2) fo,
    .fexp2 p0 true rn (.v 2) fo, .flog2 p0 true rn (.v 2) fo, .fsin p0 true rn (.v 2) fo, .fcos p0 true rn (.v 2) fo,
    .fclass p0 true (.v 2) fo, .frnd p0 true rn (.v 1) (v 2), .f2i p0 false rn (.v 1) (v 2) 2, .f2i p0 true rn (.v 1) (v 3) 0,
    .i2f p0 false rn (.v 1) (v 3) 3, .i2f p0 true rn (.v 1) (v 3) 0, .f2f p0 true rn (.v 1) (v 3), .f2f p0 false rn (.v 1) (v 2),
    .f2f p0 false (.st .rz) (.v 2) (v 2), .altab p0 0 (v 3) 0] = true := by decide

theorem test_wf_control : illFormed [.brx p0 (v 1) 0, .callx p0 (v 1) 0, .pairBundle (.rr .iadd (.v 1) (.v 2)) (.rr .mov (.v 1) (.k 1)),
    .pairBundle (.rr .mov (.k 1) (.v 1)) (.rr .mov (.k 2) (.v 5)), .pairBundle (.ri .iadd (.v 1) 0) (.ri .iadd (.v 9) 0)] = true := by
  decide

theorem test_wf_memory : illFormed [.ld p0 (.v 1) (v 2) .b64 .g 0, .ld p0 (.v 2) (v 2) .b128 .g 0, .ld p0 (.v 1) (v 3) .b32 .g 0,
    .st p0 (v 2) (v 3) .s8 .c 0, .st p0 (v 2) (v 3) .s16 .c 0, .st p0 (v 3) (v 3) .b32 .g 0, .st p0 (v 2) (v 3) .b64 .g 0,
    .ldr p0 (.v 1) (v 3) .b32 0, .gath p0 (.v 1) (v 3) .b32 .g 0 0, .scat p0 (v 2) (v 3) .s8 .c 0 0, .pref p0 (v 3) false 0,
    .atom p0 .cas (.v 1) (v 2) (v 3) none false .wave .rlx .g, .atom p0 .add (.v 1) (v 2) (v 3) (some (v 4)) false .wave .rlx .g,
    .atom p0 .add (.v 1) (v 2) (v 3) none false .wave .rlx .l, .atom p0 .add (.v 1) (v 2) (v 4) none true .wave .rlx .g,
    .red p0 .exch (v 2) (v 3) false .wave false .g, .red p0 .cas (v 2) (v 3) false .wave false .g,
    .red p0 .add (v 2) (v 3) true .wave false .g, .clrset p0 (v 1) (v 2) (v 3), .clrget p0 (.v 1) (v 3) 0,
    .alloc p0 (.v 1) (v 2) .k64, .free p0 (v 1)] = true := by decide

theorem test_wf_engines : illFormed [.cpa p0 (v 1) (v 3) none 0 0, .bcopy p0 false 0 3 4 none none,
    .bcopy p0 false 0 3 3 none (some (v 1)), .mcast p0 (v 1) (v 2) 0 none, .slotf p0 0 0, .shld p0 0 (v 1) false 0,
    .shst p0 0 (v 1) false 0, .shset p0 0 .base (v 1), .shget p0 (.v 1) 0 (.str 0), .strm p0 false 0 0 none (some (v 1)),
    .bld p0 0 (v 1) none (some (v 3)), .mdrain p0 false false false 0 none none (some (v 1)), .epil p0 (v 1) false 0,
    .spawn p0 0 (v 1) (v 8) none, .spawn p0 0 (v 2) (v 4) none, .spawn p0 0 (v 2) (v 8) (some (0, v 4)),
    .spawn p0 0 (v 2) (v 8) (some (1, v 5)), .spawnf p0 0 (v 2) (v 8) (v 26) 3, .futnew p0 (v 1) 0, .futres p0 false (v 2) (v 3) 0,
    .futget p0 (.v 1) (v 2) 0] = true := by decide

/-- Words that the spec prints beside their assembly. -/
theorem test_decode_examples : ([
    (0x1C00_0000_0007_FFFD, .bra p0 (-3)), (0x1E00_0000_0000_0000, .nop p0), (0x24C0_0000_0000_0000, .ifence p0),
    (0x2500_0000_0000_0000, .roinv p0), (0x1000_20C4_1000_0000, .fadd p0 false rn (.v 2) (fv 3) ⟨v 4, true, false⟩),
    (0x2000_8080_0021_0040, .ld p0 (.v 8) (v 2) .b32 .c 0x40), (0x2040_0106_0028_0000, .st p0 (v 4) (v 6) .b64 .g 0),
    (0x2400_2106_0000_3C00, .atom p0 .add (.v 2) (v 4) (v 6) none false .device .acqrel .g),
    (0x2883_F040_0008_0000, .bara p0 (.k 31) 1 true), (0x2900_0084_1808_0040, .cpa p0 (v 2) (v 4) (some (v 6)) 1 0x40),
    (0x2D00_10C0_0010_0002, .strm p0 false 2 3 (some 1) none), (0x2D80_0000_0000_0002, .rsig p0 2),
    (0x3040_1000_0000_0000, .mzero p0 false true), (0x3080_0066_0000_0000, .bld p0 1 (k 6) none none),
    (0x30C0_0100_0010_0001, .mdrain p0 false false false 4 none (some 1) none),
    (0x3400_0A08_0010_0000, .spawn p0 2 (k 8) (v 8) none), (0x34C0_0106_0000_0000, .futres p0 false (v 4) (v 6) 0),
    (0x3440_0A08_C008_0001, .spawnf p0 1 (k 8) (v 8) (k 16) 1), (0x3480_0100_0000_0000, .futnew p0 (v 4) 0),
    (0x3500_2100_0000_0000, .futget p0 (.v 2) (v 4) 0), (0x35C0_0000_0000_0000, .tirrev p0)] :
      List (BitVec 64 × Instr)).all reads = true := by decide +kernel

/-! ### One step each: results that the spec prints, or that follow by hand from its rules -/

/-- A part whose one split is lane 0 alone, with v and k registers. -/
def with1 (vs ks : List (Nat × Word)) (f : Dev → Dev) : State :=
  live fun d => f (withW (fun x => { oneLane x with vregs := vs, kregs := ks }) d)
/-- After the instruction the v registers hold these. -/
def yields (i : Instr) (s : State) (rs : List (Nat × Word)) : Bool :=
  after (exec i s) fun t => rs.all fun r => (t.wave 1).rd (0, r.1) == r.2
def on (vs : List (Nat × Word)) : State := with1 vs [] id

theorem test_integer :
    yields (.iadd p0 (.v 2) (v 3) (.imm 0x7FFFF)) (on [(3, 0)]) [(2, 0xFFFFFFFF)] ∧
    yields (.isub p0 (.v 3) (v 3) (.reg (v 4))) (on [(3, 1), (4, 2)]) [(3, 0xFFFFFFFF)] ∧
    yields (.imul p0 (.v 2) (v 3) (.reg (v 4))) (on [(3, 0x10001), (4, 0x10001)]) [(2, 0x20001)] ∧
    yields (.imulh p0 (.v 3) (v 4) (.reg (v 5)) true) (on [(4, 0xFFFFFFFF), (5, 2)]) [(3, 1)] ∧
    yields (.imulh p0 (.v 3) (v 4) (.reg (v 5)) false) (on [(4, 0xFFFFFFFF), (5, 2)]) [(3, 0xFFFFFFFF)] ∧
    yields (.imad p0 (.v 2) (v 3) (v 4) (v 5)) (on [(3, 3), (4, 5), (5, 100)]) [(2, 115)] ∧
    yields (.imin p0 (.v 2) (v 3) (.imm 0x7FFFF) true) (on [(3, 7)]) [(2, 7)] ∧
    yields (.imax p0 (.v 2) (v 3) (.imm 0x7FFFF) false) (on [(3, 0x80000000)]) [(2, 0xFFFFFFFF)] ∧
    yields (.lea p0 (.v 4) (v 6) (v 1) false 3) (on [(1, 5), (6, 0x1000), (7, 0x7F00)]) [(4, 0x1028), (5, 0x7F00)] ∧
    yields (.imadw p0 (.v 8) (v 2) (v 3) (v 10) false) (on [(2, 0xFFFFFFFD), (3, 5), (10, 100)]) [(8, 85), (9, 0)] ∧
    yields (.iadd64 p0 (.v 2) (v 4) (.sx (v 6))) (on [(4, 0), (5, 1), (6, 0xFFFFFFFF)]) [(2, 0xFFFFFFFF), (3, 0)] ∧
    yields (.iabs p0 (.v 2) (v 3)) (on [(3, 0x80000000)]) [(2, 0x80000000)] ∧
    yields (.ineg p0 (.v 2) (v 3)) (on [(3, 1)]) [(2, 0xFFFFFFFF)] := by decide +kernel

theorem test_logic :
    yields (.and p0 (.v 2) (v 3) (.imm 0x40000)) (on [(3, 0xFFFFFFFF)]) [(2, 0x40000)] ∧
    yields (.andn p0 (.v 2) (v 3) (.reg (v 4))) (on [(3, 0xFF), (4, 0x0F)]) [(2, 0xF0)] ∧
    yields (.xor p0 (.v 2) (v 3) (.reg (v 4))) (on [(3, 0xFF), (4, 0x0F)]) [(2, 0xF0)] ∧
    yields (.not p0 (.v 2) (v 3)) (on [(3, 0xFF)]) [(2, 0xFFFFFF00)] ∧
    yields (.shl p0 (.v 2) (v 3) (.imm 33)) (on [(3, 1)]) [(2, 2)] ∧
    yields (.sar p0 (.v 2) (v 3) (.imm 4)) (on [(3, 0x80000000)]) [(2, 0xF8000000)] ∧
    yields (.shr p0 (.v 2) (v 3) (.imm 4)) (on [(3, 0x80000000)]) [(2, 0x08000000)] ∧
    yields (.rotl p0 (.v 2) (v 3) (.imm 8)) (on [(3, 0x11223344)]) [(2, 0x22334411)] ∧
    yields (.popc p0 (.v 2) (v 3)) (on [(3, 0xFFFFFFFF)]) [(2, 32)] ∧
    yields (.clz p0 (.v 2) (v 3)) (on [(3, 0x8000)]) [(2, 16)] ∧ yields (.clz p0 (.v 2) (v 3)) (on []) [(2, 32)] ∧
    yields (.brev p0 (.v 2) (v 3)) (on [(3, 3)]) [(2, 0xC0000000)] ∧
    yields (.bfx p0 (.v 2) (v 3) (.imm 4 8) true) (on [(3, 0xF80)]) [(2, 0xFFFFFFF8)] ∧
    yields (.bfi p0 (.v 2) (v 3) (.imm 8 4) (v 4)) (on [(3, 0xA), (4, 0x12345678)]) [(2, 0x12345A78)] ∧
    yields (.bperm p0 (.v 2) (k 8) (v 3) false)
      (with1 [(3, 0x41424344)] [(8, 0x13121110), (9, 0x17161514), (10, 0x1B1A1918), (11, 0x1F1E1D1C)] id) [(2, 0x11121314)] ∧
    yields (.bsel p0 (.v 2) (v 3) (v 4) (.imm 0x0053)) (on [(3, 0x11223344)]) [(2, 0x44332211)] ∧
    yields (.bsel p0 (.v 2) (v 3) (v 4) (.imm 0xC008)) (on [(3, 0x11223344)]) [(2, 0x3344)] := by decide +kernel

theorem test_predicates :
    after (exec (.iset p0 2 (v 3) (.reg (v 4)) .lt true) (on [(3, 1), (4, 0xFFFFFFFF)])) (fun t =>
      ((t.wave 1).lane 0).pred 2) ∧
    after (exec (.pmov p0 (.put (v 9) 0x7F)) (on [(9, 0x84)])) (fun t => ((t.wave 1).lane 0).preds == 0x84) ∧
    after (exec (.pset p0 1 2 true 3 false .xor) (on [])) (fun t => ((t.wave 1).lane 0).pred 1) ∧
    yields (.isel p0 (.v 2) (v 3) (.imm 5) 0 true) (on [(3, 7)]) [(2, 5)] ∧
    yields (.movi p0 (.v 2) 0x87654321) (on []) [(2, 0x87654321)] ∧
    yields (.mov p0 (.v 2) (v 4) true) (on [(4, 1), (5, 2)]) [(2, 1), (3, 2)] ∧
    after (exec (.movk p0 9 ⟨3, false⟩ 1) (live (withW fun x => { x with vregs := [(1024 + 3, 6)] }))) (fun t =>
      (t.wave 1).rd (1, 9) == 6) := by decide +kernel

/-- Both lanes with values of v3. -/
def two (x y : Word) : State := live (withW fun w => { w with vregs := [(3, x), (1024 + 3, y)] })

theorem test_cross_lane :
    yields (.shfl p0 (.v 2) ⟨3, false⟩ (.imm 1) 0 .up) (two 5 6) [(2, 5), (1024 + 2, 5)] ∧
    yields (.shfl p0 (.v 2) ⟨3, false⟩ (.imm 1) 0 .xor) (two 5 6) [(2, 6), (1024 + 2, 5)] ∧
    yields (.vote p0 (.ballot (.v 2)) 1 true) (two 5 6) [(2, 3), (1024 + 2, 3)] ∧
    yields (.redux p0 (.v 2) ⟨3, false⟩ .min) (two 0xFFFFFFFF 6) [(2, 0xFFFFFFFF)] ∧
    yields (.redux p0 (.v 2) ⟨3, false⟩ .minu) (two 0xFFFFFFFF 6) [(1024 + 2, 6)] := by decide +kernel

/-- A flag of FPSR after the instruction. -/
def flags (i : Instr) (s : State) (x : BitVec 7) : Bool := after (exec i s) fun t => ((t.wave 1).lane 0).fpsr == x

theorem test_float :
    yields (.fadd p0 false rn (.v 2) (fv 3) ⟨v 4, true, false⟩) (on [(3, 0x3FC00000), (4, 0x3E800000)]) [(2, 0x3FA00000)] ∧
    yields (.fmax p0 false (.v 2) (fv 3) (fv 4)) (on [(3, 0x80000000), (4, 0)]) [(2, 0)] ∧
    yields (.ffma p0 false rn (.v 2) false false (fv 3) (fv 4)) (on [(2, 0x3F800000), (3, 0x40000000), (4, 0x40400000)])
      [(2, 0x40E00000)] ∧
    after (exec (.fset p0 false 1 (fv 3) (fv 4) .lt false) (on [(3, 0x3F800000), (4, 0x7FC00000)])) (fun t =>
      !((t.wave 1).lane 0).pred 1) ∧
    after (exec (.fset p0 false 1 (fv 3) (fv 4) .ltu false) (on [(3, 0x3F800000), (4, 0x7FC00000)])) (fun t =>
      ((t.wave 1).lane 0).pred 1 && ((t.wave 1).lane 0).fpsr == 0) ∧
    yields (.fclass p0 false (.v 2) (fv 3)) (on [(3, 1)]) [(2, 0x20)] ∧
    yields (.frnd p0 false (.st .rd) (.v 2) (v 3)) (on [(3, 0xC0200000)]) [(2, 0xC0400000)] ∧
    yields (.f2i p0 false (.st .rz) (.v 2) (v 3) 0) (on [(3, 0xC0FCCCCD)]) [(2, 0xFFFFFFF9)] ∧
    yields (.f2f p0 true rn (.v 2) (v 4)) (on [(4, 0x10000000), (5, 0x3FF00000)]) [(2, 0x3F800000)] ∧
    flags (.f2f p0 true rn (.v 2) (v 4)) (on [(4, 0x10000000), (5, 0x3FF00000)]) 0x10 ∧
    yields (.i2f p0 false rn (.v 2) (v 3) 0) (on [(3, 0xFFFFFFFE)]) [(2, 0xC0000000)] ∧
    yields (.hmul2 p0 true rn (.v 2) (fv 3) (fv 4)) (on [(3, 0x40003F80), (4, 0x4040C000)]) [(2, 0x40C0C000)] := by
  decide +kernel

/-- A launch with slot `n`, or the core with the algebra table al1. -/
def slotted (n : Nat) (slot : BitVec 64) (vs : List (Nat × Word)) : State :=
  with1 vs [] (withL fun l => { l with slots := List.replicate n 0 ++ [slot] })
/-- The quaternions: 1, i, j, k (R58). -/
def quaternions : List Byte :=
  [4, 0x0E, 0, 0] ++ [0x08, 0x09, 0x0A, 0x0B, 0, 0, 0, 0, 0x09, 0x10, 0x0B, 0x12, 0, 0, 0, 0,
    0x0A, 0x13, 0x10, 0x09, 0, 0, 0, 0, 0x0B, 0x0A, 0x11, 0x10, 0, 0, 0, 0] ++ List.replicate 32 0
def algebra (vs : List (Nat × Word)) : State := with1 vs [] (withC fun c => { c with al := [(1, quaternions)] })

theorem test_slots_and_algebra :
    yields (.cvt p0 false (.v 2) (v 3) 3) (slotted 3 0x3C00000000000003 [(3, 0x3CBC6A7F)]) [(2, 0x67)] ∧
    yields (.cvt p0 true (.v 4) (v 2) 3) (slotted 3 0x3C00000000000003 [(2, 0x67)]) [(4, 0x3CBE0000)] ∧
    yields (.cvtu p0 (.v 8) (v 3) 1) (slotted 1 0x21 [(3, 0xC0003F00)]) [(8, 0x3F000000), (9, 0xC0000000)] ∧
    yields (.alconj p0 (.v 4) (v 4) 1) (algebra [(4, 0x3F000000), (5, 0xC0000000), (6, 0), (7, 0x40400000)])
      [(4, 0x3F000000), (5, 0x40000000), (6, 0x80000000), (7, 0xC0400000)] ∧
    yields (.alnorm p0 rn (.v 2) (v 8) 1) (algebra [(8, 0x3F800000), (9, 0x40000000), (10, 0x40000000), (11, 0x40800000)])
      [(2, 0x41C80000)] := by decide +kernel

/-- The values that a lane's first outstanding producer brings. -/
def brings (i : Instr) (s : State) (vs : List Word) : Bool :=
  after (exec i s) fun t => ((t.wave 1).outs.map fun o => o.2.vals) == [vs]

/-- Scratchpad bytes of block 1 from 0x140 on, and 1 KiB of it. -/
def scratched (bs : List Byte) (vs : List (Nat × Word)) : State :=
  let s := with1 vs [] (withL fun l => { l with beta := 1024 })
  { s with mem := bs.zipIdx.map fun x => ((PAddr.scratch 1 (0x140 + x.2)).key, x.1) }

theorem test_producers :
    brings (.idiv p0 (.v 2) (v 3) (v 4) false) (on [(3, 0xFFFFFFF9), (4, 2)]) [0xFFFFFFFD] ∧
    brings (.irem p0 (.v 2) (v 3) (v 4) false) (on [(3, 0xFFFFFFF9), (4, 2)]) [0xFFFFFFFF] ∧
    brings (.idiv p0 (.v 2) (v 3) (v 4) false) (on [(3, 7)]) [0xFFFFFFFF] ∧
    brings (.idiv p0 (.v 2) (v 3) (v 4) false) (on [(3, 0x80000000), (4, 0xFFFFFFFF)]) [0x80000000] ∧
    brings (.fsqrt p0 false (.st .rz) (.v 2) (fv 3)) (on [(3, 0x40000000)]) [0x3FB504F3] ∧
    brings (.fsqrt p0 false (.st .ru) (.v 2) (fv 3)) (on [(3, 0x40000000)]) [0x3FB504F4] ∧
    brings (.frcp p0 false rn (.v 2) (fv 3)) (on [(3, 0x40000000)]) [0x3F000000] ∧
    after (exec (.longOpComplete 1 6) sOuts) (fun t => (t.wave 1).rd (0, 3) == 1 && (t.wave 1).stat (0, 3) == none &&
      ((t.wave 1).lane 0).fpsr == 32) := by decide +kernel

theorem test_memory :
    brings (.ld p0 (.v 8) (v 2) .b32 .c 0x40) (scratched [0x78, 0x56, 0x34, 0x92] [(2, 0x100)]) [0x92345678] ∧
    brings (.ld p0 (.v 8) (v 2) .s16 .c 0x42) (scratched [0x78, 0x56, 0x34, 0x92] [(2, 0x100)]) [0xFFFF9234] ∧
    brings (.ld p0 (.v 8) (v 2) .u8 .c 0x43) (scratched [0x78, 0x56, 0x34, 0x92] [(2, 0x100)]) [0x92] ∧
    after (exec (.st p0 (v 2) (v 4) .b64 .c 0x40) (scratched [] [(2, 0x100), (4, 0x11223344), (5, 0x55667788)])) (fun t =>
      (List.range 8).map (fun i => t.byte (PAddr.scratch 1 (0x140 + i)).key) ==
        [0x44, 0x33, 0x22, 0x11, 0x88, 0x77, 0x66, 0x55]) ∧
    after (exec (.st p0 (v 2) (v 4) .u8 .c 0x41) (scratched [1, 2, 3] [(2, 0x100), (4, 0xAABB)])) (fun t =>
      (List.range 3).map (fun i => t.byte (PAddr.scratch 1 (0x140 + i)).key) == [1, 0xBB, 3]) ∧
    brings (.atom p0 .add (.v 2) (v 4) (v 6) none false .block .rlx .c) (scratched [10] [(4, 0x140), (6, 1)]) [10] ∧
    after (exec (.red p0 .add (v 4) (v 6) false .block false .c) (scratched [10] [(4, 0x140), (6, 1)])) (fun t =>
      t.byte (PAddr.scratch 1 0x140).key == 11) ∧
    after (exec (.atom p0 .cas (.v 2) (v 4) (v 6) (some (v 8)) false .block .rlx .c)
      (scratched [10] [(4, 0x140), (6, 1), (8, 9)])) (fun t => t.byte (PAddr.scratch 1 0x140).key == 10) := by decide +kernel

/-- A store to lane-private bytes takes PHIGH above them, in the lanes that store (R21). -/
theorem test_phigh :
    after (exec (.st p0 (v 2) (v 4) .b32 .l 4) (sDeep 0 64 [])) (fun t =>
      ((t.wave 1).lane 0).phigh == 8 && ((t.wave 1).lane 1).phigh == 8) ∧
    after (exec (.st p0 (v 2) (v 4) .b32 .c 4) (sDeep 0 64 [])) (fun t => ((t.wave 1).lane 0).phigh == 0) := by
  decide +kernel

theorem test_control :
    after (exec (.bra p0 (-3)) s0) (fun t => ((t.wave 1).split 0).pc == 0xFE8) ∧
    after (exec (.call p0 5) sPush) (fun t => ((t.wave 1).split 0).pc == 0x1028 && ((t.wave 1).lane 0).wdepth == 4095 &&
      ((t.wave 1).lane 0).head.rpc == 0x1008) ∧
    after (exec (.ret p0) sFill) (fun t => ((t.wave 1).lane 0).wdepth == 1) ∧
    after (exec (.exit p0) s0) (fun t => (t.wave 1).living == []) ∧
    after (exec (.nop ⟨true, 0⟩) s0) (fun t => ((t.wave 1).split 0).pc == 0x1008) ∧
    after (exec (.trap p0 0x31) sTvec) (fun t => ((t.wave 1).split 0).pc == 0x2000 && (t.wave 1).tlevel == 1 &&
      (mget? (t.wave 1).traps 1) == some ⟨0x0F, 0x1008, 3, 0, 0x31⟩) ∧
    after (exec (.brk p0 7) sTvec) (fun t => (mget? (t.wave 1).traps 1) == some ⟨0x10, 0x1000, 3, 0, 7⟩) ∧
    after (exec (.illegalBundle .future false false) sTvec) (fun t => (mget? (t.wave 1).traps 1).map (·.cause) == some 1) ∧
    after (exec (.csrr p0 (.v 1) 0x000) s0) (fun t => (t.wave 1).rd (0, 1024 + 1) == 1) ∧
    after (exec (.csrw p0 0x022 (v 3)) (on [(3, 2)])) (fun t => (t.wave 1).frm == 2) ∧
    yields (.pairBundle (.rr .mov (.v 1) (.v 2)) (.rr .mov (.v 2) (.v 1))) (on [(1, 5), (2, 6)]) [(1, 6), (2, 5)] := by
  decide +kernel

theorem test_waits_and_colours :
    yields (.barq p0 (.v 2) 15) (live (withB fun x => { x with bars := [(15, { Barrier.blank with
      members := 3, wavesIn := 1, expected := 3, arrived := 1, eng := 1, init := true })] })) [(2, 0x00300108)] ∧
    yields (.monq p0 (.v 3) (k 9)) (live fun d => { withW (fun x => { x with
        kregs := [(9, 5)], lanes := [(0, { aLane with held := [(0, 5)] }), (1, aLane)] }) d with
      ctxs := [(1, { Context.blank with dir := [(5, ⟨some ⟨1, 0⟩, none, [⟨2, 0⟩, ⟨2, 1⟩]⟩)] })] })
      [(3, 0x400B), (1024 + 3, 0x400A)] ∧
    yields (.mq p0 (.v 3)) s0 [(3, 0)] ∧
    yields (.tself p0 (.v 3)) (ordered true) [(3, 0x2001)] ∧
    after (exec (.shset p0 3 .slots (v 9)) (on [(9, 4)])) (fun t => shapeSlots (shapeOf t c0 p0 3) == 4) ∧
    after (exec (.slotf p0 1 9) (sRoles id)) (fun t => mget (t.block 2).free 0 0 == 9) := by decide +kernel

theorem test_events :
    after (exec .staticEnergyTick s0) (fun t => t.dev.sys.gtick == 1) ∧
    after (exec (.capWrite 1) s0) (fun t => t.dev.pow.cap == 1) ∧
    after (exec (.thermalThreshold 96) s0) (fun t => t.dev.pow.tlim) ∧
    after (exec (.waveEnd 1) (idle (withW fun x => { x with lanes := [], entries := [] }))) (fun t => t.dev.waves == []) ∧
    after (exec (.doorbellWrite ⟨false, 1⟩ 3) (outside id)) (fun t => (t.ctx 1).tail == 3) ∧
    after (exec .freezeStart (live fun d => { d with tail := { d.tail with arm := true } })) (fun t => t.dev.tail.frozen) := by
  decide +kernel

/-! ### Running an instruction from reset -/

/-- A bundle placed where the next step fetches is the one that runs. -/
theorem test_fetch :
    decodeTableWord 64 0x0000_2084_0000_0000 = some (.iadd p0 (.v 2) (v 2) (.reg (v 4))) ∧
    decodeTableWord 64 0x8000_0000_0000_0000 = none ∧
    after (step (State.reset.withFetchWord 64 0x08C0_2000_0000_0007)) (fun t =>
      t.dev.waves.any fun w => w.2.rd (0, 2) == 7) ∧
    after (step (State.reset.withFetchWord 64 0x1E00_0000_0000_0000)) (fun t =>
      t.dev.waves.any fun w => w.2.entries.any fun e => e.2.pc % 8 == 0) := by
  refine ⟨rfl, rfl, ?_⟩
  decide +kernel

end Sys2Proof.Tests
end

/-! PROOFS. The scope of the part (00): reset, power and the tick, the registers of BAR 0 and attestation. First what finite
maps, writes of memory and records of the Tailstock do, then each part of a tick, then the obligations. -/

namespace Sys2Proof.Machine

/-! ### Finite maps whose values change alike, and lists -/

theorem ite_of_iff {α : Type} {p q : Prop} [Decidable p] [Decidable q] (h : p ↔ q) (x y : α) :
    (if p then x else y) = if q then x else y := ite_congr (propext h) (fun _ => rfl) fun _ => rfl


theorem mget?_map {α β : Type} (m : FMap α) (f : α → β) (k : Nat) :
    mget? (m.map fun c => (c.1, f c.2)) k = (mget? m k).map f := by
  induction m with
  | nil => rfl
  | cons c m ih =>
    simp only [List.map_cons, mget?, ih]
    split <;> rfl

/-- Reading a field that a change of every value keeps, or that the change sets to what the default has. -/
theorem mget_map_field {α γ : Type} (m : FMap α) (f : α → α) (k : Nat) (d : α) (g : α → γ) (hd : g (f d) = g d) :
    g (mget (m.map fun c => (c.1, f c.2)) k d) = g (f (mget m k d)) := by
  simp only [mget, mget?_map]
  cases mget? m k with
  | none => exact hd.symm
  | some x => rfl

theorem mget?_keys {α : Type} (ks : List Nat) (v : α) (k : Nat) :
    mget? (ks.map fun c => (c, v)) k = if k ∈ ks then some v else none := by
  induction ks with
  | nil => rfl
  | cons c ks ih =>
    simp only [List.map_cons, mget?, ih, List.mem_cons]
    by_cases h : c = k
    · simp [h]
    · simp [h, Ne.symm h]

theorem mem_mkeys_of_isSome {α : Type} {m : FMap α} {k : Nat} (h : (mget? m k).isSome = true) : k ∈ mkeys m := by
  induction m with
  | nil => simp at h
  | cons c m ih =>
    simp only [mget?] at h
    simp only [mkeys, List.map_cons, List.mem_cons]
    split at h
    · next hc => exact .inl hc.symm
    · exact .inr (ih h)

theorem nodup_eraseDups {α : Type} [DecidableEq α] : ∀ xs : List α, xs.eraseDups.Nodup
  | [] => by simp
  | x :: xs => by
    rw [List.eraseDups_cons, List.nodup_cons]
    refine ⟨fun h => ?_, nodup_eraseDups _⟩
    simpa using List.mem_eraseDups.mp h
  termination_by xs => xs.length
  decreasing_by simpa [Nat.lt_succ_iff] using List.length_filter_le _ xs

theorem count_of_nodup {α : Type} [DecidableEq α] {xs : List α} (h : xs.Nodup) (k : α) :
    xs.count k = if k ∈ xs then 1 else 0 := by
  induction xs with
  | nil => rfl
  | cons x xs ih =>
    obtain ⟨hx, hn⟩ := List.nodup_cons.mp h
    by_cases hk : x = k
    · subst hk
      rw [List.count_cons_self, List.count_eq_zero.mpr hx, if_pos (List.mem_cons_self ..)]
    · have hm : k ∈ x :: xs ↔ k ∈ xs := by simp only [List.mem_cons, Ne.symm hk, false_or]
      rw [List.count_cons_of_ne hk, ih hn]
      exact ite_of_iff hm.symm 1 0

/-! ### What a step answers -/

theorem commit_work {f : Work → Work} {s : State} {w : Work} (h : f s.work = w) :
    commit f s = .next ⟨applyLog w.log s.mem, w.dev⟩ := by subst h; rfl

theorem commit_dev {f : Work → Work} {s : State} {d : Dev} (h : f s.work = { s.work with dev := d }) :
    commit f s = .next { s with dev := d } := commit_work h

theorem commit_same {f : Work → Work} {s : State} (h : f s.work = s.work) : commit f s = .next s := commit_work h

/-- A working state without a change is the state, and one that answers a condition answers a condition on states. -/
theorem commit_ite {f : Work → Work} {s : State} {p : Prop} [Decidable p] {d : Dev}
    (h : f s.work = if p then { s.work with dev := d } else s.work) :
    commit f s = .next (if p then { s with dev := d } else s) := by
  split
  · next hp => exact commit_dev (h.trans (if_pos hp))
  · next hp => exact commit_same (h.trans (if_neg hp))

/-- What a step answers depends on the meaning at its own state alone. -/
theorem commit_congr {f g : Work → Work} {s : State} (h : f s.work = g s.work) : commit f s = commit g s :=
  (commit_work h).trans (commit_work rfl).symm

/-! ### The meanings of the events of this family -/

theorem exec_powerOnReset (img : BootImage) (s : State) : exec (.powerOnReset img) s = commit (fun w => w.powerOn img) s := rfl
theorem exec_powerOff (s : State) : exec .powerOff s = execPowerOff s := rfl
theorem exec_staticEnergyTick (s : State) : exec .staticEnergyTick s = execStaticEnergyTick s := rfl
theorem exec_capWrite (v : BitVec 64) (s : State) : exec (.capWrite v) s = execCapWrite v s := rfl
theorem exec_thermalThreshold (x : BitVec 8) (s : State) : exec (.thermalThreshold x) s = execThermalThreshold x s := rfl
theorem exec_clockStepChange (s : State) : exec .clockStepChange s = execClockStepChange s := rfl
theorem exec_coreGate (core : Nat) (s : State) : exec (.coreGate core) s = execCoreGate core s := rfl
theorem exec_coreUngate (core : Nat) (s : State) : exec (.coreUngate core) s = commit (fun w => w.wakeCore core) s := rfl
theorem exec_registerWrite (a : BitVec 32) (x : BitVec 64) (s : State) :
    exec (.registerWrite a x) s = execRegisterWrite a x s := rfl
theorem exec_attest (ctx : BitVec 6) (s : State) : exec (.attest ctx) s = execAttest ctx s := rfl

/-! ### Writes of memory -/

@[simp] theorem Work.putBytes_dev (w : Work) (k : Nat) (bs : List Byte) : (w.putBytes k bs).dev = w.dev := by
  induction bs generalizing w k with
  | nil => rfl
  | cons b bs ih => simp [Work.putBytes, ih]

@[simp] theorem Work.putBytes_base (w : Work) (k : Nat) (bs : List Byte) : (w.putBytes k bs).base = w.base := by
  induction bs generalizing w k with
  | nil => rfl
  | cons b bs ih => simp [Work.putBytes, ih]

theorem Work.byte_put (w : Work) (k : Nat) (b : Byte) (j : Nat) :
    ({ w with log := .put k b :: w.log } : Work).byte j = if j = k then b else w.byte j := by
  simp only [Work.byte, logRead]
  by_cases h : j = k
  · simp [h]
  · simp [h, Ne.symm h]

/-- The byte at a key after a write: byte `(j - k) / 8` of what was written, or what stood there. -/
theorem Work.byte_putBytes (w : Work) (k : Nat) (bs : List Byte) (j : Nat) :
    (w.putBytes k bs).byte j = if coversByte k bs.length j then bs.getD ((j - k) / 8) 0 else w.byte j := by
  induction bs generalizing w k with
  | nil =>
    have h : coversByte k 0 j = false := by
      simp only [coversByte, Bool.and_eq_false_iff, decide_eq_false_iff_not]; omega
    simp [Work.putBytes, h]
  | cons b bs ih =>
    rw [Work.putBytes, ih, Work.byte_put]
    simp only [coversByte, Bool.and_eq_true, decide_eq_true_eq, beq_iff_eq, List.length_cons]
    by_cases hj : j = k
    · subst hj
      rw [if_neg (by omega), if_pos rfl, if_pos (by omega)]
      simp
    · by_cases hc : (k + 8 ≤ j ∧ j < k + 8 + 8 * bs.length) ∧ j % 8 = (k + 8) % 8
      · have hi : (j - k) / 8 = (j - (k + 8)) / 8 + 1 := by omega
        rw [if_pos hc, if_pos (by omega), hi, List.getD_cons_succ]
      · rw [if_neg hc, if_neg hj, if_neg (by omega)]

theorem Work.byte_zero (w : Work) (k n j : Nat) :
    (w.zero k n).byte j = if coversByte k n j then 0 else w.byte j := by
  simp only [Work.byte, Work.zero, logRead, coversByte, Bool.and_eq_true, decide_eq_true_eq, beq_iff_eq, and_assoc]
  split <;> rfl

/-- The byte at a key after ranges that begin at some keys are zeroed. -/
theorem Work.byte_zeros (w : Work) (ks : List Nat) (n j : Nat) :
    (ks.foldl (fun w k => w.zero k n) w).byte j = if ks.any fun k => coversByte k n j then 0 else w.byte j := by
  induction ks generalizing w with
  | nil => rfl
  | cons k ks ih =>
    rw [List.foldl_cons, ih, Work.byte_zero, List.any_cons]
    cases coversByte k n j <;> simp

/-- The byte of the state that a working state leaves, in canonical memory. -/
theorem byte_of_work {s : State} (hs : Safe s) {w : Work} (hb : w.base = s.mem) {d : Dev} (k : Nat) :
    (⟨applyLog w.log s.mem, d⟩ : State).byte k = w.byte k := by
  rw [Work.byte_applied w k (hb ▸ hs), hb]
  rfl

/-! ### Records (R380–R383): only memory, the Tailstock and the interrupts of the hub move -/

/-- What the writing of records changes besides memory. -/
structure Recorded (w w' : Work) : Prop where
  base : w'.base = w.base
  dev : w'.dev = { w.dev with tail := w'.dev.tail, hub := { w.dev.hub with msix := w'.dev.hub.msix } }

theorem Recorded.refl (w : Work) : Recorded w w := ⟨rfl, rfl⟩

theorem Recorded.trans {a b c : Work} (h : Recorded a b) (k : Recorded b c) : Recorded a c where
  base := k.base.trans h.base
  dev := by have := k.dev; rw [h.dev] at this; simpa using this

theorem Recorded.modTail (w : Work) (f : Tailstock → Tailstock) : Recorded w (w.modTail f) := ⟨rfl, rfl⟩

theorem Recorded.msix (w : Work) (fn vec : Nat) : Recorded w (w.msix fn vec) := ⟨rfl, rfl⟩

theorem Recorded.putBytes (w : Work) (k : Nat) (bs : List Byte) : Recorded w (w.putBytes k bs) :=
  ⟨Work.putBytes_base .., by simp⟩

theorem trace_recorded (w : Work) (bs : List Byte) : Recorded w (w.trace bs) := by
  simp only [Work.trace]
  split
  · exact .refl w
  · split
    · exact .modTail w _
    · exact (Recorded.putBytes w _ _).trans (.modTail _ _)

theorem report_recorded (w : Work) (cls cause detail addr : Nat) (x : Subject) (hasCtx : Bool) :
    Recorded w (w.report cls cause detail addr x hasCtx) := by
  simp only [Work.report]
  split
  · exact (trace_recorded w _).trans (.modTail _ _)
  · exact (((trace_recorded w _).trans (.putBytes _ _ _)).trans (.modTail _ _)).trans (.msix _ _ _)

theorem recordOf5_recorded (w : Work) (detail pa : Nat) : Recorded w (w.recordOf5 detail pa) := by
  simp only [Work.recordOf5]
  split <;> exact report_recorded ..

/-- With trace and fault log off a report is counted as lost, and nothing is written. -/
theorem report_off {w : Work} (ht : w.dev.tail.ten = false) (hf : w.dev.tail.flen = false)
    (cls cause detail addr : Nat) (x : Subject) (hasCtx : Bool) :
    w.report cls cause detail addr x hasCtx =
      w.modTail fun t => { t with fllost := if t.fllost = BitVec.allOnes 32 then t.fllost else t.fllost + 1 } := by
  simp [Work.report, Work.trace, ht, hf]

/-- The records of a tick's violations leave none of them. -/
theorem flushViolations_recorded (w : Work) :
    Recorded (w.modHub fun h => { h with viols := [] }) w.flushViolations := by
  simp only [Work.flushViolations]
  refine List.foldlRecOn (motive := Recorded _) _ _ (.refl _) fun b hb m _ => hb.trans ?_
  split
  · exact .refl b
  · split
    · exact report_recorded ..
    · split
      · exact recordOf5_recorded ..
      · exact report_recorded ..

theorem flushViolations_none {w : Work} (h : w.dev.hub.viols = []) :
    w.flushViolations = w.modHub fun h => { h with viols := [] } := by
  simp [Work.flushViolations, h]

/-! ### Accounts of contexts in a tick (R363, R365–R367) -/

/-- What the accounts of a tick change: contexts, UNATT and the folds to come. The contexts stay those that there were, and each
has run one tick for each time it stands in `ran`. -/
structure Accounted (w w' : Work) (ran : List Nat) : Prop where
  base : w'.base = w.base
  log : w'.log = w.log
  dev : w'.dev = { w.dev with
    ctxs := w'.dev.ctxs, hub := { w.dev.hub with unatt := w'.dev.hub.unatt, folds := w'.dev.hub.folds } }
  listed : ∀ k, (mget? w'.dev.ctxs k).isSome = (mget? w.dev.ctxs k).isSome
  runt : ∀ k, (w'.ctx k).runt = (w.ctx k).runt + BitVec.ofNat 64 (ran.count k)

theorem Accounted.refl (w : Work) : Accounted w w [] := ⟨rfl, rfl, rfl, fun _ => rfl, fun _ => by simp⟩

theorem Accounted.trans {a b c : Work} {xs ys : List Nat} (h : Accounted a b xs) (k : Accounted b c ys) :
    Accounted a c (xs ++ ys) where
  base := k.base.trans h.base
  log := k.log.trans h.log
  dev := by have := k.dev; rw [h.dev] at this; simpa using this
  listed := fun i => (k.listed i).trans (h.listed i)
  runt := fun i => by rw [k.runt, h.runt, List.count_append, BitVec.ofNat_add, BitVec.add_assoc]

/-- Steps for the elements of a list, each an account of a work that lists the contexts of the first one. -/
theorem Accounted.foldl {α : Type} {w : Work} {g : Work → α → Work} {ran : α → List Nat} {xs : List α}
    (h : ∀ b : Work, (∀ k, (mget? b.dev.ctxs k).isSome = (mget? w.dev.ctxs k).isSome) →
      ∀ x ∈ xs, Accounted b (g b x) (ran x)) :
    Accounted w (xs.foldl g w) (xs.flatMap ran) := by
  suffices key : ∀ b : Work, (∀ k, (mget? b.dev.ctxs k).isSome = (mget? w.dev.ctxs k).isSome) →
      Accounted b (xs.foldl g b) (xs.flatMap ran) from key w fun _ => rfl
  induction xs with
  | nil => exact fun b _ => .refl b
  | cons x xs ih =>
    intro b hb
    have h1 := h b hb x (List.mem_cons_self ..)
    exact h1.trans (ih (fun b hb y hy => h b hb y (List.mem_cons_of_mem _ hy)) _ fun k => (h1.listed k).trans (hb k))

/-- `foldl` for steps that add no running time. -/
theorem Accounted.foldl_none {α : Type} {w : Work} {g : Work → α → Work} {xs : List α}
    (h : ∀ b : Work, (∀ k, (mget? b.dev.ctxs k).isSome = (mget? w.dev.ctxs k).isSome) →
      ∀ x ∈ xs, Accounted b (g b x) []) :
    Accounted w (xs.foldl g w) [] := by
  have hn : (xs.flatMap fun _ => ([] : List Nat)) = [] := by simp
  exact hn ▸ Accounted.foldl (ran := fun _ => []) h

theorem Accounted.modHub (w : Work) (u : Hub → BitVec 64) (f : Hub → List (Nat × Nat)) :
    Accounted w (w.modHub fun h => { h with unatt := u h, folds := f h }) [] :=
  ⟨rfl, rfl, rfl, fun _ => rfl, fun _ => by simp [Work.ctx]⟩

/-- A change of one context that there is. -/
theorem Accounted.modCtx {w : Work} {c : Nat} {f : Context → Context} {ran : List Nat}
    (hc : (mget? w.dev.ctxs c).isSome = true)
    (hr : ∀ k, (if k = c then (f (w.ctx c)).runt else (w.ctx k).runt) = (w.ctx k).runt + BitVec.ofNat 64 (ran.count k)) :
    Accounted w (w.modCtx c f) ran where
  base := rfl
  log := rfl
  dev := rfl
  listed := fun k => by
    rw [Work.modCtx_ctxs, mget?_mput]
    split
    · next h => subst h; exact hc.symm
    · rfl
  runt := fun k => by
    rw [← hr k]
    by_cases h : k = c
    · subst h; simp
    · simp [h, Work.modCtx_ctx_ne _ _ h]

/-- A change of a context's energy. -/
theorem Accounted.modEnergy {w : Work} {c : Nat} {f : Context → Context} (hc : (mget? w.dev.ctxs c).isSome = true)
    (hf : (f (w.ctx c)).runt = (w.ctx c).runt) : Accounted w (w.modCtx c f) [] := by
  refine .modCtx hc fun k => ?_
  by_cases h : k = c
  · subst h; simp [hf]
  · simp [h]

/-- One core's static power (R365). -/
theorem staticCore_accounted (w : Work) (core : Nat) : Accounted w (w.staticCore core) [] := by
  simp only [Work.staticCore]
  split
  · exact .refl w
  · refine (Accounted.foldl_none fun b hb c hc => ?_).trans (.modHub _ _ (·.folds))
    have hl : (mget? w.dev.ctxs c).isSome = true := (List.mem_filter.mp (List.mem_eraseDups.mp hc)).2
    exact .modEnergy ((hb c).trans hl) rfl

/-- The contexts that run in a tick. -/
def Work.running (w : Work) : List Nat := (w.dev.cores.flatMap fun c => c.2.resident).eraseDups

theorem count_running (w : Work) (p : Nat → Bool) (k : Nat) :
    (w.running.flatMap fun c => if p c then [c] else []).count k =
      if p k = true ∧ ∃ x ∈ w.dev.cores, k ∈ x.2.resident then 1 else 0 := by
  have hf : (w.running.flatMap fun c => if p c then [c] else []) = w.running.filter p := by
    induction w.running with
    | nil => rfl
    | cons c cs ih => simp only [List.flatMap_cons, List.filter_cons, ih]; split <;> rfl
  have hn : w.running.Nodup := nodup_eraseDups _
  rw [hf, count_of_nodup (List.Pairwise.filter p hn)]
  refine ite_of_iff ?_ 1 0
  rw [List.mem_filter, Work.running, List.mem_eraseDups, List.mem_flatMap, and_comm]

/-- Running time (R366). -/
theorem runTicks_accounted (w : Work) :
    Accounted w w.runTicks (w.running.flatMap fun c => if (mget? w.dev.ctxs c).isSome then [c] else []) := by
  refine Accounted.foldl fun b hb c _ => ?_
  rw [hb c]
  split
  · next h =>
    refine .modCtx ((hb c).trans h) fun k => ?_
    by_cases hk : k = c
    · subst hk; simp
    · simp [hk, Ne.symm hk]
  · exact .refl b

/-- A context with the sums of its counters added. -/
def Context.summed (c : Context) : Context := { c with energy := c.energy.map fun x => (x.1, x.2.settle) }

/-- The sums of the tick, and the counters that return (R363, R367). -/
theorem settleEnergy_accounted (w : Work) : Accounted w w.settleEnergy [] ∧ w.settleEnergy.dev.hub.folds = [] := by
  refine ⟨?_, rfl⟩
  refine ((Accounted.trans (xs := []) (ys := []) (b := w.modDev _) ?_ (Accounted.foldl_none fun b hb x _ => ?_)).trans
    (.modHub _ (·.unatt) fun _ => []) :)
  · refine ⟨rfl, rfl, rfl, fun k => ?_, fun k => ?_⟩
    · change (mget? (w.dev.ctxs.map fun c => (c.1, c.2.summed)) k).isSome = _
      rw [mget?_map, Option.isSome_map]
    · refine (mget_map_field w.dev.ctxs Context.summed k Context.blank (·.runt) rfl).trans ?_
      simp [Context.summed, Work.ctx]
  · split
    · next h => exact .modEnergy h rfl
    · exact .refl b

/-! ### Cores in a tick (R365, R400, R402) -/

/-- What the clocks of a tick change: the cores, but for who shares their static power, and the agenda. -/
structure Clocked (w w' : Work) : Prop where
  base : w'.base = w.base
  log : w'.log = w.log
  dev : w'.dev = { w.dev with sys := { w.dev.sys with agenda := w'.dev.sys.agenda }, cores := w'.dev.cores }
  resident : ∀ k, (w'.core k).resident = (w.core k).resident

theorem Clocked.refl (w : Work) : Clocked w w := ⟨rfl, rfl, rfl, fun _ => rfl⟩

theorem Clocked.trans {a b c : Work} (h : Clocked a b) (k : Clocked b c) : Clocked a c where
  base := k.base.trans h.base
  log := k.log.trans h.log
  dev := by have := k.dev; rw [h.dev] at this; simpa using this
  resident := fun i => (k.resident i).trans (h.resident i)

theorem Counted.clocked {w w' : Work} {core : Nat} (h : Counted w w' core) : Clocked w w' :=
  ⟨h.base, h.log, h.dev, fun k => by rw [h.core_ k]⟩

theorem Clocked.modCore (w : Work) (c : Nat) (f : Core → Core) (hf : (f (w.core c)).resident = (w.core c).resident) :
    Clocked w (w.modCore c f) where
  base := rfl
  log := rfl
  dev := rfl
  resident := fun k => by
    by_cases h : k = c
    · subst h; simp [hf]
    · rw [Work.modCore_core_ne _ _ h]

theorem clockCores_clocked (w : Work) (n : Nat) :
    Clocked (w.modSys fun y => { y with cyc := y.cyc + n }) (w.clockCores n) := by
  refine List.foldlRecOn (motive := Clocked _) _ _ (.refl _) fun b hb c _ => hb.trans ?_
  split
  · exact .modCore _ _ _ rfl
  · have hc : Clocked b (b.count c.1 (w.ownerCtx c.1) 0x01 (b.cycles c.1 - w.cycles c.1)) := (count_counted ..).clocked
    dsimp only
    split
    · exact hc
    · exact hc.trans (.modCore _ _ _ rfl)

/-- The shares of the next tick (R365): each core lists the contexts of the waves on it. -/
structure Shared (w w' : Work) (ks : List Nat) : Prop where
  base : w'.base = w.base
  log : w'.log = w.log
  dev : w'.dev = { w.dev with cores := w'.dev.cores }
  resident : ∀ k ∈ ks, (w'.core k).resident = (w.wavesOn k).map fun v => v.2.ctx

theorem nextShares_shared (w : Work) : Shared w w.nextShares (mkeys w.dev.cores) := by
  suffices key : ∀ (cs : FMap Core) (b : Work), let w' := cs.foldl (fun w c => w.modCore c.1 fun k => { k with
      resident := (w.wavesOn c.1).map fun v => v.2.ctx, statp := (Config.statpSet c.1 w.gtick.toNat).getD k.statp }) b
      Shared b w' (mkeys cs) ∧ ∀ k, k ∉ mkeys cs → (w'.core k).resident = (b.core k).resident from (key _ w).1
  intro cs
  induction cs with
  | nil => exact fun b => ⟨⟨rfl, rfl, rfl, by simp [mkeys]⟩, fun _ _ => rfl⟩
  | cons c cs ih =>
    intro b
    obtain ⟨h, ho⟩ := ih (b.modCore c.1 fun k => { k with
      resident := (b.wavesOn c.1).map fun v => v.2.ctx, statp := (Config.statpSet c.1 b.gtick.toNat).getD k.statp })
    refine ⟨⟨h.base, h.log, by have := h.dev; simpa using this, fun k hk => ?_⟩, fun k hk => ?_⟩
    · by_cases hin : k ∈ mkeys cs
      · exact h.resident k hin
      · have hc : k = c.1 := (List.mem_cons.mp hk).resolve_right hin
        subst hc
        simpa using ho _ hin
    · simp only [mkeys, List.map_cons, List.mem_cons, not_or] at hk
      simpa [Work.modCore_core_ne _ _ hk.1] using ho k hk.2

/-! ### A whole tick (R3, R365, R366) -/

/-- The clock's move at the end of a tick, with what it puts on the agenda (R373, R384, R390). -/
structure Moved (w w' : Work) : Prop where
  base : w'.base = w.base
  log : w'.log = w.log
  dev : w'.dev = { w.dev with
    sys := { w.dev.sys with gtick := w.dev.sys.gtick + BitVec.ofNat 64 w.dev.hub.tickStep, agenda := w'.dev.sys.agenda }
    hub := { w.dev.hub with tickStep := 1 } }

theorem tick_moved (w : Work) : Moved w w.tick := by
  simp only [Work.tick]
  split
  · exact ⟨rfl, rfl, rfl⟩
  · split <;> exact ⟨rfl, rfl, rfl⟩

@[simp] theorem State.work_ctx (s : State) (c : Nat) : s.work.ctx c = s.ctx c := rfl

/-- What a tick of a running part does to a state, as its obligation says it. -/
structure Ticked (s : State) (w : Work) : Prop where
  log : s.dev.hub.viols = [] → w.log = []
  viols : w.dev.hub.viols = []
  folds : w.dev.hub.folds = []
  gtick : w.dev.sys.gtick = s.dev.sys.gtick + BitVec.ofNat 64 s.dev.hub.tickStep
  tickStep : w.dev.hub.tickStep = 1
  cyc : w.dev.sys.cyc = s.dev.sys.cyc + stepCycles s.dev.pow.step
  waves : w.dev.waves = s.dev.waves
  runt : ∀ c, (w.ctx c).runt = if (mget? s.dev.ctxs c).isSome = true ∧ ∃ x ∈ s.dev.cores, c ∈ x.2.resident then
    (s.ctx c).runt + 1 else (s.ctx c).runt
  resident : ∀ k, (mget? s.dev.cores k).isSome = true → (w.core k).resident = (s.work.wavesOn k).map fun v => v.2.ctx

/-- The stages of a tick, one after the other: static power, the records of violations, running time, the tick's sums, the next
shares, the cores' clocks, and the tick itself. -/
theorem Ticked.of_stages {s : State} {w₁ w₂ w₃ w₄ w₅ w₆ w₇ : Work} (power : Accounted s.work w₁ [])
    (records : Recorded (w₁.modHub fun h => { h with viols := [] }) w₂)
    (silent : w₁.dev.hub.viols = [] → w₂ = w₁.modHub fun h => { h with viols := [] })
    (time : Accounted w₂ w₃ (w₂.running.flatMap fun c => if (mget? w₂.dev.ctxs c).isSome then [c] else []))
    (sums : Accounted w₃ w₄ [] ∧ w₄.dev.hub.folds = []) (shares : Shared w₄ w₅ (mkeys w₄.dev.cores))
    (clocks : Clocked (w₅.modSys fun y => { y with cyc := y.cyc + stepCycles w₂.dev.pow.step }) w₆) (move : Moved w₆ w₇) :
    Ticked s w₇ := by
  obtain ⟨sums, folded⟩ := sums
  have hctxs : w₂.dev.ctxs = w₁.dev.ctxs := by rw [records.dev]; rfl
  have hcores : w₂.dev.cores = s.dev.cores := by rw [records.dev, Work.modHub_cores, power.dev]; rfl
  have hcores4 : w₄.dev.cores = s.dev.cores := by rw [sums.dev, time.dev]; exact hcores
  have hwaves4 : w₄.dev.waves = s.dev.waves := by
    rw [sums.dev, time.dev, records.dev, Work.modHub_waves, power.dev]; rfl
  have hctxs7 : w₇.dev.ctxs = w₄.dev.ctxs := by rw [move.dev, clocks.dev, Work.modSys_ctxs, shares.dev]
  have hhub6 : w₆.dev.hub = w₄.dev.hub := by rw [clocks.dev, Work.modSys_hub, shares.dev]
  have hhub4 : w₄.dev.hub.viols = [] ∧ w₄.dev.hub.tickStep = s.dev.hub.tickStep := by
    rw [sums.dev, time.dev, records.dev, Work.modHub_hub, power.dev]
    exact ⟨rfl, rfl⟩
  have hsys4 : w₄.dev.sys = s.dev.sys := by
    rw [sums.dev, time.dev, records.dev, Work.modHub_sys, power.dev]; rfl
  have hsys6 : w₆.dev.sys.cyc = w₄.dev.sys.cyc + stepCycles w₂.dev.pow.step ∧ w₆.dev.sys.gtick = w₄.dev.sys.gtick := by
    rw [clocks.dev, Work.modSys_sys, shares.dev]; exact ⟨rfl, rfl⟩
  have hpow : w₂.dev.pow = s.dev.pow := by rw [records.dev, Work.modHub_pow, power.dev]; rfl
  refine ⟨fun h => ?_, ?_, ?_, ?_, ?_, ?_, ?_, fun c => ?_, fun k hk => ?_⟩
  · have h1 : w₁.dev.hub.viols = [] := by rw [power.dev]; exact h
    rw [move.log, clocks.log, Work.modSys_log, shares.log, sums.log, time.log, silent h1, Work.modHub_log, power.log]
    rfl
  · rw [move.dev, hhub6]; exact hhub4.1
  · rw [move.dev, hhub6]; exact folded
  · rw [move.dev, hhub6, hhub4.2, hsys6.2, hsys4]
  · rw [move.dev]
  · rw [move.dev, hsys6.1, hsys4, hpow]
  · rw [move.dev, clocks.dev, Work.modSys_waves, shares.dev]; exact hwaves4
  · have h7 : w₇.ctx c = w₄.ctx c := by simp only [Work.ctx, hctxs7]
    have h2 : w₂.ctx c = w₁.ctx c := by simp only [Work.ctx, hctxs]
    have h1 : (w₁.ctx c).runt = (s.ctx c).runt := by simpa using power.runt c
    have hran : (w₂.running.flatMap fun c => if (mget? w₂.dev.ctxs c).isSome then [c] else []).count c =
        if (mget? s.dev.ctxs c).isSome = true ∧ ∃ x ∈ s.dev.cores, c ∈ x.2.resident then 1 else 0 := by
      rw [count_running, hctxs, power.listed, hcores]; rfl
    rw [h7, sums.runt, time.runt, h2, h1, hran]
    split
    · exact BitVec.add_zero _
    · exact (BitVec.add_zero _).trans (BitVec.add_zero _)
  · have h7 : w₇.core k = w₆.core k := by simp only [Work.core]; rw [move.dev]
    have hin : k ∈ mkeys w₄.dev.cores := by rw [hcores4]; exact mem_mkeys_of_isSome hk
    rw [h7, clocks.resident]
    refine (shares.resident k hin).trans ?_
    simp only [Work.wavesOn, hwaves4]
    rfl

/-- A tick of a running part. -/
theorem staticEnergyTick_ticked {s : State} (hf : s.dev.tail.frozen = false) (hp : s.dev.sys.powered = true) :
    ∃ w : Work, exec .staticEnergyTick s = .next ⟨applyLog w.log s.mem, w.dev⟩ ∧ Ticked s w := by
  refine ⟨_, ?_, Ticked.of_stages (Accounted.foldl_none (xs := s.dev.cores) fun b _ c _ => staticCore_accounted b c.1)
    (flushViolations_recorded _) flushViolations_none (runTicks_accounted _) (settleEnergy_accounted _) (nextShares_shared _)
    (clockCores_clocked _ _) (tick_moved _)⟩
  · have hrun : ¬ (s.work.dev.tail.frozen = true ∨ (!s.work.dev.sys.powered) = true) := by simp [State.work, hf, hp]
    rw [exec_staticEnergyTick]
    exact commit_work (if_neg hrun)

/-! ### Power-on and power-off (R9, R398, R403) -/

/-- A core at power-on: a retired one is gated for good, and every other one stands as at reset. -/
theorem mget_gated (p : Nat → Bool) (k : Nat) :
    (mget (((List.range Config.cores).filter p).map fun c => (c, { Core.reset with gated := true })) k Core.reset).gated =
      (decide (k < 192) && p k) := by
  have hm : k ∈ (List.range Config.cores).filter p ↔ (decide (k < 192) && p k) = true := by
    rw [List.mem_filter, List.mem_range, Bool.and_eq_true, decide_eq_true_eq]
    rfl
  simp only [mget, mget?_keys, hm]
  cases decide (k < 192) && p k <;> rfl

/-- Power-on writes no memory: trace and fault log are off, so that the record of a repair map whose signature fails is counted
alone (R380, R403). -/
theorem powerOn_eq (w : Work) (img : BootImage) {held : Bool} (hh : (img.code w.dev.sec.fused != 0) = held) :
    ∃ lost, w.powerOn img = { w with dev := { w.freshDev with
      cores := ((List.range Config.cores).filter fun c => (if held then 0 else (w.repairMap img).1).getLsbD c).map
        fun c => (c, { Core.reset with gated := true })
      hub := { Hub.reset with tickRoot := img.tickRoot, access := if held then [] else imageAccess img }
      tail := { Tailstock.reset with fllost := lost }
      sec := { w.freshDev.sec with
        boot := img.code w.dev.sec.fused, fwDigest := Config.sha512 img.signed
        retired := if held then 0 else (w.repairMap img).1
        nextRetired := (w.repairMap img).1, generation := (w.repairMap img).2
        fused := if !held ∧ w.dev.sec.fused < BitVec.ofNat 64 (img.field 8 8) then BitVec.ofNat 64 (img.field 8 8)
          else w.dev.sec.fused } } } := by
  subst hh
  simp only [Work.powerOn]
  split
  · rw [report_off rfl rfl]
    exact ⟨_, rfl⟩
  · exact ⟨0, rfl⟩

/-- The spaces that a part without power loses: its HBM and everything on the chips; host and peer memory belong to others (log
entry 15). -/
def lostAt (k : Nat) : Bool := [0, 3, 4, 5, 6].any fun j => coversByte j (2 ^ 120) k

theorem byte_loseMemory (w : Work) (k : Nat) : w.loseMemory.byte k = if lostAt k then 0 else w.byte k := Work.byte_zeros w ..

theorem lostAt_iff (k : Nat) : lostAt k = true ↔ k < 2 ^ 123 + k % 8 ∧ k % 8 ≠ 1 ∧ k % 8 ≠ 2 ∧ k % 8 ≠ 7 := by
  simp only [lostAt, coversByte, List.any_cons, List.any_nil, Bool.or_eq_true, Bool.and_eq_true, decide_eq_true_eq, beq_iff_eq,
    Bool.false_eq_true, or_false]
  omega

/-! ### Caps, temperature and gated cores (R400, R402) -/

theorem ofNat_eq_three (v : BitVec 64) : BitVec.ofNat 2 v.toNat = 3 ↔ v.toNat % 4 = 3 := by
  rw [← BitVec.toNat_inj, BitVec.toNat_ofNat]
  rfl

theorem or_decide (b : Bool) (p : Prop) [Decidable p] : (b || decide p) = if p then true else b := by
  by_cases h : p <;> simp [h]

/-- Every core, listed or not, holds nothing in its caches after they all were dropped. -/
theorem core_dropped {s : State} {m : FMap Core} (h : s.dev.cores = m.map fun c => (c.1, c.2.dropCaches)) (k : Nat) :
    (s.core k).l1 = [] ∧ (s.core k).ro = [] ∧ (s.core k).icache = [] ∧ (s.core k).fbufs = [] ∧ (s.core k).tlb = [] := by
  rw [State.core, h]
  exact ⟨mget_map_field m Core.dropCaches k Core.reset (·.l1) rfl, mget_map_field m Core.dropCaches k Core.reset (·.ro) rfl,
    mget_map_field m Core.dropCaches k Core.reset (·.icache) rfl, mget_map_field m Core.dropCaches k Core.reset (·.fbufs) rfl,
    mget_map_field m Core.dropCaches k Core.reset (·.tlb) rfl⟩

/-- The power block after a temperature (R400). -/
def Power.heated (p : Power) (x : BitVec 8) : Power :=
  let q := { p with
    temp := x, tlim := if x.toNat < 85 then false else p.tlim || decide (95 < x.toNat)
    tshut := if x.toNat < 85 then false else p.tshut || decide (105 < x.toNat) }
  { q with target := q.wanted }

/-- THERMAL_THRESHOLD sets the power block, and drops every core's caches above 105 degrees. -/
theorem exec_thermalThreshold_eq (s : State) (x : BitVec 8) : exec (.thermalThreshold x) s = .next { s with dev := { s.dev with
    pow := s.dev.pow.heated x
    cores := if 105 < x.toNat then s.dev.cores.map fun c => (c.1, c.2.dropCaches) else s.dev.cores } } := by
  rw [exec_thermalThreshold]
  refine commit_dev ?_
  simp only [decide_eq_true_eq]
  split <;> rfl

/-! ### Reset, power and clocks settled -/

/-- Settles O58: the state after reset is closed, and its maps are empty. -/
theorem resetState : Obligations.ResetState := by
  unfold Obligations.ResetState
  refine ⟨rfl, fun _ => rfl, fun _ => ⟨rfl, rfl, rfl, rfl, rfl, rfl⟩, rfl, rfl, rfl, rfl, rfl,
    fun _ => ⟨rfl, rfl, rfl, rfl, rfl, rfl, rfl, rfl, rfl⟩, rfl, rfl, rfl, rfl, rfl, rfl⟩

/-- Settles O50: each event's meaning is committed, and the tick goes through its stages. -/
theorem powerAndClocks : Obligations.PowerAndClocks := by
  unfold Obligations.PowerAndClocks
  refine ⟨fun s img => ?_, fun s hs => ?_, fun s h => ?_, fun s hf hp => ?_, fun s v => ?_, fun s x => ?_, fun s h => ?_,
    fun s h => ?_, fun s core => ?_, fun s core => ?_⟩
  -- POWER_ON_RESET
  · obtain ⟨lost, h⟩ := powerOn_eq s.work img rfl
    refine ⟨_, (exec_powerOnReset img s).trans (commit_work h), rfl, rfl, rfl, rfl, rfl, rfl, rfl, rfl, rfl, rfl,
      ite_of_iff ?_ _ _, fun hc => if_neg ?_, fun hc => ⟨if_pos ?_, if_pos ?_⟩, mget_gated _⟩
    · simp [State.work]
    · simp [State.work, hc]
    all_goals simpa [State.work] using hc
  -- POWER_OFF
  · refine ⟨_, (exec_powerOff s).trans (commit_work rfl), rfl, rfl, rfl, rfl, fun k hk h1 h2 h7 => ?_, fun k hk => ?_⟩
    · exact (byte_of_work hs rfl k).trans ((byte_loseMemory _ k).trans (if_pos ((lostAt_iff k).mpr (by omega))))
    · exact (byte_of_work hs rfl k).trans ((byte_loseMemory _ k).trans (if_neg (mt (lostAt_iff k).mp (by omega))))
  -- STATIC_ENERGY_TICK of a part that is frozen or unpowered, and of a running one
  · have hrun : s.work.dev.tail.frozen = true ∨ (!s.work.dev.sys.powered) = true := by simpa [State.work] using h
    exact (exec_staticEnergyTick s).trans (commit_same (if_pos hrun))
  · obtain ⟨w, hw, h⟩ := staticEnergyTick_ticked hf hp
    exact ⟨_, hw, fun hv => by rw [h.log hv]; rfl, h.viols, h.folds, h.gtick, h.tickStep, h.cyc, h.waves, h.runt, h.resident⟩
  -- CAP_WRITE
  · rw [exec_capWrite]
    by_cases h : v.toNat % 4 = 3
    · rw [if_pos h]; exact commit_same (if_pos ((ofNat_eq_three v).2 h))
    · rw [if_neg h]; exact commit_dev (if_neg (mt (ofNat_eq_three v).1 h))
  -- THERMAL_THRESHOLD
  · refine ⟨_, exec_thermalThreshold_eq s x, rfl, rfl, rfl, ?_, ?_, ?_, fun h => core_dropped (if_pos h)⟩
    · exact congrArg (ite _ _) (or_decide ..)
    · exact congrArg (ite _ _) (or_decide ..)
    · rfl
  -- CLOCK_STEP_CHANGE
  · exact (exec_clockStepChange s).trans (commit_same (if_pos h))
  · exact ⟨_, (exec_clockStepChange s).trans (commit_work (if_neg h)), rfl⟩
  -- CORE_GATE and CORE_UNGATE
  · exact (exec_coreGate core s).trans (commit_ite rfl)
  · exact (exec_coreUngate core s).trans (commit_ite (ite_of_iff (and_congr_right fun _ => (Bool.not_eq_true' _).to_iff) _ _))

/-! ### Register writes (R11, log entry 58) -/

/-- A write by function 0 of port 0. -/
theorem exec_registerWrite_port0 {s : State} {a : BitVec 32} (x : BitVec 64) (ha : a.toNat < 2 ^ 30) :
    exec (.registerWrite a x) s = commit (fun w =>
      if !(w.port 0).up ∨ (w.port 0).fn0Frozen then w else w.registerWrite 0 a.toNat x) s := by
  have hn : a.toNat / 2 ^ 31 = 0 := by omega
  have ho : a.toNat % 2 ^ 30 = a.toNat := Nat.mod_eq_of_lt ha
  have hb : a.getLsbD 30 = false := Nat.testBit_lt_two_pow ha
  rw [exec_registerWrite]
  simp only [execRegisterWrite, hn, ho, hb, Bool.false_eq_true, if_false]

/-- Function 0 of a port that works writes the register. -/
theorem exec_registerWrite_up {s : State} {a : BitVec 32} (x : BitVec 64) (ha : a.toNat < 2 ^ 30)
    (hu : (portOf s false).up = true) (hf : (portOf s false).fn0Frozen = false) :
    exec (.registerWrite a x) s = commit (fun w => w.registerWrite 0 a.toNat x) s := by
  have hrun : ¬ ((!(s.work.port 0).up) = true ∨ (s.work.port 0).fn0Frozen = true) := by
    rw [show s.work.port 0 = portOf s false from rfl, hu, hf]; decide
  rw [exec_registerWrite_port0 x ha]
  exact commit_congr (if_neg hrun)

/-- A register whose write changes the device alone. -/
theorem registerWrite_sets {s : State} {a : BitVec 32} {x : BitVec 64} {d : Dev} (hu : (portOf s false).up = true)
    (hf : (portOf s false).fn0Frozen = false) (off : Nat) (ha : a.toNat = off)
    (h : s.work.registerWrite 0 off x = { s.work with dev := d }) (ho : off < 2 ^ 30 := by decide) :
    exec (.registerWrite a x) s = .next { s with dev := d } := by
  subst ha
  rw [exec_registerWrite_up x ho hu hf]
  exact commit_dev (f := fun w => w.registerWrite 0 a.toNat x) h

/-- The debug port writes the Tailstock's registers, and no other. -/
theorem exec_registerWrite_debug {s : State} {off : Nat} (x : BitVec 64) (ho : off < 2 ^ 30) :
    exec (.registerWrite (BitVec.ofNat 32 (2 ^ 30 + off)) x) s =
      commit (fun w => if tailstockReg off then w.registerWrite 0 off x else w) s := by
  have ha : (BitVec.ofNat 32 (2 ^ 30 + off)).toNat = 2 ^ 30 + off := by
    rw [BitVec.toNat_ofNat]; omega
  have hn : (2 ^ 30 + off) / 2 ^ 31 = 0 := by omega
  have hm : (2 ^ 30 + off) % 2 ^ 30 = off := by omega
  have hb : (BitVec.ofNat 32 (2 ^ 30 + off)).getLsbD 30 = true := by
    rw [BitVec.getLsbD, ha, Nat.testBit_two_pow_add_eq, Nat.testBit_lt_two_pow ho]
    rfl
  rw [exec_registerWrite]
  simp only [execRegisterWrite, ha, hn, hm, hb, if_true]

/-- The freeze register (R390): LINKED is set, a 1 in ARM or RESUME starts its step, ARM first, and a 0 in ARM disarms. -/
theorem freezeWrite_dev (w : Work) (x : BitVec 64) : w.freezeWrite x = { w with dev := { w.dev with
    tail := { w.dev.tail with
      linked := x.getLsbD 1, arm := w.dev.tail.arm && x.getLsbD 0, refused := w.dev.tail.refused && x.getLsbD 0 }
    sys := { w.dev.sys with agenda := (if x.getLsbD 0 then [.event (.freezeArm (x.getLsbD 1))] else []) ++
      (if x.getLsbD 3 then [.event .freezeResume] else []) ++ w.dev.sys.agenda } } } := by
  simp only [Work.freezeWrite]
  cases x.getLsbD 0 <;> cases x.getLsbD 3 <;> simp [Work.starts, Work.modTail, Work.modSys, Work.modDev]

/-- The commands of the mailbox (R350) with a context and the upper bits of the register. -/
def mailboxCommands (x : Nat) (c : BitVec 6) : List (Nat × Instr) :=
  [(1, .create c), (2, .destroy c), (3, .suspend c), (4, .resume c), (5, .status c), (16, .setvw (BitVec.ofNat 2 (x / 2 ^ 16)))]

/-- An idle mailbox takes a command: it is busy, and the command is the next step. -/
theorem mailbox_command {w : Work} {x : Nat} {i : Instr} (hb : w.dev.hub.busy = false)
    (hi : (x % 256, i) ∈ mailboxCommands x (BitVec.ofNat 6 (x / 2 ^ 8))) :
    w.mailbox x = (w.modHub fun h => { h with busy := true }).starts i := by
  simp only [mailboxCommands, List.mem_cons, List.not_mem_nil, or_false, Prod.mk.injEq] at hi
  simp only [Work.mailbox, hb, Bool.false_eq_true, if_false]
  rcases hi with ⟨h, rfl⟩ | ⟨h, rfl⟩ | ⟨h, rfl⟩ | ⟨h, rfl⟩ | ⟨h, rfl⟩ | ⟨h, rfl⟩ <;> simp only [h]

/-- A write of the command register by a port with MGMT goes to the mailbox (R349, R374). -/
theorem mailboxWrite_command {w : Work} (x : BitVec 64) (hz : w.dev.tail.frozen = false)
    (hm : (mget w.dev.hub.access (88 * 8 + 64) 0).getLsbD 15 = true)
    (hr : (mget w.dev.hub.access (88 * 8 + 64) 0).getLsbD 3 = true) : w.mailboxWrite 0 8 x = w.mailbox x.toNat := by
  have ho : ¬ 8 = 0 := by decide
  simp only [Work.mailboxWrite, hz, hm, hr, Bool.false_eq_true, Bool.and_self, Bool.not_true, and_false, if_false, ho]

/-! ### Attestation (R399) -/

@[simp] theorem length_leBytes (n x : Nat) : (leBytes n x).length = n := by
  induction n generalizing x with
  | zero => rfl
  | succ n ih => simp [leBytes, ih]

@[simp] theorem Work.length_bytes (w : Work) (k n : Nat) : (w.bytes k n).length = n := by simp [Work.bytes]

/-- The report without its signature has 256 bytes. -/
theorem length_reportBody (w : Work) (ctx : Nat) {nonce : List Byte} (range : List Byte) (va len : Nat)
    (h : nonce.length = 32) : (w.reportBody ctx nonce range va len).length = 256 := by
  simp [Work.reportBody, digestBytes, h]

theorem length_signed {body : List Byte} (x : BitVec 512) (h : body.length = 256) : (body ++ digestBytes x).length = 320 := by
  rw [List.length_append, h, digestBytes, length_leBytes]

/-- What ATTEST answers from what its effect makes. -/
theorem exec_attest_eq {s : State} {ctx : BitVec 6} {r : Nat} {w : Work} (h : s.work.attest ctx.toNat = (r, w)) :
    exec (.attest ctx) s =
      .next ⟨applyLog w.log s.mem, { w.dev with sec := { w.dev.sec with ares := BitVec.ofNat 8 r } }⟩ := by
  rw [exec_attest]
  exact commit_work (w := w.modSec fun x => { x with ares := BitVec.ofNat 8 r }) (by simp only [h])

/-- The request of an attestation: 64 bytes of host memory at AIN. -/
def Work.attestRequest (w : Work) : List Byte := w.bytes (PAddr.host w.dev.sec.ain.toNat).key 64

/-- A request that ATTEST ends with 1: addresses that are not aligned, a bad length, or bytes that are not 0. -/
def Work.badRequest (w : Work) : Prop :=
  w.dev.sec.ain.toNat % 64 ≠ 0 ∨ w.dev.sec.aout.toNat % 64 ≠ 0 ∨ 2 ^ 30 < (le64 w.attestRequest 40).toNat ∨
    leNat (slice w.attestRequest 48 16) ≠ 0

theorem attest_bad {w : Work} {ctx : Nat} (h : w.badRequest) : w.attest ctx = (1, w) := if_pos h

theorem attest_absent {w : Work} {ctx : Nat} (h : ¬ w.badRequest) (hn : mget? w.dev.ctxs ctx = none) : w.attest ctx = (2, w) :=
  (if_neg h).trans (if_pos (by simp [hn]))

theorem attest_unreadable {w : Work} {ctx : Nat} (h : ¬ w.badRequest) (hc : (mget? w.dev.ctxs ctx).isSome = true)
    (hr : w.rawRange ctx (le64 w.attestRequest 32).toNat (le64 w.attestRequest 40).toNat = none) : w.attest ctx = (3, w) := by
  simp only [Work.badRequest, Work.attestRequest] at h hr
  simp only [Work.attest, if_neg h, Option.isNone_eq_false_iff.mpr hc, hr, Bool.false_eq_true, if_false]

theorem attest_signed {w : Work} {ctx : Nat} {bs : List Byte} (h : ¬ w.badRequest) (hc : (mget? w.dev.ctxs ctx).isSome = true)
    (hr : w.rawRange ctx (le64 w.attestRequest 32).toNat (le64 w.attestRequest 40).toNat = some bs) :
    let body := w.reportBody ctx (slice w.attestRequest 0 32) bs (le64 w.attestRequest 32).toNat (le64 w.attestRequest 40).toNat
    w.attest ctx = (0, w.putBytes (PAddr.host w.dev.sec.aout.toNat).key
      (body ++ digestBytes (Config.signIdentity (Config.sha512 body)))) := by
  simp only [Work.badRequest, Work.attestRequest] at h hr ⊢
  simp only [Work.attest, if_neg h, Option.isNone_eq_false_iff.mpr hc, hr, Bool.false_eq_true, if_false]

/-- ATTEST changes nothing, or writes the signed report to host memory at AOUT. -/
theorem attest_writes (w : Work) (ctx : Nat) :
    ∃ r bs, w.attest ctx = (r, w.putBytes (PAddr.host w.dev.sec.aout.toNat).key bs) := by
  simp only [Work.attest]
  split
  · exact ⟨_, [], rfl⟩
  · split
    · exact ⟨_, [], rfl⟩
    · split
      · exact ⟨_, [], rfl⟩
      · exact ⟨_, _, rfl⟩

theorem not_coversByte_host {a n k : Nat} (hk : k % 8 ≠ 1) : coversByte (PAddr.host a).key n k = false := by
  simp only [coversByte, PAddr.key, Bool.and_eq_false_iff, beq_eq_false_iff_ne]
  omega

/-! ### Registers and attestation settled -/

/-- Settles O54: a write is answered by the port or the debug port, and sets its field or starts its step; ATTEST ends at the first
of its checks that fails, or writes the report. -/
theorem registersAndAttestation : Obligations.RegistersAndAttestation := by
  unfold Obligations.RegistersAndAttestation
  refine ⟨fun s a x ha hn => ?_, fun s x => ⟨?_, ?_⟩, fun s x off ho => ⟨fun ht hu hf => ?_, fun ht => ?_⟩,
    fun s x hu hf => ?_, fun s x i hu hf hz hb hm hr hi => ?_,
    fun s ctx hs => ?_, fun s ctx bs hs hin hout => ?_, fun s ctx => ?_⟩
  -- a port that does not work, or that is frozen
  · have hstop : (!(s.work.port 0).up) = true ∨ (s.work.port 0).fn0Frozen = true := by
      simpa [Work.port, State.work, portOf, portNo, b2n] using hn
    exact (exec_registerWrite_port0 x ha).trans (commit_same (if_pos hstop))
  -- the debug port
  · exact (exec_registerWrite_debug (off := 0x1008) x (by decide)).trans (commit_dev rfl)
  · exact (exec_registerWrite_debug (off := 0x1088) x (by decide)).trans (commit_dev rfl)
  · have hr : tailstockReg off = true := by simpa [tailstockReg] using ht
    have ha : (BitVec.ofNat 32 off).toNat = off := by rw [BitVec.toNat_ofNat]; omega
    rw [exec_registerWrite_debug x ho, exec_registerWrite_up x (by omega) hu hf, ha]
    exact commit_congr (if_pos hr)
  · have hr : ¬ tailstockReg off = true := by
      simp only [tailstockReg, Bool.or_eq_true, Bool.and_eq_true, decide_eq_true_eq]; omega
    exact (exec_registerWrite_debug x ho).trans (commit_same (if_neg hr))
  -- each register of the part
  · exact ⟨registerWrite_sets hu hf 0x1008 rfl rfl,
      registerWrite_sets hu hf 0x1010 rfl rfl,
      registerWrite_sets hu hf 0x1028 rfl rfl,
      registerWrite_sets hu hf 0x1030 rfl rfl,
      registerWrite_sets hu hf 0x1040 rfl rfl,
      registerWrite_sets hu hf 0x1050 rfl rfl,
      registerWrite_sets hu hf 0x1088 rfl rfl,
      registerWrite_sets hu hf 0x1090 rfl rfl,
      registerWrite_sets hu hf 0x2008 rfl rfl,
      registerWrite_sets hu hf 0x2010 rfl rfl,
      registerWrite_sets hu hf 0x1000 rfl rfl,
      registerWrite_sets hu hf 0x3000 rfl rfl,
      registerWrite_sets hu hf 0x1038 rfl (freezeWrite_dev _ x)⟩
  -- the mailbox
  · have h8 : s.work.registerWrite 0 8 x = s.work.mailboxWrite 0 8 x := rfl
    have hgo := (h8.trans (mailboxWrite_command x hz hm hr)).trans (mailbox_command hb hi)
    exact registerWrite_sets hu hf 8 rfl hgo
  -- ATTEST: its frame, a sound request, and the codes of the others
  · obtain ⟨r, bs, h⟩ := attest_writes s.work ctx.toNat
    refine ⟨_, _, exec_attest_eq h, by rw [Work.putBytes_dev]; rfl, fun k hk => ?_⟩
    refine (byte_of_work hs (Work.putBytes_base ..) k).trans ?_
    rw [Work.byte_putBytes, not_coversByte_host hk]
    rfl
  · intro q hz hlen hctx hr body
    have hgood : ¬ s.work.badRequest := by
      rintro (h | h | h | h)
      · exact h hin
      · exact h hout
      · exact Nat.not_lt.mpr hlen h
      · exact h hz
    refine ⟨_, exec_attest_eq (attest_signed hgood hctx hr), by rw [Work.putBytes_dev]; rfl, fun k => ?_⟩
    refine (byte_of_work hs (Work.putBytes_base ..) k).trans ?_
    rw [Work.byte_putBytes, length_signed _ (length_reportBody _ _ _ _ _ (by simp [slice, Work.attestRequest]))]
    rfl
  · intro q va len bad ends
    exact ⟨fun h => exec_attest_eq (attest_bad h), fun h hn => exec_attest_eq (attest_absent h hn),
      fun h hx hn => exec_attest_eq (attest_unreadable h hx hn)⟩

end Sys2Proof.Machine
